-- ==== Sys2Proof/Word.lean ====
section
/-! DEFINITION. The plain word types of the model: bytes, node IDs, degrees and moments of the 1 ms tick. -/

namespace Sys2Proof

/-- One byte of a supervisory frame (01, R1). -/
abbrev Byte := BitVec 8

/-- A node ID, or 0 or 65535 where a field allows them (00, Conventions).
A plain number: the manual adds, subtracts and compares node IDs and never masks them. -/
abbrev NodeId := Nat

/-- One of the eight degrees D0 to D7 (00, Conventions). -/
abbrev Degree := Fin 8

/-- A moment of the part's 1 ms tick, counted from the last power-on or pin reset (00, Time). -/
abbrev Moment := Nat

end Sys2Proof
end

