-- ==== Sys2Proof/Syntax.lean ====
section
/-! DEFINITION. The commands of the block: one constructor of `Instr` for each row of spec/opcode_table.json, with the
row's operands, and the types of those operands (frame bodies, management arguments, start-image records). -/

namespace Sys2Proof

/-! ## Ports, keys and slot maps -/

/-- One of the nine frame ports: a degree port D0 to D7 or the node port NP (00, Degrees and ports). -/
inductive Port where
  | deg (d : Degree)
  | np
  deriving DecidableEq, Repr

/-- A link key: origin node ID and link number (00, Link keys). -/
structure LinkKey where
  origin : NodeId
  num : Nat
  deriving DecidableEq, Repr

/-- The key of a record of either table: a node ID or a link key (R94). -/
inductive RecordKey where
  | node (id : NodeId)
  | link (key : LinkKey)
  deriving DecidableEq, Repr

/-- The state of one slot in an advertised or committed slot map (00, Slot states). -/
inductive SlotState where
  | free
  | used
  | blocked
  deriving DecidableEq, Repr

/-- A map of 384 slots.  Bit n of each half is slot n.  The two halves are kept disjoint by every builder of the model
(`SlotMap.make`), so that equal maps are equal data (R4, R46, R59, R88). -/
structure SlotMap where
  used : BitVec 384
  blocked : BitVec 384
  deriving DecidableEq, Repr

/-! ## Frame bodies -/

/-- The body of a GREET (R26). -/
structure GreetBody where
  senderNode : NodeId
  senderDegree : Nat
  senderDomain : Nat
  seen : NodeId
  deriving DecidableEq, Repr

/-- The part of an ADVERT body that depends on its record kind (R4).  The two maps of a link are the bits as they
stand in the frame: slots for domain 0, native channels for a foreign domain. -/
inductive AdvertRecord where
  | node (regen transit : Nat)
  | link (num far : Nat) (farFlags : BitVec 8) (farNum cost imp : Nat) (used blocked : BitVec 384)
  deriving DecidableEq, Repr

/-- An ADVERT body (R4).  The two native IDs are read only when `domain` is not 0. -/
structure AdvertBody where
  domain : Nat
  origin : NodeId
  seq : Nat
  age : Nat
  record : AdvertRecord
  nativeOrigin : Nat
  nativeFar : Nat
  deriving DecidableEq, Repr

/-- One entry of a TALLY: the summary of one origin (R96, R97). -/
structure TallyEntry where
  origin : NodeId
  highest : Nat
  count : Nat
  sum : Nat
  deriving DecidableEq, Repr

/-- A TALLY body: the summaries of the origins from `first` to `last` (R97). -/
structure TallyBody where
  first : NodeId
  last : NodeId
  entries : List TallyEntry
  deriving DecidableEq, Repr

/-- A ROUTEQ body (R5).  Class and kind are the raw codes.  Flags: bit 0 HOLD, bit 1 REGEN_ALLOWED, bit 2
NODE_DISJOINT, bit 3 SLOT_RANGE.  The byte the manual calls ignored is not kept. -/
structure RouteqBody where
  tag : Nat
  cls : Nat
  kind : Nat
  flags : BitVec 8
  width : Nat
  src : NodeId
  dst : NodeId
  maxHops : Nat
  budget : Nat
  excludeMask : BitVec 16
  waypoint : NodeId
  rangeFirst : Nat
  rangeLast : Nat
  deriving DecidableEq, Repr

/-- One hop of a path block: link key and the 16-bit start-slot field as sent (R6). -/
structure HopField where
  key : LinkKey
  startField : Nat
  deriving DecidableEq, Repr

/-- One path block of a ROUTEA: total cost and hops (R6). -/
structure PathBlock where
  cost : Nat
  hops : List HopField
  deriving DecidableEq, Repr

/-- A ROUTEA body.  The outcome is the raw code, because a relayed outcome is carried as received (R6, R138). -/
structure RouteaBody where
  tag : Nat
  outcome : Nat
  gen : Nat
  paths : List PathBlock
  deriving DecidableEq, Repr

/-- A link key with a slot run, as FAULTREP, EXCLUDE_ADD and EXCLUDE_REMOVE carry it (R75, R78). -/
structure SlotRun where
  key : LinkKey
  first : Nat
  count : Nat
  deriving DecidableEq, Repr

/-- A SLOTMAP body: a degree and the two maps as sent (R88). -/
structure SlotmapBody where
  degree : Nat
  used : BitVec 384
  blocked : BitVec 384
  deriving DecidableEq, Repr

/-- A frame whose body is kept as bytes: a transit frame or a frame delivered to NP.  The version is 1 and the CRC is
the one computed over header and body, since both passed the input checks (R1, R8). -/
structure RawFrame where
  kind : Nat
  hop : Nat
  flags : BitVec 8
  src : NodeId
  dst : NodeId
  body : List Byte
  deriving DecidableEq, Repr

/-- A frame of TRANSIT_FRAME or DELIVERED_TO_NP: the input port and the frame (R11, R15, R20). -/
structure Arrival where
  port : Port
  frame : RawFrame
  deriving DecidableEq, Repr

/-! ## Management operands -/

/-- The four lock groups (R210). -/
inductive LockGroup where
  | identity
  | adjacency
  | solver
  | domain
  deriving DecidableEq, Repr

/-- The parameters of the parameter table (R208). -/
inductive ParamId where
  | nodeId
  | managerEntry
  | noticeDest
  | greetInterval
  | deadCount
  | qualifyCount
  | adjHoldTime
  | retrigger
  | degreeCost
  | degreeImpairment
  | regenCount
  | transitAllowed
  | refreshInterval
  | tallyInterval
  | pullWait
  | settleCount
  | autoCommit
  | regenPenalty
  | resultHoldTime
  | claimTimeout
  | referralWait
  | reportedLifetime
  deriving DecidableEq, Repr

/-- The tables TABLE_READ names (R212). -/
inductive TableId where
  | nodes
  | links
  | exclusions
  | incomplete
  | adjacency
  | domains
  | delegation
  | flood
  | slotMaps
  | forwarding
  | changedLinks
  | requests
  | referrals
  | lanes
  | results
  | holds
  | expired
  | sources
  | watches
  deriving DecidableEq, Repr

/-- The mode of a watch (R197). -/
inductive WatchMode where
  | any
  | all
  deriving DecidableEq, Repr

/-- The configurable fields of a domain entry (R42, R53). -/
structure DomainFields where
  valid : Bool
  nativeBase : Nat
  nodeBase : Nat
  nodeLimit : Nat
  gridRatio : Nat
  gridOffset : Nat
  costScale : Nat
  impScale : Nat
  deriving DecidableEq, Repr

/-- The arguments of WATCH_WRITE; a mode of `none` is a mode other than ANY or ALL, and the key count is the length
of `keys` (R197). -/
structure WatchArgs where
  index : Nat
  mode : Option WatchMode
  keys : List LinkKey
  deriving DecidableEq, Repr

/-- The arguments of READ_PARAM and the target of WRITE_PARAM: a parameter (`none`: one CFU does not know) and the
degree or manager entry where one is given (R209). -/
structure ParamTarget where
  param : Option ParamId
  sel : Option Nat
  deriving DecidableEq, Repr

/-- Where an MGMTQ came from: arrival port, header source node and tag (R12, R206). -/
structure MgmtFrom where
  port : Port
  src : NodeId
  tag : Nat
  deriving DecidableEq, Repr

/-- A management command with its arguments (R206).  `none` for a group or a table is one CFU does not know. -/
inductive MgmtCmd where
  | readParam (t : ParamTarget)
  | writeParam (t : ParamTarget) (value : Nat)
  | lockGroup (g : Option LockGroup)
  | degreeEnable (d : Nat)
  | degreeDisable (d : Nat)
  | domainWrite (entry : Nat) (f : DomainFields)
  | domainRelease (entry : Nat)
  | delegateWrite (domain : Nat) (peer : NodeId)
  | excludeAdd (r : SlotRun)
  | excludeRemove (r : SlotRun)
  | watchWrite (w : WatchArgs)
  | noticeEnable (mask : BitVec 16)
  | noticeClear (mask : BitVec 16)
  | commit
  | freeze
  | thaw
  | status
  | tableRead (t : Option TableId) (start count : Nat)
  | flush
  | softReset
  deriving DecidableEq, Repr

/-- What CFU reads from the command and argument bytes of an MGMTQ: a command it does not know, arguments of the wrong
length or form, or a command (R206, checks 4 and 5). -/
inductive MgmtRequest where
  | unknownCommand
  | badForm
  | command (c : MgmtCmd)
  deriving DecidableEq, Repr, Inhabited

/-! ## The start image -/

/-- A record of the start image (R204). -/
inductive ImageRecord where
  | parameter (t : ParamTarget) (value : Nat)
  | degreeEnable (members : List Degree)
  | domainEntry (entry : Nat) (f : DomainFields)
  | delegation (domain : Nat) (peer : NodeId)
  | exclusion (r : SlotRun)
  | noticeEnable (mask : BitVec 16)
  | watch (w : WatchArgs)
  | locks (groups : List LockGroup)
  deriving DecidableEq, Repr

/-- A record as the loader read it: its bytes in the memory and what they say, `none` for a kind the loader does not know
(R203).  The manual gives no layout of a record, so the sender gives both (log 25). -/
structure ImageEntry where
  bytes : List Byte
  content : Option ImageRecord
  deriving DecidableEq, Repr

/-- What the serial memory gave the loader (R203): of an image its records, the bytes of its end record and its CRC field. -/
inductive MemoryRead where
  | noAnswer
  | erased
  | stopsAnswering
  | image (records : List ImageEntry) (ending : List Byte) (crc : BitVec 32)
  deriving DecidableEq, Repr

/-- One of the two lanes of the route solver (R143). -/
inductive LaneId where
  | l0
  | l1
  deriving DecidableEq, Repr

/-! ## The commands -/

/-- The commands and events of the block, in the order of spec/opcode_table.json. -/
inductive Instr where
  /-- Power-on reset (R203). -/
  | powerOnReset
  /-- Release of the reset pin (R203). -/
  | pinReset
  /-- The start-image loader completes with what it read (R203 to R205). -/
  | imageLoad (m : MemoryRead)
  /-- A port delivers a frame whole, as bytes (R8). -/
  | frameArrival (p : Port) (bytes : List Byte)
  /-- Frames addressed to other nodes that reach the switch together (R15, R20). -/
  | transitFrame (arrivals : List Arrival)
  /-- A frame on a degree that is delivered to NP, and the others that reach the switch together with it (R11, R20). -/
  | deliveredToNp (first : Arrival) (others : List Arrival)
  /-- A GREET received on a degree (R28). -/
  | greet (d : Degree) (g : GreetBody)
  /-- An ADVERT received on a degree (R90). -/
  | advert (d : Degree) (a : AdvertBody)
  /-- A TALLY received on a degree (R98). -/
  | tally (d : Degree) (t : TallyBody)
  /-- A PULL received on a degree (R102). -/
  | pull (d : Degree) (origins : List NodeId)
  /-- A ROUTEQ addressed to this part (R124). -/
  | routeq (p : Port) (src : NodeId) (q : RouteqBody)
  /-- A ROUTEA addressed to this part (R138). -/
  | routea (p : Port) (src : NodeId) (a : RouteaBody)
  /-- A CLAIM addressed to this part (R179). -/
  | claim (p : Port) (src : NodeId) (tag : Nat)
  /-- A RELEASE addressed to this part (R133). -/
  | release (p : Port) (src : NodeId) (tag : Nat)
  /-- A FAULTREP addressed to this part (R78). -/
  | faultrep (p : Port) (r : SlotRun)
  /-- A SLOTMAP addressed to this part (R88). -/
  | slotmap (p : Port) (m : SlotmapBody)
  /-- READ_PARAM (R209). -/
  | readParam (m : MgmtFrom) (t : ParamTarget)
  /-- WRITE_PARAM (R209). -/
  | writeParam (m : MgmtFrom) (t : ParamTarget) (value : Nat)
  /-- LOCK_GROUP (R210). -/
  | lockGroup (m : MgmtFrom) (g : Option LockGroup)
  /-- DEGREE_ENABLE (R37). -/
  | degreeEnable (m : MgmtFrom) (d : Nat)
  /-- DEGREE_DISABLE (R36). -/
  | degreeDisable (m : MgmtFrom) (d : Nat)
  /-- DOMAIN_WRITE (R53). -/
  | domainWrite (m : MgmtFrom) (entry : Nat) (f : DomainFields)
  /-- DOMAIN_RELEASE (R54). -/
  | domainRelease (m : MgmtFrom) (entry : Nat)
  /-- DELEGATE_WRITE (R134). -/
  | delegateWrite (m : MgmtFrom) (domain : Nat) (peer : NodeId)
  /-- EXCLUDE_ADD (R77). -/
  | excludeAdd (m : MgmtFrom) (r : SlotRun)
  /-- EXCLUDE_REMOVE (R79). -/
  | excludeRemove (m : MgmtFrom) (r : SlotRun)
  /-- WATCH_WRITE (R197). -/
  | watchWrite (m : MgmtFrom) (w : WatchArgs)
  /-- NOTICE_ENABLE (R195). -/
  | noticeEnable (m : MgmtFrom) (mask : BitVec 16)
  /-- NOTICE_CLEAR (R196). -/
  | noticeClear (m : MgmtFrom) (mask : BitVec 16)
  /-- COMMIT (R119). -/
  | commit (m : MgmtFrom)
  /-- FREEZE (R117). -/
  | freeze (m : MgmtFrom)
  /-- THAW (R118). -/
  | thaw (m : MgmtFrom)
  /-- STATUS (R211). -/
  | status (m : MgmtFrom)
  /-- TABLE_READ (R212). -/
  | tableRead (m : MgmtFrom) (t : Option TableId) (start count : Nat)
  /-- FLUSH (R213). -/
  | flush (m : MgmtFrom)
  /-- SOFT_RESET (R214). -/
  | softReset (m : MgmtFrom)
  /-- A transceiver accepts the frame on offer (R21). -/
  | frameSent (p : Port)
  /-- The head of an own-frame backlog claims room (R18). -/
  | backlogHeadClaim (p : Port)
  /-- The frame FLE has ready for a degree claims room (R95). -/
  | fleFrameClaim (d : Degree)
  /-- A greet timer expires (R27). -/
  | greetTimerExpiry (d : Degree)
  /-- A dead timer expires (R30 to R32). -/
  | deadTimerExpiry (d : Degree)
  /-- A hold timer expires (R33). -/
  | holdTimerExpiry (d : Degree)
  /-- A hold limit expires (R33). -/
  | holdLimitExpiry (d : Degree)
  /-- The age clock expires (R67). -/
  | ageClockExpiry
  /-- The age remaining of a record has reached 0 (R68). -/
  | ageExpiry (k : RecordKey)
  /-- The linger remaining of a record has reached 0 (R70). -/
  | lingerExpiry (k : RecordKey)
  /-- The lifetime of a REPORTED exclusion has reached 0 (R79). -/
  | exclusionLifetimeExpiry (r : SlotRun)
  /-- The refresh timer expires (R87). -/
  | refreshTimerExpiry
  /-- A tally timer expires (R97). -/
  | tallyTimerExpiry (d : Degree)
  /-- The deadline of a pull-list entry expires (R101). -/
  | pullDeadlineExpiry (d : Degree) (origin : NodeId)
  /-- The check timer expires in SETTLING (R110, R111). -/
  | quietCheck
  /-- The auto-commit timer expires (R107). -/
  | autoCommitTimerExpiry
  /-- The promotion (R113). -/
  | promotion
  /-- Dispatch of the head of the request queue (R129). -/
  | dispatch
  /-- A lane's computation completes (R160). -/
  | completion (l : LaneId)
  /-- The tree build completes (R167). -/
  | treeBuildCompletion
  /-- The deadline of a referral entry expires (R139). -/
  | referralDeadlineExpiry (index : Nat)
  /-- The hold deadline of a HELD result expires (R181). -/
  | holdDeadlineExpiry (index : Nat)
  /-- The claim deadline of a CLAIMED result expires (R183). -/
  | claimDeadlineExpiry (index : Nat)
  /-- A port's transceiver becomes ready (R21). -/
  | transceiverReady (p : Port)
  deriving DecidableEq, Repr

end Sys2Proof
end

