-- ==== Sys2Proof/Decode.lean ====
section
/-! DEFINITION. Commands spelled by the table's bits.  The table of commands gives no row any bits: the block's commands are
frames, expiries and events, not words. -/

namespace Sys2Proof

/-- The command a word spells: none, whatever the word. -/
def decodeTableWord (_nbits _w : Nat) : Option Instr := none

end Sys2Proof
end

