-- ==== Sys2Proof/Config.lean ====
section
/-! DEFINITION. The fixed sizes of the part and the free values: what the manual leaves open, as constants with no
body, so that nothing can be proved about which value they have. -/

namespace Sys2Proof.Config

/-! ## Sizes (00, What the part is for; each with the rule that gives it) -/

/-- Node table (R58). -/
def nodeTableSize : Nat := 256
/-- Link table (R59). -/
def linkTableSize : Nat := 2048
/-- Node records other than the own node record (R63). -/
def otherNodeLimit : Nat := 255
/-- Link records other than own link records (R63). -/
def otherLinkLimit : Nat := 2040
/-- INCOMPLETE origin list (R65). -/
def incompleteSize : Nat := 32
/-- Exclusion list (R75). -/
def exclusionSize : Nat := 128
/-- Degree output queue and its passing limit (R17). -/
def degreeQueueSize : Nat := 24
def degreePassingLimit : Nat := 20
/-- NP output queue and its passing limit (R17). -/
def npQueueSize : Nat := 32
def npPassingLimit : Nat := 28
/-- Own-frame backlog of each port (R18). -/
def backlogSize : Nat := 8
/-- Entries of a TALLY frame (R97). -/
def tallyEntries : Nat := 80
/-- Pull list of a degree (R99). -/
def pullListSize : Nat := 32
/-- Request queue with the requests on lanes (R127). -/
def requestLimit : Nat := 64
/-- Referral list (R136). -/
def referralSize : Nat := 16
/-- Results table (R171). -/
def resultSize : Nat := 64
/-- Hold table (R172). -/
def holdSize : Nat := 512
/-- Expired list (R173). -/
def expiredSize : Nat := 16
/-- The last live value of the own sequence counter (R83). -/
def lastSequence : Nat := 0xFFFFFFF0
/-- The last generation (R115). -/
def lastGeneration : Nat := 0xFFFFFFFF
/-- Linger of a withdrawn record, in seconds (R69). -/
def lingerSeconds : Nat := 60
/-- Age of an ACTIVE own record, in seconds (R85). -/
def fullAge : Nat := 3600
/-- The start image, in bytes (R203). -/
def imageSize : Nat := 4096
/-- Period of the age clock, in ms (R67). -/
def ageClockPeriod : Nat := 1000
/-- Period of the check timer, in ms (R106). -/
def checkPeriod : Nat := 100

/-! ## Free values -/

/-- FREE VALUE (assumption log 3).  The manual names the commands and arguments of an MGMTQ but gives no command codes
and no argument layout.  What CFU reads from a command byte and argument bytes that arrive as raw bytes is therefore
uninterpreted. -/
opaque mgmtRequest : Byte → List Byte → MgmtRequest

/-- FREE VALUE (assumption log 4).  How many whole entries of a table fit in an MGMTA body of 1000 bytes depends on entry
layouts the manual does not give (R212).  The arguments are the table, the start index and a counter that no two
reads share. -/
opaque entriesThatFit : TableId → Nat → Nat → Nat

/-- FREE VALUE (assumption log 19).  Whether a transceiver is ready again at once when it has accepted a frame: the pin is the
transceiver's, and R21 does not say.  The argument is a counter that no two acceptances share. -/
opaque readyAfterSent : Nat → Bool

end Sys2Proof.Config
end

