-- ==== Sys2Proof/Machine/State.lean ====
section
/-! DEFINITION. The state of the part, block by block as the manual lists its eleven blocks (00, Block diagram), with
the frames it queues, the reasons a step can stop, and the state right after a power-on reset. -/

namespace Sys2Proof.Machine

/-! ## ADM: adjacencies (02) -/

/-- The six adjacency states (R24). -/
inductive AdjState where
  | disabled
  | down
  | detect
  | qualify
  | up
  | hold
  deriving DecidableEq, Repr

/-- The neighbour record of a degree (R25). -/
structure Neighbour where
  node : NodeId
  degree : Nat
  domain : Nat
  counter : Nat
  lastGreet : Option Moment
  deriving DecidableEq, Repr

/-- The adjacency of one degree: state, degree enable, neighbour record, and the moments at which the four timers
expire, absent while a timer is stopped (R24, R25, R36). -/
structure Adjacency where
  state : AdjState
  enable : Bool
  nbr : Option Neighbour
  greetTimer : Option Moment
  deadTimer : Option Moment
  holdTimer : Option Moment
  holdLimit : Option Moment
  deriving DecidableEq, Repr

/-! ## DTU: the domain table (03) -/

/-- Fault state of a domain entry (R42, R49). -/
inductive FaultState where
  | clean
  | warned
  | faulted
  | quarantined
  deriving DecidableEq, Repr

/-- Kind of a translation fault (R47). -/
inductive FaultKind where
  | none
  | unmapped
  | range
  | grid
  deriving DecidableEq, Repr

/-- One entry of the domain table (R42). -/
structure DomainEntry where
  fields : DomainFields
  state : FaultState
  outstanding : Bool
  lastFault : FaultKind
  deriving DecidableEq, Repr

/-! ## TDB: the topology database (04) -/

/-- State of a node part or link part (R58, R59). -/
inductive PartState where
  | active
  | withdrawn
  deriving DecidableEq, Repr

/-- A committed or pending part: sequence, state and content (R58, R59). -/
structure Part (α : Type) where
  seq : Nat
  state : PartState
  content : α
  deriving DecidableEq, Repr

/-- The source degree of a node part (R58). -/
inductive SourceDegree where
  | degree (d : Degree)
  | own
  deriving DecidableEq, Repr

/-- The content of a node part (R58). -/
structure NodeContent where
  regen : Nat
  transit : Bool
  source : SourceDegree
  deriving DecidableEq, Repr

/-- The content of a link part (R59). -/
structure LinkContent where
  far : NodeId
  farNum : Option Nat
  cost : Nat
  imp : Nat
  slots : SlotMap
  deriving DecidableEq, Repr

/-- What a node record and a link record have in common: domain, native identifier, the two parts, age and linger
(R58, R59). -/
structure Versions (α : Type) where
  domain : Nat
  native : Option Nat
  committed : Option (Part α)
  pending : Option (Part α)
  age : Nat
  linger : Option Nat
  deriving DecidableEq, Repr

/-- A record of the node table (R58). -/
structure NodeRec where
  id : NodeId
  ver : Versions NodeContent
  incomplete : Bool
  deriving DecidableEq, Repr

/-- A record of the link table (R59). -/
structure LinkRec where
  key : LinkKey
  ver : Versions LinkContent
  deriving DecidableEq, Repr

/-- Origin of an exclusion entry (R75). -/
inductive ExclusionOrigin where
  | loaded
  | reported
  deriving DecidableEq, Repr

/-- An entry of the exclusion list (R75).  `stamp` orders the addition among the part's events, as R161 needs it. -/
structure Exclusion where
  run : SlotRun
  origin : ExclusionOrigin
  lifetime : Option Nat
  addedAt : Moment
  stamp : Nat
  deriving DecidableEq, Repr

/-- TDB's state.  A table is the list of its present records, each with its index, indices rising; an index not listed
is free (R58, R59).  `ageClock` is the moment of the age clock's next expiry (R67). -/
structure Tdb where
  nodes : List (Nat × NodeRec)
  links : List (Nat × LinkRec)
  incomplete : List NodeId
  exclusions : List Exclusion
  ageClock : Moment
  deriving DecidableEq, Repr

/-! ## FLE: flooding (05) -/

/-- An entry of a pull list (R99). -/
structure PullEntry where
  origin : NodeId
  highest : Nat
  count : Nat
  sum : Nat
  deadline : Moment
  deriving DecidableEq, Repr

/-- FLE's state for one degree: send list, pull list in the order created, waiting PULL in ascending order, the cursor
of a tally round in progress, and the tally timer (R94, R97, R99, R100).  The frame FLE has ready is the choice of
R95 among these and is built when it is admitted, so it has no storage of its own. -/
structure FleDegree where
  sendList : List RecordKey
  pulls : List PullEntry
  waiting : List NodeId
  round : Option NodeId
  tallyTimer : Option Moment
  deriving DecidableEq, Repr

/-- FLE's state (R83, R87, R88, R104). -/
structure Fle where
  seq : Nat
  degrees : Vector FleDegree 8
  slotMaps : Vector SlotMap 8
  refreshTimer : Option Moment
  deriving DecidableEq, Repr

/-! ## CMC: the commit controller (06) -/

inductive CommitState where
  | idle
  | settling
  | draining
  deriving DecidableEq, Repr

inductive DrainMode where
  | normal
  | urgent
  deriving DecidableEq, Repr

/-- CMC's state (R106, R107). -/
structure Cmc where
  state : CommitState
  mode : DrainMode
  forced : Bool
  gen : Nat
  normalReq : Bool
  urgentReq : Bool
  freeze : Bool
  settle : Nat
  checks : Nat
  changed : Bool
  changedLinks : List LinkKey
  checkTimer : Option Moment
  autoTimer : Option Moment
  deriving DecidableEq, Repr

/-! ## RQU: path requests (07) -/

/-- A path request in the queue or on a lane (R128). -/
structure Request where
  requester : NodeId
  body : RouteqBody
  retries : Nat
  admission : Nat
  deriving DecidableEq, Repr

/-- A used entry of the referral list; the referral tag is the entry's index (R136). -/
structure Referral where
  requester : NodeId
  tag : Nat
  peer : NodeId
  holdAsked : Bool
  deadline : Moment
  deriving DecidableEq, Repr

/-- RQU's state.  `delegation` has an entry for each domain number; entry 0 is never written (R134).  `admitted` counts
the admissions and gives each its admission number (R128). -/
structure Rqu where
  queue : List Request
  referrals : Vector (Option Referral) 16
  cursor : Nat
  delegation : Vector NodeId 16
  admitted : Nat
  deriving DecidableEq, Repr

/-! ## RSV: the route solver (08) -/

/-- A slot run held, as a computation captures it (R146). -/
structure HeldRun where
  key : LinkKey
  start : Nat
  width : Nat
  deriving DecidableEq, Repr

/-- What a computation captures at its start (R146).  `stamp` orders the start among the part's events. -/
structure Capture where
  gen : Nat
  exclusions : List SlotRun
  holds : List HeldRun
  penalty : Nat
  startedAt : Moment
  stamp : Nat
  deriving DecidableEq, Repr

/-- What a lane is doing (R143). -/
inductive Work where
  | idle
  | computing (req : Request) (cap : Capture)
  | tree (gen : Nat)
  deriving DecidableEq, Repr

/-- How a lane's work ended (R145). -/
inductive WorkEnd where
  | found
  | noRoute
  | noDisjoint
  | noSpectrum
  | overBudget
  | unknownNode
  | excluded
  | aborted
  | tree
  deriving DecidableEq, Repr

/-- An entry of a lane's outcome history (R145). -/
structure HistoryEntry where
  ended : WorkEnd
  gen : Nat
  deriving DecidableEq, Repr

/-- A lane: its work and its history of two, each absent for NONE (R143, R145). -/
structure Lane where
  work : Work
  current : Option HistoryEntry
  previous : Option HistoryEntry
  deriving DecidableEq, Repr

/-- RSV's state.  `treeJob` is a tree-build job handed over and not yet started (R129, R165). -/
structure Rsv where
  l0 : Lane
  l1 : Lane
  treeJob : Option Nat
  deriving DecidableEq, Repr

/-! ## SHU: results and holds (09) -/

/-- One hop of a result's path (R159). -/
structure Hop where
  key : LinkKey
  start : Nat
  regen : Bool
  deriving DecidableEq, Repr

/-- A path of a result (R159). -/
structure PathResult where
  cost : Nat
  hops : List Hop
  deriving DecidableEq, Repr

inductive ResultState where
  | held
  | claimed
  deriving DecidableEq, Repr

/-- An entry of the results table (R171).  `pair` is the kind. -/
structure Result where
  requester : NodeId
  tag : Nat
  pair : Bool
  gen : Nat
  state : ResultState
  paths : List PathResult
  holdCount : Nat
  holdDeadline : Option Moment
  claimDeadline : Option Moment
  deriving DecidableEq, Repr

/-- An entry of the hold table (R172). -/
structure Hold where
  run : HeldRun
  result : Nat
  deriving DecidableEq, Repr

/-- SHU's state; tables list their used indices, rising (R171, R172, R173). -/
structure Shu where
  results : List (Nat × Result)
  holds : List (Nat × Hold)
  expired : List (NodeId × Nat)
  deriving DecidableEq, Repr

/-! ## NTU: notices and watches (10) -/

/-- The thirteen notice sources, in number order (R191). -/
inductive NoticeId where
  | start
  | adjacency
  | domainFault
  | domainWarn
  | tableFull
  | commit
  | watch
  | exclusion
  | referral
  | claimUnseen
  | frameError
  | congestion
  | sequence
  deriving DecidableEq, Repr

/-- The detail members of all sources (R191). -/
inductive Member where
  | absent
  | invalid
  | degree (d : Degree)
  | domain (n : Nat)
  | nodeTable
  | linkTable
  | forced
  | urgent
  | watch (i : Nat)
  | added
  | full
  | late
  | unreachable
  | port (p : Port)
  | queueFull
  | noRoute
  | jumped
  | exhausted
  deriving DecidableEq, Repr

/-- A notice source (R191).  The detail is a set, kept as a list in one order without repeats; `gen` is the generation
in the detail of COMMIT (R199). -/
structure NoticeSource where
  enable : Bool
  pending : Bool
  overrun : Bool
  sent : Bool
  detail : List Member
  gen : Option Nat
  deriving DecidableEq, Repr

/-- A watch that is not empty (R197). -/
structure Watch where
  mode : WatchMode
  keys : List LinkKey
  deriving DecidableEq, Repr

/-- NTU's state (R191, R197). -/
structure Ntu where
  sources : Vector NoticeSource 13
  watches : Vector (Option Watch) 8
  deriving DecidableEq, Repr

/-! ## CFU: parameters and start-up (11) -/

inductive StartState where
  | loading
  | isolated
  | running
  deriving DecidableEq, Repr

/-- Outcome of an image load (R203). -/
inductive LoadOutcome where
  | absent
  | invalid
  | valid
  deriving DecidableEq, Repr

/-- The parameter table; the manager list is four of its parameters (R208). -/
structure Params where
  nodeId : NodeId
  managers : Vector NodeId 4
  noticeDest : NodeId
  greetInterval : Nat
  deadCount : Nat
  qualifyCount : Nat
  adjHoldTime : Nat
  retrigger : Nat
  degreeCost : Vector Nat 8
  degreeImp : Vector Nat 8
  regenCount : Nat
  transitAllowed : Nat
  refreshInterval : Nat
  tallyInterval : Nat
  pullWait : Nat
  settleCount : Nat
  autoCommit : Nat
  regenPenalty : Nat
  resultHoldTime : Nat
  claimTimeout : Nat
  referralWait : Nat
  reportedLifetime : Nat
  deriving DecidableEq, Repr

/-- The four sticky locks (R210). -/
structure Locks where
  identity : Bool
  adjacency : Bool
  solver : Bool
  domain : Bool
  deriving DecidableEq, Repr

/-- CFU's state (R202 to R204, R215). -/
structure Cfu where
  start : StartState
  params : Params
  locks : Locks
  outcome : LoadOutcome
  skipped : Nat
  clamped : Nat
  deriving DecidableEq, Repr

/-! ## Management answers (11) -/

/-- Result codes of an MGMTA (R206). -/
inductive ResultCode where
  | ok
  | adjusted
  | locked
  | refusedAccess
  | badCommand
  | badArgument
  | notReady
  | full
  deriving DecidableEq, Repr

/-- Commit state as reported, with the drain mode in DRAINING (R106). -/
inductive CommitReport where
  | idle
  | settling
  | drainingNormal
  | drainingUrgent
  deriving DecidableEq, Repr

/-- An entry of the forwarding table that holds a node (R13). -/
structure FwdEntry where
  node : NodeId
  degree : Option Degree
  deriving DecidableEq, Repr

/-- The three lane states by name (R143). -/
inductive LaneState where
  | idle
  | computing
  | tree
  deriving DecidableEq, Repr

/-- What STATUS reports of one lane: its state, the requester and tag it holds, and its history (R170). -/
structure LaneStatus where
  state : LaneState
  holder : Option (NodeId × Nat)
  current : Option HistoryEntry
  previous : Option HistoryEntry
  deriving DecidableEq, Repr

/-- The STATUS snapshot (R211). -/
structure Snapshot where
  vendor : Nat
  part : Nat
  revision : Nat
  start : StartState
  nodeId : NodeId
  outcome : LoadOutcome
  skipped : Nat
  clamped : Nat
  locks : Locks
  adjacencies : List (AdjState × Bool)
  commit : CommitReport
  gen : Nat
  freeze : Bool
  normalReq : Bool
  urgentReq : Bool
  settling : Option (Nat × Nat)
  lane0 : LaneStatus
  lane1 : LaneStatus
  queuedUrgent : Nat
  queuedNormal : Nat
  queuedBulk : Nat
  referralsUsed : Nat
  nodeRecords : Nat
  linkRecords : Nat
  exclusionEntries : Nat
  incompleteOrigins : Nat
  resultsHeld : Nat
  resultsClaimed : Nat
  holdsUsed : Nat
  pendingSources : List NoticeId
  deriving DecidableEq, Repr

/-- A queued request as read (R142). -/
structure RequestView where
  requester : NodeId
  tag : Nat
  cls : Nat
  kind : Nat
  flags : BitVec 8
  src : NodeId
  dst : NodeId
  width : Nat
  retries : Nat
  deriving DecidableEq, Repr

/-- A referral entry as read: the deadline as the ms remaining (R142). -/
structure ReferralView where
  requester : NodeId
  tag : Nat
  peer : NodeId
  holdAsked : Bool
  remaining : Nat
  deriving DecidableEq, Repr

/-- What a lane holds as read: the request's names, the sizes of its captured sets and the ms since its start, up to
65535 (R170). -/
structure ComputingView where
  requester : NodeId
  tag : Nat
  kind : Nat
  retries : Nat
  gen : Nat
  exclusions : Nat
  holds : Nat
  elapsed : Nat
  deriving DecidableEq, Repr

/-- The state of a lane as read (R143, R170). -/
inductive LaneView where
  | idle
  | computing (v : ComputingView)
  | tree (gen : Nat)
  deriving DecidableEq, Repr

/-- A result as read: its deadline as the ms remaining, up to 600000 (R190). -/
structure ResultView where
  requester : NodeId
  tag : Nat
  pair : Bool
  gen : Nat
  state : ResultState
  holdCount : Nat
  remaining : Nat
  paths : List PathResult
  deriving DecidableEq, Repr

/-- A neighbour record as read: the time of the last valid greet as the ms elapsed since, up to 65535 (R41). -/
structure NeighbourView where
  node : NodeId
  degree : Nat
  domain : Nat
  counter : Nat
  sinceGreet : Option Nat
  deriving DecidableEq, Repr

/-- One entry of a TABLE_READ answer (R41, R57, R82, R105, R122, R142, R170, R190, R201, R212).  Times are given as
the manual states them: seconds or milliseconds elapsed or remaining, with its upper limits.  The `deadline` of a pull
entry is the ms remaining. -/
inductive TableEntry where
  | node (index : Nat) (r : Option NodeRec)
  | link (index : Nat) (r : Option LinkRec)
  | exclusion (run : SlotRun) (origin : ExclusionOrigin) (lifetime : Option Nat) (elapsed : Nat)
  | incomplete (id : NodeId)
  | adjacency (d : Degree) (state : AdjState) (enable : Bool) (nbr : Option NeighbourView)
  | domain (index : Nat) (e : DomainEntry)
  | delegation (domain : Nat) (peer : NodeId)
  | flood (d : Degree) (sendCount : Nat) (waiting : List NodeId) (round : Option NodeId) (pulls : List PullEntry)
  | slotMap (d : Degree) (m : SlotMap)
  | forwarding (index : Nat) (entry : Option FwdEntry)
  | changedLink (k : LinkKey)
  | request (r : RequestView)
  | referral (index : Nat) (r : Option ReferralView)
  | lane (l : LaneId) (state : LaneView) (current previous : Option HistoryEntry)
  | result (index : Nat) (r : Option ResultView)
  | hold (index : Nat) (h : Option Hold)
  | expired (requester : NodeId) (tag : Nat)
  | source (id : NoticeId) (s : NoticeSource)
  | watch (index : Nat) (w : Option Watch)
  deriving DecidableEq, Repr

/-- What a TABLE_READ answer carries beside its entries (R105, R122, R142, R212). -/
inductive TableExtra where
  | none
  | flood (seq : Nat) (exhausted : Bool)
  | forwarding (treeGen : Nat)
  | changedLinks (members : Nat)
  | referrals (cursor : Nat)
  deriving DecidableEq, Repr

/-- A TABLE_READ answer (R212). -/
structure TableAnswer where
  gen : Nat
  table : TableId
  start : Nat
  entries : List TableEntry
  extra : TableExtra
  deriving DecidableEq, Repr

/-- The result data of an MGMTA (R206 and the rule of each command). -/
inductive ResultData where
  | none
  | param (t : ParamTarget) (value : Nat)
  | locks (l : Locks)
  | delegation (domain : Nat) (peer : NodeId)
  | exclusionAt (position entries : Nat)
  | removed
  | notFound
  | notices (enabled pending : List NoticeId)
  | commit (state : CommitReport) (gen : Nat)
  | status (s : Snapshot)
  | table (t : TableAnswer)
  | started (state : StartState) (gen : Nat)
  deriving DecidableEq, Repr

/-! ## Frames in the part -/

/-- The body of a NOTICE (R194); the generation of COMMIT's detail is the notice's own generation (R199). -/
structure NoticeBody where
  source : NoticeId
  snapshot : List NoticeId
  overrun : Bool
  detail : List Member
  gen : Nat
  deriving DecidableEq, Repr

/-- The body of a frame held by the part: bytes for a passing frame, named fields for an own frame. -/
inductive Body where
  | raw (bytes : List Byte)
  | greet (g : GreetBody)
  | advert (a : AdvertBody)
  | tally (t : TallyBody)
  | pull (origins : List NodeId)
  | routeq (q : RouteqBody)
  | routea (a : RouteaBody)
  | notice (n : NoticeBody)
  | mgmta (tag : Nat) (code : ResultCode) (data : ResultData)
  deriving DecidableEq, Repr

/-- A frame held by the part (R1).  The version is 1 and the CRC is a function of header and body (R2), so neither is
stored. -/
structure Frame where
  kind : Nat
  hop : Nat
  flags : BitVec 8
  src : NodeId
  dst : NodeId
  body : Body
  deriving DecidableEq, Repr

/-- A frame in an output queue, marked own or passing (R17). -/
structure Queued where
  own : Bool
  frame : Frame
  deriving DecidableEq, Repr

/-- The blocks whose own frames claim space directly (R18, R20). -/
inductive OwnBlock where
  | rqu
  | shu
  | ntu
  | cfu
  deriving DecidableEq, Repr

/-- A direct claim that waits for the end of its event: a frame that RQU, SHU, NTU or CFU originated for a port and that the port's
arbiter has not taken yet (R20).  NTU's stand here when an answer
or another frame comes before the end of the event (R195, log 32). -/
structure OwnClaim where
  block : OwnBlock
  port : Port
  frame : Frame
  deriving DecidableEq, Repr

/-- The frame on offer at a port (R21).  `inSlot` says that the offered GREET still is the one in the greet slot; a GREET
placed in the slot meanwhile makes it false. -/
inductive Offer where
  | greet (f : Frame) (inSlot : Bool)
  | queued (f : Frame)
  deriving DecidableEq, Repr

/-- The output side of one port (R17 to R21).  `ready` is the transmit-ready pin of the port's transceiver.  The greet
slot of NP is never filled. -/
structure OutPort where
  queue : List Queued
  backlog : List Frame
  greetSlot : Option Frame
  offer : Option Offer
  ready : Bool
  lastServed : Port
  deriving DecidableEq, Repr

/-- FSW's state.  The forwarding table lists the indices that hold a node, rising; an index not listed carries NONE
(R13).  `fwdGen` is the generation of the tree build that wrote the table, 0 for none (R212). -/
structure Fsw where
  degrees : Vector OutPort 8
  np : OutPort
  fwd : List (Nat × FwdEntry)
  fwdGen : Nat
  deriving DecidableEq, Repr

/-! ## The whole part -/

/-- The state of the part.  `now` counts the 1 ms tick.  `stamp`, `freeCount` and `claims` are the model's own: `stamp` orders
exclusion additions and computation starts as R161 needs, `freeCount` makes each free value fresh, and `claims` holds the
direct claims of the event being taken, in the order originated, and is empty between events (R20).  `pending` is the queue of
commands waiting to be taken. -/
structure State where
  pending : List Instr
  now : Moment
  stamp : Nat
  freeCount : Nat
  claims : List OwnClaim
  fsw : Fsw
  adm : Vector Adjacency 8
  dtu : Vector DomainEntry 16
  tdb : Tdb
  fle : Fle
  cmc : Cmc
  rqu : Rqu
  rsv : Rsv
  shu : Shu
  ntu : Ntu
  cfu : Cfu
  deriving DecidableEq, Repr

/-- Why a step could stop with a fault.  The manual gives an effect to every command in every state, so no command of the
model faults and the type has no constructor.  Safe: nothing is hidden behind a fault. -/
inductive Fault where
  deriving DecidableEq, Repr

/-- Why a step could refuse a command.  Closed. -/
inductive Refusal where
  /-- Raised only by an arm of `exec` whose command has no meaning yet; no arm of this model raises it.  Safe. -/
  | notModelled (mnemonic : String)
  deriving DecidableEq, Repr

/-! ## Reset values -/

/-- A slot map with every slot FREE (R88). -/
def SlotMap.allFree : SlotMap := ⟨0, 0⟩

/-- An adjacency after power-on or pin reset (R40). -/
def Adjacency.reset : Adjacency := ⟨.disabled, false, none, none, none, none, none⟩

/-- The configurable fields of entries 1 to 15 after power-on or pin reset (R56). -/
def DomainFields.reset : DomainFields := ⟨false, 0, 0, 1, 1, 0, 1, 1⟩

/-- An entry 1 to 15 of the domain table after power-on or pin reset (R56). -/
def DomainEntry.reset : DomainEntry := ⟨DomainFields.reset, .clean, false, .none⟩

/-- Entry 0 of the domain table as it reads; its values are nominal (R57).  Of its fault outstanding and last fault the manual says
nothing, and they read no and NONE (DESIGN CHOICE, log 40). -/
def DomainEntry.native : DomainEntry := ⟨⟨true, 0, 0, 256, 1, 0, 1, 1⟩, .clean, false, .none⟩

/-- The domain table after power-on or pin reset (R56). -/
def dtuReset : Vector DomainEntry 16 := (Vector.replicate 16 DomainEntry.reset).set 0 DomainEntry.native

/-- TDB after power-on or pin reset (R81). -/
def Tdb.reset : Tdb := ⟨[], [], [], [], Config.ageClockPeriod⟩

/-- FLE's state of one degree, lists empty and tally stopped (R104). -/
def FleDegree.reset : FleDegree := ⟨[], [], [], none, none⟩

/-- FLE after power-on or pin reset (R104). -/
def Fle.reset : Fle := ⟨1, Vector.replicate 8 FleDegree.reset, Vector.replicate 8 SlotMap.allFree, none⟩

/-- CMC after power-on, pin or soft reset (R121). -/
def Cmc.reset : Cmc := ⟨.idle, .normal, false, 0, false, false, false, 0, 0, false, [], none, none⟩

/-- RQU after power-on or pin reset (R141). -/
def Rqu.reset : Rqu := ⟨[], Vector.replicate 16 none, 15, Vector.replicate 16 0, 0⟩

/-- A lane after power-on, pin or soft reset (R169). -/
def Lane.reset : Lane := ⟨.idle, none, none⟩

/-- RSV after power-on, pin or soft reset (R169). -/
def Rsv.reset : Rsv := ⟨Lane.reset, Lane.reset, none⟩

/-- SHU after power-on, pin or soft reset (R189). -/
def Shu.reset : Shu := ⟨[], [], []⟩

/-- A notice source after power-on or pin reset (R200). -/
def NoticeSource.reset : NoticeSource := ⟨true, false, false, false, [], none⟩

/-- NTU after power-on or pin reset (R200). -/
def Ntu.reset : Ntu := ⟨Vector.replicate 13 NoticeSource.reset, Vector.replicate 8 none⟩

/-- The defaults of the parameter table (R208). -/
def Params.default : Params where
  nodeId := 0
  managers := Vector.replicate 4 0
  noticeDest := 0
  greetInterval := 1000
  deadCount := 4
  qualifyCount := 3
  adjHoldTime := 10
  retrigger := 1
  degreeCost := Vector.replicate 8 100
  degreeImp := Vector.replicate 8 0
  regenCount := 0
  transitAllowed := 1
  refreshInterval := 1800
  tallyInterval := 30
  pullWait := 3000
  settleCount := 5
  autoCommit := 0
  regenPenalty := 500
  resultHoldTime := 10
  claimTimeout := 60
  referralWait := 5
  reportedLifetime := 3600

/-- CFU after power-on or pin reset: LOADING, defaults, no lock (R203, R215).  The image outcome and its counts have no value
of the spec's until the load sets them (DESIGN CHOICE: ABSENT, 0, 0; log 9). -/
def Cfu.reset : Cfu := ⟨.loading, Params.default, ⟨false, false, false, false⟩, .absent, 0, 0⟩

/-- An output port after a reset: everything empty, last-served port NP (R20, R23). -/
def OutPort.empty (ready : Bool) : OutPort := ⟨[], [], none, none, ready, .np⟩

/-- FSW after power-on or pin reset; no transceiver is ready yet (R23; DESIGN CHOICE for the ready pins, log 8). -/
def Fsw.reset : Fsw := ⟨Vector.replicate 8 (OutPort.empty false), OutPort.empty false, [], 0⟩

/-- The part right after power-on reset: every block at its power-on values, in LOADING, with no command waiting
(R23, R40, R56, R81, R104, R121, R141, R169, R189, R200, R203, R215). -/
def State.reset : State where
  pending := []
  now := 0
  stamp := 0
  freeCount := 0
  claims := []
  fsw := Fsw.reset
  adm := Vector.replicate 8 Adjacency.reset
  dtu := dtuReset
  tdb := Tdb.reset
  fle := Fle.reset
  cmc := Cmc.reset
  rqu := Rqu.reset
  rsv := Rsv.reset
  shu := Shu.reset
  ntu := Ntu.reset
  cfu := Cfu.reset

end Sys2Proof.Machine
end

