-- ==== Sys2Proof/Machine/Tables.lean ====
section
/-! DEFINITION. Plain helpers over the model's collections: vectors of the eight degrees, tables kept as lists of
(index, entry) pairs with rising indices, ordered sets, and the orders the manual names (00, Link keys). -/

namespace Sys2Proof.Machine

variable {α β : Type}

/-! ## Vectors -/

/-- Entry `i` of a vector. -/
def vget {n : Nat} (v : Vector α n) (i : Fin n) : α := v[i.val]

/-- A vector with entry `i` replaced. -/
def vset {n : Nat} (v : Vector α n) (i : Fin n) (a : α) : Vector α n := v.set i.val a i.isLt

/-- The eight degrees in order. -/
def allDegrees : List Degree := [0, 1, 2, 3, 4, 5, 6, 7]

/-- A vector of eight entries given by degree. -/
def vec8 (f : Degree → α) : Vector α 8 := #v[f 0, f 1, f 2, f 3, f 4, f 5, f 6, f 7]

/-- Entry `i` of a vector where `i` is a plain number, if it is an index. -/
def vget? {n : Nat} (v : Vector α n) (i : Nat) : Option α := if h : i < n then some (vget v ⟨i, h⟩) else none

/-! ## Indexed tables -/

/-- The entry at an index, if one is listed. -/
def tget (t : List (Nat × α)) (i : Nat) : Option α := (t.find? fun e => e.1 == i).map (·.2)

/-- The table with the entry at an index written, inserted in index order or replaced. -/
def tput : List (Nat × α) → Nat → α → List (Nat × α)
  | [], i, a => [(i, a)]
  | (j, b) :: t, i, a =>
    if i < j then (i, a) :: (j, b) :: t else if i = j then (i, a) :: t else (j, b) :: tput t i a

/-- The table with an index freed. -/
def tdel (t : List (Nat × α)) (i : Nat) : List (Nat × α) := t.filter fun e => e.1 != i

/-- The lowest index from `n` up that a rising table does not list. -/
def lowestFreeFrom : List (Nat × α) → Nat → Nat
  | [], n => n
  | (j, _) :: t, n => if j = n then lowestFreeFrom t (n + 1) else if j < n then lowestFreeFrom t n else n

/-- The lowest free index of a table of `cap` indices. -/
def lowestFree (t : List (Nat × α)) (cap : Nat) : Option Nat :=
  let n := lowestFreeFrom t 0
  if n < cap then some n else none

/-- Every entry of a table rewritten in place. -/
def tmap (f : α → α) (t : List (Nat × α)) : List (Nat × α) := t.map fun e => (e.1, f e.2)

/-- A table is in canonical form when its indices rise strictly. -/
def Table.rising : List (Nat × α) → Bool
  | [] => true
  | [_] => true
  | (i, _) :: (j, b) :: t => decide (i < j) && Table.rising ((j, b) :: t)

/-! ## Ordered sets -/

/-- Adds a member to a set kept as a list in strict order. -/
def insertBy (lt : α → α → Bool) (a : α) : List α → List α
  | [] => [a]
  | b :: t => if lt a b then a :: b :: t else if lt b a then b :: insertBy lt a t else b :: t

/-- The set of the members of a list, in order. -/
def sortBy (lt : α → α → Bool) (l : List α) : List α := l.foldr (insertBy lt) []

/-- Inserts before the first element that is not smaller, keeping equal elements in their order. -/
def insertStable (le : α → α → Bool) (a : α) : List α → List α
  | [] => [a]
  | b :: t => if le a b then a :: b :: t else b :: insertStable le a t

/-- Stable sort. -/
def sortStable (le : α → α → Bool) (l : List α) : List α := l.foldr (insertStable le) []

/-- The first element of a non-empty list in a strict order; of equal ones the one that stands first. -/
def firstBy (lt : α → α → Bool) : List α → Option α
  | [] => none
  | a :: t => match firstBy lt t with
    | none => some a
    | some b => if lt b a then some b else some a

/-- Lexicographic comparison of two sequences: the first difference decides, a beginning is smaller (R148). -/
def lexLt (lt : α → α → Bool) : List α → List α → Bool
  | [], [] => false
  | [], _ :: _ => true
  | _ :: _, [] => false
  | a :: s, b :: t => if lt a b then true else if lt b a then false else lexLt lt s t

def natLt (a b : Nat) : Bool := decide (a < b)

/-- Link-key order: by origin, then by link number (00, Link keys). -/
def keyLt (a b : LinkKey) : Bool := decide (a.origin < b.origin) || (a.origin == b.origin && decide (a.num < b.num))

/-- The degree a number names, if it is 0 to 7. -/
def degree? (n : Nat) : Option Degree := if h : n < 8 then some ⟨n, h⟩ else none

/-! ## Slot maps -/

/-- The number whose binary digits below `k` are given by `f`. -/
def bitsValue (f : Nat → Bool) : Nat → Nat
  | 0 => 0
  | k + 1 => bitsValue f k + (if f k then 2 ^ k else 0)

/-- The map of 384 bits whose bit n is `f n`. -/
def mapBits (f : Nat → Bool) : BitVec 384 := BitVec.ofNat 384 (bitsValue f 384)

/-- The bits of the slots start to start + width − 1 (00, Slots and slot runs). -/
def runBits (start width : Nat) : BitVec 384 := BitVec.ofNat 384 ((2 ^ width - 1) <<< start)

end Sys2Proof.Machine

namespace Sys2Proof

/-- Position of a port in the port order D0 to D7, NP (R20). -/
def Port.index : Port → Nat
  | .deg d => d.val
  | .np => 8

/-- The slot map of a used map and a blocked map: a slot whose blocked bit is set is BLOCKED whatever its used bit
(R4, R88). -/
def SlotMap.make (used blocked : BitVec 384) : SlotMap := ⟨used &&& ~~~blocked, blocked⟩

/-- The state of slot `n` (R4). -/
def SlotMap.slot (m : SlotMap) (n : Nat) : SlotState :=
  if m.blocked.getLsbD n then .blocked else if m.used.getLsbD n then .used else .free

/-- The slots that are FREE. -/
def SlotMap.freeBits (m : SlotMap) : BitVec 384 := ~~~(m.used ||| m.blocked)

end Sys2Proof
end

