-- ==== Sys2Proof/Machine/Flags.lean ====
section
/-! DEFINITION. The flags of the part: notice sources with their pending, overrun and sent flags and their detail
(R191 to R193), the fault-outstanding flags' companion predicate, and the locks (R210). -/

namespace Sys2Proof.Machine

/-! ## Notice sources (R191, R192) -/

/-- The number of a source (R191). -/
def NoticeId.number : NoticeId → Fin 13
  | .start => 0
  | .adjacency => 1
  | .domainFault => 2
  | .domainWarn => 3
  | .tableFull => 4
  | .commit => 5
  | .watch => 6
  | .exclusion => 7
  | .referral => 8
  | .claimUnseen => 9
  | .frameError => 10
  | .congestion => 11
  | .sequence => 12

/-- All sources in number order. -/
def NoticeId.all : List NoticeId :=
  [.start, .adjacency, .domainFault, .domainWarn, .tableFull, .commit, .watch, .exclusion, .referral, .claimUnseen,
    .frameError, .congestion, .sequence]

/-- A number for each detail member, which fixes the order a detail set is kept in. -/
def Member.code : Member → Nat
  | .absent => 0
  | .invalid => 1
  | .nodeTable => 2
  | .linkTable => 3
  | .forced => 4
  | .urgent => 5
  | .added => 6
  | .full => 7
  | .late => 8
  | .unreachable => 9
  | .queueFull => 10
  | .noRoute => 11
  | .jumped => 12
  | .exhausted => 13
  | .degree d => 100 + 3 * d.val
  | .port (.deg d) => 101 + 3 * d.val
  | .port .np => 125
  | .domain n => 200 + 2 * n
  | .watch i => 201 + 2 * i

def memberLt (a b : Member) : Bool := decide (a.code < b.code)

/-- A detail set with members added (R192). -/
def addMembers (ms detail : List Member) : List Member := ms.foldl (fun d m => insertBy memberLt m d) detail

/-- An event at a source: it opens a pending episode, or sets overrun and adds its members.  The generation of COMMIT is
replaced (R192, R199). -/
def NoticeSource.raise (ms : List Member) (gen : Option Nat) (n : NoticeSource) : NoticeSource :=
  if n.pending then { n with overrun := true, detail := addMembers ms n.detail, gen := gen }
  else { n with pending := true, detail := addMembers ms [], gen := gen }

/-- NOTICE_CLEAR at a source: the episode ends and the enable stays (R196). -/
def NoticeSource.clear (n : NoticeSource) : NoticeSource := ⟨n.enable, false, false, false, [], none⟩

/-- A source draws a NOTICE when it is pending, enabled and not yet sent (R193). -/
def NoticeSource.due (n : NoticeSource) : Bool := n.pending && n.enable && !n.sent

def Ntu.source (n : Ntu) (i : NoticeId) : NoticeSource := vget n.sources i.number

def Ntu.setSource (n : Ntu) (i : NoticeId) (x : NoticeSource) : Ntu :=
  { n with sources := vset n.sources i.number x }

/-- The set of sources pending (R194). -/
def Ntu.pendingSet (n : Ntu) : List NoticeId := NoticeId.all.filter fun i => (n.source i).pending

/-- The set of sources enabled (R195). -/
def Ntu.enabledSet (n : Ntu) : List NoticeId := NoticeId.all.filter fun i => (n.source i).enable

/-- Every source rewritten in place. -/
def Ntu.mapSources (f : NoticeId → NoticeSource → NoticeSource) (n : Ntu) : Ntu :=
  NoticeId.all.foldl (fun n i => n.setSource i (f i (n.source i))) n

/-! ## Locks (R210) -/

/-- Whether a lock group is locked. -/
def Locks.has (l : Locks) : LockGroup → Bool
  | .identity => l.identity
  | .adjacency => l.adjacency
  | .solver => l.solver
  | .domain => l.domain

/-- The locks with one group's lock set (R210). -/
def Locks.lock (l : Locks) : LockGroup → Locks
  | .identity => { l with identity := true }
  | .adjacency => { l with adjacency := true }
  | .solver => { l with solver := true }
  | .domain => { l with domain := true }

/-! ## The commit state as reported (R106) -/

/-- The commit state with its drain mode, as STATUS names it (R122), and as the answers to COMMIT, FREEZE, THAW and FLUSH do. -/
def Cmc.report (c : Cmc) : CommitReport :=
  match c.state, c.mode with
  | .idle, _ => .idle
  | .settling, _ => .settling
  | .draining, .normal => .drainingNormal
  | .draining, .urgent => .drainingUrgent

/-- CMC takes requests as if frozen while the freeze flag is set and while the generation is exhausted (R109, R115). -/
def Cmc.frozen (c : Cmc) : Bool := c.freeze || c.gen == Config.lastGeneration

end Sys2Proof.Machine
end

