-- ==== Sys2Proof/Machine/Frames.lean ====
section
/-! DEFINITION. The supervisory frame as bytes: header, CRC-32, the bodies, the input checks of R8 and the form check of
R7.  Bodies whose layout R4 to R6 give are read from those tables; the others are read with their named fields in the
order the rules name them, most significant byte first, which R7's lengths force (log 2).  The bytes of NOTICE and MGMTA
bodies, of which the manual gives lengths and fields alone, are free values (log 28). -/

namespace Sys2Proof.Machine

/-! ## Kind codes (R3) -/

def kindGreet : Nat := 0x01
def kindAdvert : Nat := 0x02
def kindTally : Nat := 0x03
def kindPull : Nat := 0x04
def kindRouteq : Nat := 0x05
def kindRoutea : Nat := 0x06
def kindClaim : Nat := 0x07
def kindRelease : Nat := 0x08
def kindFaultrep : Nat := 0x09
def kindSlotmap : Nat := 0x0A
def kindMgmtq : Nat := 0x0B
def kindMgmta : Nat := 0x0C
def kindNotice : Nat := 0x0D

/-- The four kinds exchanged between adjacent parts (R3, R10). -/
def neighbourScope (kind : Nat) : Bool := decide (1 ≤ kind) && decide (kind ≤ 4)

/-- The destination of a neighbour-scope frame (00, Node IDs). -/
def neighbourDst : NodeId := 65535

/-! ## Bytes -/

/-- The number a list of bytes gives, most significant byte first (R1). -/
def bytesValue (b : List Byte) : Nat := b.foldl (fun acc x => acc * 256 + x.toNat) 0

/-- A number as `k` bytes, most significant byte first (R1). -/
def valueBytes (n : Nat) : Nat → List Byte
  | 0 => []
  | k + 1 => BitVec.ofNat 8 (n / 256 ^ k) :: valueBytes n k

/-- The field of `size` bytes at an offset. -/
def field (b : List Byte) (offset size : Nat) : Nat := bytesValue ((b.drop offset).take size)

/-- The 384 bits of 48 bytes at an offset: bit n is bit 7 − (n mod 8) of byte n div 8 (R4). -/
def mapField (b : List Byte) (offset : Nat) : BitVec 384 :=
  mapBits fun n => (b.getD (offset + n / 8) 0).getLsbD (7 - n % 8)

/-- A map as 48 bytes, laid out as `mapField` reads it (R4). -/
def mapBytes (m : BitVec 384) : List Byte :=
  (List.range 48).map fun i =>
    BitVec.ofNat 8 ((List.range 8).foldl (fun acc j => acc * 2 + (if m.getLsbD (i * 8 + j) then 1 else 0)) 0)

/-! ## CRC-32 (R2) -/

/-- The generator polynomial without its leading term. -/
def crcPolynomial : BitVec 32 := 0x04C11DB7#32

/-- One bit fed to the register. -/
def crcBit (r : BitVec 32) (b : Bool) : BitVec 32 :=
  if r.getLsbD 31 != b then (r <<< 1) ^^^ crcPolynomial else r <<< 1

/-- One byte fed, most significant bit first. -/
def crcByte (r : BitVec 32) (b : Byte) : BitVec 32 :=
  [7, 6, 5, 4, 3, 2, 1, 0].foldl (fun r i => crcBit r (b.getLsbD i)) r

/-- The CRC field of a frame whose header and body are the bytes given: register preset to all ones, one's complement of
its final value. -/
def crc32 (b : List Byte) : BitVec 32 := ~~~(b.foldl crcByte 0xFFFFFFFF#32)

/-! ## Input checks (R8) -/

/-- The frame a port delivered, if it passes the input checks of R8. -/
def parseFrame (b : List Byte) : Option RawFrame :=
  let len := b.length
  if len < 14 || 1014 < len then none
  else if field b 8 2 != len - 14 then none
  else if (crc32 (b.take (len - 4))).toNat != field b (len - 4) 4 then none
  else if field b 1 1 != 1 then none
  else if field b 2 1 == 0 || 64 < field b 2 1 then none
  else some {
    kind := field b 0 1, hop := field b 2 1, flags := b.getD 3 0, src := field b 4 2, dst := field b 6 2,
    body := (b.drop 10).take (len - 14) }

end Sys2Proof.Machine

namespace Sys2Proof

open Sys2Proof.Machine

/-- The checks of R8 that a frame given by its fields can still fail: body length and hop limit. -/
def RawFrame.inputOk (f : RawFrame) : Bool := decide (f.body.length ≤ 1000) && decide (1 ≤ f.hop) && decide (f.hop ≤ 64)

end Sys2Proof

namespace Sys2Proof.Machine

/-! ## Bodies -/

/-- The body of a frame handled by the part, as its block receives it (R11). -/
inductive Handled where
  | greet (g : GreetBody)
  | advert (a : AdvertBody)
  | tally (t : TallyBody)
  | pull (origins : List NodeId)
  | routeq (q : RouteqBody)
  | routea (a : RouteaBody)
  | claim (tag : Nat)
  | release (tag : Nat)
  | faultrep (r : SlotRun)
  | slotmap (m : SlotmapBody)
  | mgmtq (tag : Nat) (request : MgmtRequest)
  | delivered
  deriving DecidableEq, Repr

/-- ADVERT: the record kind and domain must match the body length (R4, R7). -/
def parseAdvert (b : List Byte) : Option AdvertBody :=
  let domain := field b 1 1
  let kind := field b 0 1
  let len := b.length
  let body (r : AdvertRecord) (origin far : Nat) : AdvertBody :=
    ⟨domain, field b 2 2, field b 4 4, field b 8 2, r, origin, far⟩
  let link : AdvertRecord := .link (field b 10 2) (field b 12 2) (b.getD 14 0) (field b 15 1) (field b 16 2)
    (field b 18 2) (mapField b 20) (mapField b 68)
  if kind == 1 then
    if domain == 0 && len == 12 then some (body (.node (field b 10 1) (field b 11 1)) 0 0)
    else if domain != 0 && len == 16 then some (body (.node (field b 10 1) (field b 11 1)) (field b 12 4) 0)
    else none
  else if kind == 2 then
    if domain == 0 && len == 116 then some (body link 0 0)
    else if domain != 0 && len == 124 then some (body link (field b 116 4) (field b 120 4))
    else none
  else none

/-- The entries of a TALLY from its entry bytes. -/
def parseTallyEntries (b : List Byte) : Nat → List TallyEntry
  | 0 => []
  | n + 1 => ⟨field b 0 2, field b 2 4, field b 6 2, field b 8 4⟩ :: parseTallyEntries (b.drop 12) n

/-- TALLY: 5 + 12n bytes, n in body byte 4, 0 to 80 (R7). -/
def parseTally (b : List Byte) : Option TallyBody :=
  let n := field b 4 1
  if 5 ≤ b.length && n ≤ 80 && b.length == 5 + 12 * n then
    some ⟨field b 0 2, field b 2 2, parseTallyEntries (b.drop 5) n⟩
  else none

/-- PULL: 1 + 2n bytes, n in body byte 0, 1 to 32 (R7). -/
def parsePull (b : List Byte) : Option (List NodeId) :=
  let n := field b 0 1
  if 1 ≤ n && n ≤ 32 && b.length == 1 + 2 * n then some ((List.range n).map fun i => field b (1 + 2 * i) 2) else none

/-- ROUTEQ: 22 bytes (R5, R7). -/
def parseRouteq (b : List Byte) : Option RouteqBody :=
  if b.length == 22 then
    some {
      tag := field b 0 2, cls := field b 2 1, kind := field b 3 1, flags := b.getD 4 0, width := field b 5 1,
      src := field b 6 2, dst := field b 8 2, maxHops := field b 10 1, budget := field b 12 2,
      excludeMask := BitVec.ofNat 16 (field b 14 2), waypoint := field b 16 2, rangeFirst := field b 18 2,
      rangeLast := field b 20 2 }
  else none

/-- The hops of a path block. -/
def parseHops (b : List Byte) : Nat → List HopField
  | 0 => []
  | n + 1 => ⟨⟨field b 0 2, field b 2 1⟩, field b 3 2⟩ :: parseHops (b.drop 5) n

/-- The path blocks announced, which must take up the bytes exactly; each has 1 to 32 hops (R6, R7). -/
def parsePaths (b : List Byte) : Nat → Option (List PathBlock)
  | 0 => if b.isEmpty then some [] else none
  | n + 1 =>
    let h := field b 4 1
    if 1 ≤ h && h ≤ 32 && 5 + 5 * h ≤ b.length then
      (parsePaths (b.drop (5 + 5 * h)) n).map fun rest => ⟨field b 0 4, parseHops (b.drop 5) h⟩ :: rest
    else none

/-- ROUTEA: 8 bytes and 0 to 2 path blocks (R6, R7). -/
def parseRoutea (b : List Byte) : Option RouteaBody :=
  if 8 ≤ b.length && field b 3 1 ≤ 2 then
    (parsePaths (b.drop 8) (field b 3 1)).map fun paths => ⟨field b 0 2, field b 2 1, field b 4 4, paths⟩
  else none

/-- The body of a frame of a kind the part handles, with the lengths of R7 checked.  MGMTA, NOTICE and opaque bodies are
not read.  An MGMTQ is read as tag, command byte and argument bytes (R206; log 3). -/
def parseBody (kind : Nat) (b : List Byte) : Option Handled :=
  if kind == kindGreet then
    if b.length == 6 then some (.greet ⟨field b 0 2, field b 2 1, field b 3 1, field b 4 2⟩) else none
  else if kind == kindAdvert then (parseAdvert b).map .advert
  else if kind == kindTally then (parseTally b).map .tally
  else if kind == kindPull then (parsePull b).map .pull
  else if kind == kindRouteq then (parseRouteq b).map .routeq
  else if kind == kindRoutea then (parseRoutea b).map .routea
  else if kind == kindClaim then if b.length == 2 then some (.claim (field b 0 2)) else none
  else if kind == kindRelease then if b.length == 2 then some (.release (field b 0 2)) else none
  else if kind == kindFaultrep then
    if b.length == 7 then some (.faultrep ⟨⟨field b 0 2, field b 2 1⟩, field b 3 2, field b 5 2⟩) else none
  else if kind == kindSlotmap then
    if b.length == 97 then some (.slotmap ⟨field b 0 1, mapField b 1, mapField b 49⟩) else none
  else if kind == kindMgmtq then
    if 3 ≤ b.length && b.length ≤ 1000 then
      some (.mgmtq (field b 0 2) (Config.mgmtRequest (b.getD 2 0) (b.drop 3)))
    else none
  else if kind == kindMgmta then if 3 ≤ b.length && b.length ≤ 1000 then some .delivered else none
  else if kind == kindNotice then if b.length == 12 then some .delivered else none
  else some .delivered

/-! ## Field ranges of the form check (R7) -/

/-- A node ID in 1 to 65534. -/
def nodeIdOk (n : NodeId) : Bool := decide (1 ≤ n) && decide (n ≤ 65534)

end Sys2Proof.Machine

namespace Sys2Proof

open Sys2Proof.Machine

def AdvertRecord.formOk (native : Bool) (origin : NodeId) : AdvertRecord → Bool
  | .node regen transit => decide (regen ≤ 15) && decide (transit ≤ 1) && (!native || nodeIdOk origin)
  | .link num far farFlags farNum cost imp _ _ =>
    cost != 0 &&
    (!native || (nodeIdOk origin && nodeIdOk far && decide (num ≤ 255) && decide (imp ≤ 4095) &&
      (farFlags.getLsbD 0 || farNum == 0)))

/-- The ranges an ADVERT must meet. -/
def AdvertBody.formOk (a : AdvertBody) : Bool :=
  decide (a.domain ≤ 15) && decide (1 ≤ a.seq) && decide (a.seq ≤ Config.lastSequence) && decide (a.age ≤ 3600) &&
    a.record.formOk (a.domain == 0) a.origin

def GreetBody.formOk (g : GreetBody) : Bool :=
  nodeIdOk g.senderNode && decide (g.senderDegree ≤ 7) && decide (g.senderDomain ≤ 15)

end Sys2Proof

namespace Sys2Proof.Machine

/-- Origins strictly ascending from above `low` (no bound when absent) and at most `last`. -/
def ascending (last : Nat) : List Nat → Nat → Bool
  | [], _ => true
  | o :: t, low => decide (low ≤ o) && decide (o ≤ last) && ascending last t (o + 1)

end Sys2Proof.Machine

namespace Sys2Proof

open Sys2Proof.Machine

def TallyBody.formOk (t : TallyBody) : Bool :=
  decide (t.first ≤ t.last) && decide (t.entries.length ≤ 80) && ascending t.last (t.entries.map (·.origin)) t.first

end Sys2Proof

namespace Sys2Proof.Machine

def pullFormOk (os : List NodeId) : Bool :=
  decide (1 ≤ os.length) && decide (os.length ≤ 32) && os.all fun o => o != 0 && o != 65535

/-- The form check on a body given by its fields (R7). -/
def Handled.formOk : Handled → Bool
  | .greet g => g.formOk
  | .advert a => a.formOk
  | .tally t => t.formOk
  | .pull os => pullFormOk os
  | .routea a => decide (a.paths.length ≤ 2) &&
      a.paths.all fun p => decide (1 ≤ p.hops.length) && decide (p.hops.length ≤ 32)
  | .slotmap m => decide (m.degree ≤ 7)
  | .routeq _ => true
  | .claim _ => true
  | .release _ => true
  | .faultrep _ => true
  | .mgmtq _ _ => true
  | .delivered => true

/-! ## Frames as sent (R1, R2, R4, R5, R6) -/

end Sys2Proof.Machine

namespace Sys2Proof

open Sys2Proof.Machine

def AdvertBody.bytes (a : AdvertBody) : List Byte :=
  let head (kind : Nat) := valueBytes kind 1 ++ valueBytes a.domain 1 ++ valueBytes a.origin 2 ++ valueBytes a.seq 4 ++
    valueBytes a.age 2
  match a.record with
  | .node regen transit => head 1 ++ valueBytes regen 1 ++ valueBytes transit 1 ++
      (if a.domain == 0 then [] else valueBytes a.nativeOrigin 4)
  | .link num far farFlags farNum cost imp used blocked =>
      head 2 ++ valueBytes num 2 ++ valueBytes far 2 ++ [farFlags] ++ valueBytes farNum 1 ++ valueBytes cost 2 ++
      valueBytes imp 2 ++ mapBytes used ++ mapBytes blocked ++
      (if a.domain == 0 then [] else valueBytes a.nativeOrigin 4 ++ valueBytes a.nativeFar 4)

def RouteqBody.bytes (q : RouteqBody) : List Byte :=
  valueBytes q.tag 2 ++ valueBytes q.cls 1 ++ valueBytes q.kind 1 ++ [q.flags] ++ valueBytes q.width 1 ++
  valueBytes q.src 2 ++ valueBytes q.dst 2 ++ valueBytes q.maxHops 1 ++ [0] ++ valueBytes q.budget 2 ++
  valueBytes q.excludeMask.toNat 2 ++ valueBytes q.waypoint 2 ++ valueBytes q.rangeFirst 2 ++ valueBytes q.rangeLast 2

def PathBlock.bytes (p : PathBlock) : List Byte :=
  valueBytes p.cost 4 ++ valueBytes p.hops.length 1 ++
  p.hops.flatMap fun h => valueBytes h.key.origin 2 ++ valueBytes h.key.num 1 ++ valueBytes h.startField 2

def RouteaBody.bytes (a : RouteaBody) : List Byte :=
  valueBytes a.tag 2 ++ valueBytes a.outcome 1 ++ valueBytes a.paths.length 1 ++ valueBytes a.gen 4 ++
  a.paths.flatMap PathBlock.bytes

end Sys2Proof

namespace Sys2Proof.Config

/-- FREE VALUE (assumption log 28).  The 12 bytes of a NOTICE body (R7, R194): the manual gives its fields and no layout. -/
opaque noticeBytes : Sys2Proof.Machine.NoticeBody → Vector Byte 12

/-- FREE VALUE (assumption log 28).  The byte of a result code (R206): the manual gives no codes. -/
opaque resultByte : Sys2Proof.Machine.ResultCode → Byte

/-- FREE VALUE (assumption log 28).  The bytes of the result data of an MGMTA (R206): the manual gives no layout. -/
opaque resultBytes : Sys2Proof.Machine.ResultData → List Byte

end Sys2Proof.Config

namespace Sys2Proof.Machine

/-- The result data of an MGMTA as bytes: none where there are none, and never more than R7's 1000 bytes leave (R206). -/
def ResultData.bytes : ResultData → List Byte
  | .none => []
  | d => (Config.resultBytes d).take 997

/-- The bytes of a body (R4 to R7, R194, R206). -/
def Body.bytes : Body → List Byte
  | .raw b => b
  | .greet g => valueBytes g.senderNode 2 ++ valueBytes g.senderDegree 1 ++ valueBytes g.senderDomain 1 ++
      valueBytes g.seen 2
  | .advert a => a.bytes
  | .tally t => valueBytes t.first 2 ++ valueBytes t.last 2 ++ valueBytes t.entries.length 1 ++
      t.entries.flatMap fun e => valueBytes e.origin 2 ++ valueBytes e.highest 4 ++ valueBytes e.count 2 ++
        valueBytes e.sum 4
  | .pull os => valueBytes os.length 1 ++ os.flatMap fun o => valueBytes o 2
  | .routeq q => q.bytes
  | .routea a => a.bytes
  | .notice n => (Config.noticeBytes n).toList
  | .mgmta tag code data => valueBytes tag 2 ++ Config.resultByte code :: data.bytes

/-- Header and body of a frame as sent (R1). -/
def Frame.headed (f : Frame) : List Byte :=
  valueBytes f.kind 1 ++ valueBytes 1 1 ++ valueBytes f.hop 1 ++ [f.flags] ++ valueBytes f.src 2 ++ valueBytes f.dst 2 ++
  valueBytes f.body.bytes.length 2 ++ f.body.bytes

/-- The bytes a port gives its transceiver for a frame: header, body and the CRC over both (R1, R2). -/
def Frame.wire (f : Frame) : List Byte := f.headed ++ valueBytes (crc32 f.headed).toNat 4

end Sys2Proof.Machine
end

