-- ==== Sys2Proof/Machine/Ops.lean ====
section
/-! DEFINITION. The named operations every block uses: reading and writing per-degree state, raising a notice event,
the forwarding lookup, placing and claiming frames, building notices, and offering frames to the transceivers
(01 and 10). -/

namespace Sys2Proof.Machine

/-! ## Reading the state -/

/-- The node-ID parameter. -/
def State.nodeId (s : State) : NodeId := s.cfu.params.nodeId

def State.adjacency (s : State) (d : Degree) : Adjacency := vget s.adm d

def State.setAdjacency (s : State) (d : Degree) (a : Adjacency) : State := { s with adm := vset s.adm d a }

/-- The adjacency of a degree is UP. -/
def State.isUp (s : State) (d : Degree) : Bool := (s.adjacency d).state == .up

/-- The degrees that are UP, in order. -/
def State.upDegrees (s : State) : List Degree := allDegrees.filter s.isUp

def State.flood (s : State) (d : Degree) : FleDegree := vget s.fle.degrees d

def State.setFlood (s : State) (d : Degree) (x : FleDegree) : State :=
  { s with fle := { s.fle with degrees := vset s.fle.degrees d x } }

def State.port (s : State) : Port → OutPort
  | .deg d => vget s.fsw.degrees d
  | .np => s.fsw.np

def State.setPort (s : State) (p : Port) (o : OutPort) : State :=
  match p with
  | .deg d => { s with fsw := { s.fsw with degrees := vset s.fsw.degrees d o } }
  | .np => { s with fsw := { s.fsw with np := o } }

/-- The nine ports in port order (R20). -/
def allPorts : List Port := [.deg 0, .deg 1, .deg 2, .deg 3, .deg 4, .deg 5, .deg 6, .deg 7, .np]

/-- The clock at the moment an expiry is taken: an expiry is not taken before its moment (log 6). -/
def State.reach (s : State) (t : Moment) : State := { s with now := max s.now t }

/-- The next stamp, which orders this event after every event stamped before (R161). -/
def State.nextStamp (s : State) : State := { s with stamp := s.stamp + 1 }

/-! ## Notice events (R192) -/

/-- An event at a notice source. -/
def raise (i : NoticeId) (ms : List Member) (s : State) : State :=
  { s with ntu := s.ntu.setSource i ((s.ntu.source i).raise ms none) }

/-- The COMMIT event, which carries a generation (R199). -/
def raiseCommit (ms : List Member) (gen : Nat) (s : State) : State :=
  { s with ntu := s.ntu.setSource .commit ((s.ntu.source .commit).raise ms (some gen)) }

/-- FRAME_ERROR with the arrival port (R7, R8, R10, R11, R28, R78, R123, R179, R206). -/
def frameError (p : Port) (s : State) : State := raise .frameError [.port p] s

/-! ## Forwarding lookup (R13) -/

/-- The degree a lookup of a node ID yields; `none` is NONE. -/
def lookup (s : State) (n : NodeId) : Option Degree :=
  match s.fsw.fwd.find? fun e => e.2.node == n with
  | none => none
  | some (_, e) =>
    match e.degree with
    | none => none
    | some d => if (s.adjacency d).state == .disabled then none else some d

/-! ## Output queues (R17, R18) -/

def queueSize : Port → Nat
  | .deg _ => Config.degreeQueueSize
  | .np => Config.npQueueSize

def passingLimit : Port → Nat
  | .deg _ => Config.degreePassingLimit
  | .np => Config.npPassingLimit

/-- The passing frames of a queue. -/
def OutPort.passing (o : OutPort) : Nat := (o.queue.filter fun q => !q.own).length

/-- The queue holds fewer frames than its capacity. -/
def OutPort.room (o : OutPort) (p : Port) : Bool := decide (o.queue.length < queueSize p)

/-- An own frame of RQU, SHU, NTU or CFU claims space at a port: directly when the backlog is empty and the queue has
room, else by the backlog, else it is discarded with CONGESTION QUEUE_FULL (R17, R18). -/
def claimOwn (p : Port) (f : Frame) (s : State) : State :=
  let o := s.port p
  if o.backlog.isEmpty && o.room p then s.setPort p { o with queue := o.queue ++ [⟨true, f⟩] }
  else if o.backlog.length < Config.backlogSize then s.setPort p { o with backlog := o.backlog ++ [f] }
  else raise .congestion [.queueFull] s

/-- A passing frame from an input port claims space at a port: admitted below the capacity and the passing limit, and
then its input port is the queue's last-served port; otherwise discarded (R17, R20). -/
def claimPassing (p input : Port) (f : Frame) (s : State) : State :=
  let o := s.port p
  if o.room p && decide (o.passing < passingLimit p) then
    s.setPort p { o with queue := o.queue ++ [⟨false, f⟩], lastServed := input }
  else s

/-- FLE's frame, admitted only while the queue has room (R18, R95). -/
def enqueueOwn (p : Port) (f : Frame) (s : State) : State :=
  let o := s.port p
  s.setPort p { o with queue := o.queue ++ [⟨true, f⟩] }

/-- One claim of the backlog head: admitted when the queue has room, and then it leaves the backlog (R18). -/
def claimBacklogHead (p : Port) (s : State) : State :=
  let o := s.port p
  match o.backlog with
  | [] => s
  | f :: rest => if o.room p then s.setPort p { o with queue := o.queue ++ [⟨true, f⟩], backlog := rest } else s

/-! ## Own frames (R1, R16) -/

/-- A frame the part originates: the node-ID parameter as source, hop limit 1 to neighbour scope and 64 otherwise, flags
0 (R1). -/
def ownFrame (s : State) (kind : Nat) (dst : NodeId) (body : Body) : Frame :=
  ⟨kind, if dst == neighbourDst then 1 else 64, 0, s.nodeId, dst, body⟩

/-- Where an own frame of RQU, SHU or CFU goes: the node port for destination 0 and for this node, else the degree the
lookup yields; `none` when the lookup yields NONE (R16). -/
def routeOwn (s : State) (dst : NodeId) : Option Port :=
  if dst == 0 || dst == s.nodeId then some .np else (lookup s dst).map .deg

/-- An own frame of RQU, SHU or CFU is routed as it is originated, and joins the direct claims of the event, which the arbiters
take at its end (R20); without a route it is discarded with CONGESTION NO_ROUTE (R16). -/
def placeOwn (b : OwnBlock) (f : Frame) (s : State) : State :=
  match routeOwn s f.dst with
  | some p => { s with claims := s.claims ++ [⟨b, p, f⟩] }
  | none => raise .congestion [.noRoute] s

/-- The outcome codes of a ROUTEA (R6). -/
inductive RouteOutcome where
  | found
  | foundUnheld
  | noRoute
  | noDisjoint
  | noSpectrum
  | overBudget
  | unknownNode
  | refusedNotReady
  | refusedParam
  | refusedDup
  | refusedFull
  | aborted
  | cancelled
  | referralUnreachable
  | referralTimeout
  | expired
  | stale
  | claimed
  | released
  | notOwner
  | unknown
  deriving DecidableEq, Repr

def RouteOutcome.code : RouteOutcome → Nat
  | .found => 0x00
  | .foundUnheld => 0x01
  | .noRoute => 0x02
  | .noDisjoint => 0x03
  | .noSpectrum => 0x04
  | .overBudget => 0x05
  | .unknownNode => 0x06
  | .refusedNotReady => 0x10
  | .refusedParam => 0x11
  | .refusedDup => 0x12
  | .refusedFull => 0x13
  | .aborted => 0x20
  | .cancelled => 0x21
  | .referralUnreachable => 0x22
  | .referralTimeout => 0x23
  | .expired => 0x30
  | .stale => 0x31
  | .claimed => 0x32
  | .released => 0x33
  | .notOwner => 0x34
  | .unknown => 0x35

/-- A hop as a path block carries it: the start slot in bits 0 to 8 and the regenerator mark in bit 15 (R6, R159). -/
def Hop.field (h : Hop) : HopField := ⟨h.key, h.start + (if h.regen then 32768 else 0)⟩

def PathResult.block (p : PathResult) : PathBlock := ⟨p.cost, p.hops.map Hop.field⟩

/-- The ROUTEA of RQU or SHU to a requester (R123, R178). -/
def routeaFrame (s : State) (dest : NodeId) (tag : Nat) (o : RouteOutcome) (gen : Nat) (paths : List PathResult) : Frame :=
  ownFrame s kindRoutea dest (.routea ⟨tag, o.code, gen, paths.map PathResult.block⟩)

/-- RQU or SHU originates a ROUTEA and places it. -/
def answer (b : OwnBlock) (dest : NodeId) (tag : Nat) (o : RouteOutcome) (gen : Nat) (paths : List PathResult) (s : State) :
    State := placeOwn b (routeaFrame s dest tag o gen paths) s

/-- A ROUTEA without paths that carries the current generation. -/
def answerNow (b : OwnBlock) (dest : NodeId) (tag : Nat) (o : RouteOutcome) (s : State) : State :=
  answer b dest tag o s.cmc.gen [] s

/-! ## The NOTICE of a source (R193, R194) -/

/-- The FALLBACK flag of a NOTICE (R1). -/
def fallbackFlag : BitVec 8 := 1

/-- The port a NOTICE goes to and its flags (R194). -/
def noticeRoute (s : State) : Port × BitVec 8 :=
  let dst := s.cfu.params.noticeDest
  if dst == 0 || dst == s.nodeId then (.np, 0)
  else match lookup s dst with
    | some d => (.deg d, 0)
    | none => (.np, fallbackFlag)

/-- The NOTICE of a source, with the pending snapshot given (R194). -/
def noticeFrame (s : State) (snapshot : List NoticeId) (i : NoticeId) : Frame :=
  let n := s.ntu.source i
  ⟨kindNotice, 64, (noticeRoute s).2, s.nodeId, s.cfu.params.noticeDest,
    .notice ⟨i, snapshot, n.overrun, n.detail, s.cmc.gen⟩⟩

/-- Marks a source's NOTICE as originated. -/
def markSent (s : State) (i : NoticeId) : State :=
  { s with ntu := s.ntu.setSource i { s.ntu.source i with sent := true } }

/-! ## Offering frames (R21) -/

/-- A port with nothing on offer and a ready transceiver offers the GREET of its greet slot, else its queue head. -/
def OutPort.offerNext (o : OutPort) : OutPort :=
  if o.ready && o.offer.isNone then
    match o.greetSlot, o.queue with
    | some g, _ => { o with offer := some (.greet g true) }
    | none, q :: _ => { o with offer := some (.queued q.frame) }
    | none, [] => o
  else o

/-- Every port offers what it can. -/
def offerAll (s : State) : State :=
  { s with fsw := { s.fsw with degrees := vec8 fun d => (vget s.fsw.degrees d).offerNext, np := s.fsw.np.offerNext } }

/-! ## Output ports emptied (R22, R23) -/

/-- A port with offer, queue, backlog and greet slot discarded; ready pin and last-served port kept. -/
def OutPort.discard (o : OutPort) : OutPort := ⟨[], [], none, none, o.ready, o.lastServed⟩

/-- The greet slot takes a GREET, replacing one there; a GREET on offer stays on offer (R19, R21). -/
def OutPort.placeGreet (f : Frame) (o : OutPort) : OutPort :=
  { o with
    greetSlot := some f
    offer := match o.offer with
      | some (.greet g _) => some (.greet g false)
      | some (.queued q) => some (.queued q)
      | none => none }

end Sys2Proof.Machine
end

