-- ==== Sys2Proof/Machine/Operands.lean ====
section
/-! DEFINITION. The operands of the commands: request fields (R5, R125), slot runs (R75), domain fields (R42),
watches (R197), and the parameter table with its ranges, steps, clamping, reading and writing (R208, R209). -/

namespace Sys2Proof

/-! ## ROUTEQ fields (R5) -/

def RouteqBody.hold (q : RouteqBody) : Bool := q.flags.getLsbD 0
def RouteqBody.regenAllowed (q : RouteqBody) : Bool := q.flags.getLsbD 1
def RouteqBody.nodeDisjoint (q : RouteqBody) : Bool := q.flags.getLsbD 2
def RouteqBody.slotRange (q : RouteqBody) : Bool := q.flags.getLsbD 3

/-- Kind code 1 is PAIR (R5). -/
def RouteqBody.isPair (q : RouteqBody) : Bool := q.kind == 1

/-- The slot range in force: 0 to 383 when SLOT_RANGE is clear (R5). -/
def RouteqBody.first (q : RouteqBody) : Nat := if q.slotRange then q.rangeFirst else 0
def RouteqBody.last (q : RouteqBody) : Nat := if q.slotRange then q.rangeLast else 383

/-- The field check of admission, true when every field is in range (R125). -/
def RouteqBody.fieldsOk (q : RouteqBody) : Bool :=
  decide (q.cls ≤ 2) && decide (q.kind ≤ 1) &&
  decide (1 ≤ q.width) && decide (q.width ≤ 32) && decide (1 ≤ q.maxHops) && decide (q.maxHops ≤ 32) &&
  (q.src != 0 && q.src != 65535 && q.dst != 0 && q.dst != 65535 && q.src != q.dst) &&
  (q.waypoint != 65535 && (q.waypoint == 0 || (q.waypoint != q.src && q.waypoint != q.dst))) &&
  (!q.slotRange || (decide (q.rangeFirst ≤ 383) && decide (q.rangeLast ≤ 383) && decide (q.rangeFirst ≤ q.rangeLast) &&
    decide (q.rangeFirst + q.width - 1 ≤ q.rangeLast))) &&
  (!q.nodeDisjoint || q.isPair)

/-! ## Slot runs of exclusions (R75 to R79) -/

/-- A count of 0 makes the first slot 0 (R76, R78, R79). -/
def SlotRun.normal (r : SlotRun) : SlotRun := if r.count == 0 then { r with first := 0 } else r

/-- The ranges of R75. -/
def SlotRun.rangeOk (r : SlotRun) : Bool :=
  decide (1 ≤ r.key.origin) && decide (r.key.origin ≤ 65534) && decide (r.key.num ≤ 255) && decide (r.first ≤ 383) &&
  (r.count == 0 || (decide (r.count ≤ 384) && decide (r.first + r.count - 1 ≤ 383)))

/-- The entry covers slot n of link k (R75). -/
def SlotRun.covers (r : SlotRun) (k : LinkKey) (n : Nat) : Bool :=
  r.key == k && (r.count == 0 || (decide (r.first ≤ n) && decide (n ≤ r.first + r.count - 1)))

/-! ## Domain fields (R42, R53) -/

def DomainFields.rangeOk (f : DomainFields) : Bool :=
  decide (f.nativeBase ≤ 0xFFFFFFFF) && decide (f.nodeBase ≤ 65535) &&
  decide (1 ≤ f.nodeLimit) && decide (f.nodeLimit ≤ 256) &&
  (f.gridRatio == 1 || f.gridRatio == 2 || f.gridRatio == 4 || f.gridRatio == 6) &&
  decide (f.gridOffset ≤ 383) &&
  decide (1 ≤ f.costScale) && decide (f.costScale ≤ 16) && decide (1 ≤ f.impScale) && decide (f.impScale ≤ 16)

/-- Native channels that fit wholly within slots 0 to 383 (R42). -/
def DomainFields.channelCount (f : DomainFields) : Nat := (384 - f.gridOffset) / f.gridRatio

/-! ## Watches (R197) -/

/-- The arguments of WATCH_WRITE are in range: index, key count, mode, key origins, and no key repeated. -/
def WatchArgs.argsOk (w : WatchArgs) : Bool :=
  decide (w.index ≤ 7) && decide (w.keys.length ≤ 4) && w.mode.isSome &&
  (w.keys.all fun k => k.origin != 0 && k.origin != 65535) && decide w.keys.Nodup

end Sys2Proof

namespace Sys2Proof.Machine

/-! ## The parameter table (R208, R209) -/

/-- The lock group of a parameter (R208, R210). -/
def paramGroup : ParamId → Option LockGroup
  | .nodeId => some .identity
  | .managerEntry => some .identity
  | .noticeDest => some .identity
  | .greetInterval => some .adjacency
  | .deadCount => some .adjacency
  | .qualifyCount => some .adjacency
  | .adjHoldTime => some .adjacency
  | .retrigger => some .adjacency
  | .degreeCost => some .adjacency
  | .degreeImpairment => some .adjacency
  | .regenCount => none
  | .transitAllowed => none
  | .refreshInterval => none
  | .tallyInterval => none
  | .pullWait => none
  | .settleCount => none
  | .autoCommit => none
  | .regenPenalty => some .solver
  | .resultHoldTime => some .solver
  | .claimTimeout => some .solver
  | .referralWait => some .solver
  | .reportedLifetime => some .solver

/-- The range and step of a parameter; an enumerated parameter has step 0 (R208). -/
structure ParamRange where
  low : Nat
  high : Nat
  step : Nat
  deriving DecidableEq, Repr

def paramRange : ParamId → ParamRange
  | .nodeId => ⟨0, 65534, 1⟩
  | .managerEntry => ⟨0, 65534, 1⟩
  | .noticeDest => ⟨0, 65534, 1⟩
  | .greetInterval => ⟨100, 10000, 100⟩
  | .deadCount => ⟨3, 15, 1⟩
  | .qualifyCount => ⟨2, 32, 1⟩
  | .adjHoldTime => ⟨1, 600, 1⟩
  | .retrigger => ⟨0, 1, 0⟩
  | .degreeCost => ⟨1, 65535, 1⟩
  | .degreeImpairment => ⟨0, 4095, 1⟩
  | .regenCount => ⟨0, 15, 1⟩
  | .transitAllowed => ⟨0, 1, 0⟩
  | .refreshInterval => ⟨60, 3000, 1⟩
  | .tallyInterval => ⟨5, 300, 1⟩
  | .pullWait => ⟨500, 10000, 1⟩
  | .settleCount => ⟨1, 50, 1⟩
  | .autoCommit => ⟨0, 600, 1⟩
  | .regenPenalty => ⟨0, 65535, 1⟩
  | .resultHoldTime => ⟨1, 120, 1⟩
  | .claimTimeout => ⟨5, 600, 1⟩
  | .referralWait => ⟨1, 30, 1⟩
  | .reportedLifetime => ⟨0, 86400, 1⟩

/-- The effective value of a write: clamped to the range and rounded down to the step; an enumerated parameter given
another value than 0 or 1 keeps its old value (R209). -/
def clampParam (p : ParamId) (old v : Nat) : Nat :=
  let r := paramRange p
  if r.step == 0 then (if v ≤ r.high then v else old)
  else if v < r.low then r.low
  else if r.high < v then r.high
  else v / r.step * r.step

/-- Whether a target names a parameter CFU knows, with the degree or manager entry it needs (R209).  A degree or entry given
with a parameter that needs none is ignored and returned in the answer, where the manual is silent (DESIGN CHOICE, log 31). -/
def targetOk (t : ParamTarget) : Bool :=
  match t.param, t.sel with
  | none, _ => false
  | some .managerEntry, some i => decide (i ≤ 3)
  | some .managerEntry, none => false
  | some .degreeCost, some d => decide (d ≤ 7)
  | some .degreeCost, none => false
  | some .degreeImpairment, some d => decide (d ≤ 7)
  | some .degreeImpairment, none => false
  | some _, _ => true

/-- The entry of a vector of parameters that a target selects; 0 when it selects none. -/
def selected {n : Nat} (v : Vector Nat n) (sel : Option Nat) : Nat := (sel.bind (vget? v)).getD 0

/-- A vector of parameters with the selected entry written. -/
def select {n : Nat} (v : Vector Nat n) (sel : Option Nat) (x : Nat) : Vector Nat n :=
  match sel with
  | none => v
  | some i => if h : i < n then vset v ⟨i, h⟩ x else v

/-- The value in force of a parameter (R209). -/
def getParam (p : Params) (id : ParamId) (sel : Option Nat) : Nat :=
  match id with
  | .nodeId => p.nodeId
  | .managerEntry => selected p.managers sel
  | .noticeDest => p.noticeDest
  | .greetInterval => p.greetInterval
  | .deadCount => p.deadCount
  | .qualifyCount => p.qualifyCount
  | .adjHoldTime => p.adjHoldTime
  | .retrigger => p.retrigger
  | .degreeCost => selected p.degreeCost sel
  | .degreeImpairment => selected p.degreeImp sel
  | .regenCount => p.regenCount
  | .transitAllowed => p.transitAllowed
  | .refreshInterval => p.refreshInterval
  | .tallyInterval => p.tallyInterval
  | .pullWait => p.pullWait
  | .settleCount => p.settleCount
  | .autoCommit => p.autoCommit
  | .regenPenalty => p.regenPenalty
  | .resultHoldTime => p.resultHoldTime
  | .claimTimeout => p.claimTimeout
  | .referralWait => p.referralWait
  | .reportedLifetime => p.reportedLifetime

/-- The parameter table with one value written (R209). -/
def setParam (p : Params) (id : ParamId) (sel : Option Nat) (v : Nat) : Params :=
  match id with
  | .nodeId => { p with nodeId := v }
  | .managerEntry => { p with managers := select p.managers sel v }
  | .noticeDest => { p with noticeDest := v }
  | .greetInterval => { p with greetInterval := v }
  | .deadCount => { p with deadCount := v }
  | .qualifyCount => { p with qualifyCount := v }
  | .adjHoldTime => { p with adjHoldTime := v }
  | .retrigger => { p with retrigger := v }
  | .degreeCost => { p with degreeCost := select p.degreeCost sel v }
  | .degreeImpairment => { p with degreeImp := select p.degreeImp sel v }
  | .regenCount => { p with regenCount := v }
  | .transitAllowed => { p with transitAllowed := v }
  | .refreshInterval => { p with refreshInterval := v }
  | .tallyInterval => { p with tallyInterval := v }
  | .pullWait => { p with pullWait := v }
  | .settleCount => { p with settleCount := v }
  | .autoCommit => { p with autoCommit := v }
  | .regenPenalty => { p with regenPenalty := v }
  | .resultHoldTime => { p with resultHoldTime := v }
  | .claimTimeout => { p with claimTimeout := v }
  | .referralWait => { p with referralWait := v }
  | .reportedLifetime => { p with reportedLifetime := v }

/-- The dead interval in force, in ms (R25). -/
def Params.deadInterval (p : Params) : Nat := p.deadCount * p.greetInterval

end Sys2Proof.Machine
end

