-- ==== Sys2Proof/Machine/Database.lean ====
section
/-! DEFINITION. The topology database (04): working and committed versions, writes and insertions, refusals, removal,
aging, linger, usable links, and the exclusion list; with the pull-list checks that follow each change (R101). -/

namespace Sys2Proof.Machine

/-! ## Versions of a record (R60 to R62, R68 to R71) -/

variable {α : Type}

/-- The working version: the pending part when present, else the committed part (R60). -/
def Versions.working (v : Versions α) : Option (Part α) := v.pending.or v.committed

def Part.isActive (p : Part α) : Bool := p.state == .active

/-- Committed ACTIVE, for a record that is present (R60). -/
def Versions.committedActive (v : Versions α) : Bool := v.committed.any Part.isActive

/-- The working version is ACTIVE. -/
def Versions.workingActive (v : Versions α) : Bool := v.working.any Part.isActive

/-- A write of a pending part with an age and, for a foreign record, the native identifier (R62). -/
def Versions.write (p : Part α) (age : Nat) (native : Option Nat) (v : Versions α) : Versions α :=
  { v with
    pending := some p
    age := age
    native := native
    linger := match p.state with
      | .active => none
      | .withdrawn => some Config.lingerSeconds }

/-- A pending WITHDRAWN copy of the working version with age 0 and linger 60 s (R51, R68). -/
def Versions.withdraw (v : Versions α) : Versions α :=
  match v.working with
  | none => v
  | some p => { v with pending := some { p with state := .withdrawn }, age := 0, linger := some Config.lingerSeconds }

/-- A new record: only a pending part (R63). -/
def Versions.insert (domain : Nat) (p : Part α) (age : Nat) (native : Option Nat) : Versions α :=
  Versions.write p age native ⟨domain, none, none, none, 0, none⟩

/-- One expiry of the age clock: ages of records that are not own, and every linger, count down to 0 (R67). -/
def Versions.tick (own : Bool) (v : Versions α) : Versions α :=
  { v with age := if own then v.age else v.age - 1, linger := v.linger.map (· - 1) }

/-- The record is due for AGE_EXPIRY: age 0 with an ACTIVE working version (R68). -/
def Versions.ageDue (v : Versions α) : Bool := v.age == 0 && v.workingActive

/-- The record may be removed at its linger expiry: nothing that the committed view shows goes with it (R70). -/
def Versions.lingerDue (v : Versions α) : Bool :=
  v.linger == some 0 &&
  match v.committed, v.pending with
  | none, some p => !p.isActive
  | some p, none => !p.isActive
  | some _, some _ => false
  | none, none => false

/-- The record after a promotion: the pending part, if any, becomes the committed part (R71). -/
def Versions.promote (v : Versions α) : Versions α :=
  match v.pending with
  | none => v
  | some p => { v with committed := some p, pending := none }

/-- The promotion removes the record: it commits WITHDRAWN with linger 0 (R71). -/
def Versions.promotionRemoves (v : Versions α) : Bool := v.pending.any (fun p => !p.isActive) && v.linger == some 0

/-! ## Finding records -/

def Tdb.findNode (t : Tdb) (id : NodeId) : Option (Nat × NodeRec) := t.nodes.find? fun e => e.2.id == id

def Tdb.findLink (t : Tdb) (k : LinkKey) : Option (Nat × LinkRec) := t.links.find? fun e => e.2.key == k

/-- A node is committed ACTIVE (R60). -/
def Tdb.nodeActive (t : Tdb) (id : NodeId) : Bool := (t.findNode id).any fun e => e.2.ver.committedActive

/-- The committed part of a node (R60). -/
def Tdb.committedNode (t : Tdb) (id : NodeId) : Option (Part NodeContent) :=
  (t.findNode id).bind fun e => e.2.ver.committed

/-- The committed part of a link (R60). -/
def Tdb.committedLink (t : Tdb) (k : LinkKey) : Option (Part LinkContent) :=
  (t.findLink k).bind fun e => e.2.ver.committed

/-- A link is committed ACTIVE (R60). -/
def Tdb.linkActive (t : Tdb) (k : LinkKey) : Bool := (t.findLink k).any fun e => e.2.ver.committedActive

/-- The twin a link part names (R74, R114). -/
def LinkContent.twin (c : LinkContent) : Option LinkKey := c.farNum.map fun n => ⟨c.far, n⟩

/-- A link record is usable in the committed view: it is committed ACTIVE, so are both end nodes, and a native link that
carries a far link number has its twin committed ACTIVE and pointing back (R74). -/
def Tdb.recordUsable (t : Tdb) (r : LinkRec) : Bool :=
  match r.ver.committed with
  | none => false
  | some p =>
    p.isActive && t.nodeActive r.key.origin && t.nodeActive p.content.far &&
    (r.ver.domain != 0 ||
      match p.content.twin with
      | none => true
      | some k => (t.committedLink k).any fun q =>
          q.isActive && q.content.far == r.key.origin && q.content.farNum == some r.key.num)

/-- A link is usable in the committed view (R74). -/
def Tdb.usable (t : Tdb) (k : LinkKey) : Bool := (t.findLink k).any fun e => t.recordUsable e.2

/-! ## Summaries (R96) -/

/-- The sequences of the working versions of all records of an origin. -/
def Tdb.sequences (t : Tdb) (o : NodeId) : List Nat :=
  ((t.nodes.filter fun e => e.2.id == o).filterMap fun e => e.2.ver.working.map (·.seq)) ++
  ((t.links.filter fun e => e.2.key.origin == o).filterMap fun e => e.2.ver.working.map (·.seq))

/-- The summary of an origin; absent when the origin is lacked. -/
def Tdb.summary (t : Tdb) (o : NodeId) : Option TallyEntry :=
  match t.sequences o with
  | [] => none
  | q :: qs => some ⟨o, (q :: qs).foldl max 0, (q :: qs).length, (q :: qs).foldl (· + ·) 0 % 2 ^ 32⟩

/-- The keys of all records of an origin: the node record, then the link records by ascending link number (R98, R102). -/
def Tdb.keysOf (t : Tdb) (o : NodeId) : List RecordKey :=
  ((t.nodes.filter fun e => e.2.id == o).map fun e => .node e.2.id) ++
  ((sortBy keyLt ((t.links.filter fun e => e.2.key.origin == o).map (·.2.key))).map .link)

/-- The origins with a record held, ascending (R97). -/
def Tdb.origins (t : Tdb) : List NodeId := sortBy natLt (t.nodes.map (·.2.id) ++ t.links.map (·.2.key.origin))

/-- The origin of a record key. -/
def keyOrigin : RecordKey → NodeId
  | .node id => id
  | .link k => k.origin

/-- The working version's sequence of a record held under a key (R91). -/
def Tdb.heldSeq (t : Tdb) : RecordKey → Option Nat
  | .node id => (t.findNode id).bind fun e => e.2.ver.working.map (·.seq)
  | .link k => (t.findLink k).bind fun e => e.2.ver.working.map (·.seq)

/-- An origin is INCOMPLETE (R65). -/
def Tdb.isIncomplete (t : Tdb) (o : NodeId) : Bool :=
  t.incomplete.contains o || (t.findNode o).any fun e => e.2.incomplete

/-! ## Pull lists and send lists (R94, R99 to R101) -/

/-- A pull-list entry wants exactly what the part now holds. -/
def PullEntry.matched (t : Tdb) (e : PullEntry) : Bool := t.summary e.origin == some ⟨e.origin, e.highest, e.count, e.sum⟩

/-- The entries of an origin that meet a test leave a pull list, and the origin leaves the waiting PULL (R100, R101). -/
def FleDegree.dropPulls (o : NodeId) (hit : PullEntry → Bool) (x : FleDegree) : FleDegree :=
  if x.pulls.any fun e => e.origin == o && hit e then
    { x with pulls := x.pulls.filter fun e => !(e.origin == o && hit e), waiting := x.waiting.filter (· != o) }
  else x

/-- Every degree's flood lists rewritten in place. -/
def mapFlood (f : Degree → FleDegree → FleDegree) (s : State) : State :=
  { s with fle := { s.fle with degrees := vec8 fun d => f d (vget s.fle.degrees d) } }

/-- The check made at each write, insertion or removal of a record of an origin: satisfied entries leave (R101). -/
def checkPulls (o : NodeId) (s : State) : State := mapFlood (fun _ => FleDegree.dropPulls o (PullEntry.matched s.tdb)) s

/-- The entries of an origin that became INCOMPLETE leave (R101). -/
def dropPullsOf (o : NodeId) (s : State) : State := mapFlood (fun _ => FleDegree.dropPulls o fun _ => true) s

/-- A key leaves every send list (R72, R94). -/
def dropKey (k : RecordKey) (s : State) : State :=
  mapFlood (fun _ x => { x with sendList := x.sendList.filter (· != k) }) s

/-- The working view has changed (R110). -/
def noteChange (s : State) : State := { s with cmc := { s.cmc with changed := true } }

/-! ## Writing and inserting (R61 to R65) -/

/-- A write of a node record by FLE. -/
structure NodeWrite where
  id : NodeId
  domain : Nat
  native : Option Nat
  part : Part NodeContent
  age : Nat
  deriving DecidableEq, Repr

/-- A write of a link record by FLE. -/
structure LinkWrite where
  key : LinkKey
  domain : Nat
  native : Option Nat
  part : Part LinkContent
  age : Nat
  deriving DecidableEq, Repr

/-- A key of an own record: the own node record, or an own link record of D0 to D7 (R63). -/
def isOwnKey (self : NodeId) : RecordKey → Bool
  | .node id => id == self
  | .link k => k.origin == self && decide (k.num ≤ 7)

/-- An insertion refused for lack of room: its origin is marked INCOMPLETE, TABLE_FULL is raised, and the origin's
pull-list entries leave (R64, R101). -/
def refuseInsertion (o : NodeId) (table : Member) (s : State) : State :=
  let t := s.tdb
  let t' := match t.findNode o with
    | some (i, r) => { t with nodes := tput t.nodes i { r with incomplete := true } }
    | none =>
      if t.incomplete.contains o then t
      else { t with incomplete := (if t.incomplete.length < Config.incompleteSize then t.incomplete
          else t.incomplete.drop 1) ++ [o] }
  dropPullsOf o (raise .tableFull [table] { s with tdb := t' })

/-- What follows every write or insertion of a record of an origin (R101, R110). -/
def afterWrite (o : NodeId) (s : State) : State := checkPulls o (noteChange s)

/-- Room for a node record: 256 in all for the own node record, 255 others for another (R63). -/
def Tdb.nodeRoom (t : Tdb) (self id : NodeId) : Bool :=
  if id == self then decide (t.nodes.length < Config.nodeTableSize)
  else decide ((t.nodes.filter fun e => e.2.id != self).length < Config.otherNodeLimit)

/-- Room for a link record: 2048 in all for an own one, 2040 others for another (R63). -/
def Tdb.linkRoom (t : Tdb) (self : NodeId) (k : LinkKey) : Bool :=
  if isOwnKey self (.link k) then decide (t.links.length < Config.linkTableSize)
  else decide ((t.links.filter fun e => !isOwnKey self (.link e.2.key)).length < Config.otherLinkLimit)

/-- A write of a node record: to an existing record of the same domain, or an insertion at the lowest free index.  The
Bool says that it was stored (R61 to R65).  An insertion that meets another domain and finds no room is refused by R61, which comes
first here (DESIGN CHOICE, log 38). -/
def writeNode (w : NodeWrite) (s : State) : State × Bool :=
  let t := s.tdb
  match t.findNode w.id with
  | some (i, r) =>
    if r.ver.domain != w.domain then (s, false)
    else
      let r' := { r with ver := r.ver.write w.part w.age w.native }
      (afterWrite w.id { s with tdb := { t with nodes := tput t.nodes i r' } }, true)
  | none =>
    if t.links.any fun e => e.2.key.origin == w.id && e.2.ver.domain != w.domain then (s, false)
    else if !t.nodeRoom s.nodeId w.id then (refuseInsertion w.id .nodeTable s, false)
    else match lowestFree t.nodes Config.nodeTableSize with
      | none => (refuseInsertion w.id .nodeTable s, false)
      | some i =>
        let r : NodeRec := ⟨w.id, Versions.insert w.domain w.part w.age w.native, t.incomplete.contains w.id⟩
        (afterWrite w.id { s with tdb :=
          { t with nodes := tput t.nodes i r, incomplete := t.incomplete.filter (· != w.id) } }, true)

/-- A write of a link record, as `writeNode`, the domain tested before room too (log 38); a key of this node with link
number 8 to 255 is not stored (R63). -/
def writeLink (w : LinkWrite) (s : State) : State × Bool :=
  let t := s.tdb
  match t.findLink w.key with
  | some (i, r) =>
    if r.ver.domain != w.domain then (s, false)
    else
      let r' := { r with ver := r.ver.write w.part w.age w.native }
      (afterWrite w.key.origin { s with tdb := { t with links := tput t.links i r' } }, true)
  | none =>
    if w.key.origin == s.nodeId && decide (7 < w.key.num) then (s, false)
    else if (t.findNode w.key.origin).any fun e => e.2.ver.domain != w.domain then (s, false)
    else if !t.linkRoom s.nodeId w.key then (refuseInsertion w.key.origin .linkTable s, false)
    else match lowestFree t.links Config.linkTableSize with
      | none => (refuseInsertion w.key.origin .linkTable s, false)
      | some i =>
        let r : LinkRec := ⟨w.key, Versions.insert w.domain w.part w.age w.native⟩
        (afterWrite w.key.origin { s with tdb := { t with links := tput t.links i r } }, true)

/-! ## Removal (R65, R72) -/

/-- Every INCOMPLETE mark is cleared (R65). -/
def clearIncomplete (t : Tdb) : Tdb :=
  { t with nodes := tmap (fun r => { r with incomplete := false }) t.nodes, incomplete := [] }

/-- The record of a key taken out of its table. -/
def Tdb.erase (t : Tdb) : RecordKey → Tdb
  | .node id => { t with nodes := t.nodes.filter fun e => e.2.id != id }
  | .link k => { t with links := t.links.filter fun e => e.2.key != k }

/-- The removal of a record with its effects (R72, R101). -/
def removeRecord (k : RecordKey) (s : State) : State :=
  checkPulls (keyOrigin k) (dropKey k { s with tdb := clearIncomplete (s.tdb.erase k) })

/-! ## Aging and linger (R67 to R70) -/

/-- Every record and every REPORTED exclusion at one expiry of the age clock (R67, R79). -/
def Tdb.tick (self : NodeId) (t : Tdb) : Tdb :=
  { t with
    nodes := tmap (fun r => { r with ver := r.ver.tick (isOwnKey self (.node r.id)) }) t.nodes
    links := tmap (fun r => { r with ver := r.ver.tick (isOwnKey self (.link r.key)) }) t.links
    exclusions := t.exclusions.map fun e => { e with lifetime := e.lifetime.map (· - 1) } }

/-- A predicate on the versions of the record held under a key; false when there is none. -/
def Tdb.recordIs (t : Tdb) (pn : Versions NodeContent → Bool) (pl : Versions LinkContent → Bool) : RecordKey → Bool
  | .node id => (t.findNode id).any fun e => pn e.2.ver
  | .link k => (t.findLink k).any fun e => pl e.2.ver

/-- The versions of the record held under a key rewritten in place. -/
def Tdb.updateRecord (t : Tdb) (fn : Versions NodeContent → Versions NodeContent)
    (fl : Versions LinkContent → Versions LinkContent) : RecordKey → Tdb
  | .node id => match t.findNode id with
    | none => t
    | some (i, r) => { t with nodes := tput t.nodes i { r with ver := fn r.ver } }
  | .link k => match t.findLink k with
    | none => t
    | some (i, r) => { t with links := tput t.links i { r with ver := fl r.ver } }

/-- The age of a record has run out: an ACTIVE working version becomes a pending WITHDRAWN part (R68, R110). -/
def expireAge (k : RecordKey) (s : State) : State :=
  if s.tdb.recordIs Versions.ageDue Versions.ageDue k then
    afterWrite (keyOrigin k) { s with tdb := s.tdb.updateRecord Versions.withdraw Versions.withdraw k }
  else s

/-- The linger of a record has run out: it is removed, or kept until the next promotion (R70, R110). -/
def expireLinger (k : RecordKey) (s : State) : State :=
  if s.tdb.recordIs Versions.lingerDue Versions.lingerDue k then noteChange (removeRecord k s) else s

/-! ## The exclusion list (R75 to R79) -/

/-- What an addition does (R76). -/
inductive AddEffect where
  | unchanged
  | madeLoaded
  | restarted
  | appended
  | refused
  deriving DecidableEq, Repr

/-- The lifetime a REPORTED entry takes from the parameter: absent for 0 (R75). -/
def reportedLifetime (p : Params) : Option Nat := if p.reportedLifetime == 0 then none else some p.reportedLifetime

/-- Rewrites the entry equal to a run. -/
def updateExclusion (r : SlotRun) (f : Exclusion → Exclusion) (l : List Exclusion) : List Exclusion :=
  l.map fun e => if e.run == r then f e else e

/-- An addition to the exclusion list (R76). -/
def addExclusion (r0 : SlotRun) (origin : ExclusionOrigin) (s : State) : State × AddEffect :=
  let r := r0.normal
  let l := s.tdb.exclusions
  let put (l' : List Exclusion) : State := { s with tdb := { s.tdb with exclusions := l' } }
  match l.find? fun e => e.run == r with
  | some e =>
    match e.origin, origin with
    | .loaded, _ => (s, .unchanged)
    | .reported, .loaded => (put (updateExclusion r (fun e => { e with origin := .loaded, lifetime := none }) l), .madeLoaded)
    | .reported, .reported =>
      (put (updateExclusion r (fun e => { e with lifetime := reportedLifetime s.cfu.params }) l), .restarted)
  | none =>
    if l.length < Config.exclusionSize then
      let life := match origin with
        | .loaded => none
        | .reported => reportedLifetime s.cfu.params
      ((put (l ++ [⟨r, origin, life, s.now, s.stamp + 1⟩])).nextStamp, .appended)
    else (s, .refused)

/-- The entry equal to a run is removed and those behind it move up (R79). -/
def removeExclusion (r : SlotRun) (s : State) : State :=
  { s with tdb := { s.tdb with exclusions := s.tdb.exclusions.filter fun e => e.run != r } }

/-- The position of the entry equal to a run, counted from the head (R77). -/
def exclusionPosition (r : SlotRun) (s : State) : Option Nat := s.tdb.exclusions.findIdx? fun e => e.run == r

end Sys2Proof.Machine
end

