-- ==== Sys2Proof/Machine/Translate.lean ====
section
/-! DEFINITION. The domain translation unit (03) as functions of a domain entry: translating a foreign ADVERT into a native
record (R44 to R46), converting a record back (R52), the capacity warning (R48) and the counting of a fault (R49). -/

namespace Sys2Proof.Machine

/-- A record as FLE writes it: a node record or a link record. -/
inductive RecordWrite where
  | node (w : NodeWrite)
  | link (w : LinkWrite)
  deriving DecidableEq, Repr

def RecordWrite.key : RecordWrite → RecordKey
  | .node w => .node w.id
  | .link w => .link w.key

def RecordWrite.seq : RecordWrite → Nat
  | .node w => w.part.seq
  | .link w => w.part.seq

/-- A written part is WITHDRAWN when the age written is 0 (R62). -/
def stateOfAge (age : Nat) : PartState := if age == 0 then .withdrawn else .active

/-- The record a native ADVERT carries (R4, R90); a node part takes the arrival degree as its source degree (R91). -/
def nativeWrite (d : Degree) (a : AdvertBody) : RecordWrite :=
  match a.record with
  | .node regen transit =>
    .node ⟨a.origin, 0, none, ⟨a.seq, stateOfAge a.age, ⟨regen, transit == 1, .degree d⟩⟩, a.age⟩
  | .link num far farFlags farNum cost imp used blocked =>
    .link ⟨⟨a.origin, num⟩, 0, none, ⟨a.seq, stateOfAge a.age,
      ⟨far, if farFlags.getLsbD 0 then some farNum else none, cost, imp, SlotMap.make used blocked⟩⟩, a.age⟩

/-- The offset of a native node ID in the mapped block, when it is not below 0 and below the node limit, and the internal
ID lies in 1 to 65534 (R44). -/
def mapNode (f : DomainFields) (n : Nat) : Option Nat :=
  if n < f.nativeBase then none
  else
    let offset := n - f.nativeBase
    if offset < f.nodeLimit && nodeIdOk (f.nodeBase + offset) then some offset else none

/-- No record of the node ID, and no link record of that origin, is held under another domain (R44). -/
def originFree (t : Tdb) (domain : Nat) (id : NodeId) : Bool :=
  !((t.findNode id).any fun e => e.2.ver.domain != domain) &&
  !(t.links.any fun e => e.2.key.origin == id && e.2.ver.domain != domain)

/-- A translated origin: mapped, not this node, and not another domain's (R44). -/
def mapOrigin (t : Tdb) (self : NodeId) (domain : Nat) (f : DomainFields) (n : Nat) : Option Nat :=
  match mapNode f n with
  | none => none
  | some offset =>
    let id := f.nodeBase + offset
    if id != self && originFree t domain id then some offset else none

/-- The channel of a slot, if a channel below the channel count covers it (R46). -/
def slotChannel (f : DomainFields) (n : Nat) : Option Nat :=
  if n < f.gridOffset then none
  else
    let c := (n - f.gridOffset) / f.gridRatio
    if c < f.channelCount then some c else none

/-- The slot map of two native maps: slots of no channel are BLOCKED (R46). -/
def mapChannels (f : DomainFields) (used blocked : BitVec 384) : SlotMap :=
  SlotMap.make
    (mapBits fun n => match slotChannel f n with
      | none => false
      | some c => used.getLsbD c)
    (mapBits fun n => match slotChannel f n with
      | none => true
      | some c => blocked.getLsbD c)

/-- A channel at or above the channel count has its used or blocked bit set (R46). -/
def gridFault (f : DomainFields) (used blocked : BitVec 384) : Bool := (used ||| blocked).toNat >>> f.channelCount != 0

/-- What translating a foreign ADVERT gives: a fault, or the native record with the offsets of its node IDs (R43 to R47). -/
inductive Translation where
  | fault (k : FaultKind)
  | record (w : RecordWrite) (offsets : List Nat)
  deriving DecidableEq, Repr

/-- Translation of an ADVERT of a foreign domain through its entry (R44 to R47). -/
def translate (t : Tdb) (self : NodeId) (d : Degree) (f : DomainFields) (a : AdvertBody) : Translation :=
  if !f.valid then .fault .unmapped
  else match a.record with
    | .node regen transit =>
      match mapOrigin t self a.domain f a.nativeOrigin with
      | none => .fault .range
      | some o =>
        .record (.node ⟨f.nodeBase + o, a.domain, some a.nativeOrigin,
          ⟨a.seq, stateOfAge a.age, ⟨regen, transit == 1, .degree d⟩⟩, a.age⟩) [o]
    | .link num _ _ _ cost imp used blocked =>
      match mapOrigin t self a.domain f a.nativeOrigin, mapNode f a.nativeFar with
      | some o, some o' =>
        if 255 < num then .fault .range
        else if gridFault f used blocked then .fault .grid
        else
          .record (.link ⟨⟨f.nodeBase + o, num⟩, a.domain, some num, ⟨a.seq, stateOfAge a.age,
            ⟨f.nodeBase + o', none, min (cost * f.costScale) 65535, min (imp * f.impScale) 4095,
              mapChannels f used blocked⟩⟩, a.age⟩) [o, o']
      | _, _ => .fault .range

/-- The warning threshold (R48). -/
def warnThreshold (f : DomainFields) : Nat := f.nodeLimit - f.nodeLimit / 8

/-- A translation without a fault warns a CLEAN entry when an offset is at or above the threshold (R48). -/
def warns (e : DomainEntry) (offsets : List Nat) : Bool :=
  e.state == .clean && offsets.any fun o => decide (warnThreshold e.fields ≤ o)

/-- The entry after a fault is counted (R47, R49). -/
def DomainEntry.countFault (k : FaultKind) (e : DomainEntry) : DomainEntry :=
  match e.state with
  | .clean => { e with state := .faulted, outstanding := true, lastFault := k }
  | .warned => { e with state := .faulted, outstanding := true, lastFault := k }
  | .faulted =>
    if e.outstanding then { e with state := .quarantined, lastFault := k }
    else { e with outstanding := true, lastFault := k }
  | .quarantined => e

/-! ## Sending a record (R52, R95) -/

/-- The native ID of an internal one, when it lies in the mapped block and fits 32 bits (R52). -/
def unmapNode (f : DomainFields) (id : NodeId) : Option Nat :=
  if f.nodeBase ≤ id && id < f.nodeBase + f.nodeLimit && f.nativeBase + (id - f.nodeBase) ≤ 0xFFFFFFFF then
    some (f.nativeBase + (id - f.nodeBase))
  else none

/-- The slots of a channel. -/
def channelSlots (f : DomainFields) (c : Nat) : List Nat :=
  (List.range f.gridRatio).map fun i => f.gridOffset + c * f.gridRatio + i

/-- The native blocked map of a slot map: every slot of the channel is BLOCKED (R52). -/
def channelsBlocked (f : DomainFields) (m : SlotMap) : BitVec 384 :=
  mapBits fun c => decide (c < f.channelCount) && (channelSlots f c).all fun n => m.slot n == .blocked

/-- The native used map: not every slot is BLOCKED and some slot is USED (R52). -/
def channelsUsed (f : DomainFields) (m : SlotMap) : BitVec 384 :=
  mapBits fun c => decide (c < f.channelCount) && !((channelSlots f c).all fun n => m.slot n == .blocked) &&
    (channelSlots f c).any fun n => m.slot n == .used

/-- A bit as the number 0 or 1. -/
def bit (b : Bool) : Nat := if b then 1 else 0

/-- The ADVERT of a native record (R4, R95). -/
def nativeAdvert (origin : NodeId) (seq age : Nat) (r : AdvertRecord) : AdvertBody := ⟨0, origin, seq, age, r, 0, 0⟩

/-- The ADVERT of a node record, in the native form of its domain; absent when the conversion fails (R52, R95). -/
def nodeAdvert (dtu : Vector DomainEntry 16) (r : NodeRec) : Option AdvertBody :=
  match r.ver.working with
  | none => none
  | some p =>
    let rec' : AdvertRecord := .node p.content.regen (bit p.content.transit)
    if r.ver.domain == 0 then some (nativeAdvert r.id p.seq r.ver.age rec')
    else match vget? dtu r.ver.domain with
      | none => none
      | some e =>
        if !e.fields.valid || e.state == .quarantined then none
        else (unmapNode e.fields r.id).map fun o => ⟨r.ver.domain, 0, p.seq, r.ver.age, rec', o, 0⟩

/-- The ADVERT of a link record, in the native form of its domain; absent when the conversion fails (R52, R95). -/
def linkAdvert (dtu : Vector DomainEntry 16) (r : LinkRec) : Option AdvertBody :=
  match r.ver.working with
  | none => none
  | some p =>
    let c := p.content
    if r.ver.domain == 0 then
      let flags : BitVec 8 := if c.farNum.isSome then 1 else 0
      some (nativeAdvert r.key.origin p.seq r.ver.age
        (.link r.key.num c.far flags (c.farNum.getD 0) c.cost c.imp c.slots.used c.slots.blocked))
    else match vget? dtu r.ver.domain with
      | none => none
      | some e =>
        if !e.fields.valid || e.state == .quarantined then none
        else match unmapNode e.fields r.key.origin, unmapNode e.fields c.far with
          | some o, some o' =>
            some ⟨r.ver.domain, 0, p.seq, r.ver.age,
              .link (r.ver.native.getD r.key.num) 0 0 0 (max 1 (c.cost / e.fields.costScale)) (c.imp / e.fields.impScale)
                (channelsUsed e.fields c.slots) (channelsBlocked e.fields c.slots), o, o'⟩
          | _, _ => none

end Sys2Proof.Machine
end

