-- ==== Sys2Proof/Machine/Commit.lean ====
section
/-! DEFINITION. Lanes and the request queue as the commit controller reaches them (R128, R131, R143 to R145, R163), and
the commit controller's requests, settling and abort (R106 to R112). -/

namespace Sys2Proof.Machine

/-! ## The request queue (R128, R131) -/

/-- The class of a queued request. -/
def Request.cls (r : Request) : Nat := r.body.cls

/-- An admitted request joins the tail of its class (R128). -/
def joinTail (r : Request) (q : List Request) : List Request :=
  (q.filter fun e => decide (e.cls ≤ r.cls)) ++ r :: q.filter fun e => decide (r.cls < e.cls)

/-- A returned request stands at the head of its class (R131). -/
def joinHead (r : Request) (q : List Request) : List Request :=
  (q.filter fun e => decide (e.cls < r.cls)) ++ r :: q.filter fun e => decide (r.cls ≤ e.cls)

/-- RSV or SHU returns a request: it is requeued with its retry count increased, or answered ABORTED when the count would
pass 2 (R131). -/
def returnRequest (r : Request) (s : State) : State :=
  if r.retries < 2 then
    { s with rqu := { s.rqu with queue := joinHead { r with retries := r.retries + 1 } s.rqu.queue } }
  else answerNow .rqu r.requester r.body.tag .aborted s

/-! ## Lanes (R143 to R145) -/

def Rsv.lane (r : Rsv) : LaneId → Lane
  | .l0 => r.l0
  | .l1 => r.l1

def Rsv.setLane (r : Rsv) (l : LaneId) (x : Lane) : Rsv :=
  match l with
  | .l0 => { r with l0 := x }
  | .l1 => { r with l1 := x }

def Lane.isIdle (l : Lane) : Bool := l.work == .idle

/-- The generation a lane's work runs against (R145). -/
def Work.gen : Work → Nat
  | .idle => 0
  | .computing _ cap => cap.gen
  | .tree g => g

/-- The lane after its work ended: IDLE, with its history moved; a lane already IDLE is left as it is (R144, R145). -/
def Lane.finish (e : WorkEnd) (l : Lane) : Lane :=
  if l.isIdle then l else ⟨.idle, some ⟨e, l.work.gen⟩, l.current⟩

/-- The request a lane holds. -/
def Lane.request (l : Lane) : Option Request :=
  match l.work with
  | .idle => none
  | .computing r _ => some r
  | .tree _ => none

/-- The requests held by the lanes, L0's first; a PAIR on both lanes counts once (R127, R143). -/
def Rsv.requests (r : Rsv) : List Request :=
  match r.l0.request, r.l1.request with
  | some a, some b => if a.body.isPair then [a] else [a, b]
  | some a, none => [a]
  | none, some b => [b]
  | none, none => []

/-- Both lanes ended. -/
def Rsv.finishAll (e : WorkEnd) (r : Rsv) : Rsv := { r with l0 := r.l0.finish e, l1 := r.l1.finish e }

/-- A waiting tree-build job starts when L0 is IDLE (R144, R165). -/
def startTree (s : State) : State :=
  match s.rsv.treeJob with
  | none => s
  | some g =>
    if s.rsv.l0.isIdle then { s with rsv := { s.rsv with l0 := { s.rsv.l0 with work := .tree g }, treeJob := none } }
    else s

/-- The abort of an urgent drain: both lanes end ABORTED and their requests are returned, the later admitted first
(R112, R132, R163, R164). -/
def abort (s : State) : State :=
  let rs := sortStable (fun a b => decide (b.admission ≤ a.admission)) s.rsv.requests
  rs.foldl (fun t r => returnRequest r t) { s with rsv := s.rsv.finishAll .aborted }

/-! ## Requests to CMC (R109 to R111) -/

/-- Entry to SETTLING (R110). -/
def enterSettling (s : State) : State :=
  { s with cmc := { s.cmc with
      state := .settling, settle := 0, checks := 0, changed := false, checkTimer := some (s.now + Config.checkPeriod) } }

/-- Entry to DRAINING in a mode, the check timer stopped (R109, R111, R118). -/
def enterDraining (mode : DrainMode) (forced : Bool) (s : State) : State :=
  { s with cmc := { s.cmc with state := .draining, mode := mode, forced := forced, checkTimer := none } }

/-- Entry to DRAINING-URGENT with its abort (R109, R112, R118). -/
def startUrgent (s : State) : State := abort (enterDraining .urgent false s)

/-- The upgrade of DRAINING-NORMAL to URGENT with its abort (R109, R112, R118). -/
def upgradeUrgent (s : State) : State := abort { s with cmc := { s.cmc with mode := .urgent } }

/-- A normal request (R109). -/
def normalRequest (s0 : State) : State :=
  let s := { s0 with cmc := { s0.cmc with normalReq := true } }
  match s.cmc.state with
  | .idle => if s.cmc.frozen then s else enterSettling s
  | .settling => s
  | .draining => s

/-- An urgent request (R109). -/
def urgentRequest (s0 : State) : State :=
  let s := { s0 with cmc := { s0.cmc with urgentReq := true } }
  match s.cmc.state, s.cmc.mode with
  | .idle, _ => if s.cmc.frozen then s else startUrgent s
  | .settling, _ => if s.cmc.frozen then s else startUrgent s
  | .draining, .normal => if s.cmc.frozen then s else upgradeUrgent s
  | .draining, .urgent => s

/-- Any record of either table has a pending part (R107). -/
def Tdb.anyPending (t : Tdb) : Bool :=
  (t.nodes.any fun e => e.2.ver.pending.isSome) || t.links.any fun e => e.2.ver.pending.isSome

/-- The pull list of an UP degree holds an entry, or a degree is in QUALIFY (R110). -/
def quietBlocked (s : State) : Bool :=
  allDegrees.any fun d => (s.isUp d && !(s.flood d).pulls.isEmpty) || (s.adjacency d).state == .qualify

/-- One quiet check and its outcome (R110, R111). -/
def quietCheck (s : State) : State :=
  let c := s.cmc
  let settle := if c.changed then 0 else if quietBlocked s then c.settle else c.settle + 1
  let checks := c.checks + 1
  let s' := { s with cmc := { c with settle := settle, checks := checks, changed := false } }
  let count := s.cfu.params.settleCount
  if count ≤ settle then enterDraining .normal false s'
  else if 20 * count ≤ checks then enterDraining .normal true s'
  else { s' with cmc := { s'.cmc with checkTimer := some (s.now + Config.checkPeriod) } }

end Sys2Proof.Machine
end

