-- ==== Sys2Proof/Machine/Flood.lean ====
section
/-! DEFINITION. The flood engine (05): origination of own records, taking received records, send lists, tallies, pulls,
and the frame FLE claims space for. -/

namespace Sys2Proof.Machine

/-! ## Send lists (R94) -/

/-- A key joins the tail of a send list unless it is already in it. -/
def FleDegree.addKey (k : RecordKey) (x : FleDegree) : FleDegree :=
  if x.sendList.contains k then x else { x with sendList := x.sendList ++ [k] }

/-- A key is added to the send list of one degree. -/
def addKey (d : Degree) (k : RecordKey) (s : State) : State := s.setFlood d ((s.flood d).addKey k)

/-- A key is added to the send list of every UP degree, or of every one but the degree given. -/
def addKeyUp (but : Option Degree) (k : RecordKey) (s : State) : State :=
  mapFlood (fun d x => if s.isUp d && but != some d then x.addKey k else x) s

/-! ## Own records (R83 to R87) -/

/-- The own sequence counter is live (R83). -/
def Fle.live (f : Fle) : Bool := decide (f.seq ≤ Config.lastSequence)

/-- The current truth of the own node record (R85). -/
def ownNodeContent (s : State) : NodeContent := ⟨s.cfu.params.regenCount, s.cfu.params.transitAllowed == 1, .own⟩

/-- The current truth of the own link record of a degree; absent while the degree is not UP (R85). -/
def ownLinkContent (s : State) (d : Degree) : Option LinkContent :=
  if s.isUp d then
    (s.adjacency d).nbr.map fun n =>
      ⟨n.node, if n.domain == 0 then some n.degree else none, vget s.cfu.params.degreeCost d,
        vget s.cfu.params.degreeImp d, vget s.fle.slotMaps d⟩
  else none

/-- The content of a withdrawal: that of the held working version, or the fixed content when none is held (R85). -/
def withdrawalContent (s : State) (k : LinkKey) : LinkContent :=
  match (s.tdb.findLink k).bind fun e => e.2.ver.working with
  | some p => p.content
  | none => ⟨s.nodeId, none, 1, 0, SlotMap.allFree⟩

/-- What an attempted origination writes while the counter is exhausted, from the working version held (R84). -/
def exhaustedPart {α : Type} (held : Option (Part α)) (truth : Option α) : Option (Part α) :=
  match truth, held with
  | some _, some p => if p.isActive then none else some ⟨p.seq, .active, truth.getD p.content⟩
  | some c, none => some ⟨Config.lastSequence, .active, c⟩
  | none, some p => if p.isActive then some { p with state := .withdrawn } else none
  | none, none => none

/-- The sequence is taken from S, which increments (R83). -/
def takeSeq (s : State) : State := { s with fle := { s.fle with seq := s.fle.seq + 1 } }

/-- Origination of the own node record (R84 to R86). -/
def originateNode (s : State) : State :=
  let k := s.nodeId
  if s.fle.live then
    let r := writeNode ⟨k, 0, none, ⟨s.fle.seq, .active, ownNodeContent s⟩, Config.fullAge⟩ (takeSeq s)
    if r.2 then addKeyUp none (.node k) r.1 else r.1
  else
    let s' := raise .sequence [.exhausted] s
    match exhaustedPart ((s.tdb.findNode k).bind fun e => e.2.ver.working) (some (ownNodeContent s)) with
    | none => s'
    | some p => (writeNode ⟨k, 0, none, p, Config.fullAge⟩ s').1

/-- Origination of the own link record of a degree: ACTIVE while it is UP, a withdrawal otherwise (R84 to R86). -/
def originateLink (d : Degree) (s : State) : State :=
  let k : LinkKey := ⟨s.nodeId, d.val⟩
  let truth := ownLinkContent s d
  if s.fle.live then
    let w : LinkWrite := match truth with
      | some c => ⟨k, 0, none, ⟨s.fle.seq, .active, c⟩, Config.fullAge⟩
      | none => ⟨k, 0, none, ⟨s.fle.seq, .withdrawn, withdrawalContent s k⟩, 0⟩
    let r := writeLink w (takeSeq s)
    if r.2 then addKeyUp none (.link k) r.1 else r.1
  else
    let s' := raise .sequence [.exhausted] s
    match exhaustedPart ((s.tdb.findLink k).bind fun e => e.2.ver.working) truth with
    | none => s'
    | some p => (writeLink ⟨k, 0, none, p, if p.isActive then Config.fullAge else 0⟩ s').1

/-- The own node record and the own link record of every UP degree, in that order (R86, R87). -/
def originateAll (s : State) : State := s.upDegrees.foldl (fun t d => originateLink d t) (originateNode s)

/-! ## Taking a received record (R91 to R93) -/

/-- A write of either kind of record. -/
def writeRecord (w : RecordWrite) (s : State) : State × Bool :=
  match w with
  | .node w => writeNode w s
  | .link w => writeLink w s

/-- The write is a withdrawal of a link record whose committed part is ACTIVE (R93). -/
def withdrawsCommitted (t : Tdb) : RecordWrite → Bool
  | .node _ => false
  | .link w => !w.part.isActive && t.linkActive w.key

/-- A record that is not of own origin, received on a degree (R91, R93). -/
def takeOther (d : Degree) (w : RecordWrite) (s : State) : State :=
  match s.tdb.heldSeq w.key with
  | none =>
    let r := writeRecord w s
    if r.2 then addKeyUp (some d) w.key r.1 else r.1
  | some h =>
    if h < w.seq then
      let r := writeRecord w s
      if r.2 then
        let s' := addKeyUp (some d) w.key r.1
        if withdrawsCommitted s.tdb w then urgentRequest s' else s'
      else r.1
    else if w.seq == h then s
    else addKey d w.key s

/-- To re-originate an own key (R92).  A link number 8 to 255 names no degree, and nothing is originated for it. -/
def reoriginate (k : RecordKey) (s : State) : State :=
  match k with
  | .node _ => originateNode s
  | .link k => match degree? k.num with
    | some d => originateLink d s
    | none => s

/-- S is raised past a received sequence (R92). -/
def jump (q : Nat) (s : State) : State := raise .sequence [.jumped] { s with fle := { s.fle with seq := q + 1 } }

/-- An own-origin record received on a degree (R92).  A jump that leaves S exhausted raises JUMPED and then EXHAUSTED (R92, R192), the
second by the re-origination, or by itself where nothing is originated. -/
def takeOwn (d : Degree) (w : RecordWrite) (s : State) : State :=
  if s.fle.seq ≤ w.seq then
    let s' := jump w.seq s
    if s'.fle.live || isOwnKey s.nodeId w.key then reoriginate w.key s' else raise .sequence [.exhausted] s'
  else match s.tdb.heldSeq w.key with
    | none => reoriginate w.key s
    | some h => if w.seq < h then addKey d w.key s else if w.seq == h then s else reoriginate w.key s

/-- A native record received on a degree (R90). -/
def takeRecord (d : Degree) (w : RecordWrite) (s : State) : State :=
  if keyOrigin w.key == s.nodeId then takeOwn d w s else takeOther d w s

/-! ## Tallies and pulls (R97 to R102) -/

/-- A tally round starts: cursor 1, timer restarted (R97). -/
def startRound (d : Degree) (s : State) : State :=
  s.setFlood d { s.flood d with round := some 1, tallyTimer := some (s.now + s.cfu.params.tallyInterval * 1000) }

/-- To push an origin: the keys of its records join the degree's send list (R98). -/
def pushOrigin (d : Degree) (o : NodeId) (s : State) : State :=
  (s.tdb.keysOf o).foldl (fun t k => addKey d k t) s

/-- To pull an origin with the wanted values of the neighbour's entry: refresh or create its entry and mark it for the
waiting PULL; not made when 32 others are listed (R99, R100). -/
def pullOrigin (d : Degree) (e : TallyEntry) (s : State) : State :=
  let x := s.flood d
  let entry : PullEntry := ⟨e.origin, e.highest, e.count, e.sum, s.now + s.cfu.params.pullWait⟩
  let marked := insertBy natLt e.origin x.waiting
  if x.pulls.any fun p => p.origin == e.origin then
    s.setFlood d { x with pulls := x.pulls.map (fun p => if p.origin == e.origin then entry else p), waiting := marked }
  else if x.pulls.length < Config.pullListSize then
    s.setFlood d { x with pulls := x.pulls ++ [entry], waiting := marked }
  else s

/-- What the comparison of one origin calls for: pull with an entry, push (R98). -/
def tallyActions (ours theirs : Option TallyEntry) : Option TallyEntry × Bool :=
  match theirs, ours with
  | some e, none => (some e, false)
  | none, some _ => (none, true)
  | some e, some o =>
    if o.highest < e.highest then (some e, false)
    else if e.highest < o.highest then (none, true)
    else if e.count != o.count || e.sum != o.sum then (some e, true)
    else (none, false)
  | none, none => (none, false)

/-- One origin of a TALLY; no pull is made for an INCOMPLETE origin (R98). -/
def compareOrigin (d : Degree) (t : TallyBody) (o : NodeId) (s : State) : State :=
  let acts := tallyActions (s.tdb.summary o) (t.entries.find? fun e => e.origin == o)
  let s' := match acts.1 with
    | some e => if s.tdb.isIncomplete o then s else pullOrigin d e s
    | none => s
  if acts.2 then pushOrigin d o s' else s'

/-- The origins a TALLY is compared at: those it lists and those held within its range; any other origin in the range is
absent on both sides and draws nothing (R98). -/
def tallyOrigins (t : TallyBody) (db : Tdb) : List NodeId :=
  sortBy natLt (t.entries.map (·.origin) ++ db.origins.filter fun o => decide (t.first ≤ o) && decide (o ≤ t.last))

/-- A TALLY taken on a degree, in ascending order of origin (R98). -/
def takeTally (d : Degree) (t : TallyBody) (s : State) : State :=
  (tallyOrigins t s.tdb).foldl (fun s o => compareOrigin d t o s) s

/-- A PULL taken on a degree (R102). -/
def takePull (d : Degree) (os : List NodeId) (s : State) : State := os.foldl (fun s o => pushOrigin d o s) s

/-! ## The frame FLE claims space for (R95, R97, R100) -/

/-- The next TALLY of a round with the given cursor, and the cursor that follows; no cursor when the round ends (R97). -/
def nextTally (t : Tdb) (cursor : NodeId) : TallyBody × Option NodeId :=
  let held := t.origins.filter fun o => decide (cursor ≤ o)
  let listed := held.take Config.tallyEntries
  let entries := listed.filterMap t.summary
  if held.length ≤ Config.tallyEntries then (⟨cursor, 65534, entries⟩, none)
  else
    let last := listed.getLastD cursor
    (⟨cursor, last, entries⟩, some (last + 1))

/-- The ADVERT of the record under a key; absent when it is to leave the list as if sent (R84, R95). -/
def keyAdvert (s : State) (k : RecordKey) : Option AdvertBody :=
  if !s.fle.live && isOwnKey s.nodeId k then none
  else match k with
    | .node id => (s.tdb.findNode id).bind fun e => nodeAdvert s.dtu e.2
    | .link k => (s.tdb.findLink k).bind fun e => linkAdvert s.dtu e.2

/-- The first key of a send list that is sent, with its ADVERT, and the keys behind it; keys before it leave as if sent
(R95). -/
def nextAdvert (s : State) : List RecordKey → Option AdvertBody × List RecordKey
  | [] => (none, [])
  | k :: rest => match keyAdvert s k with
    | some a => (some a, rest)
    | none => nextAdvert s rest

/-- FLE has a frame ready for a degree whose queue has room. -/
def fleDue (s : State) (d : Degree) : Bool :=
  let x := s.flood d
  s.isUp d && (s.port (.deg d)).room (.deg d) && (!x.waiting.isEmpty || x.round.isSome || !x.sendList.isEmpty)

/-- One claim of FLE at a degree: the waiting PULL, else the next TALLY, else the send-list head (R95). -/
def fleClaim (d : Degree) (s : State) : State :=
  if fleDue s d then
    let x := s.flood d
    let send (kind : Nat) (b : Body) (s : State) : State := enqueueOwn (.deg d) (ownFrame s kind neighbourDst b) s
    if !x.waiting.isEmpty then send kindPull (.pull x.waiting) (s.setFlood d { x with waiting := [] })
    else match x.round with
      | some cursor =>
        let r := nextTally s.tdb cursor
        send kindTally (.tally r.1) (s.setFlood d { x with round := r.2 })
      | none =>
        let r := nextAdvert s x.sendList
        let s' := s.setFlood d { x with sendList := r.2 }
        match r.1 with
        | some a => send kindAdvert (.advert a) s'
        | none => s'
  else s

end Sys2Proof.Machine
end

