-- ==== Sys2Proof/Machine/Arbiter.lean ====
section
/-! DEFINITION. The end of an event (01, 10): the arbiters take the own claims that reach a queue together in the order FLE,
backlog head, RQU, SHU, NTU, CFU (R20), NTU originates the notices that are due (R193), and the ports offer what they can
(R21). -/

namespace Sys2Proof.Machine

/-! ## FLE's claims come first (R20, R95) -/

/-- An operation made a number of times. -/
def repeatOn (f : State → State) : Nat → State → State
  | 0, s => s
  | n + 1, s => repeatOn f n (f s)

/-- Every claim of FLE at a degree: a claim fills a place of the queue or ends FLE's lists, so 25 suffice. -/
def fleClaims (d : Degree) (s : State) : State := repeatOn (fleClaim d) (Config.degreeQueueSize + 1) s

/-- Every claim of FLE, at every degree. -/
def fleClaimsAll (s : State) : State := allDegrees.foldl (fun t d => fleClaims d t) s

/-- The claims of FLE at a port; NP has none. -/
def fleClaimsAt (p : Port) (s : State) : State :=
  match p with
  | .deg d => fleClaims d s
  | .np => s

/-- A direct claim of RQU, SHU, NTU or CFU, after FLE's claims at the same queue (R20).  A backlog head claimed whenever it could
before the event (`settle`), and no event both frees a place and originates a frame for it; so a backlog that is not empty
stands at a full queue, and the frame goes behind it (R18). -/
def claimDirect (p : Port) (f : Frame) (s : State) : State := claimOwn p f (fleClaimsAt p s)

/-- The direct claims of one block, in the order originated (R18). -/
def takeClaims (b : OwnBlock) (cs : List OwnClaim) (s : State) : State :=
  (cs.filter fun c => c.block == b).foldl (fun t c => claimDirect c.port c.frame t) s

/-! ## Emission of notices (R193, R194) -/

/-- The sources that are due, in source order (R193). -/
def dueSources (s : State) : List NoticeId := NoticeId.all.filter fun i => (s.ntu.source i).due

/-- Originates the NOTICEs of all sources that are due, in source order, built from one pending snapshot, and then places
them (R193). -/
def emitDue (s : State) : State :=
  let frames := (dueSources s).map (noticeFrame s s.ntu.pendingSet)
  frames.foldl (fun t f => claimDirect (noticeRoute s).1 f t) ((dueSources s).foldl markSent s)

/-- Originates the NOTICEs that are due, whose claims wait with the event's others (R20, R193): before an answer that comes after
them (R195), and before the next of the frames that reach the switch together (log 32). -/
def holdDue (s : State) : State :=
  let held := (dueSources s).map fun i => (⟨.ntu, (noticeRoute s).1, noticeFrame s s.ntu.pendingSet i⟩ : OwnClaim)
  (dueSources s).foldl markSent { s with claims := s.claims ++ held }

/-- The emission: a second round takes the CONGESTION notice that a NOTICE met by a full backlog may draw (R194). -/
def emit (s : State) : State := emitDue (emitDue s)

/-! ## The end of an event -/

/-- The direct claims of the event in R20's order.  A last round of emission takes the CONGESTION notice that CFU's own claim
may draw (log 21). -/
def endClaims (s : State) : State :=
  let cs := s.claims
  let own := takeClaims .shu cs (takeClaims .rqu cs { s with claims := [] })
  emitDue (takeClaims .cfu cs (emit (takeClaims .ntu cs own)))

/-- The end of every event: the direct claims and the due notices, then the ports offer what they can (R20, R21, R193). -/
def finish (s : State) : State := offerAll (endClaims s)

end Sys2Proof.Machine
end

