-- ==== Sys2Proof/Machine/Results.lean ====
section
/-! DEFINITION. The spectrum hold unit (09): a FOUND result taken with its conflict and room checks, the matching of CLAIM
and RELEASE, freeing, expiry, and the re-check at a promotion. -/

namespace Sys2Proof.Machine

/-! ## Runs (R159, R172) -/

/-- The runs of a result, W's hops first (R159). -/
def resultRuns (width : Nat) (paths : List PathResult) : List HeldRun :=
  paths.flatMap fun p => p.hops.map fun h => ⟨h.key, h.start, width⟩

/-- Two runs share a slot of one link. -/
def HeldRun.overlaps (a b : HeldRun) : Bool :=
  a.key == b.key && decide (a.start < b.start + b.width) && decide (b.start < a.start + a.width)

/-- Some run meets a hold (R175). -/
def Shu.conflict (t : Shu) (runs : List HeldRun) : Bool := runs.any fun r => t.holds.any fun e => r.overlaps e.2.run

/-- Each run takes the lowest free index of the hold table (R177). -/
def placeHolds (result : Nat) (runs : List HeldRun) (holds : List (Nat × Hold)) : List (Nat × Hold) :=
  runs.foldl (fun t r => match lowestFree t Config.holdSize with
    | some j => tput t j ⟨r, result⟩
    | none => t) holds

/-- A pair leaves the expired list (R173). -/
def Shu.forget (who : NodeId) (tag : Nat) (t : Shu) : Shu := { t with expired := t.expired.filter (· != (who, tag)) }

/-- A pair joins the tail of the expired list, the oldest dropped when 16 are listed (R173). -/
def Shu.remember (who : NodeId) (tag : Nat) (t : Shu) : Shu :=
  let l := t.expired.filter (· != (who, tag))
  { t with expired := (if l.length < Config.expiredSize then l else l.drop 1) ++ [(who, tag)] }

/-- A result and its holds freed (R171). -/
def Shu.free (i : Nat) (t : Shu) : Shu :=
  { t with results := tdel t.results i, holds := t.holds.filter fun e => e.2.result != i }

def freeResult (i : Nat) (s : State) : State := { s with shu := s.shu.free i }

/-! ## A FOUND result arrives (R174 to R177) -/

/-- The result entry of a request (R171, R177). -/
def newResult (r : Request) (gen : Nat) (paths : List PathResult) (s : State) : Result where
  requester := r.requester
  tag := r.body.tag
  pair := r.body.isPair
  gen := gen
  state := .held
  paths := paths
  holdCount := (resultRuns r.body.width paths).length
  holdDeadline := some (s.now + s.cfu.params.resultHoldTime * 1000)
  claimDeadline := none

/-- The result and its holds are created (R177). -/
def createResult (i : Nat) (r : Request) (gen : Nat) (paths : List PathResult) (s : State) : State :=
  { s with shu := { s.shu with
      results := tput s.shu.results i (newResult r gen paths s)
      holds := placeHolds i (resultRuns r.body.width paths) s.shu.holds } }

/-- SHU takes a FOUND result that passed the exclusion check: no hold asked, conflict, no room, or held (R174 to
R177). -/
def takeFound (r : Request) (gen : Nat) (paths : List PathResult) (s : State) : State :=
  let reply (o : RouteOutcome) (s : State) : State := answer .shu r.requester r.body.tag o gen paths s
  let runs := resultRuns r.body.width paths
  if !r.body.hold then reply .found s
  else if s.shu.conflict runs then returnRequest r s
  else match lowestFree s.shu.results Config.resultSize with
    | none => reply .foundUnheld s
    | some i =>
      if s.shu.holds.length + runs.length ≤ Config.holdSize then reply .found (createResult i r gen paths s)
      else reply .foundUnheld s

/-! ## CLAIM and RELEASE (R179, R180, R182) -/

/-- What a CLAIM or RELEASE meets (R179). -/
inductive FrameMatch where
  | result (i : Nat) (r : Result)
  | expired
  | notOwner
  | unknown
  deriving DecidableEq, Repr

/-- The four tests of R179, in order. -/
def Shu.meets (t : Shu) (who : NodeId) (tag : Nat) : FrameMatch :=
  match t.results.find? fun e => e.2.requester == who && e.2.tag == tag with
  | some (i, r) => .result i r
  | none =>
    if t.expired.contains (who, tag) then .expired
    else if t.results.any fun e => e.2.tag == tag && e.2.requester != who then .notOwner
    else .unknown

/-- The answers of R179 to a frame that meets no result of its sender. -/
def unmatched (who : NodeId) (tag : Nat) (m : FrameMatch) (s : State) : State :=
  match m with
  | .result _ _ => s
  | .expired => answerNow .shu who tag .expired { s with shu := s.shu.forget who tag }
  | .notOwner => answerNow .shu who tag .notOwner s
  | .unknown => answerNow .shu who tag .unknown s

/-- A result CLAIMED at the moment given (R180). -/
def Result.claim (deadline : Moment) (r : Result) : Result :=
  match r.state with
  | .held => { r with state := .claimed, holdDeadline := none, claimDeadline := some deadline }
  | .claimed => r

/-- A CLAIM (R179, R180). -/
def takeClaim (who : NodeId) (tag : Nat) (s : State) : State :=
  match s.shu.meets who tag with
  | .result i r =>
    let r' := r.claim (s.now + s.cfu.params.claimTimeout * 1000)
    answerNow .shu who tag .claimed { s with shu := { s.shu with results := tput s.shu.results i r' } }
  | m => unmatched who tag m s

/-- A RELEASE against the results table (R179, R182). -/
def takeResultRelease (who : NodeId) (tag : Nat) (s : State) : State :=
  match s.shu.meets who tag with
  | .result i _ => answerNow .shu who tag .released (freeResult i s)
  | m => unmatched who tag m s

/-! ## Deadlines (R181, R183) -/

/-- A hold deadline expires (R181). -/
def expireHold (i : Nat) (s : State) : State :=
  match tget s.shu.results i with
  | none => s
  | some r => match r.state, r.holdDeadline with
    | .held, some t =>
      let s' := s.reach t
      answerNow .shu r.requester r.tag .expired { s' with shu := (s'.shu.free i).remember r.requester r.tag }
    | _, _ => s

/-- A claim deadline expires (R183). -/
def expireClaim (i : Nat) (s : State) : State :=
  match tget s.shu.results i with
  | none => s
  | some r => match r.state, r.claimDeadline with
    | .claimed, some t => raise .claimUnseen [] (freeResult i (s.reach t))
    | _, _ => s

/-! ## The re-check (R184, R185, R188) -/

/-- The states of the slots of a run in the committed view. -/
def Tdb.runSlots (t : Tdb) (r : HeldRun) : List SlotState :=
  match t.committedLink r.key with
  | none => []
  | some p => (List.range r.width).map fun n => p.content.slots.slot (r.start + n)

/-- What the re-check finds. -/
inductive Recheck where
  | kept
  | stale
  | settled
  deriving DecidableEq, Repr

/-- The re-check of a HELD or a CLAIMED result with the runs given (R184, R185). -/
def recheckOf (t : Tdb) (st : ResultState) (runs : List HeldRun) : Recheck :=
  let slots := runs.flatMap t.runSlots
  if runs.any fun r => !t.usable r.key then .stale
  else match st with
    | .held => if slots.any (· != .free) then .stale else .kept
    | .claimed => if slots.any (· == .blocked) then .stale else if slots.all (· == .used) then .settled else .kept

/-- The runs held for a result. -/
def Shu.runsOf (t : Shu) (i : Nat) : List HeldRun := (t.holds.filter fun e => e.2.result == i).map (·.2.run)

/-- The re-check of one result with its effects. -/
def recheckResult (e : Nat × Result) (s : State) : State :=
  match recheckOf s.tdb e.2.state (s.shu.runsOf e.1) with
  | .kept => s
  | .stale => answerNow .shu e.2.requester e.2.tag .stale (freeResult e.1 s)
  | .settled => freeResult e.1 s

/-- The re-check of every result with a run on a changed link, in index order (R184). -/
def recheckAll (changed : List LinkKey) (s : State) : State :=
  (s.shu.results.filter fun e => (s.shu.runsOf e.1).any fun r => changed.contains r.key).foldl
    (fun t e => recheckResult e t) s

/-- SHU's part of a flush: every result answered STALE, then the tables and the expired list emptied (R188). -/
def flushResults (s : State) : State :=
  let s' := s.shu.results.foldl (fun t e => answerNow .shu e.2.requester e.2.tag .stale t) s
  { s' with shu := Shu.reset }

end Sys2Proof.Machine
end

