-- ==== Sys2Proof/Machine/Solver.lean ====
section
/-! DEFINITION. The route solver's choice (08): paths, candidates, feasibility and the total orders, for SINGLE and PAIR
requests (R148 to R159), and the forwarding table a tree build computes (R166, R167).  As in the manual, the choice is the
first member of an ordered set, and no search is described. -/

namespace Sys2Proof.Machine

/-! ## Links and paths (R148, R149) -/

/-- A link as the solver reads it: key, far node, cost, impairment, and the slots that no captured exclusion or hold
keeps from use. -/
structure Edge where
  key : LinkKey
  far : NodeId
  cost : Nat
  imp : Nat
  free : BitVec 384
  deriving DecidableEq, Repr

/-- Paths run over lists of links. -/
abbrev Path := List Edge

/-- The slots of a link that the captured slot runs of exclusions cover (R75, R152). -/
def excludedBits (xs : List SlotRun) (k : LinkKey) : BitVec 384 :=
  (xs.filter fun x => x.key == k).foldl (fun m x => m ||| runBits x.first x.count) 0

/-- The slots of a link that the captured holds cover (R152). -/
def heldBits (hs : List HeldRun) (k : LinkKey) : BitVec 384 :=
  (hs.filter fun h => h.key == k).foldl (fun m h => m ||| runBits h.start h.width) 0

/-- A usable link admitted by a test, as the solver reads it (R74, R149, R152). -/
def Tdb.edges (t : Tdb) (allow : LinkRec → Bool) (xs : List SlotRun) (hs : List HeldRun) : List Edge :=
  t.links.filterMap fun e =>
    match e.2.ver.committed with
    | none => none
    | some p =>
      if t.recordUsable e.2 && allow e.2 then
        some ⟨e.2.key, p.content.far, p.content.cost, p.content.imp,
          p.content.slots.freeBits &&& ~~~(excludedBits xs e.2.key ||| heldBits hs e.2.key)⟩
      else none

/-- The simple paths of at most the given number of links from a node to a destination, through nodes that a test lets
pass, avoiding the nodes already on the path (R148). -/
def pathsFrom (es : List Edge) (through : NodeId → Bool) (dst : NodeId) : Nat → NodeId → List NodeId → List Path
  | 0, _, _ => []
  | k + 1, node, seen =>
    (es.filter fun e => e.key.origin == node && !seen.contains e.far).flatMap fun e =>
      if e.far == dst then [[e]]
      else if through e.far then (pathsFrom es through dst k e.far (e.far :: seen)).map (e :: ·)
      else []

/-- A node is committed ACTIVE with transit allowed (R150, R166). -/
def Tdb.transitNode (t : Tdb) (n : NodeId) : Bool := (t.committedNode n).any fun p => p.isActive && p.content.transit

/-- The intermediate nodes of a path, in order (R148). -/
def intermediate (p : Path) : List NodeId := p.dropLast.map (·.far)

/-- The link-key sequence of a path (R148). -/
def linkKeys (p : Path) : List LinkKey := p.map (·.key)

/-- The sum of the committed costs of a path's links. -/
def linkCost (p : Path) : Nat := (p.map (·.cost)).sum

/-! ## Candidates (R150) -/

/-- A path with the positions of its regenerators, ascending (R150). -/
structure Candidate where
  path : Path
  regs : List Nat
  deriving DecidableEq, Repr

/-- All subsets of a list, each in the list's order. -/
def subsets : List Nat → List (List Nat)
  | [] => [[]]
  | a :: l => subsets l ++ (subsets l).map (a :: ·)

/-- The committed regen count of a node. -/
def Tdb.regenCount (t : Tdb) (n : NodeId) : Nat := ((t.committedNode n).map fun p => p.content.regen).getD 0

/-- The positions of a path at which a regenerator may be used (R150). -/
def regenPositions (t : Tdb) (q : RouteqBody) (p : Path) : List Nat :=
  if q.regenAllowed then
    ((intermediate p).zipIdx 1).filterMap fun e => if 1 ≤ t.regenCount e.1 then some e.2 else none
  else []

/-- The links a request may use (R149). -/
def requestEdges (t : Tdb) (q : RouteqBody) (cap : Capture) : List Edge :=
  t.edges
    (fun r => !q.excludeMask.getLsbD r.ver.domain && !(cap.exclusions.any fun x => x.key == r.key && x.count == 0))
    (cap.exclusions.filter fun x => x.count != 0) cap.holds

/-- The candidates of a request without the waypoint condition (R150, R156). -/
def allCandidates (t : Tdb) (q : RouteqBody) (cap : Capture) : List Candidate :=
  (pathsFrom (requestEdges t q cap) t.transitNode q.dst q.maxHops q.src [q.src]).flatMap fun p =>
    (subsets (regenPositions t q p)).map fun regs => ⟨p, regs⟩

/-- A candidate meets the waypoint condition (R150). -/
def viaWaypoint (q : RouteqBody) (c : Candidate) : Bool := q.waypoint == 0 || (intermediate c.path).contains q.waypoint

/-! ## Feasibility (R151 to R153) -/

/-- The transparent segments of a path, from the position given (R151). -/
def segmentsFrom (regs : List Nat) : Nat → Path → List Path
  | _, [] => []
  | i, e :: t => match segmentsFrom regs (i + 1) t with
    | [] => [[e]]
    | seg :: rest => if regs.contains (i + 1) then [e] :: seg :: rest else (e :: seg) :: rest

def Candidate.segments (c : Candidate) : List Path := segmentsFrom c.regs 0 c.path

/-- The slots free on every link of a segment. -/
def segmentFree (seg : Path) : BitVec 384 := seg.foldl (fun m e => m &&& e.free) (BitVec.allOnes 384)

/-- The assigned start of a segment: the lowest start of an available run (R152). -/
def assignedStart (q : RouteqBody) (seg : Path) : Option Nat :=
  let m := segmentFree seg
  ((List.range (q.last + 2 - q.width - q.first)).map (· + q.first)).find? fun s =>
    m &&& runBits s q.width == runBits s q.width

def Candidate.spectrumOk (q : RouteqBody) (c : Candidate) : Bool := c.segments.all fun seg => (assignedStart q seg).isSome

def Candidate.budgetOk (q : RouteqBody) (c : Candidate) : Bool :=
  q.budget == 0 || c.segments.all fun seg => decide ((seg.map (·.imp)).sum ≤ q.budget)

/-! ## Orders (R154, R157) -/

/-- The first of a sequence of comparisons that differs decides. -/
def firstDiffers : List (Bool × Bool) → Bool
  | [] => false
  | (less, more) :: t => if less then true else if more then false else firstDiffers t

def natKey (a b : Nat) : Bool × Bool := (decide (a < b), decide (b < a))
def pathKey (a b : Candidate) : Bool × Bool :=
  (lexLt keyLt (linkKeys a.path) (linkKeys b.path), lexLt keyLt (linkKeys b.path) (linkKeys a.path))
def regsKey (a b : Candidate) : Bool × Bool := (lexLt natLt a.regs b.regs, lexLt natLt b.regs a.regs)

/-- The cost of a candidate (R154). -/
def Candidate.cost (penalty : Nat) (c : Candidate) : Nat := linkCost c.path + penalty * c.regs.length

/-- The order of candidates (R154). -/
def candidateLt (penalty : Nat) (a b : Candidate) : Bool :=
  firstDiffers [natKey (a.cost penalty) (b.cost penalty), natKey a.path.length b.path.length,
    natKey a.regs.length b.regs.length, pathKey a b, regsKey a b]

/-- A pair candidate with its members told apart (R157). -/
structure PairCandidate where
  w : Candidate
  p : Candidate
  deriving DecidableEq, Repr

/-- W is the member of lower cost, or of the smaller link-key sequence (R157). -/
def orient (penalty : Nat) (a b : Candidate) : PairCandidate :=
  if firstDiffers [natKey (a.cost penalty) (b.cost penalty), pathKey a b] then ⟨a, b⟩ else ⟨b, a⟩

/-- The order of pair candidates (R157). -/
def pairLt (penalty : Nat) (a b : PairCandidate) : Bool :=
  let cost (c : Candidate) := c.cost penalty
  firstDiffers [natKey (cost a.w + cost a.p) (cost b.w + cost b.p),
    natKey (max (cost a.w) (cost a.p)) (max (cost b.w) (cost b.p)),
    pathKey a.w b.w, pathKey a.p b.p,
    natKey (a.w.regs.length + a.p.regs.length) (b.w.regs.length + b.p.regs.length),
    regsKey a.w b.w, regsKey a.p b.p]

/-! ## Pairs (R156) -/

/-- The nodes at which a candidate uses a regenerator. -/
def Candidate.regenNodes (c : Candidate) : List NodeId := c.regs.filterMap fun i => (c.path[i - 1]?).map (·.far)

/-- Two candidates form a pair candidate (R156). -/
def pairOk (t : Tdb) (q : RouteqBody) (a b : Candidate) : Bool :=
  ((linkKeys a.path).all fun k => !(linkKeys b.path).contains k) &&
  (!q.nodeDisjoint || (intermediate a.path).all fun n => !(intermediate b.path).contains n) &&
  (viaWaypoint q a || viaWaypoint q b) &&
  (a.regenNodes.all fun n => !b.regenNodes.contains n || decide (2 ≤ t.regenCount n))

/-- The unordered pairs of a list. -/
def pairsOf : List Candidate → List (Candidate × Candidate)
  | [] => []
  | a :: l => l.map (fun b => (a, b)) ++ pairsOf l

def pairCandidates (t : Tdb) (q : RouteqBody) (cap : Capture) : List PairCandidate :=
  ((pairsOf (allCandidates t q cap)).filter fun e => pairOk t q e.1 e.2).map fun e => orient cap.penalty e.1 e.2

/-! ## The outcome and the result (R155, R158, R159) -/

/-- The hops of a candidate with their start slots and regenerator marks (R159). -/
def Candidate.hops (q : RouteqBody) (c : Candidate) : List Hop :=
  ((c.segments.flatMap fun seg => seg.map fun e => (e.key, (assignedStart q seg).getD 0)).zipIdx 1).map fun e =>
    ⟨e.1.1, e.1.2, c.regs.contains e.2⟩

def Candidate.result (q : RouteqBody) (penalty : Nat) (c : Candidate) : PathResult := ⟨c.cost penalty, c.hops q⟩

/-- What a computation produces: the paths of a FOUND, or the outcome that names why there is none. -/
inductive Solution where
  | found (paths : List PathResult)
  | failed (e : WorkEnd)
  deriving DecidableEq, Repr

/-- A node the request names is not committed ACTIVE (R155, R158). -/
def unknownNode (t : Tdb) (q : RouteqBody) : Bool :=
  !t.nodeActive q.src || !t.nodeActive q.dst || (q.waypoint != 0 && !t.nodeActive q.waypoint)

/-- A SINGLE computation (R155). -/
def solveSingle (t : Tdb) (q : RouteqBody) (cap : Capture) : Solution :=
  let cs := (allCandidates t q cap).filter (viaWaypoint q)
  let ss := cs.filter (Candidate.spectrumOk q)
  if unknownNode t q then .failed .unknownNode
  else if cs.isEmpty then .failed .noRoute
  else if ss.isEmpty then .failed .noSpectrum
  else match firstBy (candidateLt cap.penalty) (ss.filter (Candidate.budgetOk q)) with
    | none => .failed .overBudget
    | some c => .found [c.result q cap.penalty]

/-- A PAIR computation (R158). -/
def solvePair (t : Tdb) (q : RouteqBody) (cap : Capture) : Solution :=
  let ps := pairCandidates t q cap
  let ss := ps.filter fun e => e.w.spectrumOk q && e.p.spectrumOk q
  if unknownNode t q then .failed .unknownNode
  else if ((allCandidates t q cap).filter (viaWaypoint q)).isEmpty then .failed .noRoute
  else if ps.isEmpty then .failed .noDisjoint
  else if ss.isEmpty then .failed .noSpectrum
  else match firstBy (pairLt cap.penalty) (ss.filter fun e => e.w.budgetOk q && e.p.budgetOk q) with
    | none => .failed .overBudget
    | some e => .found [e.w.result q cap.penalty, e.p.result q cap.penalty]

/-- The outcome of a computation against what it captured (R155, R158). -/
def solve (t : Tdb) (q : RouteqBody) (cap : Capture) : Solution :=
  if q.isPair then solvePair t q cap else solveSingle t q cap

/-! ## The tree build (R166, R167) -/

/-- The order of forwarding paths (R166). -/
def forwardingLt (a b : Path) : Bool :=
  firstDiffers [natKey (linkCost a) (linkCost b), natKey a.length b.length,
    (lexLt keyLt (linkKeys a) (linkKeys b), lexLt keyLt (linkKeys b) (linkKeys a))]

/-- The first degree toward a node (R166).  A simple path has fewer links than the node table has records. -/
def firstDegree (t : Tdb) (self n : NodeId) : Option Degree :=
  match firstBy forwardingLt (pathsFrom (t.edges (fun _ => true) [] []) t.transitNode n t.nodes.length self [self]) with
  | some (e :: _) => degree? e.key.num
  | some [] => none
  | none => none

/-- The forwarding table of the committed view (R167). -/
def forwardingTable (t : Tdb) (self : NodeId) : List (Nat × FwdEntry) :=
  (t.nodes.filter fun e => e.2.ver.committedActive).map fun e =>
    (e.1, ⟨e.2.id, if e.2.id == self then none else firstDegree t self e.2.id⟩)

end Sys2Proof.Machine
end

