-- ==== Sys2Proof/Machine/Lanes.lean ====
section
/-! DEFINITION. The lanes at work: dispatch with its capture (R129, R146), completion with the exclusion check (R160, R161),
and the completion of the tree build (R167). -/

namespace Sys2Proof.Machine

/-! ## Dispatch (R129, R146) -/

/-- What a computation captures at its start (R146); the stamp orders the start after everything stamped before. -/
def capture (s : State) : Capture where
  gen := s.cmc.gen
  exclusions := s.tdb.exclusions.map (·.run)
  holds := s.shu.holds.map (·.2.run)
  penalty := s.cfu.params.regenPenalty
  startedAt := s.now
  stamp := s.stamp + 1

/-- The head of the queue can be dispatched (R129). -/
def canDispatch (s : State) (r : Request) : Bool :=
  s.cmc.state != .draining && s.rsv.treeJob.isNone &&
  if r.body.isPair then s.rsv.l0.isIdle && s.rsv.l1.isIdle else s.rsv.l0.isIdle || s.rsv.l1.isIdle

/-- Dispatch is due. -/
def dispatchDue (s : State) : Bool := s.rqu.queue.head?.any (canDispatch s)

/-- The lanes after a request is given to them: a PAIR to both, a SINGLE to L0 when it is IDLE and to L1 otherwise
(R129). -/
def Rsv.give (r : Request) (cap : Capture) (v : Rsv) : Rsv :=
  let w : Work := .computing r cap
  if r.body.isPair then { v with l0 := { v.l0 with work := w }, l1 := { v.l1 with work := w } }
  else if v.l0.isIdle then { v with l0 := { v.l0 with work := w } }
  else { v with l1 := { v.l1 with work := w } }

/-- One dispatch of the head of the queue, if its test passes (R129). -/
def dispatchHead (s : State) : State :=
  match s.rqu.queue with
  | [] => s
  | r :: rest =>
    if canDispatch s r then
      { s.nextStamp with rqu := { s.rqu with queue := rest }, rsv := s.rsv.give r (capture s) }
    else s

/-- The test, made again at once after a dispatch: two dispatches fill both lanes (R129). -/
def dispatchAll (s : State) : State := dispatchHead (dispatchHead s)

/-! ## Completion (R160, R161) -/

/-- The outcome code of a computation that found nothing (R155, R158). -/
def failedOutcome : WorkEnd → RouteOutcome
  | .noDisjoint => .noDisjoint
  | .noSpectrum => .noSpectrum
  | .overBudget => .overBudget
  | .unknownNode => .unknownNode
  | .noRoute => .noRoute
  | .found => .noRoute
  | .excluded => .noRoute
  | .aborted => .noRoute
  | .tree => .noRoute

/-- An exclusion covers a slot of a run (R75). -/
def coversRun (x : SlotRun) (r : HeldRun) : Bool :=
  x.key == r.key && (x.count == 0 || (decide (x.first < r.start + r.width) && decide (r.start < x.first + x.count)))

/-- The completion check: an exclusion added since the start covers a slot of a run (R161). -/
def exclusionHit (t : Tdb) (stamp : Nat) (runs : List HeldRun) : Bool :=
  t.exclusions.any fun x => decide (stamp < x.stamp) && runs.any (coversRun x.run)

/-- The end of a computation on a lane, or on both for a PAIR; a waiting tree-build job then starts (R144, R145). -/
def endWork (l : LaneId) (r : Request) (e : WorkEnd) (s : State) : State :=
  startTree { s with rsv :=
    if r.body.isPair then s.rsv.finishAll e else s.rsv.setLane l ((s.rsv.lane l).finish e) }

/-- The completion of a lane's computation (R160 to R162). -/
def complete (l : LaneId) (s : State) : State :=
  match (s.rsv.lane l).work with
  | .idle => s
  | .tree _ => s
  | .computing r cap =>
    match solve s.tdb r.body cap with
    | .failed e => answer .rqu r.requester r.body.tag (failedOutcome e) cap.gen [] (endWork l r e s)
    | .found paths =>
      if exclusionHit s.tdb cap.stamp (resultRuns r.body.width paths) then returnRequest r (endWork l r .excluded s)
      else takeFound r cap.gen paths (endWork l r .found s)

/-- The completion of the tree build (R14, R167). -/
def completeTree (s : State) : State :=
  match s.rsv.l0.work with
  | .idle => s
  | .computing _ _ => s
  | .tree g =>
    startTree { s with
      rsv := { s.rsv with l0 := s.rsv.l0.finish .tree }
      fsw := { s.fsw with fwd := forwardingTable s.tdb s.nodeId, fwdGen := g } }

end Sys2Proof.Machine
end

