-- ==== Sys2Proof/Machine/Promotion.lean ====
section
/-! DEFINITION. The promotion with its changed-link set and hand-offs (R71, R113 to R116, R198, R199), and the flush with its
forced promotion (R80, R120). -/

namespace Sys2Proof.Machine

/-! ## The tables at a promotion (R71, R72) -/

/-- The keys of the records a promotion removes (R71).  The manual gives them no order; the model takes the node records first,
then the link records, each by index (DESIGN CHOICE, log 26). -/
def Tdb.removedByPromotion (t : Tdb) : List RecordKey :=
  ((t.nodes.filter fun e => e.2.ver.promotionRemoves).map fun e => .node e.2.id) ++
  ((t.links.filter fun e => e.2.ver.promotionRemoves).map fun e => .link e.2.key)

/-- Every pending part becomes committed (R71). -/
def Tdb.promoteAll (t : Tdb) : Tdb :=
  { t with
    nodes := tmap (fun r => { r with ver := r.ver.promote }) t.nodes
    links := tmap (fun r => { r with ver := r.ver.promote }) t.links }

/-- The tables across a promotion: records that commit WITHDRAWN with linger 0 are removed, the others promoted (R71, R113).
Each removal makes R101's pull check against the summaries as the removals before it left them, so the order of
`removedByPromotion` can decide whether a pull entry leaves (DESIGN CHOICE, log 26). -/
def promoteTables (s : State) : State :=
  let s' := s.tdb.removedByPromotion.foldl (fun t k => removeRecord k t) s
  { s' with tdb := s'.tdb.promoteAll }

/-! ## The changed-link set (R114) -/

/-- Clause 1: the record has a pending part, or is removed (and then has one). -/
def Tdb.rewritten (t : Tdb) : List LinkKey :=
  (t.links.filter fun e => e.2.ver.pending.isSome).map (·.2.key)

/-- The committed part of a link before and after, as far as it has one. -/
def contents (before after : Tdb) (k : LinkKey) : List LinkContent :=
  ((before.committedLink k).toList ++ (after.committedLink k).toList).map (·.content)

/-- Clauses 1 to 4 for a key of the link table. -/
def isChanged (before after : Tdb) (k : LinkKey) : Bool :=
  let first := before.rewritten
  let moved (n : NodeId) : Bool := before.nodeActive n != after.nodeActive n
  let twins (k : LinkKey) : List LinkKey := (contents before after k).filterMap LinkContent.twin
  first.contains k ||
  moved k.origin || (contents before after k).any (fun c => moved c.far) ||
  (twins k).any first.contains ||
  first.any fun j => (twins j).contains k

/-- The changed-link set of a promotion, in link-key order (R114). -/
def changedLinks (before after : Tdb) : List LinkKey :=
  sortBy keyLt ((before.links.map (·.2.key)).filter (isChanged before after))

/-! ## Watches (R198) -/

/-- A watch fires at a promotion. -/
def Watch.fires (before after : Tdb) (changed : List LinkKey) (w : Watch) : Bool :=
  match w.mode with
  | .any => w.keys.any changed.contains
  | .all => w.keys.any before.linkActive && !w.keys.any after.linkActive

/-- The indices of the watches that fire. -/
def firing (before after : Tdb) (changed : List LinkKey) (n : Ntu) : List Member :=
  allDegrees.filterMap fun i => match vget n.watches i with
    | none => none
    | some w => if w.fires before after changed then some (.watch i.val) else none

/-- The WATCH event of a promotion, if a watch fires. -/
def raiseWatches (before : Tdb) (changed : List LinkKey) (s : State) : State :=
  match firing before s.tdb changed s.ntu with
  | [] => s
  | m :: ms => raise .watch (m :: ms) s

/-! ## The promotion (R113, R116) -/

/-- CMC's own state across a promotion (R113). -/
def Cmc.promoted (changed : List LinkKey) (c : Cmc) : Cmc :=
  { c with changedLinks := changed, gen := c.gen + 1, normalReq := false, urgentReq := false, state := .idle }

/-- FORCED and URGENT as a drain passes them on (R116, R199). -/
def Cmc.drainMembers (c : Cmc) : List Member :=
  (if c.forced then [.forced] else []) ++ (if c.mode == .urgent then [.urgent] else [])

/-- The tree-build job for the generation just made is handed to RSV and starts when L0 is IDLE (R116, R165). -/
def handTree (s : State) : State := startTree { s with rsv := { s.rsv with treeJob := some s.cmc.gen } }

/-- The promotion, one event with its hand-offs: COMMIT, the re-check, the watches and the tree build (R113, R116). -/
def promote (s : State) : State :=
  let after := promoteTables s
  let changed := changedLinks s.tdb after.tdb
  let s1 := { after with cmc := after.cmc.promoted changed }
  handTree (raiseWatches s.tdb changed (recheckAll changed (raiseCommit s.cmc.drainMembers s1.cmc.gen s1)))

/-- The promotion is due: DRAINING with neither lane at work (R113). -/
def promotionDue (s : State) : Bool := s.cmc.state == .draining && s.rsv.l0.isIdle && s.rsv.l1.isIdle

/-! ## The flush (R80, R120) -/

/-- Step 1: the lanes are aborted and every request answered ABORTED (R140, R168). -/
def flushRequests (s : State) : State :=
  (s.rsv.requests ++ s.rqu.queue).foldl (fun t r => answerNow .rqu r.requester r.body.tag .aborted t)
    { s with rsv := { s.rsv.finishAll .aborted with treeJob := none }, rqu := { s.rqu with queue := [] } }

/-- Step 2: the tables emptied, FLE's lists with them, the forwarding table all NONE (R80, R104, R14). -/
def flushTables (s : State) : State :=
  { s with
    tdb := { s.tdb with nodes := [], links := [], incomplete := [] }
    fle := { s.fle with degrees := Vector.replicate 8 FleDegree.reset }
    fsw := { s.fsw with fwd := [], fwdGen := 0 } }

/-- The changed-link set of a flush: every key whose record held a committed part (R120). -/
def flushedLinks (t : Tdb) : List LinkKey :=
  sortBy keyLt ((t.links.filter fun e => e.2.ver.committed.isSome).map (·.2.key))

/-- Step 3: CMC's own state across the forced promotion (R120, R121). -/
def Cmc.flushed (changed : List LinkKey) (c : Cmc) : Cmc :=
  { c.promoted changed with settle := 0, checks := 0, changed := false, checkTimer := none }

/-- Step 5: the own records are originated, the refresh timer restarted, a tally round started on every UP degree, and a
normal request raised (R104, R107, R120). -/
def flushRestart (s : State) : State :=
  let s1 := originateAll s
  let s2 := { s1 with fle := { s1.fle with refreshTimer := some (s1.now + s1.cfu.params.refreshInterval * 1000) } }
  normalRequest (s2.upDegrees.foldl (fun t d => startRound d t) s2)

/-- A flush (R120). -/
def flush (s : State) : State :=
  let changed := flushedLinks s.tdb
  let s1 := flushTables (flushRequests s)
  let s2 := { s1 with cmc := s1.cmc.flushed changed }
  let s3 := flushResults (raiseCommit [.forced] s2.cmc.gen s2)
  flushRestart (handTree (raiseWatches s.tdb changed s3))

end Sys2Proof.Machine
end

