-- ==== Sys2Proof/Machine/Own.lean ====
section
/-! DEFINITION. The steps the part takes by itself as soon as they are due (claims of queue space, the promotion, dispatch),
the rule that they come before the next command (log 5), and the meanings of their four commands. -/

namespace Sys2Proof.Machine

/-! ## Claims (R18, R20, R95) -/

/-- Every own claim that waits at a port: FLE before the backlog head (R20). -/
def claimPort (p : Port) (s : State) : State := repeatOn (claimBacklogHead p) Config.backlogSize (fleClaimsAt p s)

/-- Every own claim that waits between events; the direct claims of an event end with it. -/
def claimAll (s : State) : State := offerAll (allPorts.foldl (fun t p => claimPort p t) { s with claims := [] })

/-- A backlog head has room. -/
def backlogDue (s : State) (p : Port) : Bool := !(s.port p).backlog.isEmpty && (s.port p).room p

/-! ## The steps that are due (R113, R129) -/

/-- The promotion, when it is due, with the end of its event. -/
def promoteDue (s : State) : State := if promotionDue s then finish (promote s) else s

/-- The part after the own steps that are due: claims, promotion, dispatch (log 5). -/
def settle (s : State) : State := dispatchAll (promoteDue (claimAll s))

/-- What comes between two frames that reach the switch together: the NOTICEs due are built (log 32), and the promotion and dispatch
are taken when they are due, while claims of queue space wait (R113, R129; DESIGN CHOICE, log 36). -/
def settleBetween (s : State) : State :=
  let t := holdDue s
  dispatchAll (if promotionDue t then holdDue (promote t) else t)

/-- An own step is due. -/
def settleDue (s : State) : Bool :=
  allDegrees.any (fleDue s) || allPorts.any (backlogDue s) || promotionDue s || dispatchDue s

/-! ## Meanings -/

/-- What a command answers: always a next state. -/
abbrev Outcome := Host.Outcome State Fault Refusal

/-- The outcome of a command taken after the own steps that are due, with the end of its event. -/
def event (f : State → State) (s : State) : Outcome := .next (finish (f (settle s)))

/-- BACKLOG_HEAD_CLAIM: one claim of the backlog head; FLE's claims at that queue come first (R18, R20). -/
def execBacklogHeadClaim (p : Port) (s : State) : Outcome := .next (finish (claimBacklogHead p (fleClaimsAt p s)))

/-- FLE_FRAME_CLAIM: one claim of the frame FLE has ready for a degree (R95). -/
def execFleFrameClaim (d : Degree) (s : State) : Outcome := .next (finish (fleClaim d s))

/-- PROMOTION: taken when it is due (R113). -/
def execPromotion (s : State) : Outcome := .next (promoteDue (claimAll s))

/-- DISPATCH: the head of the queue is dispatched while its test passes (R129). -/
def execDispatch (s : State) : Outcome := .next (settle s)

end Sys2Proof.Machine
end

