-- ==== Sys2Proof/Machine/Adjacency.lean ====
section
/-! DEFINITION. The adjacency monitor (02): greeting, the six states, entering and leaving UP, enable and disable, and the
meanings of the four timer expiries. -/

namespace Sys2Proof.Machine

/-! ## Greeting (R26, R27) -/

/-- The seen value an adjacency sends (R24). -/
def Adjacency.seen (a : Adjacency) : NodeId :=
  match a.state with
  | .disabled => 0
  | .down => 0
  | .detect => (a.nbr.map (·.node)).getD 0
  | .qualify => (a.nbr.map (·.node)).getD 0
  | .up => (a.nbr.map (·.node)).getD 0
  | .hold => 0

/-- The GREET of a degree (R26). -/
def greetFrame (s : State) (d : Degree) : Frame :=
  ownFrame s kindGreet neighbourDst (.greet ⟨s.nodeId, d.val, 0, (s.adjacency d).seen⟩)

/-- A GREET is placed and the greet timer restarted (R27). -/
def placeGreet (d : Degree) (s : State) : State :=
  (s.setPort (.deg d) ((s.port (.deg d)).placeGreet (greetFrame s d))).setAdjacency d
    { s.adjacency d with greetTimer := some (s.now + s.cfu.params.greetInterval) }

/-! ## Moves of a degree (R29 to R35) -/

/-- The dead timer restarted (R25). -/
def Adjacency.startDead (s : State) (a : Adjacency) : Adjacency :=
  { a with deadTimer := some (s.now + s.cfu.params.deadInterval) }

/-- The record a GREET opens (R29). -/
def openRecord (g : GreetBody) : Neighbour := ⟨g.senderNode, g.senderDegree, g.senderDomain, 0, none⟩

/-- Entry to DETECT with the sender of a GREET (R29, R30). -/
def enterDetect (d : Degree) (g : GreetBody) (s : State) : State :=
  placeGreet d (s.setAdjacency d
    (Adjacency.startDead s { s.adjacency d with state := .detect, nbr := some (openRecord g) }))

/-- Entry to DOWN from DETECT or QUALIFY, or from DISABLED, with a GREET of seen 0 (R30, R31, R37). -/
def enterDown (d : Degree) (s : State) : State :=
  placeGreet d (s.setAdjacency d { s.adjacency d with
    state := .down, nbr := none, deadTimer := none, holdTimer := none, holdLimit := none })

/-- FLE's lists of a degree emptied, its tally round and timer stopped (R103). -/
def clearFlood (d : Degree) (s : State) : State := s.setFlood d FleDegree.reset

/-- Entry to UP with its hand-offs (R34, R103). -/
def enterUp (d : Degree) (s : State) : State :=
  let s1 := s.setAdjacency d { s.adjacency d with state := .up }
  normalRequest (raise .adjacency [.degree d] (startRound d (originateLink d s1)))

/-- Entry to HOLD from UP with the effects of leaving UP (R32, R35, R103). -/
def enterHold (d : Degree) (s : State) : State :=
  let hold := s.cfu.params.adjHoldTime * 1000
  let s1 := placeGreet d (s.setAdjacency d { s.adjacency d with
    state := .hold, deadTimer := none, holdTimer := some (s.now + hold), holdLimit := some (s.now + 6 * hold) })
  urgentRequest (raise .adjacency [.degree d] (clearFlood d (originateLink d s1)))

/-- HOLD ends: DOWN, record cleared, no GREET placed (R33). -/
def endHold (d : Degree) (s : State) : State :=
  s.setAdjacency d { s.adjacency d with state := .down, nbr := none, holdTimer := none, holdLimit := none }

/-! ## A received GREET (R28 to R33) -/

/-- The GREET is from the recorded neighbour (R25). -/
def Neighbour.sameAs (n : Neighbour) (g : GreetBody) : Bool :=
  n.node == g.senderNode && n.degree == g.senderDegree && n.domain == g.senderDomain

/-- The neighbour record after a valid GREET with the qualify counter given. -/
def Neighbour.valid (n : Neighbour) (counter : Nat) (now : Moment) : Neighbour :=
  { n with counter := counter, lastGreet := some now }

/-- The qualify counter after a valid GREET in QUALIFY: counted up while the gap is not greater than the dead interval,
else 1 (R31). -/
def nextCounter (s : State) (n : Neighbour) : Nat :=
  if (n.lastGreet.map fun t => decide (s.now - t ≤ s.cfu.params.deadInterval)).getD false then n.counter + 1 else 1

/-- A GREET in DETECT (R30). -/
def greetInDetect (d : Degree) (g : GreetBody) (n : Neighbour) (s : State) : State :=
  let a := s.adjacency d
  if n.sameAs g then
    if g.seen == s.nodeId then
      s.setAdjacency d (Adjacency.startDead s { a with state := .qualify, nbr := some (n.valid 1 s.now) })
    else s.setAdjacency d (Adjacency.startDead s a)
  else enterDetect d g s

/-- A GREET in QUALIFY (R31). -/
def greetInQualify (d : Degree) (g : GreetBody) (n : Neighbour) (s : State) : State :=
  let a := s.adjacency d
  if n.sameAs g then
    if g.seen == s.nodeId then
      let c := nextCounter s n
      let s' := s.setAdjacency d (Adjacency.startDead s { a with nbr := some (n.valid c s.now) })
      if s.cfu.params.qualifyCount ≤ c then enterUp d s' else s'
    else s.setAdjacency d (Adjacency.startDead s a)
  else enterDetect d g s

/-- A GREET in UP (R32). -/
def greetInUp (d : Degree) (g : GreetBody) (n : Neighbour) (s : State) : State :=
  if n.sameAs g && g.seen == s.nodeId then
    s.setAdjacency d (Adjacency.startDead s { s.adjacency d with nbr := some (n.valid n.counter s.now) })
  else enterHold d s

/-- A GREET in HOLD (R33). -/
def greetInHold (d : Degree) (s : State) : State :=
  if s.cfu.params.retrigger == 1 then
    s.setAdjacency d { s.adjacency d with holdTimer := some (s.now + s.cfu.params.adjHoldTime * 1000) }
  else s

/-- A received GREET (R28).  In DETECT, QUALIFY and UP the record is present (R25). -/
def takeGreet (d : Degree) (g : GreetBody) (s : State) : State :=
  if g.senderNode == s.nodeId then frameError (.deg d) s
  else
    let a := s.adjacency d
    match a.state, a.nbr with
    | .disabled, _ => s
    | .down, _ => enterDetect d g s
    | .detect, some n => greetInDetect d g n s
    | .qualify, some n => greetInQualify d g n s
    | .up, some n => greetInUp d g n s
    | .hold, _ => greetInHold d s
    | .detect, none => enterDetect d g s
    | .qualify, none => enterDetect d g s
    | .up, none => enterHold d s

/-! ## Enable, disable and node-ID change (R36, R37, R39) -/

/-- The degree enable of a degree. -/
def setEnable (d : Degree) (on : Bool) (s : State) : State := s.setAdjacency d { s.adjacency d with enable := on }

/-- DEGREE_ENABLE at a degree (R37). -/
def enableDegree (d : Degree) (s : State) : State :=
  let s' := setEnable d true s
  if s.cfu.start == .running && (s.adjacency d).state == .disabled then enterDown d s' else s'

/-- An adjacency in DISABLED: record absent, timers stopped, enable kept (R24). -/
def Adjacency.disable (a : Adjacency) : Adjacency := ⟨.disabled, a.enable, none, none, none, none, none⟩

/-- The output side of a degree emptied, the direct claims that wait for it with it (R22). -/
def discardPort (d : Degree) (s : State) : State :=
  { s with claims := s.claims.filter fun c => c.port != Port.deg d }.setPort (.deg d) (s.port (.deg d)).discard

/-- DEGREE_DISABLE at a degree (R35, R36). -/
def disableDegree (d : Degree) (s : State) : State :=
  let s' := setEnable d false s
  if s.cfu.start == .running && (s.adjacency d).state != .disabled then
    let s1 := s'.setAdjacency d (s'.adjacency d).disable
    let s2 := if s.isUp d then raise .adjacency [.degree d] (clearFlood d (originateLink d s1)) else s1
    urgentRequest (discardPort d s2)
  else s'

/-- A degree at a change of the node-ID parameter (R39, R89). -/
def renameDegree (d : Degree) (s : State) : State :=
  match (s.adjacency d).state with
  | .disabled => s
  | .down => s
  | .detect => enterDown d s
  | .qualify => enterDown d s
  | .hold => enterDown d s
  | .up => raise .adjacency [.degree d] (clearFlood d (enterDown d s))

/-! ## Timer expiries (R27, R30 to R33) -/

/-- The greet timer of a degree expires (R27). -/
def expireGreet (d : Degree) (s : State) : State :=
  match (s.adjacency d).greetTimer with
  | none => s
  | some t => placeGreet d (s.reach t)

/-- The dead timer of a degree expires (R30 to R32). -/
def expireDead (d : Degree) (s : State) : State :=
  match (s.adjacency d).deadTimer with
  | none => s
  | some t =>
    let s' := s.reach t
    match (s.adjacency d).state with
    | .detect => enterDown d s'
    | .qualify => enterDown d s'
    | .up => enterHold d s'
    | .disabled => s
    | .down => s
    | .hold => s

/-- The hold timer, or the hold limit, of a degree expires (R33). -/
def expireHoldAt (d : Degree) (timer : Option Moment) (s : State) : State :=
  match timer, (s.adjacency d).state with
  | some t, .hold => endHold d (s.reach t)
  | _, _ => s

/-! ## Meanings -/

/-- GREET_TIMER_EXPIRY (R27). -/
def execGreetTimerExpiry (d : Degree) (s : State) : Outcome := event (expireGreet d) s

/-- DEAD_TIMER_EXPIRY (R30 to R32). -/
def execDeadTimerExpiry (d : Degree) (s : State) : Outcome := event (expireDead d) s

/-- HOLD_TIMER_EXPIRY (R33). -/
def execHoldTimerExpiry (d : Degree) (s : State) : Outcome := event (fun t => expireHoldAt d (t.adjacency d).holdTimer t) s

/-- HOLD_LIMIT_EXPIRY (R33). -/
def execHoldLimitExpiry (d : Degree) (s : State) : Outcome := event (fun t => expireHoldAt d (t.adjacency d).holdLimit t) s

end Sys2Proof.Machine
end

