-- ==== Sys2Proof/Machine/Advert.lean ====
section
/-! DEFINITION. ADVERT, SLOTMAP and FAULTREP as DTU, FLE and TDB take them (R43 to R51, R78, R88, R90), and the meanings of the
clocks and deadlines of TDB, FLE and CMC. -/

namespace Sys2Proof.Machine

/-! ## DTU: faults, warnings and quarantine (R47 to R51) -/

/-- An entry of the domain table written. -/
def setDomain (i : Nat) (e : DomainEntry) (s : State) : State :=
  if h : i < 16 then { s with dtu := vset s.dtu ⟨i, h⟩ e } else s

/-- A link record of a domain whose working version is ACTIVE (R51). -/
def quarantines (domain : Nat) (r : LinkRec) : Bool := r.ver.domain == domain && r.ver.workingActive

/-- The local withdrawal of every link of a domain (R51); the changed origins are checked against the pull lists (R101). -/
def withdrawDomain (domain : Nat) (s : State) : State :=
  let hit := s.tdb.links.filter fun e => quarantines domain e.2
  if hit.isEmpty then s
  else
    let links := tmap (fun r => if quarantines domain r then { r with ver := r.ver.withdraw } else r) s.tdb.links
    hit.foldl (fun t e => checkPulls e.2.key.origin t) (noteChange { s with tdb := { s.tdb with links := links } })

/-- A translation fault counted against its entry, with the quarantine it may bring (R47, R49, R51). -/
def takeFault (domain : Nat) (e : DomainEntry) (k : FaultKind) (s : State) : State :=
  let e' := e.countFault k
  let s' := raise .domainFault [.domain domain] (setDomain domain e' s)
  if e'.state == .quarantined then urgentRequest (withdrawDomain domain s') else s'

/-- A capacity warning (R48). -/
def takeWarning (domain : Nat) (e : DomainEntry) (offsets : List Nat) (s : State) : State :=
  if warns e offsets then raise .domainWarn [.domain domain] (setDomain domain { e with state := .warned } s) else s

/-- An ADVERT taken on an UP degree: translated if it is foreign, then compared and stored (R43, R90). -/
def takeAdvert (d : Degree) (a : AdvertBody) (s : State) : State :=
  if a.domain == 0 then takeRecord d (nativeWrite d a) s
  else match vget? s.dtu a.domain with
    | none => s
    | some e =>
      if e.state == .quarantined then s
      else match translate s.tdb s.nodeId d e.fields a with
        | .fault k => takeFault a.domain e k s
        | .record w offsets => takeRecord d w (takeWarning a.domain e offsets s)

/-! ## SLOTMAP (R88) and FAULTREP (R78) -/

/-- A SLOTMAP: a changed map is stored and, on an UP degree, advertised (R88). -/
def takeSlotmap (m : SlotmapBody) (s : State) : State :=
  match degree? m.degree with
  | none => s
  | some d =>
    let new := SlotMap.make m.used m.blocked
    if new == vget s.fle.slotMaps d then s
    else
      let s' := { s with fle := { s.fle with slotMaps := vset s.fle.slotMaps d new } }
      if s.isUp d then originateLink d s' else s'

/-- A FAULTREP (R78). -/
def takeFaultrep (p : Port) (r : SlotRun) (s : State) : State :=
  if !r.normal.rangeOk then frameError p s
  else
    let a := addExclusion r .reported s
    match a.2 with
    | .appended => raise .exclusion [.added] a.1
    | .refused => raise .exclusion [.full] a.1
    | .unchanged => a.1
    | .madeLoaded => a.1
    | .restarted => a.1

/-! ## Clocks of TDB (R67, R79) -/

/-- The age clock expires and restarts (R67). -/
def expireAgeClock (s : State) : State :=
  let s' := s.reach s.tdb.ageClock
  { s' with tdb := { s'.tdb.tick s'.nodeId with ageClock := s'.now + Config.ageClockPeriod } }

/-- The lifetime of a REPORTED exclusion has reached 0 (R79). -/
def expireExclusion (r : SlotRun) (s : State) : State :=
  if s.tdb.exclusions.any fun e => e.run == r && e.origin == .reported && e.lifetime == some 0 then removeExclusion r s
  else s

/-! ## Timers of FLE (R87, R97, R101) -/

/-- The refresh timer expires: own records originated, then the timer restarts (R87). -/
def expireRefresh (s : State) : State :=
  match s.fle.refreshTimer with
  | none => s
  | some t =>
    let s' := originateAll (s.reach t)
    { s' with fle := { s'.fle with refreshTimer := some (s'.now + s'.cfu.params.refreshInterval * 1000) } }

/-- A tally timer expires: it restarts, and a round starts unless one is in progress (R97). -/
def expireTally (d : Degree) (s : State) : State :=
  match (s.flood d).tallyTimer with
  | none => s
  | some t =>
    let s' := s.reach t
    if (s.flood d).round.isNone then startRound d s'
    else s'.setFlood d { s'.flood d with tallyTimer := some (s'.now + s'.cfu.params.tallyInterval * 1000) }

/-- The deadline of a pull-list entry expires: the entry leaves silently (R100, R101). -/
def expirePull (d : Degree) (o : NodeId) (s : State) : State :=
  match (s.flood d).pulls.find? fun e => e.origin == o with
  | none => s
  | some e =>
    let s' := s.reach e.deadline
    s'.setFlood d ((s'.flood d).dropPulls o fun _ => true)

/-! ## Timers of CMC (R107, R110) -/

/-- The check timer expires: one quiet check (R110, R111). -/
def expireCheck (s : State) : State :=
  match s.cmc.state, s.cmc.checkTimer with
  | .settling, some t => quietCheck (s.reach t)
  | _, _ => s

/-- The auto-commit timer expires and restarts; it requests when a record has a pending part (R107). -/
def expireAuto (s : State) : State :=
  match s.cmc.autoTimer with
  | none => s
  | some t =>
    let s1 := s.reach t
    let s2 := { s1 with cmc := { s1.cmc with autoTimer := some (s1.now + s1.cfu.params.autoCommit * 1000) } }
    if s2.tdb.anyPending then normalRequest s2 else s2

/-! ## Meanings -/

/-- AGE_CLOCK_EXPIRY (R67). -/
def execAgeClockExpiry (s : State) : Outcome := event expireAgeClock s

/-- AGE_EXPIRY (R68). -/
def execAgeExpiry (k : RecordKey) (s : State) : Outcome := event (expireAge k) s

/-- LINGER_EXPIRY (R70). -/
def execLingerExpiry (k : RecordKey) (s : State) : Outcome := event (expireLinger k) s

/-- EXCLUSION_LIFETIME_EXPIRY (R79). -/
def execExclusionLifetimeExpiry (r : SlotRun) (s : State) : Outcome := event (expireExclusion r) s

/-- REFRESH_TIMER_EXPIRY (R87). -/
def execRefreshTimerExpiry (s : State) : Outcome := event expireRefresh s

/-- TALLY_TIMER_EXPIRY (R97). -/
def execTallyTimerExpiry (d : Degree) (s : State) : Outcome := event (expireTally d) s

/-- PULL_DEADLINE_EXPIRY (R101). -/
def execPullDeadlineExpiry (d : Degree) (o : NodeId) (s : State) : Outcome := event (expirePull d o) s

/-- QUIET_CHECK (R110, R111). -/
def execQuietCheck (s : State) : Outcome := event expireCheck s

/-- AUTO_COMMIT_TIMER_EXPIRY (R107). -/
def execAutoCommitTimerExpiry (s : State) : Outcome := event expireAuto s

end Sys2Proof.Machine
end

