-- ==== Sys2Proof/Machine/Requests.lean ====
section
/-! DEFINITION. The request unit (07): admission, referral, relay, cancelling and referral deadlines; and the meanings of the
expiries and completions of requests, lanes and results (07 to 09). -/

namespace Sys2Proof.Machine

/-! ## Senders (R12, R123) -/

/-- The identity FSW gives with a frame: 0 for NP, else the header's source node (R12). -/
def identity (p : Port) (src : NodeId) : NodeId :=
  match p with
  | .deg _ => src
  | .np => 0

/-- A frame on a degree whose source node no answer could reach (R123, R179, R206). -/
def badSender (s : State) (p : Port) (src : NodeId) : Bool :=
  match p with
  | .deg _ => src == 0 || src == 65535 || src == s.nodeId
  | .np => false

/-- Takes a frame from a sender an answer can reach, or discards it with FRAME_ERROR. -/
def fromSender (p : Port) (src : NodeId) (f : NodeId → State → State) (s : State) : State :=
  if badSender s p src then frameError p s else f (identity p src) s

/-! ## Admission (R124 to R128) -/

/-- A request is under a (requester, tag) pair. -/
def Request.named (r : Request) (who : NodeId) (tag : Nat) : Bool := r.requester == who && r.body.tag == tag

/-- The pair is present in the queue, on a lane, in the referral list or in the results table (R126). -/
def present (s : State) (who : NodeId) (tag : Nat) : Bool :=
  (s.rqu.queue.any fun r => r.named who tag) || (s.rsv.requests.any fun r => r.named who tag) ||
  (s.rqu.referrals.toList.any fun e => e.any fun r => r.requester == who && r.tag == tag) ||
  s.shu.results.any fun e => e.2.requester == who && e.2.tag == tag

/-- The peer a request is to be referred to (R135). -/
def referralPeer (s : State) (who : NodeId) (q : RouteqBody) : Option NodeId :=
  match s.tdb.findNode q.dst with
  | none => none
  | some (_, r) =>
    if r.ver.committedActive && r.ver.domain != 0 then
      match vget? s.rqu.delegation r.ver.domain with
      | none => none
      | some peer => if peer != 0 && peer != who && peer != s.nodeId then some peer else none
    else none

/-- The queue has room (R127). -/
def queueRoom (s : State) : Bool := decide (s.rqu.queue.length + s.rsv.requests.length < Config.requestLimit)

/-- The indices of the referral list after the cursor, wrapping (R136). -/
def referralOrder (cursor : Nat) : List (Fin 16) :=
  (List.range 16).map fun i => ⟨(cursor + 1 + i) % 16, Nat.mod_lt _ (by decide)⟩

/-- The first free index after the cursor (R136). -/
def freeReferral (r : Rqu) : Option (Fin 16) := (referralOrder r.cursor).find? fun i => (vget r.referrals i).isNone

def setReferral (i : Fin 16) (e : Option Referral) (s : State) : State :=
  { s with rqu := { s.rqu with referrals := vset s.rqu.referrals i e } }

/-- The pair leaves the expired list when its tag names a new request (R173). -/
def forgetExpired (who : NodeId) (tag : Nat) (s : State) : State := { s with shu := s.shu.forget who tag }

/-- The body forwarded to a peer: tag the referral tag, HOLD cleared, reserved flag bits sent as 0 (R5, R137). -/
def forwardedBody (i : Fin 16) (q : RouteqBody) : RouteqBody := { q with tag := i.val, flags := q.flags &&& 0x0E#8 }

/-- A referral entry is made and the ROUTEQ forwarded (R136, R137). -/
def makeReferral (i : Fin 16) (who peer : NodeId) (q : RouteqBody) (s : State) : State :=
  let e : Referral := ⟨who, q.tag, peer, q.hold, s.now + s.cfu.params.referralWait * 1000⟩
  let s1 := setReferral i (some e) s
  let s2 := { s1 with rqu := { s1.rqu with cursor := i.val } }
  placeOwn .rqu (ownFrame s kindRouteq peer (.routeq (forwardedBody i q))) (forgetExpired who q.tag s2)

/-- A request to be referred (R135). -/
def refer (who peer : NodeId) (q : RouteqBody) (s : State) : State :=
  match lookup s peer with
  | none => raise .referral [.unreachable] (answerNow .rqu who q.tag .referralUnreachable s)
  | some _ => match freeReferral s.rqu with
    | none => answerNow .rqu who q.tag .refusedFull s
    | some i => makeReferral i who peer q s

/-- An admitted request joins the queue (R128). -/
def enqueueRequest (who : NodeId) (q : RouteqBody) (s : State) : State :=
  let r : Request := ⟨who, q, 0, s.rqu.admitted + 1⟩
  forgetExpired who q.tag
    { s with rqu := { s.rqu with queue := joinTail r s.rqu.queue, admitted := s.rqu.admitted + 1 } }

/-- A ROUTEQ, by the six steps of R124. -/
def takeRouteq (q : RouteqBody) (who : NodeId) (s : State) : State :=
  if s.cmc.gen == 0 then answerNow .rqu who q.tag .refusedNotReady s
  else if !q.fieldsOk then answerNow .rqu who q.tag .refusedParam s
  else if present s who q.tag then answerNow .rqu who q.tag .refusedDup s
  else match referralPeer s who q with
    | some peer => refer who peer q s
    | none => if queueRoom s then enqueueRequest who q s else answerNow .rqu who q.tag .refusedFull s

/-! ## Relay (R138, R139) -/

/-- The entry a ROUTEA matches (R138). -/
def matchReferral (s : State) (who : NodeId) (tag : Nat) : Option (Fin 16 × Referral) :=
  if h : tag < 16 then
    match vget s.rqu.referrals ⟨tag, h⟩ with
    | some r => if r.peer == who then some (⟨tag, h⟩, r) else none
    | none => none
  else none

/-- The outcome relayed: FOUND becomes FOUND_UNHELD when a hold was asked (R138). -/
def relayedOutcome (holdAsked : Bool) (o : Nat) : Nat :=
  if holdAsked && o == RouteOutcome.found.code then RouteOutcome.foundUnheld.code else o

/-- A ROUTEA: relayed to the original requester, or discarded with REFERRAL LATE (R138, R139). -/
def takeRoutea (a : RouteaBody) (who : NodeId) (s : State) : State :=
  match matchReferral s who a.tag with
  | some (i, r) =>
    placeOwn .rqu (ownFrame s kindRoutea r.requester
      (.routea { a with tag := r.tag, outcome := relayedOutcome r.holdAsked a.outcome })) (setReferral i none s)
  | none => raise .referral [.late] s

/-- A referral deadline expires (R139). -/
def expireReferral (n : Nat) (s : State) : State :=
  if h : n < 16 then
    match vget s.rqu.referrals ⟨n, h⟩ with
    | none => s
    | some r => answerNow .rqu r.requester r.tag .referralTimeout (setReferral ⟨n, h⟩ none (s.reach r.deadline))
  else s

/-! ## Cancelling (R133) -/

/-- A RELEASE: it cancels the sender's queued request, or is passed to SHU (R133, R179). -/
def takeRelease (tag : Nat) (who : NodeId) (s : State) : State :=
  if s.rqu.queue.any fun r => r.named who tag then
    answerNow .rqu who tag .cancelled { s with rqu := { s.rqu with queue := s.rqu.queue.filter fun r => !r.named who tag } }
  else takeResultRelease who tag s

/-! ## Meanings -/

/-- COMPLETION (R160). -/
def execCompletion (l : LaneId) (s : State) : Outcome := event (complete l) s

/-- TREE_BUILD_COMPLETION (R167). -/
def execTreeBuildCompletion (s : State) : Outcome := event completeTree s

/-- REFERRAL_DEADLINE_EXPIRY (R139). -/
def execReferralDeadlineExpiry (i : Nat) (s : State) : Outcome := event (expireReferral i) s

/-- HOLD_DEADLINE_EXPIRY (R181). -/
def execHoldDeadlineExpiry (i : Nat) (s : State) : Outcome := event (expireHold i) s

/-- CLAIM_DEADLINE_EXPIRY (R183). -/
def execClaimDeadlineExpiry (i : Nat) (s : State) : Outcome := event (expireClaim i) s

end Sys2Proof.Machine
end

