-- ==== Sys2Proof/Machine/Views.lean ====
section
/-! DEFINITION. What STATUS and TABLE_READ show (R41, R57, R82, R105, R122, R142, R170, R190, R201, R211, R212). -/

namespace Sys2Proof.Machine

/-! ## STATUS (R211) -/

/-- What STATUS reports of a lane (R170). -/
def Lane.status (l : Lane) : LaneStatus :=
  match l.work with
  | .idle => ⟨.idle, none, l.current, l.previous⟩
  | .computing r _ => ⟨.computing, some (r.requester, r.body.tag), l.current, l.previous⟩
  | .tree _ => ⟨.tree, none, l.current, l.previous⟩

/-- The number of INCOMPLETE origins, flags and list entries together (R82). -/
def Tdb.incompleteCount (t : Tdb) : Nat := (t.nodes.filter fun e => e.2.incomplete).length + t.incomplete.length

/-- The STATUS snapshot (R211). -/
def snapshot (s : State) : Snapshot where
  vendor := 0x0D41
  part := 0x0008
  revision := 1
  start := s.cfu.start
  nodeId := s.nodeId
  outcome := s.cfu.outcome
  skipped := s.cfu.skipped
  clamped := s.cfu.clamped
  locks := s.cfu.locks
  adjacencies := allDegrees.map fun d => ((s.adjacency d).state, (s.adjacency d).enable)
  commit := s.cmc.report
  gen := s.cmc.gen
  freeze := s.cmc.freeze
  normalReq := s.cmc.normalReq
  urgentReq := s.cmc.urgentReq
  settling := if s.cmc.state == .settling then some (s.cmc.settle, s.cmc.checks) else none
  lane0 := s.rsv.l0.status
  lane1 := s.rsv.l1.status
  queuedUrgent := (s.rqu.queue.filter fun r => r.cls == 0).length
  queuedNormal := (s.rqu.queue.filter fun r => r.cls == 1).length
  queuedBulk := (s.rqu.queue.filter fun r => r.cls == 2).length
  referralsUsed := (s.rqu.referrals.toList.filter Option.isSome).length
  nodeRecords := s.tdb.nodes.length
  linkRecords := s.tdb.links.length
  exclusionEntries := s.tdb.exclusions.length
  incompleteOrigins := s.tdb.incompleteCount
  resultsHeld := (s.shu.results.filter fun e => e.2.state == .held).length
  resultsClaimed := (s.shu.results.filter fun e => e.2.state == .claimed).length
  holdsUsed := s.shu.holds.length
  pendingSources := s.ntu.pendingSet

/-! ## Entries of TABLE_READ -/

/-- The time left to a moment, up to a limit. -/
def remaining (s : State) (t : Moment) (limit : Nat) : Nat := min limit (t - s.now)

def neighbourView (s : State) (n : Neighbour) : NeighbourView :=
  ⟨n.node, n.degree, n.domain, n.counter, n.lastGreet.map fun t => min 65535 (s.now - t)⟩

/-- An entry of the exclusion list (R82).  The seconds elapsed are whole seconds, a part of one not counted: R82 gives no rounding
(DESIGN CHOICE, log 33). -/
def exclusionEntry (s : State) (e : Exclusion) : TableEntry :=
  .exclusion e.run e.origin e.lifetime (min 86400 ((s.now - e.addedAt) / 1000))

/-- A queued request (R142).  Its flags are shown as received, bits 4 to 7 with them: R5 has those ignored and does not say
what a read shows of them (DESIGN CHOICE, log 27). -/
def requestEntry (r : Request) : TableEntry :=
  .request ⟨r.requester, r.body.tag, r.body.cls, r.body.kind, r.body.flags, r.body.src, r.body.dst, r.body.width, r.retries⟩

def referralView (s : State) (r : Referral) : ReferralView :=
  ⟨r.requester, r.tag, r.peer, r.holdAsked, r.deadline - s.now⟩

/-- A lane as read (R170).  The fields of a computation are given while the lane computes; an IDLE lane gives none and a TREE
lane only its generation, where R170 does not say which stand (DESIGN CHOICE, log 29). -/
def laneView (s : State) (l : Lane) : LaneView :=
  match l.work with
  | .idle => .idle
  | .tree g => .tree g
  | .computing r c => .computing
      ⟨r.requester, r.body.tag, r.body.kind, r.retries, c.gen, c.exclusions.length, c.holds.length,
        min 65535 (s.now - c.startedAt)⟩

def laneEntry (s : State) (i : LaneId) : TableEntry :=
  let l := s.rsv.lane i
  .lane i (laneView s l) l.current l.previous

/-- A result as read: its deadline is the hold deadline in HELD, the claim deadline in CLAIMED (R190). -/
def resultView (s : State) (r : Result) : ResultView :=
  ⟨r.requester, r.tag, r.pair, r.gen, r.state, r.holdCount,
    ((r.holdDeadline.or r.claimDeadline).map fun t => remaining s t 600000).getD 0, r.paths⟩

def floodEntry (s : State) (d : Degree) : TableEntry :=
  let x := s.flood d
  .flood d x.sendList.length x.waiting x.round (x.pulls.map fun e => { e with deadline := e.deadline - s.now })

def sourceEntry (s : State) (i : NoticeId) : TableEntry := .source i (s.ntu.source i)

/-- The entries of a table from its first index or position on (R212). -/
def tableEntries (s : State) : TableId → List TableEntry
  | .nodes => (List.range Config.nodeTableSize).map fun i => .node i (tget s.tdb.nodes i)
  | .links => (List.range Config.linkTableSize).map fun i => .link i (tget s.tdb.links i)
  | .exclusions => s.tdb.exclusions.map (exclusionEntry s)
  | .incomplete => s.tdb.incomplete.map .incomplete
  | .adjacency => allDegrees.map fun d =>
      .adjacency d (s.adjacency d).state (s.adjacency d).enable ((s.adjacency d).nbr.map (neighbourView s))
  | .domains => s.dtu.toList.zipIdx.map fun e => .domain e.2 e.1
  | .delegation => (s.rqu.delegation.toList.zipIdx.drop 1).map fun e => .delegation e.2 e.1
  | .flood => allDegrees.map (floodEntry s)
  | .slotMaps => allDegrees.map fun d => .slotMap d (vget s.fle.slotMaps d)
  | .forwarding => (List.range Config.nodeTableSize).map fun i => .forwarding i (tget s.fsw.fwd i)
  | .changedLinks => s.cmc.changedLinks.map .changedLink
  | .requests => s.rqu.queue.map requestEntry
  | .referrals => s.rqu.referrals.toList.zipIdx.map fun e => .referral e.2 (e.1.map (referralView s))
  | .lanes => [laneEntry s .l0, laneEntry s .l1]
  | .results => (List.range Config.resultSize).map fun i => .result i ((tget s.shu.results i).map (resultView s))
  | .holds => (List.range Config.holdSize).map fun i => .hold i (tget s.shu.holds i)
  | .expired => s.shu.expired.map fun e => .expired e.1 e.2
  | .sources => NoticeId.all.map (sourceEntry s)
  | .watches => s.ntu.watches.toList.zipIdx.map fun e => .watch e.2 e.1

/-- The first index of a table and the number of its indices or positions (R212). -/
def tableBounds : TableId → Nat × Nat
  | .nodes => (0, 256)
  | .links => (0, 2048)
  | .exclusions => (0, 128)
  | .incomplete => (0, 32)
  | .adjacency => (0, 8)
  | .domains => (0, 16)
  | .delegation => (1, 15)
  | .flood => (0, 8)
  | .slotMaps => (0, 8)
  | .forwarding => (0, 256)
  | .changedLinks => (0, 2048)
  | .requests => (0, 64)
  | .referrals => (0, 16)
  | .lanes => (0, 2)
  | .results => (0, 64)
  | .holds => (0, 512)
  | .expired => (0, 16)
  | .sources => (0, 13)
  | .watches => (0, 8)

/-- A start index lies in the table (R212). -/
def tableStartOk (t : TableId) (start : Nat) : Bool :=
  decide ((tableBounds t).1 ≤ start) && decide (start < (tableBounds t).1 + (tableBounds t).2)

/-- What an answer carries beside its entries (R105, R122, R142, R212). -/
def tableExtra (s : State) : TableId → TableExtra
  | .flood => .flood s.fle.seq (decide (Config.lastSequence < s.fle.seq))
  | .forwarding => .forwarding s.fsw.fwdGen
  | .changedLinks => .changedLinks s.cmc.changedLinks.length
  | .referrals => .referrals s.rqu.cursor
  | .nodes => .none
  | .links => .none
  | .exclusions => .none
  | .incomplete => .none
  | .adjacency => .none
  | .domains => .none
  | .delegation => .none
  | .slotMaps => .none
  | .requests => .none
  | .lanes => .none
  | .results => .none
  | .holds => .none
  | .expired => .none
  | .sources => .none
  | .watches => .none

/-- The whole entries that fit in one body: a free value of at least one (R212, log 4). -/
def fitting (s : State) (t : TableId) (start : Nat) : Nat := max 1 (Config.entriesThatFit t start s.freeCount)

/-- The answer to a TABLE_READ (R212).  A count of 0 gives no entries and only the generation: the answer still names table and start
index, and what a table gives beside its entries is left out (DEDUCED, log 34). -/
def tableAnswer (s : State) (t : TableId) (start count : Nat) : TableAnswer :=
  let present := (tableEntries s t).drop (start - (tableBounds t).1)
  ⟨s.cmc.gen, t, start, present.take (min count (fitting s t start)), if count == 0 then .none else tableExtra s t⟩

end Sys2Proof.Machine
end

