-- ==== Sys2Proof/Machine/Manage.lean ====
section
/-! DEFINITION. The configuration unit's commands (11, and the command rules of 02 to 10): what each MGMTQ command does and
answers, the access checks, the placing of the MGMTA, and the twenty meanings. -/

namespace Sys2Proof.Machine

/-! ## Answers (R206) -/

/-- The result code and data of an answer. -/
structure Reply where
  code : ResultCode
  data : ResultData
  deriving DecidableEq, Repr

/-- What carrying out a command gives: the state and the answer. -/
abbrev Done := State × Reply

/-- A refusal changes nothing and carries no result data (R206). -/
def refuse (c : ResultCode) (s : State) : Done := (s, ⟨c, .none⟩)

/-- The MGMTA is originated and placed (R206, R16); it claims space after the event's notices, as R20 orders NTU before CFU. -/
def answerMgmt (who : NodeId) (tag : Nat) (r : Reply) (s : State) : State :=
  placeOwn .cfu (ownFrame s kindMgmta who (.mgmta tag r.code r.data)) s

/-- The access check (R206, check 3). -/
def mayManage (s : State) (who : NodeId) : Bool := who == 0 || s.cfu.params.managers.toList.contains who

/-- An MGMTQ through checks 1 to 3, the command, and its answer (R206). -/
def manage (m : MgmtFrom) (f : State → Done) (s : State) : State :=
  if badSender s m.port m.src then frameError m.port s
  else
    let who := identity m.port m.src
    let r :=
      if s.cfu.start == .loading then refuse .notReady s
      else if !mayManage s who then refuse .refusedAccess s
      else f s
    answerMgmt who m.tag r.2 r.1

/-- A port takes an MGMTQ: NP in every start state, a degree while it accepts input (R9). -/
def takesMgmt (s : State) (p : Port) : Bool :=
  match p with
  | .deg d => (s.adjacency d).enable && s.cfu.start == .running
  | .np => true

/-- An MGMTQ that FSW passes on, or discards at a port that takes no input (R9, R206). -/
def manageFrom (m : MgmtFrom) (f : State → Done) (s : State) : State :=
  if takesMgmt s m.port then manage m f s else s

/-! ## Parameters (R207 to R209) -/

/-- READ_PARAM (R209). -/
def doReadParam (t : ParamTarget) (s : State) : Done :=
  match t.param with
  | none => refuse .badArgument s
  | some p => if targetOk t then (s, ⟨.ok, .param t (getParam s.cfu.params p t.sel)⟩) else refuse .badArgument s

/-- The auto-commit timer started at an interval; an interval of 0 leaves it stopped (R107). -/
def startAuto (s : State) : State :=
  { s with cmc := { s.cmc with
      autoTimer := if s.cfu.params.autoCommit == 0 then none else some (s.now + s.cfu.params.autoCommit * 1000) } }

/-- The entry to RUNNING (R40, R87, R107, R205). -/
def enterRunning (s : State) : State :=
  let s1 := { s with cfu := { s.cfu with start := .running } }
  let s2 := (allDegrees.filter fun d => (s.adjacency d).enable).foldl (fun t d => enterDown d t) s1
  let s3 := originateNode s2
  startAuto { s3 with fle := { s3.fle with refreshTimer := some (s3.now + s3.cfu.params.refreshInterval * 1000) } }

/-- The entry to ISOLATED: every degree DISABLED and its output side emptied (R22, R40, R202). -/
def enterIsolated (s : State) : State :=
  let s1 := { s with cfu := { s.cfu with start := .isolated }, adm := vec8 fun d => (s.adjacency d).disable }
  { s1 with fsw := { s1.fsw with degrees := vec8 fun d => (vget s1.fsw.degrees d).discard } }

/-- A new auto-commit interval: 0 stops the timer, a first value starts it while RUNNING (R107). -/
def autoWritten (old : Nat) (s : State) : State :=
  if s.cfu.params.autoCommit == 0 then { s with cmc := { s.cmc with autoTimer := none } }
  else if old == 0 && s.cfu.start == .running then startAuto s
  else s

/-- What a changed parameter does at once (R38, R39, R87, R89, R107, R205).  The others take effect at their next use. -/
def paramWritten (p : ParamId) (sel : Option Nat) (old : Nat) (s : State) : State :=
  match p with
  | .nodeId => match s.cfu.start with
    | .running => flush (allDegrees.foldl (fun t d => renameDegree d t) s)
    | .isolated => enterRunning s
    | .loading => s
  | .regenCount => if s.cfu.start == .running then originateNode s else s
  | .transitAllowed => if s.cfu.start == .running then originateNode s else s
  | .degreeCost => match sel.bind degree? with
    | some d => if s.isUp d then originateLink d s else s
    | none => s
  | .degreeImpairment => match sel.bind degree? with
    | some d => if s.isUp d then originateLink d s else s
    | none => s
  | .autoCommit => autoWritten old s
  | .managerEntry => s
  | .noticeDest => s
  | .greetInterval => s
  | .deadCount => s
  | .qualifyCount => s
  | .adjHoldTime => s
  | .retrigger => s
  | .refreshInterval => s
  | .tallyInterval => s
  | .pullWait => s
  | .settleCount => s
  | .regenPenalty => s
  | .resultHoldTime => s
  | .claimTimeout => s
  | .referralWait => s
  | .reportedLifetime => s

/-- The start-state refusals of a node-ID write (R207, R209). -/
def nodeIdRefused (s : State) (p : ParamId) (v : Nat) : Bool :=
  p == .nodeId && ((s.cfu.start == .isolated && v == 0) || (s.cfu.start == .running && s.cmc.gen == Config.lastGeneration))

/-- The effective value of a write; a node ID of 0 in RUNNING leaves the old one in force (R209). -/
def effective (s : State) (p : ParamId) (old v : Nat) : Nat :=
  if p == .nodeId && s.cfu.start == .running && v == 0 then old else clampParam p old v

/-- The parameter table with a value written. -/
def writeParams (p : ParamId) (sel : Option Nat) (v : Nat) (s : State) : State :=
  { s with cfu := { s.cfu with params := setParam s.cfu.params p sel v } }

/-- A parameter is in a locked group (R210). -/
def paramLocked (s : State) (p : ParamId) : Bool := (paramGroup p).any s.cfu.locks.has

/-- WRITE_PARAM (R209). -/
def doWriteParam (t : ParamTarget) (v : Nat) (s : State) : Done :=
  match t.param with
  | none => refuse .badArgument s
  | some p =>
    if !targetOk t then refuse .badArgument s
    else if paramLocked s p then refuse .locked s
    else if nodeIdRefused s p v then refuse .notReady s
    else
      let old := getParam s.cfu.params p t.sel
      let new := effective s p old v
      let s' := if new == old then s else paramWritten p t.sel old (writeParams p t.sel new s)
      (s', ⟨if new == v then .ok else .adjusted, .param t new⟩)

/-- LOCK_GROUP (R210). -/
def doLockGroup (g : Option LockGroup) (s : State) : Done :=
  match g with
  | none => refuse .badArgument s
  | some g =>
    let l := s.cfu.locks.lock g
    ({ s with cfu := { s.cfu with locks := l } }, ⟨.ok, .locks l⟩)

/-! ## Degrees, domains, delegation (R36, R37, R53, R54, R134) -/

/-- DEGREE_ENABLE (R37). -/
def doDegreeEnable (n : Nat) (s : State) : Done :=
  match degree? n with
  | none => refuse .badArgument s
  | some d => (enableDegree d s, ⟨.ok, .none⟩)

/-- DEGREE_DISABLE (R36). -/
def doDegreeDisable (n : Nat) (s : State) : Done :=
  match degree? n with
  | none => refuse .badArgument s
  | some d => (disableDegree d s, ⟨.ok, .none⟩)

/-- A foreign domain number. -/
def foreignDomain (n : Nat) : Bool := decide (1 ≤ n) && decide (n ≤ 15)

/-- The delegation peer of a domain written. -/
def setPeer (n : Nat) (peer : NodeId) (s : State) : State :=
  if h : n < 16 then { s with rqu := { s.rqu with delegation := vset s.rqu.delegation ⟨n, h⟩ peer } } else s

/-- An accepted DOMAIN_WRITE (R53). -/
def writeDomain (n : Nat) (f : DomainFields) (s : State) : State :=
  let s' := setDomain n ⟨f, .clean, false, .none⟩ s
  if f.valid then s' else setPeer n 0 s'

/-- The arguments of DOMAIN_WRITE are in range (R53). -/
def domainArgsOk (n : Nat) (f : DomainFields) : Bool := foreignDomain n && f.rangeOk

/-- DOMAIN_WRITE (R53). -/
def doDomainWrite (n : Nat) (f : DomainFields) (s : State) : Done :=
  if s.cfu.locks.domain then refuse .locked s
  else if !domainArgsOk n f then refuse .badArgument s
  else (writeDomain n f s, ⟨.ok, .none⟩)

/-- The entry after DOMAIN_RELEASE (R54). -/
def DomainEntry.release (e : DomainEntry) : DomainEntry :=
  match e.state with
  | .clean => e
  | .warned => e
  | .faulted => { e with state := .clean, outstanding := false }
  | .quarantined => { e with state := .clean, outstanding := false }

/-- DOMAIN_RELEASE (R54). -/
def doDomainRelease (n : Nat) (s : State) : Done :=
  if !foreignDomain n then refuse .badArgument s
  else match vget? s.dtu n with
    | none => refuse .badArgument s
    | some e => (setDomain n e.release s, ⟨.ok, .none⟩)

/-- A peer the delegation table may hold for a domain of the table (R134). -/
def delegateArgsOk (s : State) (n : Nat) (peer : NodeId) : Bool :=
  foreignDomain n && peer != 65535 && peer != s.nodeId

/-- The peer in force after an accepted DELEGATE_WRITE (R134). -/
def peerInForce (s : State) (n : Nat) (peer : NodeId) : NodeId :=
  if (vget? s.dtu n).any fun e => e.fields.valid then peer else 0

/-- DELEGATE_WRITE (R134). -/
def doDelegateWrite (n : Nat) (peer : NodeId) (s : State) : Done :=
  if s.cfu.locks.domain then refuse .locked s
  else if !delegateArgsOk s n peer then refuse .badArgument s
  else
    let p := peerInForce s n peer
    (setPeer n p s, ⟨if p == peer then .ok else .adjusted, .delegation n p⟩)

/-! ## Exclusions, watches, notices (R77, R79, R195 to R197) -/

/-- EXCLUDE_ADD (R77). -/
def doExcludeAdd (r : SlotRun) (s : State) : Done :=
  if !r.normal.rangeOk then refuse .badArgument s
  else
    let a := addExclusion r .loaded s
    if a.2 == .refused then refuse .full s
    else match exclusionPosition r.normal a.1 with
      | some i => (a.1, ⟨.ok, .exclusionAt i a.1.tdb.exclusions.length⟩)
      | none => (a.1, ⟨.ok, .none⟩)

/-- EXCLUDE_REMOVE (R79). -/
def doExcludeRemove (r : SlotRun) (s : State) : Done :=
  if !r.normal.rangeOk then refuse .badArgument s
  else if s.tdb.exclusions.any fun e => e.run == r.normal then (removeExclusion r.normal s, ⟨.ok, .removed⟩)
  else (s, ⟨.ok, .notFound⟩)

/-- What a watch becomes; a key count of 0 empties it (R197). -/
def WatchArgs.watch (w : WatchArgs) : Option Watch :=
  match w.mode, w.keys with
  | none, _ => none
  | some _, [] => none
  | some m, k :: ks => some ⟨m, k :: ks⟩

/-- A watch written. -/
def setWatch (w : WatchArgs) (s : State) : State :=
  if h : w.index < 8 then { s with ntu := { s.ntu with watches := vset s.ntu.watches ⟨w.index, h⟩ (WatchArgs.watch w) } } else s

/-- WATCH_WRITE (R197). -/
def doWatchWrite (w : WatchArgs) (s : State) : Done :=
  if !w.argsOk then refuse .badArgument s else (setWatch w s, ⟨.ok, .none⟩)

/-- The enables of all sources written from a mask (R195). -/
def setEnables (mask : BitVec 16) (s : State) : State :=
  { s with ntu := s.ntu.mapSources fun i n => { n with enable := mask.getLsbD i.number.val } }

/-- NOTICE_ENABLE: the notices it causes are originated before its answer (R195), and claim before it (R20; log 20). -/
def doNoticeEnable (mask : BitVec 16) (s : State) : Done :=
  let s' := holdDue (setEnables mask s)
  (s', ⟨.ok, .notices s'.ntu.enabledSet s'.ntu.pendingSet⟩)

/-- The sources of a mask cleared (R196). -/
def clearSources (mask : BitVec 16) (s : State) : State :=
  { s with ntu := s.ntu.mapSources fun i n => if mask.getLsbD i.number.val then n.clear else n }

/-- Every fault-outstanding flag cleared (R50). -/
def clearOutstanding (s : State) : State := { s with dtu := s.dtu.map fun e => { e with outstanding := false } }

/-- NOTICE_CLEAR (R50, R196).  Its answer carries the enable set beside the pending set: R201 names both for it, R196 the
pending set alone (DEDUCED, log 30). -/
def doNoticeClear (mask : BitVec 16) (s : State) : Done :=
  let s1 := clearSources mask s
  let s2 := if mask.getLsbD NoticeId.domainFault.number.val then clearOutstanding s1 else s1
  (s2, ⟨.ok, .notices s2.ntu.enabledSet s2.ntu.pendingSet⟩)

/-! ## Commit, freeze, thaw (R117 to R119) -/

/-- The commit state and G as these commands report them.  In DRAINING the drain mode goes with the state: R122 gives the mode to STATUS
and names the commit state alone here (DESIGN CHOICE, log 39). -/
def commitData (s : State) : ResultData := .commit s.cmc.report s.cmc.gen

/-- COMMIT (R119, R207). -/
def doCommit (s : State) : Done :=
  if s.cfu.start == .running then
    let s' := normalRequest s
    (s', ⟨.ok, commitData s'⟩)
  else refuse .notReady s

/-- FREEZE at CMC (R117). -/
def freezeView (s : State) : State :=
  if s.cmc.freeze then s
  else match s.cmc.state with
    | .idle => { s with cmc := { s.cmc with freeze := true } }
    | .settling => { s with cmc := { s.cmc with
        freeze := true, checkTimer := none, settle := 0, checks := 0, state := .idle } }
    | .draining => { s with cmc := { s.cmc with freeze := true } }

/-- FREEZE (R117). -/
def doFreeze (s : State) : Done :=
  let s' := freezeView s
  (s', ⟨.ok, commitData s'⟩)

/-- THAW at CMC; while the generation is exhausted it starts nothing (R115, R118). -/
def thawView (s0 : State) : State :=
  if !s0.cmc.freeze then s0
  else
    let s := { s0 with cmc := { s0.cmc with freeze := false } }
    if s.cmc.gen == Config.lastGeneration then s
    else match s.cmc.state, s.cmc.mode with
      | .idle, _ => if s.cmc.urgentReq then startUrgent s else if s.cmc.normalReq then enterSettling s else s
      | .settling, _ => s
      | .draining, .normal => if s.cmc.urgentReq then upgradeUrgent s else s
      | .draining, .urgent => s

/-- THAW (R118). -/
def doThaw (s : State) : Done :=
  let s' := thawView s
  (s', ⟨.ok, commitData s'⟩)

/-! ## Reading (R211, R212) -/

/-- STATUS (R211). -/
def doStatus (s : State) : Done := (s, ⟨.ok, .status (snapshot s)⟩)

/-- TABLE_READ (R212).  Each read takes a free value of its own. -/
def doTableRead (t : Option TableId) (start count : Nat) (s : State) : Done :=
  match t with
  | none => refuse .badArgument s
  | some t =>
    if !tableStartOk t start then refuse .badArgument s
    else ({ s with freeCount := s.freeCount + 1 }, ⟨.ok, .table (tableAnswer s t start count)⟩)

/-! ## Flush and soft reset (R213, R214) -/

/-- FLUSH (R213). -/
def doFlush (s : State) : Done :=
  if s.cfu.start == .running && s.cmc.gen != Config.lastGeneration then
    let s' := flush s
    (s', ⟨.ok, commitData s'⟩)
  else refuse .notReady s

/-- FSW after a reset: everything empty, the transceivers' ready pins as they are (R23). -/
def Fsw.clear (f : Fsw) : Fsw :=
  ⟨vec8 fun d => OutPort.empty (vget f.degrees d).ready, OutPort.empty f.np.ready, [], 0⟩

/-- The blocks at their soft-reset values (R23, R40, R56, R81, R104, R121, R141, R169, R189, R200, R215).  Frames originated before
the reset whose claims still wait are lost with those of the queues (R23).  The count of
admissions, of which R141 says nothing, is kept, so that no two admissions of a run share a number (DESIGN CHOICE, log 9). -/
def softResetValues (s : State) : State :=
  { s with
    claims := []
    fsw := s.fsw.clear
    adm := vec8 fun d => (s.adjacency d).disable
    dtu := s.dtu.map fun e => ⟨e.fields, .clean, false, .none⟩
    tdb := ⟨[], [], [], s.tdb.exclusions.filter (fun e => e.origin == .loaded), s.now + Config.ageClockPeriod⟩
    fle := { Fle.reset with seq := s.fle.seq }
    cmc := Cmc.reset
    rqu := { Rqu.reset with delegation := s.rqu.delegation, admitted := s.rqu.admitted }
    rsv := Rsv.reset
    shu := Shu.reset
    ntu := s.ntu.mapSources fun _ n => n.clear }

/-- The start state by the node-ID parameter (R205, R214). -/
def enterStart (s : State) : State := if s.nodeId == 0 then enterIsolated s else enterRunning s

/-- A soft reset (R214). -/
def softReset (s : State) : State := enterStart (softResetValues s)

/-- SOFT_RESET (R214). -/
def doSoftReset (s : State) : Done :=
  let s' := softReset s
  (s', ⟨.ok, .started s'.cfu.start s'.cmc.gen⟩)

/-! ## Commands as read from bytes (R206) -/

/-- A command carried out by its owning rule (R206, check 6). -/
def doCommand : MgmtCmd → State → Done
  | .readParam t => doReadParam t
  | .writeParam t v => doWriteParam t v
  | .lockGroup g => doLockGroup g
  | .degreeEnable d => doDegreeEnable d
  | .degreeDisable d => doDegreeDisable d
  | .domainWrite n f => doDomainWrite n f
  | .domainRelease n => doDomainRelease n
  | .delegateWrite n p => doDelegateWrite n p
  | .excludeAdd r => doExcludeAdd r
  | .excludeRemove r => doExcludeRemove r
  | .watchWrite w => doWatchWrite w
  | .noticeEnable m => doNoticeEnable m
  | .noticeClear m => doNoticeClear m
  | .commit => doCommit
  | .freeze => doFreeze
  | .thaw => doThaw
  | .status => doStatus
  | .tableRead t i n => doTableRead t i n
  | .flush => doFlush
  | .softReset => doSoftReset

/-- Checks 4 and 5, then the command (R206). -/
def doRequest : MgmtRequest → State → Done
  | .unknownCommand => refuse .badCommand
  | .badForm => refuse .badArgument
  | .command c => doCommand c

/-! ## Meanings -/

/-- READ_PARAM (R209). -/
def execReadParam (m : MgmtFrom) (t : ParamTarget) (s : State) : Outcome := event (manageFrom m (doReadParam t)) s
/-- WRITE_PARAM (R209). -/
def execWriteParam (m : MgmtFrom) (t : ParamTarget) (v : Nat) (s : State) : Outcome :=
  event (manageFrom m (doWriteParam t v)) s
/-- LOCK_GROUP (R210). -/
def execLockGroup (m : MgmtFrom) (g : Option LockGroup) (s : State) : Outcome := event (manageFrom m (doLockGroup g)) s
/-- DEGREE_ENABLE (R37). -/
def execDegreeEnable (m : MgmtFrom) (d : Nat) (s : State) : Outcome := event (manageFrom m (doDegreeEnable d)) s
/-- DEGREE_DISABLE (R36). -/
def execDegreeDisable (m : MgmtFrom) (d : Nat) (s : State) : Outcome := event (manageFrom m (doDegreeDisable d)) s
/-- DOMAIN_WRITE (R53). -/
def execDomainWrite (m : MgmtFrom) (n : Nat) (f : DomainFields) (s : State) : Outcome :=
  event (manageFrom m (doDomainWrite n f)) s
/-- DOMAIN_RELEASE (R54). -/
def execDomainRelease (m : MgmtFrom) (n : Nat) (s : State) : Outcome := event (manageFrom m (doDomainRelease n)) s
/-- DELEGATE_WRITE (R134). -/
def execDelegateWrite (m : MgmtFrom) (n : Nat) (p : NodeId) (s : State) : Outcome :=
  event (manageFrom m (doDelegateWrite n p)) s
/-- EXCLUDE_ADD (R77). -/
def execExcludeAdd (m : MgmtFrom) (r : SlotRun) (s : State) : Outcome := event (manageFrom m (doExcludeAdd r)) s
/-- EXCLUDE_REMOVE (R79). -/
def execExcludeRemove (m : MgmtFrom) (r : SlotRun) (s : State) : Outcome := event (manageFrom m (doExcludeRemove r)) s
/-- WATCH_WRITE (R197). -/
def execWatchWrite (m : MgmtFrom) (w : WatchArgs) (s : State) : Outcome := event (manageFrom m (doWatchWrite w)) s
/-- NOTICE_ENABLE (R195). -/
def execNoticeEnable (m : MgmtFrom) (k : BitVec 16) (s : State) : Outcome := event (manageFrom m (doNoticeEnable k)) s
/-- NOTICE_CLEAR (R196). -/
def execNoticeClear (m : MgmtFrom) (k : BitVec 16) (s : State) : Outcome := event (manageFrom m (doNoticeClear k)) s
/-- COMMIT (R119). -/
def execCommit (m : MgmtFrom) (s : State) : Outcome := event (manageFrom m doCommit) s
/-- FREEZE (R117). -/
def execFreeze (m : MgmtFrom) (s : State) : Outcome := event (manageFrom m doFreeze) s
/-- THAW (R118). -/
def execThaw (m : MgmtFrom) (s : State) : Outcome := event (manageFrom m doThaw) s
/-- STATUS (R211). -/
def execStatus (m : MgmtFrom) (s : State) : Outcome := event (manageFrom m doStatus) s
/-- TABLE_READ (R212). -/
def execTableRead (m : MgmtFrom) (t : Option TableId) (i n : Nat) (s : State) : Outcome :=
  event (manageFrom m (doTableRead t i n)) s
/-- FLUSH (R213). -/
def execFlush (m : MgmtFrom) (s : State) : Outcome := event (manageFrom m doFlush) s
/-- SOFT_RESET (R214). -/
def execSoftReset (m : MgmtFrom) (s : State) : Outcome := event (manageFrom m doSoftReset) s

end Sys2Proof.Machine
end

