-- ==== Sys2Proof/Machine/Start.lean ====
section
/-! DEFINITION. Power-on and pin reset (R203), the start-image loader (R203 to R205), and their three meanings. -/

namespace Sys2Proof.Machine

/-! ## Reset (R203) -/

/-- The part after power-on or pin reset: every block at its power-on values.  The commands still waiting, the transceivers'
ready pins and the model's count of free values are outside the part and stay. -/
def resetPart (s : State) : State :=
  { State.reset with pending := s.pending, freeCount := s.freeCount, fsw := s.fsw.clear }

/-! ## Applying an image (R204) -/

/-- The place of a record's kind in the order of application (R204). -/
def imageOrder : ImageRecord → Nat
  | .parameter _ _ => 1
  | .degreeEnable _ => 2
  | .domainEntry _ _ => 3
  | .delegation _ _ => 4
  | .exclusion _ => 5
  | .noticeEnable _ => 6
  | .watch _ => 7
  | .locks _ => 8

/-- A record left unapplied is counted as skipped (R204). -/
def skipRecord (s : State) : State := { s with cfu := { s.cfu with skipped := s.cfu.skipped + 1 } }

/-- A record whose value was changed is counted as clamped (R204). -/
def countClamped (s : State) : State := { s with cfu := { s.cfu with clamped := s.cfu.clamped + 1 } }

/-- An enumerated parameter given a value other than 0 or 1 (R204, R209). -/
def illegalEnumerated (p : ParamId) (v : Nat) : Bool := (paramRange p).step == 0 && decide ((paramRange p).high < v)

/-- A parameter record: a WRITE_PARAM without the lock check (R204). -/
def applyParameter (t : ParamTarget) (v : Nat) (s : State) : State :=
  match t.param with
  | none => skipRecord s
  | some p =>
    if !targetOk t || illegalEnumerated p v then skipRecord s
    else
      let new := clampParam p (getParam s.cfu.params p t.sel) v
      let s' := writeParams p t.sel new s
      if new == v then s' else countClamped s'

/-- A record of the image applied (R204). -/
def applyRecord (s : State) : ImageRecord → State
  | .parameter t v => applyParameter t v s
  | .degreeEnable ds => { s with adm := vec8 fun d => { s.adjacency d with enable := ds.contains d } }
  | .domainEntry n f => if domainArgsOk n f then writeDomain n f s else skipRecord s
  | .delegation n peer =>
    if !delegateArgsOk s n peer then skipRecord s
    else
      let s' := setPeer n (peerInForce s n peer) s
      if peerInForce s n peer == peer then s' else countClamped s'
  | .exclusion r =>
    if !r.normal.rangeOk then skipRecord s
    else
      let a := addExclusion r .loaded s
      if a.2 == .refused then skipRecord s else a.1
  | .noticeEnable mask => setEnables mask s
  | .watch w => if w.argsOk then setWatch w s else skipRecord s
  | .locks gs => { s with cfu := { s.cfu with locks := gs.foldl Locks.lock s.cfu.locks } }

/-- A valid image applied, one kind after another and in image order within a kind (R204). -/
def applyImage (records : List ImageRecord) (s : State) : State :=
  [1, 2, 3, 4, 5, 6, 7, 8].foldl (fun t k => (records.filter fun r => imageOrder r == k).foldl applyRecord t) s

/-! ## The load (R203, R205) -/

/-- The bytes of the records of an image and of its end record, which its CRC covers (R203). -/
def imageBytes (records : List ImageEntry) (ending : List Byte) : List Byte := records.flatMap (·.bytes) ++ ending

/-- No record runs past byte 4096, nor does the end record (R203). -/
def imageFits (records : List ImageEntry) (ending : List Byte) : Bool :=
  decide ((imageBytes records ending).length ≤ Config.imageSize)

/-- The outcome of a load: the image's records when it is VALID (R203). -/
def loadOutcome (m : MemoryRead) : LoadOutcome × List ImageRecord :=
  match m with
  | .noAnswer => (.absent, [])
  | .erased => (.absent, [])
  | .stopsAnswering => (.invalid, [])
  | .image records ending crc =>
    if crc == crc32 (imageBytes records ending) && imageFits records ending && records.all fun r => r.content.isSome then
      (.valid, records.filterMap (·.content))
    else (.invalid, [])

/-- The outcome kept for STATUS, with counts that start at 0 (R203). -/
def recordOutcome (o : LoadOutcome) (s : State) : State :=
  { s with cfu := { s.cfu with outcome := o, skipped := 0, clamped := 0 } }

/-- What a load applies or raises (R203). -/
def takeLoad (m : MemoryRead) (s : State) : State :=
  match loadOutcome m with
  | (.absent, _) => raise .start [.absent] (recordOutcome .absent s)
  | (.invalid, _) => raise .start [.invalid] (recordOutcome .invalid s)
  | (.valid, records) => applyImage records (recordOutcome .valid s)

/-- The completion of the loader, which works in LOADING only (R202, R205). -/
def completeLoad (m : MemoryRead) (s : State) : State :=
  if s.cfu.start == .loading then enterStart (takeLoad m s) else s

/-! ## Meanings -/

/-- POWER_ON_RESET (R203). -/
def execPowerOnReset (s : State) : Outcome := .next (resetPart s)

/-- PIN_RESET (R203); it acts as a power-on reset does. -/
def execPinReset (s : State) : Outcome := .next (resetPart s)

/-- IMAGE_LOAD (R203 to R205). -/
def execImageLoad (m : MemoryRead) (s : State) : Outcome := event (completeLoad m) s

end Sys2Proof.Machine
end

