-- ==== Sys2Proof/Machine/Switch.lean ====
section
/-! DEFINITION. The frame switch's input side (01): which ports take input (R9), dispatch by destination and kind (R10, R11),
transit (R15, R20), delivery to NP, the transceivers (R21), and the meanings of the frame commands. -/

namespace Sys2Proof.Machine

/-! ## Acceptance and dispatch (R9 to R11) -/

/-- A port takes all input (R9). -/
def takesInput (s : State) (p : Port) : Bool :=
  match p with
  | .deg d => (s.adjacency d).enable && s.cfu.start == .running
  | .np => s.cfu.start == .running

/-- The frame as FSW queues it on its way. -/
def passingFrame (f : RawFrame) : Frame := ⟨f.kind, f.hop, f.flags, f.src, f.dst, .raw f.body⟩

/-- A frame delivered to NP keeps its header and enters the NP queue as a passing frame (R11). -/
def deliver (p : Port) (f : RawFrame) (s : State) : State := claimPassing .np p (passingFrame f) s

/-- A neighbour-scope body on an UP degree goes to FLE, on another degree nowhere (R11). -/
def toFlood (d : Degree) (f : State → State) (s : State) : State := if s.isUp d then f s else s

/-- A body passed on by kind, for a frame that arrived on a degree; `scope` says that it carried destination 65535 (R11).
Delivered kinds are placed by `deliver`. -/
def passFromDegree (d : Degree) (src : NodeId) (scope : Bool) (h : Handled) (s : State) : State :=
  let p : Port := .deg d
  match h with
  | .greet g => if scope then takeGreet d g s else frameError p s
  | .advert a => if scope then toFlood d (takeAdvert d a) s else frameError p s
  | .tally t => if scope then toFlood d (takeTally d t) s else frameError p s
  | .pull os => if scope then toFlood d (takePull d os) s else frameError p s
  | .routeq q => fromSender p src (takeRouteq q) s
  | .routea a => fromSender p src (takeRoutea a) s
  | .claim tag => fromSender p src (fun who => takeClaim who tag) s
  | .release tag => fromSender p src (takeRelease tag) s
  | .faultrep r => takeFaultrep p r s
  | .slotmap _ => frameError p s
  | .mgmtq tag r => manage ⟨p, src, tag⟩ (doRequest r) s
  | .delivered => s

/-- A body passed on by kind, for a frame that arrived on NP (R11). -/
def passFromNode (src : NodeId) (h : Handled) (s : State) : State :=
  match h with
  | .greet _ => frameError .np s
  | .advert _ => frameError .np s
  | .tally _ => frameError .np s
  | .pull _ => frameError .np s
  | .routeq q => fromSender .np src (takeRouteq q) s
  | .routea a => fromSender .np src (takeRoutea a) s
  | .claim tag => fromSender .np src (fun who => takeClaim who tag) s
  | .release tag => fromSender .np src (takeRelease tag) s
  | .faultrep r => takeFaultrep .np r s
  | .slotmap m => takeSlotmap m s
  | .mgmtq tag r => manage ⟨.np, src, tag⟩ (doRequest r) s
  | .delivered => frameError .np s

/-- The form check, then the body passed on (R7, R11). -/
def passOn (p : Port) (src : NodeId) (scope : Bool) (h : Handled) (s : State) : State :=
  if !h.formOk then frameError p s
  else match p with
    | .deg d => passFromDegree d src scope h s
    | .np => passFromNode src h s

/-- A frame handled by the part (R7, R11). -/
def handleFrame (p : Port) (f : RawFrame) (s : State) : State :=
  match parseBody f.kind f.body with
  | none => frameError p s
  | some .delivered => match p with
    | .deg _ => deliver p f s
    | .np => frameError p s
  | some h => passOn p f.src (f.dst == neighbourDst) h s

/-! ## Transit (R15, R20) -/

/-- A frame addressed to another node: neither this node, nor 0, nor 65535 (R10). -/
def isTransit (s : State) (f : RawFrame) : Bool := f.dst != s.nodeId && f.dst != 0 && f.dst != neighbourDst

/-- The frame after its hop limit is taken down on a degree; absent when it reaches 0 (R15). -/
def hopped (p : Port) (f : RawFrame) : Option Frame :=
  match p with
  | .deg _ => if f.hop ≤ 1 then none else some { passingFrame f with hop := f.hop - 1 }
  | .np => some (passingFrame f)

/-- A transit frame alone: it claims space in the queue its lookup yields (R15). -/
def forward (p : Port) (f : RawFrame) (s : State) : State :=
  match hopped p f, lookup s f.dst with
  | some g, some d => claimPassing (.deg d) p g s
  | some _, none => s
  | none, _ => s

/-- A frame that passed the input checks, dispatched by destination and arrival port (R10). -/
def dispatchFrame (p : Port) (f : RawFrame) (s : State) : State :=
  if f.dst == s.nodeId then handleFrame p f s
  else if f.dst == 0 then
    match p with
    | .deg _ => frameError p s
    | .np => handleFrame p f s
  else if f.dst == neighbourDst then
    match p with
    | .deg _ => if neighbourScope f.kind then handleFrame p f s else frameError p s
    | .np => frameError p s
  else forward p f s

/-- An MGMTQ on NP in LOADING or ISOLATED goes to CFU whatever its destination; every other frame is discarded (R9). -/
def notRunningFrame (f : RawFrame) (s : State) : State := if f.kind == kindMgmtq then handleFrame .np f s else s

/-- A frame that passed the input checks at a port. -/
def acceptFrame (p : Port) (f : RawFrame) (s : State) : State :=
  if takesInput s p then dispatchFrame p f s
  else match p with
    | .deg _ => s
    | .np => notRunningFrame f s

/-- A frame delivered whole at a port (R8, R9). -/
def takeBytes (p : Port) (b : List Byte) (s : State) : State :=
  match parseFrame b with
  | some f => acceptFrame p f s
  | none => if takesInput s p then frameError p s else s

/-- A frame given by its fields, with the input checks its fields can still fail (R8). -/
def takeRaw (p : Port) (f : RawFrame) (s : State) : State :=
  if f.inputOk then acceptFrame p f s else if takesInput s p then frameError p s else s

/-- Where an arrival claims space as a passing frame: its output port, its input port and the frame (R11, R15). -/
structure PassingClaim where
  out : Port
  input : Port
  frame : Frame
  deriving DecidableEq, Repr

/-- A frame on a degree for this node of a kind that is delivered to NP (R10, R11). -/
def isDelivered (s : State) (a : Arrival) : Bool :=
  a.port != .np && a.frame.dst == s.nodeId && parseBody a.frame.kind a.frame.body == some .delivered

/-- An arrival that passes through, to another node or to NP, at a port that takes input (R8 to R11). -/
def isPassing (s : State) (a : Arrival) : Bool :=
  takesInput s a.port && a.frame.inputOk && (isTransit s a.frame || isDelivered s a)

/-- An arrival that passes through, accepted and classed: to another node, or to NP. -/
structure Passing where
  arrival : Arrival
  transit : Bool
  deriving DecidableEq, Repr

/-- The claim of a frame that passes through, looked up when the frames beside it have been taken (R15; DESIGN CHOICE, log 35). -/
def passingClaim (u : State) (x : Passing) : Option PassingClaim :=
  if x.transit then
    match hopped x.arrival.port x.arrival.frame, lookup u x.arrival.frame.dst with
    | some g, some d => some ⟨.deg d, x.arrival.port, g⟩
    | some _, none => none
    | none, _ => none
  else some ⟨.np, x.arrival.port, passingFrame x.arrival.frame⟩

/-- The place of an input port in the round-robin that begins after the port last served (R20). -/
def turn (last p : Port) : Nat := (p.index + 8 - last.index) % 9

/-- Every claim with the number of claims of its input port before it. -/
def numbered (cs : List PassingClaim) : List (Nat × PassingClaim) :=
  cs.zipIdx.map fun c => (((cs.take c.2).filter fun x => x.input == c.1.input).length, c.1)

/-- The claims that reach one queue together, in round-robin order (R20).  Of several claims of one input port each waits for a round
of its own, in the order given: R20 speaks of no such claims (DESIGN CHOICE, log 37). -/
def roundRobin (last : Port) (cs : List PassingClaim) : List PassingClaim :=
  (sortStable (fun a b => decide (a.1 < b.1) || a.1 == b.1 && decide (turn last a.2.input ≤ turn last b.2.input))
    (numbered cs)).map (·.2)

/-- The passing claims at one queue taken one after another (R20). -/
def claimTogether (cs : List PassingClaim) (s : State) (p : Port) : State :=
  (roundRobin (s.port p).lastServed (cs.filter fun c => c.out == p)).foldl
    (fun t c => claimPassing p c.input c.frame t) s

/-- Frames that reach the switch together, in the order given: one that passes through is accepted and classed (DESIGN CHOICE, log 35)
and waits for the own claims; any other is an event of its own (00, Events), after what the events before it have made due but for
their claims (DEDUCED, log 32; DESIGN CHOICE, log 36). -/
def takeEach : List Arrival → State → State × List Passing
  | [], s => (s, [])
  | a :: as, s =>
    if isPassing s a then
      let r := takeEach as s
      (r.1, ⟨a, isTransit s a.frame⟩ :: r.2)
    else takeEach as (takeRaw a.port a.frame (settleBetween s))

/-- Every own claim that is due after frames taken together, FLE's before the others at every queue (R20, R95). -/
def ownTogether (s : State) : State := endClaims (fleClaimsAll s)

/-- Frames that reach the switch together: those that do not pass through are taken with every own claim they cause, and then the
passing claims are taken queue by queue (R20). -/
def takeTogether (as : List Arrival) (s : State) : State :=
  let r := takeEach as s
  let u := ownTogether r.1
  allPorts.foldl (claimTogether (r.2.filterMap (passingClaim u))) u

/-! ## Frames given by their fields -/

/-- A body of a kind the part handles, at a port that takes input (R9, R11). -/
def takeBody (p : Port) (src : NodeId) (scope : Bool) (h : Handled) (s : State) : State :=
  if takesInput s p then passOn p src scope h s else s

/-! ## Transceivers (R21) -/

/-- The frame on offer at a port is accepted: it leaves the greet slot or the queue, and the transceiver is ready again or not
(R21). -/
def OutPort.sent (again : Bool) (o : OutPort) : OutPort :=
  match o.offer with
  | none => o
  | some (.greet _ inSlot) =>
    { o with offer := none, greetSlot := if inSlot then none else o.greetSlot, ready := again }
  | some (.queued _) => { o with offer := none, queue := o.queue.drop 1, ready := again }

/-- A frame accepted.  Whether its transceiver is ready again at once is a free value of each acceptance (R21, log 19). -/
def frameSent (p : Port) (s : State) : State :=
  match (s.port p).offer with
  | none => s
  | some _ =>
    { s with freeCount := s.freeCount + 1 }.setPort p ((s.port p).sent (Config.readyAfterSent s.freeCount))

def transceiverReady (p : Port) (s : State) : State := s.setPort p { s.port p with ready := true }

/-! ## Meanings -/

/-- FRAME_ARRIVAL (R8 to R11). -/
def execFrameArrival (p : Port) (b : List Byte) (s : State) : Outcome := event (takeBytes p b) s

/-- TRANSIT_FRAME (R15, R20). -/
def execTransitFrame (as : List Arrival) (s : State) : Outcome := .next (offerAll (takeTogether as (settle s)))

/-- DELIVERED_TO_NP (R11, R20). -/
def execDeliveredToNp (a : Arrival) (as : List Arrival) (s : State) : Outcome :=
  .next (offerAll (takeTogether (a :: as) (settle s)))

/-- GREET (R28). -/
def execGreet (d : Degree) (g : GreetBody) (s : State) : Outcome := event (takeBody (.deg d) 0 true (.greet g)) s

/-- ADVERT (R90). -/
def execAdvert (d : Degree) (a : AdvertBody) (s : State) : Outcome := event (takeBody (.deg d) 0 true (.advert a)) s

/-- TALLY (R98). -/
def execTally (d : Degree) (t : TallyBody) (s : State) : Outcome := event (takeBody (.deg d) 0 true (.tally t)) s

/-- PULL (R102). -/
def execPull (d : Degree) (os : List NodeId) (s : State) : Outcome := event (takeBody (.deg d) 0 true (.pull os)) s

/-- ROUTEQ (R124). -/
def execRouteq (p : Port) (src : NodeId) (q : RouteqBody) (s : State) : Outcome :=
  event (takeBody p src false (.routeq q)) s

/-- ROUTEA (R138). -/
def execRoutea (p : Port) (src : NodeId) (a : RouteaBody) (s : State) : Outcome :=
  event (takeBody p src false (.routea a)) s

/-- CLAIM (R179). -/
def execClaim (p : Port) (src : NodeId) (tag : Nat) (s : State) : Outcome :=
  event (takeBody p src false (.claim tag)) s

/-- RELEASE (R133). -/
def execRelease (p : Port) (src : NodeId) (tag : Nat) (s : State) : Outcome :=
  event (takeBody p src false (.release tag)) s

/-- FAULTREP (R78). -/
def execFaultrep (p : Port) (r : SlotRun) (s : State) : Outcome := event (takeBody p 0 false (.faultrep r)) s

/-- SLOTMAP (R88). -/
def execSlotmap (p : Port) (m : SlotmapBody) (s : State) : Outcome := event (takeBody p 0 false (.slotmap m)) s

/-- FRAME_SENT (R21). -/
def execFrameSent (p : Port) (s : State) : Outcome := event (frameSent p) s

/-- TRANSCEIVER_READY (R21). -/
def execTransceiverReady (p : Port) (s : State) : Outcome := event (transceiverReady p) s

end Sys2Proof.Machine
end

