-- ==== Sys2Proof/Machine/Dispatch.lean ====
section
/-! DEFINITION. Every command of the block and the meaning it has: one arm for each row of the table of commands. -/

namespace Sys2Proof.Machine

def exec (i : Instr) (s : State) : Host.Outcome State Fault Refusal :=
  match i with
  | .powerOnReset => Sys2Proof.Machine.execPowerOnReset s
  | .pinReset => Sys2Proof.Machine.execPinReset s
  | .imageLoad m => Sys2Proof.Machine.execImageLoad m s
  | .frameArrival p bytes => Sys2Proof.Machine.execFrameArrival p bytes s
  | .transitFrame arrivals => Sys2Proof.Machine.execTransitFrame arrivals s
  | .deliveredToNp first others => Sys2Proof.Machine.execDeliveredToNp first others s
  | .greet d g => Sys2Proof.Machine.execGreet d g s
  | .advert d a => Sys2Proof.Machine.execAdvert d a s
  | .tally d t => Sys2Proof.Machine.execTally d t s
  | .pull d origins => Sys2Proof.Machine.execPull d origins s
  | .routeq p src q => Sys2Proof.Machine.execRouteq p src q s
  | .routea p src a => Sys2Proof.Machine.execRoutea p src a s
  | .claim p src tag => Sys2Proof.Machine.execClaim p src tag s
  | .release p src tag => Sys2Proof.Machine.execRelease p src tag s
  | .faultrep p r => Sys2Proof.Machine.execFaultrep p r s
  | .slotmap p m => Sys2Proof.Machine.execSlotmap p m s
  | .readParam m t => Sys2Proof.Machine.execReadParam m t s
  | .writeParam m t value => Sys2Proof.Machine.execWriteParam m t value s
  | .lockGroup m g => Sys2Proof.Machine.execLockGroup m g s
  | .degreeEnable m d => Sys2Proof.Machine.execDegreeEnable m d s
  | .degreeDisable m d => Sys2Proof.Machine.execDegreeDisable m d s
  | .domainWrite m entry f => Sys2Proof.Machine.execDomainWrite m entry f s
  | .domainRelease m entry => Sys2Proof.Machine.execDomainRelease m entry s
  | .delegateWrite m domain peer => Sys2Proof.Machine.execDelegateWrite m domain peer s
  | .excludeAdd m r => Sys2Proof.Machine.execExcludeAdd m r s
  | .excludeRemove m r => Sys2Proof.Machine.execExcludeRemove m r s
  | .watchWrite m w => Sys2Proof.Machine.execWatchWrite m w s
  | .noticeEnable m mask => Sys2Proof.Machine.execNoticeEnable m mask s
  | .noticeClear m mask => Sys2Proof.Machine.execNoticeClear m mask s
  | .commit m => Sys2Proof.Machine.execCommit m s
  | .freeze m => Sys2Proof.Machine.execFreeze m s
  | .thaw m => Sys2Proof.Machine.execThaw m s
  | .status m => Sys2Proof.Machine.execStatus m s
  | .tableRead m t start count => Sys2Proof.Machine.execTableRead m t start count s
  | .flush m => Sys2Proof.Machine.execFlush m s
  | .softReset m => Sys2Proof.Machine.execSoftReset m s
  | .frameSent p => Sys2Proof.Machine.execFrameSent p s
  | .backlogHeadClaim p => Sys2Proof.Machine.execBacklogHeadClaim p s
  | .fleFrameClaim d => Sys2Proof.Machine.execFleFrameClaim d s
  | .greetTimerExpiry d => Sys2Proof.Machine.execGreetTimerExpiry d s
  | .deadTimerExpiry d => Sys2Proof.Machine.execDeadTimerExpiry d s
  | .holdTimerExpiry d => Sys2Proof.Machine.execHoldTimerExpiry d s
  | .holdLimitExpiry d => Sys2Proof.Machine.execHoldLimitExpiry d s
  | .ageClockExpiry => Sys2Proof.Machine.execAgeClockExpiry s
  | .ageExpiry k => Sys2Proof.Machine.execAgeExpiry k s
  | .lingerExpiry k => Sys2Proof.Machine.execLingerExpiry k s
  | .exclusionLifetimeExpiry r => Sys2Proof.Machine.execExclusionLifetimeExpiry r s
  | .refreshTimerExpiry => Sys2Proof.Machine.execRefreshTimerExpiry s
  | .tallyTimerExpiry d => Sys2Proof.Machine.execTallyTimerExpiry d s
  | .pullDeadlineExpiry d origin => Sys2Proof.Machine.execPullDeadlineExpiry d origin s
  | .quietCheck => Sys2Proof.Machine.execQuietCheck s
  | .autoCommitTimerExpiry => Sys2Proof.Machine.execAutoCommitTimerExpiry s
  | .promotion => Sys2Proof.Machine.execPromotion s
  | .dispatch => Sys2Proof.Machine.execDispatch s
  | .completion l => Sys2Proof.Machine.execCompletion l s
  | .treeBuildCompletion => Sys2Proof.Machine.execTreeBuildCompletion s
  | .referralDeadlineExpiry index => Sys2Proof.Machine.execReferralDeadlineExpiry index s
  | .holdDeadlineExpiry index => Sys2Proof.Machine.execHoldDeadlineExpiry index s
  | .claimDeadlineExpiry index => Sys2Proof.Machine.execClaimDeadlineExpiry index s
  | .transceiverReady p => Sys2Proof.Machine.execTransceiverReady p s

end Sys2Proof.Machine
end

