-- ==== Sys2Proof/Machine/Expiry.lean ====
section
/-! DEFINITION. Which timer or deadline of the part is due (00, Time): what the part does by itself when no command waits
(DESIGN CHOICE, log 5). -/

namespace Sys2Proof.Machine

/-- A command is due when its moment is not later than the clock. -/
def dueAt (s : State) (t : Option Moment) (c : Instr) : List Instr :=
  match t with
  | none => []
  | some m => if m ≤ s.now then [c] else []

/-- The records and exclusions whose age, linger or lifetime has run out (R68, R70, R79). -/
def dueRecords (s : State) : List Instr :=
  ((s.tdb.nodes.filter fun e => e.2.ver.ageDue).map fun e => .ageExpiry (.node e.2.id)) ++
  ((s.tdb.links.filter fun e => e.2.ver.ageDue).map fun e => .ageExpiry (.link e.2.key)) ++
  ((s.tdb.nodes.filter fun e => e.2.ver.lingerDue).map fun e => .lingerExpiry (.node e.2.id)) ++
  ((s.tdb.links.filter fun e => e.2.ver.lingerDue).map fun e => .lingerExpiry (.link e.2.key)) ++
  ((s.tdb.exclusions.filter fun e => e.origin == .reported && e.lifetime == some 0).map fun e =>
    .exclusionLifetimeExpiry e.run)

/-- The timers of a degree that are due (R25, R97, R99). -/
def dueOfDegree (s : State) (d : Degree) : List Instr :=
  let a := s.adjacency d
  let x := s.flood d
  dueAt s a.greetTimer (.greetTimerExpiry d) ++ dueAt s a.deadTimer (.deadTimerExpiry d) ++
  dueAt s a.holdTimer (.holdTimerExpiry d) ++ dueAt s a.holdLimit (.holdLimitExpiry d) ++
  dueAt s x.tallyTimer (.tallyTimerExpiry d) ++
  x.pulls.flatMap fun e => dueAt s (some e.deadline) (.pullDeadlineExpiry d e.origin)

/-- The deadlines of referrals and results that are due (R139, R181, R183). -/
def dueDeadlines (s : State) : List Instr :=
  (s.rqu.referrals.toList.zipIdx.flatMap fun e =>
    dueAt s (e.1.map fun r => r.deadline) (.referralDeadlineExpiry e.2)) ++
  s.shu.results.flatMap fun e =>
    dueAt s e.2.holdDeadline (.holdDeadlineExpiry e.1) ++ dueAt s e.2.claimDeadline (.claimDeadlineExpiry e.1)

/-- Everything of the part's own clocks that is due, in one fixed order. -/
def dueCommands (s : State) : List Instr :=
  dueRecords s ++ dueAt s (some s.tdb.ageClock) .ageClockExpiry ++ allDegrees.flatMap (dueOfDegree s) ++
  dueAt s s.fle.refreshTimer .refreshTimerExpiry ++ dueAt s s.cmc.checkTimer .quietCheck ++
  dueAt s s.cmc.autoTimer .autoCommitTimerExpiry ++ dueDeadlines s

/-- One tick of the clock (00, Time). -/
def tick (s : State) : State := { s with now := s.now + 1 }

end Sys2Proof.Machine
end

