-- ==== Sys2Proof/Machine/Step.lean ====
section
/-! DEFINITION. One step of the block: the command at the front of its queue, or, when none waits, what the part does by
itself: an own step that is due, an expiry that is due, or one tick of the clock (DESIGN CHOICE, log 5). -/

namespace Sys2Proof.Machine

/-- The part by itself, with no command waiting. -/
def idle (s : State) : Host.Outcome State Fault Refusal :=
  if settleDue s then .next (settle s)
  else match dueCommands s with
    | c :: _ => exec c s
    | [] => .next (tick s)

/-- One step. -/
def step (s : State) : Host.Outcome State Fault Refusal :=
  match s.pending with
  | [] => idle s
  | c :: rest => exec c { s with pending := rest }

/-- The state with the command a word spells at the front of its queue; no row of the table gives bits, so no word spells
one (00, How the part is reached). -/
def State.withFetchWord (s : State) (nbits w : Nat) : State :=
  match decodeTableWord nbits w with
  | some c => { s with pending := c :: s.pending }
  | none => s

end Sys2Proof.Machine
end

