-- ==== Sys2Proof/WellFormed.lean ====
section
/-! DEFINITION. Well-formed commands: every operand fits the field that carries it (R1, R4 to R6, R206, R208, R212).  Ranges
that a rule answers, refuses or drops are not part of this; they are the rules' own. -/

namespace Sys2Proof

/-- A number fits a field of the given number of bits. -/
def fits (bits n : Nat) : Bool := decide (n < 2 ^ bits)

/-- A link key as frames carry it: origin of two bytes, link number of one (R6). -/
def LinkKey.wellFormed (k : LinkKey) : Bool := fits 16 k.origin && fits 8 k.num

def RecordKey.wellFormed : RecordKey → Bool
  | .node id => fits 16 id
  | .link k => k.wellFormed

/-- GREET: 6 bytes (R7, R26). -/
def GreetBody.wellFormed (g : GreetBody) : Bool :=
  fits 16 g.senderNode && fits 8 g.senderDegree && fits 8 g.senderDomain && fits 16 g.seen

def AdvertRecord.wellFormed : AdvertRecord → Bool
  | .node regen transit => fits 8 regen && fits 8 transit
  | .link num far _ farNum cost imp _ _ => fits 16 num && fits 16 far && fits 8 farNum && fits 16 cost && fits 16 imp

/-- The native IDs an ADVERT carries: none for domain 0, no far ID for a node record (R4). -/
def AdvertBody.nativeOk (a : AdvertBody) : Bool :=
  (a.domain != 0 || (a.nativeOrigin == 0 && a.nativeFar == 0)) &&
  match a.record with
  | .node _ _ => a.nativeFar == 0
  | .link _ _ _ _ _ _ _ _ => true

/-- ADVERT (R4). -/
def AdvertBody.wellFormed (a : AdvertBody) : Bool :=
  fits 8 a.domain && fits 16 a.origin && fits 32 a.seq && fits 16 a.age && fits 32 a.nativeOrigin &&
  fits 32 a.nativeFar && a.nativeOk && a.record.wellFormed

def TallyEntry.wellFormed (e : TallyEntry) : Bool :=
  fits 16 e.origin && fits 32 e.highest && fits 16 e.count && fits 32 e.sum

/-- TALLY: its entry count is one byte (R7, R97). -/
def TallyBody.wellFormed (t : TallyBody) : Bool :=
  fits 16 t.first && fits 16 t.last && fits 8 t.entries.length && t.entries.all TallyEntry.wellFormed

/-- PULL: its origin count is one byte (R7). -/
def pullWellFormed (os : List NodeId) : Bool := fits 8 os.length && os.all (fits 16)

/-- ROUTEQ (R5). -/
def RouteqBody.wellFormed (q : RouteqBody) : Bool :=
  fits 16 q.tag && fits 8 q.cls && fits 8 q.kind && fits 8 q.width && fits 16 q.src && fits 16 q.dst && fits 8 q.maxHops &&
  fits 16 q.budget && fits 16 q.waypoint && fits 16 q.rangeFirst && fits 16 q.rangeLast

def HopField.wellFormed (h : HopField) : Bool := h.key.wellFormed && fits 16 h.startField

def PathBlock.wellFormed (p : PathBlock) : Bool :=
  fits 32 p.cost && fits 8 p.hops.length && p.hops.all HopField.wellFormed

/-- ROUTEA (R6). -/
def RouteaBody.wellFormed (a : RouteaBody) : Bool :=
  fits 16 a.tag && fits 8 a.outcome && fits 32 a.gen && fits 8 a.paths.length && a.paths.all PathBlock.wellFormed

/-- A link key with a slot run: 7 bytes (R7, R78). -/
def SlotRun.wellFormed (r : SlotRun) : Bool := r.key.wellFormed && fits 16 r.first && fits 16 r.count

/-- SLOTMAP (R88). -/
def SlotmapBody.wellFormed (m : SlotmapBody) : Bool := fits 8 m.degree

/-- A frame's header fields (R1). -/
def RawFrame.wellFormed (f : RawFrame) : Bool :=
  fits 8 f.kind && fits 8 f.hop && fits 16 f.src && fits 16 f.dst && fits 16 f.body.length

/-- The header source and tag of an MGMTQ (R206). -/
def MgmtFrom.wellFormed (m : MgmtFrom) : Bool := fits 16 m.src && fits 16 m.tag

/-- Fields of a domain entry: no field of R42 exceeds 32 bits. -/
def DomainFields.wellFormed (f : DomainFields) : Bool :=
  fits 32 f.nativeBase && fits 32 f.nodeBase && fits 32 f.nodeLimit && fits 32 f.gridRatio && fits 32 f.gridOffset &&
  fits 32 f.costScale && fits 32 f.impScale

def WatchArgs.wellFormed (w : WatchArgs) : Bool := fits 8 w.index && fits 8 w.keys.length && w.keys.all LinkKey.wellFormed

/-- A record of the start image (R204). -/
def ImageRecord.wellFormed : ImageRecord → Bool
  | .parameter _ v => fits 32 v
  | .degreeEnable _ => true
  | .domainEntry n f => fits 8 n && f.wellFormed
  | .delegation n p => fits 8 n && fits 16 p
  | .exclusion r => r.wellFormed
  | .noticeEnable _ => true
  | .watch w => w.wellFormed
  | .locks _ => true

/-- What the loader read: every record it knows fits its fields (R203). -/
def MemoryRead.wellFormed : MemoryRead → Bool
  | .noAnswer => true
  | .erased => true
  | .stopsAnswering => true
  | .image rs _ _ => rs.all fun r => r.content.all ImageRecord.wellFormed

/-- A command's operands fit their fields. -/
def Instr.wellFormed : Instr → Bool
  | .powerOnReset => true
  | .pinReset => true
  | .imageLoad m => m.wellFormed
  | .frameArrival _ _ => true
  | .transitFrame as => as.all fun a => a.frame.wellFormed
  | .deliveredToNp a as => (a :: as).all fun a => a.frame.wellFormed
  | .greet _ g => g.wellFormed
  | .advert _ a => a.wellFormed
  | .tally _ t => t.wellFormed
  | .pull _ os => pullWellFormed os
  | .routeq _ src q => fits 16 src && q.wellFormed
  | .routea _ src a => fits 16 src && a.wellFormed
  | .claim _ src tag => fits 16 src && fits 16 tag
  | .release _ src tag => fits 16 src && fits 16 tag
  | .faultrep _ r => r.wellFormed
  | .slotmap _ m => m.wellFormed
  | .readParam m _ => m.wellFormed
  | .writeParam m _ v => m.wellFormed && fits 32 v
  | .lockGroup m _ => m.wellFormed
  | .degreeEnable m d => m.wellFormed && fits 8 d
  | .degreeDisable m d => m.wellFormed && fits 8 d
  | .domainWrite m n f => m.wellFormed && fits 8 n && f.wellFormed
  | .domainRelease m n => m.wellFormed && fits 8 n
  | .delegateWrite m n p => m.wellFormed && fits 8 n && fits 16 p
  | .excludeAdd m r => m.wellFormed && r.wellFormed
  | .excludeRemove m r => m.wellFormed && r.wellFormed
  | .watchWrite m w => m.wellFormed && w.wellFormed
  | .noticeEnable m _ => m.wellFormed
  | .noticeClear m _ => m.wellFormed
  | .commit m => m.wellFormed
  | .freeze m => m.wellFormed
  | .thaw m => m.wellFormed
  | .status m => m.wellFormed
  | .tableRead m _ i n => m.wellFormed && fits 16 i && fits 16 n
  | .flush m => m.wellFormed
  | .softReset m => m.wellFormed
  | .frameSent _ => true
  | .backlogHeadClaim _ => true
  | .fleFrameClaim _ => true
  | .greetTimerExpiry _ => true
  | .deadTimerExpiry _ => true
  | .holdTimerExpiry _ => true
  | .holdLimitExpiry _ => true
  | .ageClockExpiry => true
  | .ageExpiry k => k.wellFormed
  | .lingerExpiry k => k.wellFormed
  | .exclusionLifetimeExpiry r => r.wellFormed
  | .refreshTimerExpiry => true
  | .tallyTimerExpiry _ => true
  | .pullDeadlineExpiry _ o => fits 16 o
  | .quietCheck => true
  | .autoCommitTimerExpiry => true
  | .promotion => true
  | .dispatch => true
  | .completion _ => true
  | .treeBuildCompletion => true
  | .referralDeadlineExpiry i => decide (i < 16)
  | .holdDeadlineExpiry i => decide (i < 64)
  | .claimDeadlineExpiry i => decide (i < 64)
  | .transceiverReady _ => true

end Sys2Proof
end

