-- ==== Sys2Proof/Safety.lean ====
section
/-! DEFINITION. The words statements about the block are made of: the part with its traffic left out, when a command is
carried out, where a frame waits, and the invariants of the state. -/

namespace Sys2Proof.Machine

/-! ## The part without its traffic -/

/-- The part with the frames of its ports, the direct claims of the event and the episodes of its notice sources left out.  The
forwarding table, the watches and the notice enables stay: two states with equal blocks differ in traffic alone. -/
def State.blocks (s : State) : State :=
  { s with
    claims := []
    fsw := ⟨Vector.replicate 8 (OutPort.empty false), OutPort.empty false, s.fsw.fwd, s.fsw.fwdGen⟩
    ntu := ⟨s.ntu.sources.map fun n => { NoticeSource.reset with enable := n.enable }, s.ntu.watches⟩ }

/-- No notice waits to be originated (R193). -/
def Quiet (s : State) : Prop := ∀ i, (s.ntu.source i).due = false

/-- A source is pending with a member in its detail (R192). -/
def Raised (i : NoticeId) (m : Member) (s : State) : Prop := (s.ntu.source i).pending = true ∧ m ∈ (s.ntu.source i).detail

/-- An own frame waits in the output queue or the backlog of a port (R17, R18). -/
def Waits (p : Port) (f : Frame) (s : State) : Prop := ⟨true, f⟩ ∈ (s.port p).queue ∨ f ∈ (s.port p).backlog

/-- An own frame stands at a port: it waits there, or it was discarded at a full backlog, and then CONGESTION is pending (R18). -/
def StandsAt (p : Port) (f : Frame) (t : State) : Prop :=
  Waits p f t ∨ (Config.backlogSize ≤ (t.port p).backlog.length ∧ (t.ntu.source .congestion).pending = true)

/-- An own frame of RQU, SHU or CFU was placed by the routes of a state (R16 to R18): it stands at the port they give, or it was
discarded for want of a route, and then CONGESTION is pending. -/
def PlacedBy (r : State) (f : Frame) (t : State) : Prop :=
  (∀ p, routeOwn r f.dst = some p → StandsAt p f t) ∧
  (routeOwn r f.dst = none → (t.ntu.source .congestion).pending = true)

/-- An own frame of RQU, SHU or CFU was placed by its destination (R16). -/
def Placed (f : Frame) (t : State) : Prop := PlacedBy t f t

/-! ## What a command leaves of the traffic -/

/-- What a port keeps: queue and backlog grow at their tails by own frames alone, the greet slot and a frame on offer stay. -/
def PortGrows (a b : OutPort) : Prop :=
  (∃ more late, b.queue = a.queue ++ more ∧ (∀ q ∈ more, q.own = true) ∧ b.backlog = a.backlog ++ late) ∧
  b.lastServed = a.lastServed ∧ b.ready = a.ready ∧ b.greetSlot = a.greetSlot ∧
  ∀ x, a.offer = some x → b.offer = some x

/-- The frame of a command over the traffic: ports outside `ps` only grow, and notice sources outside `is` keep enable,
episode and detail.  (The sent flag records an origination; CONGESTION tells of frames discarded.) -/
def Traffic (is : List NoticeId) (ps : List Port) (s t : State) : Prop :=
  (∀ p, p ∉ ps → PortGrows (s.port p) (t.port p)) ∧
  ∀ i, i ∉ is → i ≠ .congestion → { t.ntu.source i with sent := false } = { s.ntu.source i with sent := false }

/-- The GREET with a seen value stands in the greet slot of a degree (R19, R26), whose queue and backlog only grew. -/
def GreetPlaced (d : Degree) (seen : NodeId) (s t : State) : Prop :=
  (t.port (.deg d)).greetSlot =
    some ⟨0x01, 1, 0, t.nodeId, 65535, .greet ⟨t.nodeId, d.val, 0, seen⟩⟩ ∧
  (s.port (.deg d)).queue <+: (t.port (.deg d)).queue ∧ (s.port (.deg d)).backlog <+: (t.port (.deg d)).backlog

/-! ## Management commands (R206) -/

/-- A management command reaches its owning rule: the port takes it, the sender can be answered and is allowed, and the
part is not LOADING (R9, R206, checks 1 to 3). -/
def Commanded (m : MgmtFrom) (s : State) : Prop :=
  takesMgmt s m.port = true ∧ badSender s m.port m.src = false ∧ s.cfu.start ≠ .loading ∧
  mayManage s (identity m.port m.src) = true

/-- The MGMTA of a command was placed (R16, R206). -/
def Answered (m : MgmtFrom) (code : ResultCode) (data : ResultData) (t : State) : Prop :=
  Placed ⟨0x0C, 64, 0, t.nodeId, identity m.port m.src, .mgmta m.tag code data⟩ t

/-- The ROUTEA with the values given, as this part originates it (R1, R6, R123, R178). -/
def routeAnswer (t : State) (dest : NodeId) (tag : Nat) (o : RouteOutcome) (gen : Nat) (paths : List PathResult) : Frame :=
  ⟨0x06, if dest = 65535 then 1 else 64, 0, t.nodeId, dest, .routea ⟨tag, o.code, gen, paths.map PathResult.block⟩⟩

/-- The ROUTEA with the values given was placed (R16, R123, R178). -/
def RouteAnswered (dest : NodeId) (tag : Nat) (o : RouteOutcome) (gen : Nat) (paths : List PathResult) (t : State) : Prop :=
  Placed (routeAnswer t dest tag o gen paths) t

/-- The command of the table that an MGMTQ of a sender carries (R206). -/
def mgmtRow (m : MgmtFrom) : MgmtCmd → Instr
  | .readParam t => .readParam m t
  | .writeParam t v => .writeParam m t v
  | .lockGroup g => .lockGroup m g
  | .degreeEnable d => .degreeEnable m d
  | .degreeDisable d => .degreeDisable m d
  | .domainWrite n f => .domainWrite m n f
  | .domainRelease n => .domainRelease m n
  | .delegateWrite n p => .delegateWrite m n p
  | .excludeAdd r => .excludeAdd m r
  | .excludeRemove r => .excludeRemove m r
  | .watchWrite w => .watchWrite m w
  | .noticeEnable k => .noticeEnable m k
  | .noticeClear k => .noticeClear m k
  | .commit => .commit m
  | .freeze => .freeze m
  | .thaw => .thaw m
  | .status => .status m
  | .tableRead t i n => .tableRead m t i n
  | .flush => .flush m
  | .softReset => .softReset m

/-! ## Notices placed (R193, R194) -/

/-- The NOTICE of a source was placed by the notice destination, with FALLBACK when the lookup yields NONE (R194).  It carries the
sources pending, the source's overrun and detail, and G.  CONGESTION alone may be raised once more after the NOTICE is built, by a frame
of the same event that meets a full backlog. -/
def NoticePlaced (i : NoticeId) (t : State) : Prop :=
  ∃ (snapshot : List NoticeId) (overrun : Bool) (detail : List Member),
    i ∈ snapshot ∧ (∀ j, j ≠ .congestion → (j ∈ snapshot ↔ (t.ntu.source j).pending = true)) ∧
    (.congestion ∈ snapshot → (t.ntu.source .congestion).pending = true) ∧
    (i ≠ .congestion → overrun = (t.ntu.source i).overrun ∧ detail = (t.ntu.source i).detail) ∧
    (∀ m ∈ detail, m ∈ (t.ntu.source i).detail) ∧
    let dest := t.cfu.params.noticeDest
    let notice (flags : BitVec 8) : Frame :=
      ⟨0x0D, 64, flags, t.nodeId, dest, .notice ⟨i, snapshot, overrun, detail, t.cmc.gen⟩⟩
    ((dest = 0 ∨ dest = t.nodeId) → StandsAt .np (notice 0) t) ∧
    (dest ≠ 0 → dest ≠ t.nodeId →
      (∀ d, lookup t dest = some d → StandsAt (.deg d) (notice 0) t) ∧
      (lookup t dest = none → StandsAt .np (notice 1) t))

/-- No NOTICE of a source was placed: every one that waits in a queue or a backlog waited there before (R193). -/
def NoticeSilent (i : NoticeId) (s t : State) : Prop :=
  ∀ p, (∀ q ∈ (t.port p).queue, q ∈ (s.port p).queue ∨ ∀ n, q.frame.body = .notice n → n.source ≠ i) ∧
    ∀ f ∈ (t.port p).backlog, f ∈ (s.port p).backlog ∨ ∀ n, f.body = .notice n → n.source ≠ i

/-! ## Tables and own records -/

/-- A table lists rising indices below its capacity. -/
def TableOk {α : Type} (cap : Nat) (t : List (Nat × α)) : Prop := Table.rising t = true ∧ ∀ e ∈ t, e.1 < cap

/-- Every table is in canonical form (R13, R58, R59, R171, R172). -/
def TablesOk (s : State) : Prop :=
  TableOk Config.nodeTableSize s.tdb.nodes ∧ TableOk Config.linkTableSize s.tdb.links ∧
  TableOk Config.nodeTableSize s.fsw.fwd ∧ TableOk Config.resultSize s.shu.results ∧ TableOk Config.holdSize s.shu.holds

/-- The own node record is held as a native record, or there is room for it (R61, R63). -/
def OwnNodeFits (s : State) : Prop :=
  match s.tdb.findNode s.nodeId with
  | some e => e.2.ver.domain = 0
  | none => (∀ e ∈ s.tdb.links, e.2.key.origin = s.nodeId → e.2.ver.domain = 0) ∧ s.tdb.nodes.length < 256

/-- The own node record has the pending part of an origination with the sequence given: the regen count and the transit
parameter in force, source degree OWN, age 3600 (R62, R85). -/
def OwnNodeHeld (seq : Nat) (t : State) : Prop :=
  ∃ e, t.tdb.findNode t.nodeId = some e ∧ e.2.ver.age = 3600 ∧ e.2.ver.linger = none ∧
    e.2.ver.pending = some ⟨seq, .active, ⟨t.cfu.params.regenCount, t.cfu.params.transitAllowed == 1, .own⟩⟩

/-- The own link record of a degree is held as a native record, or there is room for it (R61, R63). -/
def OwnLinkFits (d : Degree) (s : State) : Prop :=
  match s.tdb.findLink ⟨s.nodeId, d.val⟩ with
  | some e => e.2.ver.domain = 0
  | none => (∀ e, s.tdb.findNode s.nodeId = some e → e.2.ver.domain = 0) ∧ s.tdb.links.length < 2048

/-- The own link record of a degree has the pending part given, with the age and linger R62 and R85 give its state. -/
def OwnLinkHeld (d : Degree) (p : Part LinkContent) (t : State) : Prop :=
  ∃ e, t.tdb.findLink ⟨t.nodeId, d.val⟩ = some e ∧ e.2.ver.pending = some p ∧
    (p.state = .active → e.2.ver.age = 3600 ∧ e.2.ver.linger = none) ∧
    (p.state = .withdrawn → e.2.ver.age = 0 ∧ e.2.ver.linger = some 60)

/-- The content of the own link record of an UP degree with the neighbour record given (R85). -/
def upContent (d : Degree) (n : Neighbour) (t : State) : LinkContent :=
  ⟨n.node, if n.domain = 0 then some n.degree else none, vget t.cfu.params.degreeCost d, vget t.cfu.params.degreeImp d,
    vget t.fle.slotMaps d⟩

/-- The own link record of a degree that is not UP, re-originated: a withdrawal that carries the content of the version held
before, or the fixed content when none was held (R85). -/
def OwnLinkWithdrawn (d : Degree) (seq : Nat) (s t : State) : Prop :=
  ∃ c, OwnLinkHeld d ⟨seq, .withdrawn, c⟩ t ∧
    (∀ e q, s.tdb.findLink ⟨s.nodeId, d.val⟩ = some e → e.2.ver.working = some q → c = q.content) ∧
    (s.tdb.findLink ⟨s.nodeId, d.val⟩ = none → c = ⟨s.nodeId, none, 1, 0, SlotMap.allFree⟩)

/-! ## Floods on their way (R94, R95, R97) -/

/-- A key is on its way to the neighbour of a degree: in its send list, or as the ADVERT of its record in the output queue, which
FLE may have claimed at the end of the same event (R20, R95). -/
def Floods (d : Degree) (k : RecordKey) (t : State) : Prop :=
  k ∈ (t.flood d).sendList ∨
    ∃ a, keyAdvert t k = some a ∧ ⟨true, ⟨0x02, 1, 0, t.nodeId, 65535, .advert a⟩⟩ ∈ (t.port (.deg d)).queue

/-- The check of the pull lists at a change of the records of an origin (R100, R101): an entry whose wanted values are the summary now
leaves its list, and its origin the waiting PULL; every other entry stays. -/
def PullsChecked (o : NodeId) (s t : State) : Prop :=
  let met (x : PullEntry) : Bool := x.origin == o && t.tdb.summary o == some ⟨o, x.highest, x.count, x.sum⟩
  ∀ d, (t.flood d).pulls = (s.flood d).pulls.filter (fun x => !met x) ∧
    (t.flood d).waiting =
      if (s.flood d).pulls.any met then (s.flood d).waiting.filter (· ≠ o) else (s.flood d).waiting

/-- A tally round from the first origin has started at a degree: its cursor is 1, or its first TALLY already stands in the output
queue (R20, R97). -/
def RoundStarted (d : Degree) (t : State) : Prop :=
  (t.flood d).round = some 1 ∨
    ⟨true, ⟨0x03, 1, 0, t.nodeId, 65535, .tally (nextTally t.tdb 1).1⟩⟩ ∈ (t.port (.deg d)).queue

/-! ## Aborts, urgent requests and flushes -/

/-- A lane computes a request. -/
def Computes (l : Lane) (r : Request) : Prop := ∃ cap, l.work = .computing r cap

/-- The requests that the lanes hold, L0's first; a PAIR that both hold counts once (R127, R132, R140, R143). -/
def LanesHold (v : Rsv) (rs : List Request) : Prop :=
  (rs = [] ∧ ∀ r, ¬ Computes v.l0 r ∧ ¬ Computes v.l1 r) ∨
  (∃ r, rs = [r] ∧ ((Computes v.l0 r ∧ ∀ x, ¬ Computes v.l1 x) ∨ (Computes v.l1 r ∧ ∀ x, ¬ Computes v.l0 x) ∨
    (Computes v.l0 r ∧ Computes v.l1 r ∧ r.body.kind = 1))) ∨
  ∃ a b, rs = [a, b] ∧ Computes v.l0 a ∧ Computes v.l1 b ∧ a.body.kind ≠ 1 ∧ b.body.kind ≠ 1

/-- A lane after an abort: one at work is IDLE with ABORTED and the generation of its work as its current entry; an IDLE one is left
as it is (R144, R145, R163, R164). -/
def LaneAborted (a b : Lane) : Prop :=
  (a.work = .idle → b = a) ∧
  (∀ r cap, a.work = .computing r cap → b = ⟨.idle, some ⟨.aborted, cap.gen⟩, a.current⟩) ∧
  ∀ g, a.work = .tree g → b = ⟨.idle, some ⟨.aborted, g⟩, a.current⟩

/-- The request queue after a request returns with its retries counted, at the head of its class; one that was retried twice does
not join it (R131). -/
def requeued (q : List Request) (r : Request) : List Request :=
  if r.retries < 2 then
    q.filter (fun e => decide (e.body.cls < r.body.cls)) ++ { r with retries := r.retries + 1 } ::
      q.filter (fun e => decide (r.body.cls ≤ e.body.cls))
  else q

/-- Requests returned one after another: each is requeued, or answered ABORTED with the current generation when it was retried twice
(R131). -/
def Returned (rs : List Request) (s t : State) : Prop :=
  t.rqu = { s.rqu with queue := rs.foldl requeued s.rqu.queue } ∧
  ∀ r ∈ rs, 2 ≤ r.retries → RouteAnswered r.requester r.body.tag .aborted s.cmc.gen [] t

/-- The abort of an urgent drain (R112, R163, R164): both lanes end ABORTED, the forwarding table stays that of the last tree build
completed, and the requests of the lanes are returned, the later admitted first (R132). -/
def AbortTaken (s t : State) : Prop :=
  LaneAborted s.rsv.l0 t.rsv.l0 ∧ LaneAborted s.rsv.l1 t.rsv.l1 ∧ t.rsv.treeJob = s.rsv.treeJob ∧
  t.fsw.fwd = s.fsw.fwd ∧ t.fsw.fwdGen = s.fsw.fwdGen ∧
  ∀ rs, LanesHold s.rsv rs →
    (rs.length ≤ 1 → Returned rs s t) ∧
    ∀ a b, rs = [a, b] → (b.admission < a.admission → Returned [a, b] s t) ∧
      (a.admission < b.admission → Returned [b, a] s t)

/-- An urgent request was taken (R109): the flag is set.  Outside DRAINING-URGENT, and unless the part takes requests as frozen
(R109, R115), the part is in DRAINING-URGENT, unforced when it was not in DRAINING before, and the abort is taken; otherwise the commit
state, the lanes and the requests stay. -/
def UrgentTaken (s t : State) : Prop :=
  t.cmc.urgentReq = true ∧ t.cmc.gen = s.cmc.gen ∧ t.cmc.freeze = s.cmc.freeze ∧
  (s.cmc.freeze = false → s.cmc.gen ≠ 0xFFFFFFFF → ¬ (s.cmc.state = .draining ∧ s.cmc.mode = .urgent) →
    t.cmc.state = .draining ∧ t.cmc.mode = .urgent ∧ t.rsv.l0.work = .idle ∧ t.rsv.l1.work = .idle ∧ AbortTaken s t ∧
    (s.cmc.state = .draining → t.cmc.forced = s.cmc.forced) ∧
    (s.cmc.state ≠ .draining → t.cmc.forced = false ∧ t.cmc.checkTimer = none)) ∧
  ((s.cmc.freeze = true ∨ s.cmc.gen = 0xFFFFFFFF ∨ (s.cmc.state = .draining ∧ s.cmc.mode = .urgent)) →
    t.cmc.state = s.cmc.state ∧ t.cmc.mode = s.cmc.mode ∧ t.rsv = s.rsv ∧ t.rqu = s.rqu)

/-- What a flush does to the lanes, the requests and the results: lanes at work end ABORTED before L0 takes the tree build, the
requests of the lanes and of the queue are answered ABORTED with the generation before the flush and by the routes of `r`, as they were
before it (R120, R140, R168), and the results are answered STALE with the generation of the flush (R188). -/
def FlushAnswered (r s t : State) : Prop :=
  LaneAborted s.rsv.l0 { t.rsv.l0 with work := .idle } ∧ LaneAborted s.rsv.l1 t.rsv.l1 ∧
  t.rsv.l0.work = .tree (s.cmc.gen + 1) ∧ t.rsv.treeJob = none ∧
  (∀ rs, LanesHold s.rsv rs → ∀ q ∈ rs ++ s.rqu.queue,
    PlacedBy r (routeAnswer t q.requester q.body.tag .aborted s.cmc.gen []) t) ∧
  ∀ e ∈ s.shu.results, RouteAnswered e.2.requester e.2.tag .stale (s.cmc.gen + 1) [] t

/-- The effects of a degree's leaving UP, other than by a new node ID (R35, R103): the withdrawal of its own link record, flooded to the
degrees still UP (R86, R94), its flood lists emptied, an ADJACENCY event and an urgent request; and what they leave unchanged. -/
def LeftUp (d : Degree) (s t : State) : Prop :=
  t.flood d = ⟨[], [], [], none, none⟩ ∧ Raised .adjacency (.degree d) t ∧ UrgentTaken s t ∧
  Traffic [.adjacency, .sequence, .tableFull] [.deg d] s t ∧ t.dtu = s.dtu ∧ t.shu = s.shu ∧ t.cfu = s.cfu ∧
  t.tdb.exclusions = s.tdb.exclusions ∧ t.fle.slotMaps = s.fle.slotMaps ∧ t.cmc.normalReq = s.cmc.normalReq ∧
  (s.fle.seq ≤ 0xFFFFFFF0 → t.fle.seq = s.fle.seq + 1 ∧
    (OwnLinkFits d s → t.tdb.nodes = s.tdb.nodes ∧
      (TablesOk s → ∀ k, k ≠ ⟨s.nodeId, d.val⟩ → t.tdb.findLink k = s.tdb.findLink k) ∧
      OwnLinkWithdrawn d s.fle.seq s t ∧
      (s.fle.seq < 0xFFFFFFF0 → ∀ e, t.isUp e = true → Floods e (.link ⟨s.nodeId, d.val⟩) t)))

/-! ## Invariants -/

/-- A port within its limits: queue, passing frames and backlog (R17, R18). -/
def PortWithin (p : Port) (o : OutPort) : Prop :=
  o.queue.length ≤ queueSize p ∧ o.passing ≤ passingLimit p ∧ o.backlog.length ≤ Config.backlogSize

/-- Every port is within its limits. -/
def PortsWithin (s : State) : Prop := ∀ p, PortWithin p (s.port p)

/-- A notice source holds an episode only while it is pending (R191, R192). -/
def SourceOk (n : NoticeSource) : Prop :=
  n.pending = false → n.overrun = false ∧ n.sent = false ∧ n.detail = [] ∧ n.gen = none

/-- Every notice source is in order. -/
def NoticesOk (s : State) : Prop := ∀ i, SourceOk (s.ntu.source i)

/-- What R24 and R25 give for each adjacency state: whether the record is present and which timers run. -/
def AdjacencyOk (a : Adjacency) : Prop :=
  (a.nbr.isSome, a.greetTimer.isSome, a.deadTimer.isSome, a.holdTimer.isSome, a.holdLimit.isSome) =
    match a.state with
    | .disabled => (false, false, false, false, false)
    | .down => (false, true, false, false, false)
    | .detect => (true, true, true, false, false)
    | .qualify => (true, true, true, false, false)
    | .up => (true, true, true, false, false)
    | .hold => (true, true, false, true, true)

/-- Every adjacency is in order, and every degree is DISABLED while the part is not RUNNING (R24, R40). -/
def AdjacenciesOk (s : State) : Prop :=
  ∀ d, AdjacencyOk (s.adjacency d) ∧ (s.cfu.start ≠ .running → (s.adjacency d).state = .disabled)

/-- The check timer runs in SETTLING only, and SETTLING is never found with the freeze flag set (R106, R109). -/
def CommitOk (s : State) : Prop :=
  (s.cmc.checkTimer.isSome = true ↔ s.cmc.state = .settling) ∧ (s.cmc.state = .settling → s.cmc.freeze = false)

end Sys2Proof.Machine
end

