-- ==== Sys2Proof/Certificates/Slice0/Obligations.lean ====
section
/-! DEFINITION. The statements for the provers.  In every statement about a command, `settle s` is the part after the own
steps that are due, which come before the command (the model's choice, log 5); `finish` is the end of an event, at which
the notices that are due are originated and the ports offer frames (R193, R21).  A state's `blocks` are all of it but the
frames of its ports, the direct claims of the event and the episodes of its notice sources. -/

open Sys2Proof Sys2Proof.Machine

/-! ## Steps, reset and start -/

/-- A step takes the command at the front of the queue and runs it on the rest. -/
def Obligations.StepRunsFrontCommand : Prop :=
  ∀ (c : Instr) (s : State), step { s with pending := c :: s.pending } = exec c s

/-- With no command waiting (the model's choice, log 5): own steps that are due, else the first expiry that is due, else
one tick of the clock. -/
def Obligations.IdleStepTicksWhenNothingIsDue : Prop :=
  ∀ s : State, s.pending = [] →
    (settleDue s = true → step s = .next (settle s)) ∧
    (settleDue s = false →
      (∀ c rest, dueCommands s = c :: rest → step s = exec c s) ∧
      (dueCommands s = [] → step s = .next { s with now := s.now + 1 }))

/-- What the part holds right after power-on reset, and that the invariants hold there.  (Image
outcome ABSENT with counts 0, log 9, transceivers not ready, log 8, and entry 0 of the domain table without a fault, log 40, are the
model's choices.) -/
def Obligations.ResetValuesMeetInvariants : Prop :=
  State.reset.cfu.start = .loading ∧ State.reset.cfu.params = Params.default ∧
  (∀ g, State.reset.cfu.locks.has g = false) ∧ State.reset.cfu.outcome = .absent ∧ State.reset.cfu.skipped = 0 ∧
  State.reset.cfu.clamped = 0 ∧
  (∀ k : Fin 16, k ≠ 0 → vget State.reset.dtu k = ⟨⟨false, 0, 0, 1, 1, 0, 1, 1⟩, .clean, false, .none⟩) ∧
  vget State.reset.dtu 0 = ⟨⟨true, 0, 0, 256, 1, 0, 1, 1⟩, .clean, false, .none⟩ ∧
  (∀ i, vget State.reset.rqu.referrals i = none ∧ vget State.reset.rqu.delegation i = 0) ∧
  (∀ i, vget State.reset.ntu.watches i = none) ∧ State.reset.fle.refreshTimer = none ∧
  State.reset.cmc.checkTimer = none ∧ State.reset.cmc.autoTimer = none ∧ State.reset.cmc.changedLinks = [] ∧
  State.reset.cmc.normalReq = false ∧ State.reset.cmc.urgentReq = false ∧ State.reset.cmc.settle = 0 ∧
  State.reset.cmc.checks = 0 ∧ State.reset.cmc.changed = false ∧
  (∀ d, (State.reset.adjacency d).state = .disabled ∧ (State.reset.adjacency d).enable = false ∧
    (State.reset.adjacency d).nbr = none ∧ (State.reset.adjacency d).greetTimer = none ∧
    (State.reset.adjacency d).deadTimer = none ∧ (State.reset.adjacency d).holdTimer = none ∧
    (State.reset.adjacency d).holdLimit = none ∧ (State.reset.flood d) = ⟨[], [], [], none, none⟩ ∧
    vget State.reset.fle.slotMaps d = ⟨0, 0⟩) ∧
  (∀ p, (State.reset.port p).queue = [] ∧ (State.reset.port p).backlog = [] ∧ (State.reset.port p).greetSlot = none ∧
    (State.reset.port p).offer = none ∧ (State.reset.port p).ready = false ∧ (State.reset.port p).lastServed = .np) ∧
  State.reset.fsw.fwd = [] ∧ State.reset.tdb.nodes = [] ∧ State.reset.tdb.links = [] ∧
  State.reset.tdb.exclusions = [] ∧ State.reset.tdb.incomplete = [] ∧ State.reset.fle.seq = 1 ∧
  State.reset.cmc.gen = 0 ∧ State.reset.cmc.state = .idle ∧ State.reset.cmc.freeze = false ∧
  State.reset.rqu.queue = [] ∧ State.reset.rqu.cursor = 15 ∧ State.reset.rsv = ⟨Lane.reset, Lane.reset, none⟩ ∧
  State.reset.shu = ⟨[], [], []⟩ ∧
  (∀ i, State.reset.ntu.source i = ⟨true, false, false, false, [], none⟩) ∧ State.reset.pending = [] ∧
  State.reset.claims = [] ∧ Quiet State.reset ∧
  PortsWithin State.reset ∧ NoticesOk State.reset ∧ AdjacenciesOk State.reset ∧ CommitOk State.reset ∧ TablesOk State.reset

/-- Power-on reset and pin reset act alike: every block at its power-on values in LOADING, whatever was there.  The model's choices
among them: the commands still waiting and the count of free values stay, and so do the transceivers' ready pins (log 8), the
clock and the stamps restart at 0 (logs 6 and 7), and drain mode, count of admissions and image outcome take the values of log 9. -/
def Obligations.PowerOnAndPinResetActAlike : Prop :=
  ∀ s : State, ∃ t, exec .powerOnReset s = .next t ∧ exec .pinReset s = .next t ∧
    t.blocks = { State.reset with pending := s.pending, freeCount := s.freeCount }.blocks ∧
    (∀ p, (t.port p).queue = [] ∧ (t.port p).backlog = [] ∧ (t.port p).greetSlot = none ∧ (t.port p).offer = none ∧
      (t.port p).lastServed = .np ∧ (t.port p).ready = (s.port p).ready) ∧
    ∀ i, t.ntu.source i = ⟨true, false, false, false, [], none⟩

/-- A load: nothing outside LOADING (the model's choice, log 10); an absent or bad image applies nothing, raises START and leaves the
part ISOLATED; a valid one is applied kind after kind, in image order within a kind, each record written, clamped and counted, or
skipped and counted, and the node ID it leaves decides the start state.  The sender gives each record's bytes and what they say
(log 25).  An exclusion added takes the next stamp, the model's own counter (log 7).  The model's readings: a delegation whose peer is the node ID is skipped even where both are 0 (log 13), a watch without a
mode is skipped even with key count 0 (log 16), and a degree or entry that a parameter does not need is ignored (log 31). -/
def Obligations.ImageLoadDecidesStartState : Prop :=
  (∀ s u : State, u = settle s →
    (u.cfu.start ≠ .loading → ∀ m, exec (.imageLoad m) s = .next (finish u)) ∧
    (u.cfu.start = .loading → u.nodeId = 0 → ∀ m o,
      ((o = .absent ∧ (m = .noAnswer ∨ m = .erased)) ∨
        (o = .invalid ∧ (m = .stopsAnswering ∨ ∃ rs e crc, m = .image rs e crc ∧
          (crc ≠ crc32 (rs.flatMap (·.bytes) ++ e) ∨ 4096 < (rs.flatMap (·.bytes) ++ e).length ∨
            ∃ r ∈ rs, r.content = none)))) →
      ∃ t, exec (.imageLoad m) s = .next t ∧
        t.cfu = { u.cfu with start := .isolated, outcome := o, skipped := 0, clamped := 0 } ∧
        t.tdb = u.tdb ∧ t.dtu = u.dtu ∧ t.rqu = u.rqu ∧ t.cmc = u.cmc ∧ t.fle = u.fle ∧ t.shu = u.shu ∧
        t.ntu.watches = u.ntu.watches ∧ Raised .start (if o = .absent then .absent else .invalid) t ∧
        ∀ d, (t.adjacency d).state = .disabled ∧ (t.adjacency d).enable = (u.adjacency d).enable) ∧
    (u.cfu.start = .loading → ∀ rs e, (∀ r ∈ rs, r.content ≠ none) → (rs.flatMap (·.bytes) ++ e).length ≤ 4096 →
      let ofKind (k : Nat) := (rs.filterMap (·.content)).filter fun r => imageOrder r == k
      let v := [1, 2, 3, 4, 5, 6, 7, 8].foldl (fun t k => (ofKind k).foldl applyRecord t)
        { u with cfu := { u.cfu with outcome := .valid, skipped := 0, clamped := 0 } }
      ∃ t, exec (.imageLoad (.image rs e (crc32 (rs.flatMap (·.bytes) ++ e)))) s = .next t ∧
        t.cfu = { v.cfu with start := if v.nodeId = 0 then .isolated else .running } ∧ t.cfu.outcome = .valid ∧
        t.dtu = v.dtu ∧ t.rqu = v.rqu ∧ t.tdb.exclusions = v.tdb.exclusions ∧ t.ntu.watches = v.ntu.watches ∧
        (∀ i, (t.ntu.source i).enable = (v.ntu.source i).enable) ∧
        (∀ d, (t.adjacency d).enable = (v.adjacency d).enable) ∧
        (v.nodeId = 0 → ∀ d, (t.adjacency d).state = .disabled) ∧
        (v.nodeId ≠ 0 → (∀ d, (v.adjacency d).enable = true → (t.adjacency d).state = .down) ∧
          (v.fle.seq ≤ 0xFFFFFFF0 → OwnNodeFits v → t.fle.seq = v.fle.seq + 1 ∧ OwnNodeHeld v.fle.seq t) ∧
          t.fle.refreshTimer = some (t.now + t.cfu.params.refreshInterval * 1000) ∧
          t.cmc.autoTimer =
            if t.cfu.params.autoCommit = 0 then none else some (t.now + t.cfu.params.autoCommit * 1000)))) ∧
  (∀ g x ds n f peer r mask w gs, [ImageRecord.parameter g x, .degreeEnable ds, .domainEntry n f, .delegation n peer,
    .exclusion r, .noticeEnable mask, .watch w, .locks gs].map imageOrder = [1, 2, 3, 4, 5, 6, 7, 8]) ∧
  ∀ v : State,
    let skipped : State := { v with cfu := { v.cfu with skipped := v.cfu.skipped + 1 } }
    let taken (t : State) (exact : Bool) : State :=
      if exact = true then t else { t with cfu := { t.cfu with clamped := t.cfu.clamped + 1 } }
    let enumerated (p : ParamId) := p ∈ [ParamId.retrigger, .transitAllowed]
    let peers (l : Vector NodeId 16) (t : State) : State := { t with rqu := { t.rqu with delegation := l } }
    let excluded (l : List Exclusion) : State := { v with tdb := { v.tdb with exclusions := l } }
    (∀ g x, (targetOk g = false ∨ ∃ p, g.param = some p ∧ enumerated p ∧ 1 < x) →
      applyRecord v (.parameter g x) = skipped) ∧
    (∀ p sel x y, targetOk ⟨some p, sel⟩ = true →
      ((enumerated p ∧ x ≤ 1 ∧ y = x) ∨ (¬ enumerated p ∧ y = max (paramRange p).low
        (min x (paramRange p).high / (paramRange p).step * (paramRange p).step))) →
      applyRecord v (.parameter ⟨some p, sel⟩ x) =
        taken { v with cfu := { v.cfu with params := setParam v.cfu.params p sel y } } (y == x)) ∧
    (∀ ds, { applyRecord v (.degreeEnable ds) with adm := v.adm } = v ∧
      ∀ d, (applyRecord v (.degreeEnable ds)).adjacency d = { v.adjacency d with enable := decide (d ∈ ds) }) ∧
    (∀ n f, (n = 0 ∨ 15 < n ∨ f.rangeOk = false) → applyRecord v (.domainEntry n f) = skipped) ∧
    (∀ (k : Fin 16) f, k ≠ 0 → f.rangeOk = true →
      let t : State := { v with dtu := vset v.dtu k ⟨f, .clean, false, .none⟩ }
      applyRecord v (.domainEntry k.val f) = if f.valid = true then t else peers (vset v.rqu.delegation k 0) t) ∧
    (∀ n peer, (n = 0 ∨ 15 < n ∨ peer = 65535 ∨ peer = v.nodeId) → applyRecord v (.delegation n peer) = skipped) ∧
    (∀ (k : Fin 16) peer, k ≠ 0 → peer ≠ 65535 → peer ≠ v.nodeId →
      let q := if (vget v.dtu k).fields.valid = true then peer else 0
      applyRecord v (.delegation k.val peer) = taken (peers (vset v.rqu.delegation k q) v) (q == peer)) ∧
    (∀ r : SlotRun,
      let n : SlotRun := if r.count = 0 then { r with first := 0 } else r
      (n.rangeOk = false → applyRecord v (.exclusion r) = skipped) ∧
      (n.rangeOk = true → (∀ e ∈ v.tdb.exclusions, e.run ≠ n) →
        (v.tdb.exclusions.length < 128 → applyRecord v (.exclusion r) =
          { excluded (v.tdb.exclusions ++ [⟨n, .loaded, none, v.now, v.stamp + 1⟩]) with stamp := v.stamp + 1 }) ∧
        (128 ≤ v.tdb.exclusions.length → applyRecord v (.exclusion r) = skipped)) ∧
      (n.rangeOk = true → ∀ e, v.tdb.exclusions.find? (fun e => e.run == n) = some e →
        (e.origin = .loaded → applyRecord v (.exclusion r) = v) ∧
        (e.origin = .reported → applyRecord v (.exclusion r) = excluded (v.tdb.exclusions.map fun x =>
          if x.run = n then { x with origin := .loaded, lifetime := none } else x)))) ∧
    (∀ mask, { applyRecord v (.noticeEnable mask) with ntu := v.ntu } = v ∧
      (applyRecord v (.noticeEnable mask)).ntu.watches = v.ntu.watches ∧
      ∀ i, (applyRecord v (.noticeEnable mask)).ntu.source i =
        { v.ntu.source i with enable := mask.getLsbD i.number.val }) ∧
    (∀ w, w.argsOk = false → applyRecord v (.watch w) = skipped) ∧
    (∀ (k : Fin 8) mode keys, WatchArgs.argsOk ⟨k.val, some mode, keys⟩ = true →
      applyRecord v (.watch ⟨k.val, some mode, keys⟩) = { v with ntu := { v.ntu with watches :=
        (vset v.ntu.watches k (if keys = [] then none else some ⟨mode, keys⟩)) } }) ∧
    ∀ gs, { applyRecord v (.locks gs) with cfu := { (applyRecord v (.locks gs)).cfu with locks := v.cfu.locks } } = v ∧
      ∀ g, (applyRecord v (.locks gs)).cfu.locks.has g = (v.cfu.locks.has g || decide (g ∈ gs))

/-! ## The frame switch -/

/-- A frame with no own step due.  At a port that takes input it is discarded with FRAME_ERROR and nothing else when an input check
fails (the NOTICE is placed when the source is enabled and has sent none in the episode, and none is otherwise: R193, R194), and
dispatched when none does.  On a degree that is disabled, or outside RUNNING, it is discarded without input checks and without
a notice; on NP outside RUNNING only an MGMTQ that passes the checks is handled, whatever its destination (R9). -/
def Obligations.InputChecksDecideDispatch : Prop :=
  ∀ (p : Port) (b : List Byte) (s : State), settle s = s →
    let fails := b.length < 14 ∨ 1014 < b.length ∨ field b 8 2 ≠ b.length - 14 ∨
      (crc32 (b.take (b.length - 4))).toNat ≠ field b (b.length - 4) 4 ∨ field b 1 1 ≠ 1 ∨ field b 2 1 = 0 ∨
      64 < field b 2 1
    let f : RawFrame :=
      ⟨field b 0 1, field b 2 1, b.getD 3 0, field b 4 2, field b 6 2, (b.drop 10).take (b.length - 14)⟩
    let discarded := exec (.frameArrival p b) s = .next (finish s)
    (takesInput s p = true → fails →
      ∃ t, exec (.frameArrival p b) s = .next t ∧ t.blocks = s.blocks ∧ Raised .frameError (.port p) t ∧
        Traffic [.frameError] [] s t ∧
        (let n := s.ntu.source .frameError
        (n.enable = true → n.sent = false → NoticePlaced .frameError t ∧ (t.ntu.source .frameError).sent = true) ∧
        ((n.enable = false ∨ n.sent = true) → NoticeSilent .frameError s t ∧
          (t.ntu.source .frameError).sent = n.sent))) ∧
    (takesInput s p = true → ¬ fails → exec (.frameArrival p b) s = .next (finish (dispatchFrame p f s))) ∧
    (∀ d, p = .deg d → ((s.adjacency d).enable = false ∨ s.cfu.start ≠ .running) → discarded) ∧
    (p = .np → s.cfu.start ≠ .running →
      ((fails ∨ f.kind ≠ 0x0B) → discarded) ∧
      (¬ fails → f.kind = 0x0B → exec (.frameArrival p b) s = .next (finish (handleFrame .np f s))))

/-- A frame that passed the input checks goes by its destination and its arrival port. -/
def Obligations.DispatchGoesByDestination : Prop :=
  ∀ (p : Port) (f : RawFrame) (s : State),
    (f.dst = s.nodeId → dispatchFrame p f s = handleFrame p f s) ∧
    (f.dst ≠ s.nodeId → f.dst = 0 →
      (∀ d, p = .deg d → dispatchFrame p f s = frameError p s) ∧ (p = .np → dispatchFrame p f s = handleFrame p f s)) ∧
    (f.dst ≠ s.nodeId → f.dst = 65535 →
      (∀ d, p = .deg d → f.kind ∈ [0x01, 0x02, 0x03, 0x04] → dispatchFrame p f s = handleFrame p f s) ∧
      (∀ d, p = .deg d → f.kind ∉ [0x01, 0x02, 0x03, 0x04] → dispatchFrame p f s = frameError p s) ∧
      (p = .np → dispatchFrame p f s = frameError p s)) ∧
    (f.dst ≠ s.nodeId → f.dst ≠ 0 → f.dst ≠ 65535 → dispatchFrame p f s = forward p f s)

/-- A CLAIM, RELEASE or ROUTEQ that arrives as bytes for this node acts as the command with its fields does. -/
def Obligations.FrameArrivalActsAsItsFields : Prop :=
  ∀ (p : Port) (b : List Byte) (f : RawFrame) (s : State), takesInput (settle s) p = true → parseFrame b = some f →
    f.dst = (settle s).nodeId →
    (f.kind = kindClaim → f.body.length = 2 →
      ∃ t, exec (.frameArrival p b) s = .next t ∧ exec (.claim p f.src (field f.body 0 2)) s = .next t) ∧
    (f.kind = kindRelease → f.body.length = 2 →
      ∃ t, exec (.frameArrival p b) s = .next t ∧ exec (.release p f.src (field f.body 0 2)) s = .next t) ∧
    (f.kind = kindRouteq → ∀ q, parseRouteq f.body = some q →
      ∃ t, exec (.frameArrival p b) s = .next t ∧ exec (.routeq p f.src q) s = .next t)

/-- A transit frame: its hop limit is taken down on a degree and kept on NP, its lookup names the queue, and after the own claims of
the event (`endClaims`) it joins the queue below capacity and passing limit, or is discarded without a trace.  Two that reach one
queue together are served in round-robin order. -/
def Obligations.TransitFrameForwarding : Prop :=
  ∀ (p : Port) (f : RawFrame) (s u v : State), u = settle s → v = endClaims u → takesInput u p = true →
    f.inputOk = true → isTransit u f = true →
    ((∃ d, p = .deg d ∧ f.hop = 1) → exec (.transitFrame [⟨p, f⟩]) s = .next (offerAll v)) ∧
    (∀ hop, ((∃ d, p = .deg d ∧ f.hop = hop + 1 ∧ hop ≠ 0) ∨ (p = .np ∧ f.hop = hop)) →
      (lookup u f.dst = none → exec (.transitFrame [⟨p, f⟩]) s = .next (offerAll v)) ∧
      ∀ e, lookup u f.dst = some e →
        let o := v.port (.deg e)
        let moved : Frame := ⟨f.kind, hop, f.flags, f.src, f.dst, .raw f.body⟩
        (exec (.transitFrame [⟨p, f⟩]) s = .next (offerAll (if o.queue.length < 24 ∧ o.passing < 20 then
          v.setPort (.deg e) { o with queue := o.queue ++ [⟨false, moved⟩], lastServed := p } else v))) ∧
        ∀ q g other, q ≠ p → takesInput u q = true → g.inputOk = true → isTransit u g = true →
          lookup u g.dst = some e → hopped q g = some other → o.queue.length < 23 → o.passing < 19 →
          (p.index + 8 - o.lastServed.index) % 9 < (q.index + 8 - o.lastServed.index) % 9 →
          ∀ as ∈ [[⟨p, f⟩, ⟨q, g⟩], [⟨q, g⟩, ⟨p, f⟩]],
            exec (.transitFrame as) s = .next (offerAll (v.setPort (.deg e) { o with
              queue := o.queue ++ [⟨false, moved⟩, ⟨false, other⟩], lastServed := q })))

/-- A frame delivered to NP joins the NP queue unchanged as a passing frame, after the own claims of the event (`endClaims`), or is
discarded without a trace.  Two that reach the NP queue together are served in round-robin order. -/
def Obligations.DeliveredFrameJoinsNodeQueue : Prop :=
  ∀ (d : Degree) (f : RawFrame) (s u v : State), u = settle s → v = endClaims u → takesInput u (.deg d) = true →
    f.inputOk = true → f.dst = u.nodeId → parseBody f.kind f.body = some .delivered →
    let o := v.port .np
    let whole (f : RawFrame) : Queued := ⟨false, ⟨f.kind, f.hop, f.flags, f.src, f.dst, .raw f.body⟩⟩
    (exec (.deliveredToNp ⟨.deg d, f⟩ []) s = .next (offerAll (if o.queue.length < 32 ∧ o.passing < 28 then
      v.setPort .np { o with queue := o.queue ++ [whole f], lastServed := .deg d } else v))) ∧
    ∀ (e : Degree) (g : RawFrame), e ≠ d → takesInput u (.deg e) = true → g.inputOk = true → g.dst = u.nodeId →
      parseBody g.kind g.body = some .delivered → o.queue.length < 31 → o.passing < 27 →
      (d.val + 8 - o.lastServed.index) % 9 < (e.val + 8 - o.lastServed.index) % 9 →
      ∀ a b : Arrival, (a = ⟨.deg d, f⟩ ∧ b = ⟨.deg e, g⟩) ∨ (a = ⟨.deg e, g⟩ ∧ b = ⟨.deg d, f⟩) →
        exec (.deliveredToNp a [b]) s = .next (offerAll (v.setPort .np { o with
          queue := o.queue ++ [whole f, whole g], lastServed := .deg e }))

/-- An own frame of RQU, SHU, NTU or CFU: into the queue past an empty backlog, else into the backlog, else discarded with
CONGESTION QUEUE_FULL. -/
def Obligations.OwnFrameClaimsQueueThenBacklog : Prop :=
  ∀ (p : Port) (f : Frame) (s : State),
    ((s.port p).backlog = [] → (s.port p).queue.length < queueSize p →
      claimOwn p f s = s.setPort p { s.port p with queue := (s.port p).queue ++ [⟨true, f⟩] }) ∧
    (¬ ((s.port p).backlog = [] ∧ (s.port p).queue.length < queueSize p) → (s.port p).backlog.length < 8 →
      claimOwn p f s = s.setPort p { s.port p with backlog := (s.port p).backlog ++ [f] }) ∧
    (¬ ((s.port p).backlog = [] ∧ (s.port p).queue.length < queueSize p) → ¬ (s.port p).backlog.length < 8 →
      (claimOwn p f s).fsw = s.fsw ∧ Raised .congestion .queueFull (claimOwn p f s))

/-- The queues, the passing frames in them and the backlogs stay within their limits at every step. -/
def Obligations.QueueLimitsKeptByEveryStep : Prop :=
  ∀ s t : State, PortsWithin s → step s = .next t → PortsWithin t

/-- The frame on offer is accepted: it leaves the greet slot or the queue, its transceiver is ready again or not (a free value, log 19),
and nothing else changes but the count of free values; with nothing on offer nothing does (log 10).  A transceiver that becomes ready (none is
at reset, log 8) is offered the GREET of the greet slot, else the head of the queue; what is on offer stays. -/
def Obligations.TransceiverEventsMoveTheOffer : Prop :=
  ∀ (p : Port) (s u : State), u = settle s →
    let sent (o : OutPort) : State := { u with freeCount := u.freeCount + 1 }.setPort p o
    ((u.port p).offer = none → exec (.frameSent p) s = .next (finish u)) ∧
    (∀ f, (u.port p).offer = some (.queued f) →
      ∃ again, exec (.frameSent p) s = .next (finish (sent { u.port p with
        offer := none, queue := (u.port p).queue.drop 1, ready := again }))) ∧
    (∀ f, (u.port p).offer = some (.greet f true) →
      ∃ again, exec (.frameSent p) s = .next (finish (sent { u.port p with
        offer := none, greetSlot := none, ready := again }))) ∧
    (∀ f, (u.port p).offer = some (.greet f false) →
      ∃ again, exec (.frameSent p) s = .next (finish (sent { u.port p with offer := none, ready := again }))) ∧
    (Quiet u → (u.port p).offer = none →
      ∃ t, exec (.transceiverReady p) s = .next t ∧ t.blocks = u.blocks ∧ Traffic [] [p] u t ∧ (t.port p).ready = true ∧
        (t.port p).queue = (u.port p).queue ∧ (t.port p).backlog = (u.port p).backlog ∧
        (t.port p).greetSlot = (u.port p).greetSlot ∧
        (t.port p).offer = match (u.port p).greetSlot, (u.port p).queue with
          | some g, _ => some (.greet g true)
          | none, q :: _ => some (.queued q.frame)
          | none, [] => none) ∧
    (Quiet u → ∀ x, (u.port p).offer = some x →
      ∃ t, exec (.transceiverReady p) s = .next t ∧ t.blocks = u.blocks ∧ Traffic [] [p] u t ∧
        t.port p = { u.port p with ready := true })

/-- The head of a backlog claims space: it moves to the tail of the queue when there is room, after every claim FLE has at the same
queue (log 18, DEDUCED).  A claim that is not due changes nothing more (the model's choice, log 10). -/
def Obligations.BacklogHeadMovesWhenRoom : Prop :=
  ∀ (p : Port) (s : State),
    (∀ f rest, ((fleClaimsAt p s).port p).backlog = f :: rest →
      ((fleClaimsAt p s).port p).queue.length < queueSize p →
      exec (.backlogHeadClaim p) s = .next (finish ((fleClaimsAt p s).setPort p { (fleClaimsAt p s).port p with
        queue := ((fleClaimsAt p s).port p).queue ++ [⟨true, f⟩], backlog := rest }))) ∧
    ((((fleClaimsAt p s).port p).backlog = [] ∨ ¬ ((fleClaimsAt p s).port p).queue.length < queueSize p) →
      exec (.backlogHeadClaim p) s = .next (finish (fleClaimsAt p s)))

/-- FLE's frame for an UP degree whose queue has room: the waiting PULL, else the next TALLY of the round, else the ADVERT of
the send-list head.  A head that cannot be sent leaves the list as if sent, in the same event.  With no room, a degree that is not UP
or nothing ready, nothing in FLE changes (a claim not due is the model's choice, log 10).  The ADVERT carries the working version of its
record, a foreign one converted back through its domain entry or not sent (R52); no own key is sent while the counter is exhausted (R84).
A TALLY lists the summaries of up to 80 held origins from the cursor on, in ascending order, and ends the round when it lists the last
one (R97); a summary is taken over the working versions of an origin's records (R96). -/
def Obligations.FleClaimsPullThenTallyThenAdvert : Prop :=
  (∀ (d : Degree) (s : State),
    (¬ (s.isUp d = true ∧ (s.port (.deg d)).queue.length < 24) → exec (.fleFrameClaim d) s = .next (finish s)) ∧
    ((s.flood d).waiting = [] → (s.flood d).round = none → (s.flood d).sendList = [] →
      exec (.fleFrameClaim d) s = .next (finish s)) ∧
    (s.isUp d = true → (s.port (.deg d)).queue.length < 24 →
      ((s.flood d).waiting ≠ [] →
        exec (.fleFrameClaim d) s = .next (finish (enqueueOwn (.deg d)
          ⟨0x04, 1, 0, s.nodeId, 65535, .pull (s.flood d).waiting⟩ (s.setFlood d { s.flood d with waiting := [] })))) ∧
      ((s.flood d).waiting = [] → ∀ cursor, (s.flood d).round = some cursor →
        exec (.fleFrameClaim d) s = .next (finish (enqueueOwn (.deg d)
          ⟨0x03, 1, 0, s.nodeId, 65535, .tally (nextTally s.tdb cursor).1⟩
          (s.setFlood d { s.flood d with round := (nextTally s.tdb cursor).2 })))) ∧
      ((s.flood d).waiting = [] → (s.flood d).round = none → ∀ k rest, (s.flood d).sendList = k :: rest →
        (∀ a, keyAdvert s k = some a →
          exec (.fleFrameClaim d) s = .next (finish (enqueueOwn (.deg d)
            ⟨0x02, 1, 0, s.nodeId, 65535, .advert a⟩ (s.setFlood d { s.flood d with sendList := rest })))) ∧
        (keyAdvert s k = none → exec (.fleFrameClaim d) s =
          exec (.fleFrameClaim d) (s.setFlood d { s.flood d with sendList := rest }))))) ∧
  (∀ (s : State) (k : RecordKey), s.fle.seq ≤ 0xFFFFFFF0 ∨ (∀ n, k = .node n → n ≠ s.nodeId) ∧
      (∀ l, k = .link l → l.origin ≠ s.nodeId ∨ 7 < l.num) →
    let sendable (e : DomainEntry) := e.fields.valid = true ∧ e.state ≠ .quarantined
    let native (e : DomainEntry) (n : NodeId) := e.fields.nativeBase + (n - e.fields.nodeBase)
    let mapped (e : DomainEntry) (n : NodeId) := e.fields.nodeBase ≤ n ∧ n < e.fields.nodeBase + e.fields.nodeLimit ∧
      native e n ≤ 0xFFFFFFFF
    (∀ n i r p, k = .node n → s.tdb.findNode n = some (i, r) → r.ver.working = some p →
      let record : AdvertRecord := .node p.content.regen (if p.content.transit = true then 1 else 0)
      (r.ver.domain = 0 → keyAdvert s k = some ⟨0, n, p.seq, r.ver.age, record, 0, 0⟩) ∧
      ∀ j : Fin 16, j ≠ 0 → r.ver.domain = j.val →
        let e := vget s.dtu j
        (sendable e ∧ mapped e n → keyAdvert s k = some ⟨j.val, 0, p.seq, r.ver.age, record, native e n, 0⟩) ∧
        (¬ (sendable e ∧ mapped e n) → keyAdvert s k = none)) ∧
    ∀ l i r p, k = .link l → s.tdb.findLink l = some (i, r) → r.ver.working = some p →
      let c := p.content
      (r.ver.domain = 0 →
        (∀ m, c.farNum = some m → keyAdvert s k = some ⟨0, l.origin, p.seq, r.ver.age,
          .link l.num c.far 1 m c.cost c.imp c.slots.used c.slots.blocked, 0, 0⟩) ∧
        (c.farNum = none → keyAdvert s k = some ⟨0, l.origin, p.seq, r.ver.age,
          .link l.num c.far 0 0 c.cost c.imp c.slots.used c.slots.blocked, 0, 0⟩)) ∧
      ∀ (j : Fin 16) (num : Nat), j ≠ 0 → r.ver.domain = j.val → r.ver.native = some num →
        let e := vget s.dtu j
        let channels := (384 - e.fields.gridOffset) / e.fields.gridRatio
        let slot (n a : Nat) := c.slots.slot (e.fields.gridOffset + n * e.fields.gridRatio + a)
        let barred (n : Nat) := ∀ a, a < e.fields.gridRatio → slot n a = .blocked
        (sendable e ∧ mapped e l.origin ∧ mapped e c.far → ∃ used blocked,
          keyAdvert s k = some ⟨j.val, 0, p.seq, r.ver.age, .link num 0 0 0 (max 1 (c.cost / e.fields.costScale))
            (c.imp / e.fields.impScale) used blocked, native e l.origin, native e c.far⟩ ∧
          ∀ n, n < 384 →
            (blocked.getLsbD n = true ↔ n < channels ∧ barred n) ∧
            (used.getLsbD n = true ↔ n < channels ∧ ¬ barred n ∧ ∃ a, a < e.fields.gridRatio ∧ slot n a = .used)) ∧
        (¬ (sendable e ∧ mapped e l.origin ∧ mapped e c.far) → keyAdvert s k = none)) ∧
  (∀ s : State, 0xFFFFFFF0 < s.fle.seq →
    keyAdvert s (.node s.nodeId) = none ∧ ∀ n, n ≤ 7 → keyAdvert s (.link ⟨s.nodeId, n⟩) = none) ∧
  (∀ (t : Tdb) (cursor : NodeId), ∃ listed rest : List NodeId,
    (listed ++ rest).Pairwise (· < ·) ∧
    (∀ o, o ∈ listed ++ rest ↔
      cursor ≤ o ∧ ((∃ e ∈ t.nodes, e.2.id = o) ∨ ∃ e ∈ t.links, e.2.key.origin = o)) ∧
    listed.length ≤ 80 ∧ (nextTally t cursor).1.first = cursor ∧
    (nextTally t cursor).1.entries = listed.filterMap t.summary ∧
    (rest = [] → (nextTally t cursor).1.last = 65534 ∧ (nextTally t cursor).2 = none) ∧
    (rest ≠ [] → listed.length = 80 ∧ listed.getLast? = some (nextTally t cursor).1.last ∧
      (nextTally t cursor).2 = some ((nextTally t cursor).1.last + 1))) ∧
  ∀ (t : Tdb) (o : NodeId),
    let seqs := ((t.nodes.filter fun e => e.2.id == o).filterMap fun e => e.2.ver.working.map (·.seq)) ++
      (t.links.filter fun e => e.2.key.origin == o).filterMap fun e => e.2.ver.working.map (·.seq)
    (seqs = [] → t.summary o = none) ∧
    (seqs ≠ [] → ∃ h, t.summary o = some ⟨o, h, seqs.length, seqs.sum % 2 ^ 32⟩ ∧ h ∈ seqs ∧ ∀ q ∈ seqs, q ≤ h)

/-! ## Frames as bytes -/

/-- The input checks read back the header and body of a frame as the part sends it.  A NOTICE has a body of 12 bytes, an MGMTA one of
3 to 1000 (their bytes are free values but for the tag's place, log 28). -/
def Obligations.SentFramePassesInputChecks : Prop :=
  (∀ f : Frame, f.body.bytes.length ≤ 1000 → fits 8 f.kind = true → 1 ≤ f.hop → f.hop ≤ 64 → fits 16 f.src = true →
    fits 16 f.dst = true → parseFrame f.wire = some ⟨f.kind, f.hop, f.flags, f.src, f.dst, f.body.bytes⟩) ∧
  (∀ n, (Body.notice n).bytes.length = 12) ∧
  (∀ tag code data, 3 ≤ (Body.mgmta tag code data).bytes.length ∧ (Body.mgmta tag code data).bytes.length ≤ 1000) ∧
  ∀ tag code, (Body.mgmta tag code .none).bytes.length = 3

/-- The bodies of GREET, PULL, TALLY, ROUTEQ and ROUTEA frames as sent are read back as they were, at every value their
fields admit.  (That the named fields of GREET, PULL and TALLY stand in the order of their rules is log 2, DEDUCED.) -/
def Obligations.SentBodiesAreReadBack : Prop :=
  (∀ g : GreetBody, g.wellFormed = true → parseBody kindGreet (Body.greet g).bytes = some (.greet g)) ∧
  (∀ os : List NodeId, pullWellFormed os = true → 1 ≤ os.length → os.length ≤ 32 →
    parseBody kindPull (Body.pull os).bytes = some (.pull os)) ∧
  (∀ t : TallyBody, t.wellFormed = true → t.entries.length ≤ 80 →
    parseBody kindTally (Body.tally t).bytes = some (.tally t)) ∧
  (∀ q : RouteqBody, q.wellFormed = true → parseBody kindRouteq (Body.routeq q).bytes = some (.routeq q)) ∧
  (∀ a : RouteaBody, a.wellFormed = true → a.paths.length ≤ 2 →
    (∀ p ∈ a.paths, 1 ≤ p.hops.length ∧ p.hops.length ≤ 32) →
    parseBody kindRoutea (Body.routea a).bytes = some (.routea a))

/-- The ADVERT bodies as sent, native and foreign, of nodes and links, are read back as they were, every bit of the two maps
included. -/
def Obligations.SentAdvertsAreReadBack : Prop :=
  ∀ a : AdvertBody, a.wellFormed = true → parseBody kindAdvert (Body.advert a).bytes = some (.advert a)

/-! ## Management: access, parameters and locks -/

/-- An MGMTQ that does not reach its owning rule changes nothing outside the traffic: a port that takes none, a sender no answer
could reach, LOADING, and a sender that is no manager. -/
def Obligations.ManagementAccessChecks : Prop :=
  ∀ (m : MgmtFrom) (c : MgmtCmd) (s u : State), u = settle s →
    (takesMgmt u m.port = false → exec (mgmtRow m c) s = .next (finish u)) ∧
    (takesMgmt u m.port = true → badSender u m.port m.src = true →
      ∃ t, exec (mgmtRow m c) s = .next t ∧ t.blocks = u.blocks ∧ Raised .frameError (.port m.port) t ∧
        Traffic [.frameError] [] u t) ∧
    (takesMgmt u m.port = true → badSender u m.port m.src = false →
      (u.cfu.start = .loading →
        ∃ t, exec (mgmtRow m c) s = .next t ∧ t.blocks = u.blocks ∧ Answered m .notReady .none t ∧ Traffic [] [] u t) ∧
      (u.cfu.start ≠ .loading → identity m.port m.src ≠ 0 → identity m.port m.src ∉ u.cfu.params.managers.toList →
        ∃ t, exec (mgmtRow m c) s = .next t ∧ t.blocks = u.blocks ∧ Answered m .refusedAccess .none t ∧
          Traffic [] [] u t))

/-- READ_PARAM, STATUS and TABLE_READ answer and change nothing (TABLE_READ takes a free value of the model's, log 4; a
degree or entry given with a parameter that needs none is ignored and returned, the model's choice, log 31; an answer with count 0 keeps
generation, table and start index and leaves the table's other data out, the model's reading of R212, DEDUCED, log 34). -/
def Obligations.ReadCommandsAnswerAndChangeNothing : Prop :=
  ∀ (m : MgmtFrom) (s u : State), u = settle s →
    Commanded m u →
    (∀ p sel, targetOk ⟨some p, sel⟩ = true →
      ∃ t, exec (.readParam m ⟨some p, sel⟩) s = .next t ∧ t.blocks = u.blocks ∧
        Answered m .ok (.param ⟨some p, sel⟩ (getParam u.cfu.params p sel)) t ∧ Traffic [] [] u t) ∧
    (∀ p sel, targetOk ⟨p, sel⟩ = false →
      ∃ t, exec (.readParam m ⟨p, sel⟩) s = .next t ∧ t.blocks = u.blocks ∧ Answered m .badArgument .none t ∧
        Traffic [] [] u t) ∧
    (∃ t, exec (.status m) s = .next t ∧ t.blocks = u.blocks ∧ Answered m .ok (.status (snapshot u)) t ∧
      Traffic [] [] u t) ∧
    (∀ start count, ∃ t, exec (.tableRead m none start count) s = .next t ∧ t.blocks = u.blocks ∧
      Answered m .badArgument .none t ∧ Traffic [] [] u t) ∧
    (∀ b start count,
      (tableStartOk b start = false →
        ∃ t, exec (.tableRead m (some b) start count) s = .next t ∧ t.blocks = u.blocks ∧
          Answered m .badArgument .none t ∧ Traffic [] [] u t) ∧
      (tableStartOk b start = true →
        ∃ t n, exec (.tableRead m (some b) start count) s = .next t ∧
          t.blocks = State.blocks { u with freeCount := u.freeCount + 1 } ∧ n ≤ count ∧ (count ≠ 0 → 1 ≤ n) ∧
          Answered m .ok (.table ⟨u.cmc.gen, b, start, ((tableEntries u b).drop (start - (tableBounds b).1)).take n,
            if count = 0 then .none else tableExtra u b⟩) t ∧ Traffic [] [] u t))

/-- WRITE_PARAM of every parameter but the node ID: LOCKED in a locked group, else clamped, rounded down to its step and written.
A new regen count or transit allowed re-originates the own node record, a new cost or impairment of an UP degree its own link record,
with the values then in force, and floods it to every UP degree; the auto-commit interval acts on its timer; the others act at their next
use.  (A degree or entry that
the parameter does not need is ignored and returned, the model's choice, log 31.) -/
def Obligations.WriteParamClampsAndWrites : Prop :=
  ∀ (m : MgmtFrom) (p : ParamId) (sel : Option Nat) (v : Nat) (s u : State), u = settle s →
    Commanded m u → p ≠ .nodeId → targetOk ⟨some p, sel⟩ = true →
    ((∃ g, paramGroup p = some g ∧ u.cfu.locks.has g = true) →
      ∃ t, exec (.writeParam m ⟨some p, sel⟩ v) s = .next t ∧ t.blocks = u.blocks ∧ Answered m .locked .none t ∧
        Traffic [] [] u t) ∧
    ((∀ g, paramGroup p = some g → u.cfu.locks.has g = false) →
      let old := getParam u.cfu.params p sel
      ∀ w, ((p ∈ [.retrigger, .transitAllowed] ∧ w = if v ≤ 1 then v else old) ∨
          (p ∉ [.retrigger, .transitAllowed] ∧ w = max (paramRange p).low
            (min v (paramRange p).high / (paramRange p).step * (paramRange p).step))) →
        let originates := w ≠ old ∧ ((p ∈ [.regenCount, .transitAllowed] ∧ u.cfu.start = .running) ∨
          (p ∈ [.degreeCost, .degreeImpairment] ∧ ∃ d : Degree, sel = some d.val ∧ u.isUp d = true))
        ∃ t, exec (.writeParam m ⟨some p, sel⟩ v) s = .next t ∧
          Answered m (if w = v then .ok else .adjusted) (.param ⟨some p, sel⟩ w) t ∧
          t.cfu = { u.cfu with params := setParam u.cfu.params p sel w } ∧
          (p ∉ [.regenCount, .transitAllowed, .degreeCost, .degreeImpairment, .autoCommit] → Traffic [] [] u t ∧
            t.blocks = State.blocks { u with cfu := { u.cfu with params := setParam u.cfu.params p sel w } }) ∧
          (originates → u.fle.seq ≤ 0xFFFFFFF0 → t.fle.seq = u.fle.seq + 1 ∧
            (p ∈ [.regenCount, .transitAllowed] → OwnNodeFits u → OwnNodeHeld u.fle.seq t ∧
              (u.fle.seq < 0xFFFFFFF0 → ∀ e, u.isUp e = true → Floods e (.node u.nodeId) t)) ∧
            ∀ (d : Degree) n, p ∈ [.degreeCost, .degreeImpairment] → sel = some d.val → (u.adjacency d).nbr = some n →
              OwnLinkFits d u → OwnLinkHeld d ⟨u.fle.seq, .active, upContent d n t⟩ t ∧
                (u.fle.seq < 0xFFFFFFF0 → ∀ e, u.isUp e = true → Floods e (.link ⟨u.nodeId, d.val⟩) t)) ∧
          (¬ originates → t.tdb = u.tdb ∧ t.fle = u.fle) ∧
          (p = .autoCommit → w ≠ old → t.cmc = { u.cmc with autoTimer :=
            (if w = 0 then none else if old = 0 ∧ u.cfu.start = .running then some (u.now + w * 1000)
            else u.cmc.autoTimer) }) ∧
          Traffic [.sequence, .tableFull] [] u t ∧ t.adm = u.adm ∧ t.dtu = u.dtu ∧ t.rqu = u.rqu ∧ t.rsv = u.rsv ∧
          t.shu = u.shu ∧ t.fsw.fwd = u.fsw.fwd ∧ t.ntu.watches = u.ntu.watches)

/-- WRITE_PARAM of the node ID: LOCKED under the IDENTITY lock; else NOT_READY for 0 in ISOLATED and in RUNNING while the generation is
exhausted (there for any value, log 11), no change for 0 or the same value in RUNNING, entry to RUNNING from ISOLATED, and in RUNNING
every degree to DOWN with a flush, its answers included; both originate the own node record.  (A degree or entry given with it is not needed, and is ignored and returned: the model's choice, log
31.) -/
def Obligations.NodeIdWriteStartsOrFlushes : Prop :=
  ∀ (m : MgmtFrom) (sel : Option Nat) (v w : Nat) (s u : State), u = settle s → Commanded m u →
    w = min v 65534 →
    let cfu := { u.cfu with start := .running, params := { u.cfu.params with nodeId := w } }
    let written (t : State) := exec (.writeParam m ⟨some .nodeId, sel⟩ v) s = .next t ∧ t.cfu = cfu ∧
      Answered m (if w = v then .ok else .adjusted) (.param ⟨some .nodeId, sel⟩ w) t ∧
      t.dtu = u.dtu ∧ t.tdb.exclusions = u.tdb.exclusions ∧ t.ntu.watches = u.ntu.watches
    (u.cfu.locks.identity = true → ∃ t, exec (.writeParam m ⟨some .nodeId, sel⟩ v) s = .next t ∧ t.blocks = u.blocks ∧
      Answered m .locked .none t ∧ Traffic [] [] u t) ∧
    (u.cfu.locks.identity = false → ((u.cfu.start = .isolated ∧ v = 0) ∨ (u.cfu.start = .running ∧ u.cmc.gen = 0xFFFFFFFF)) →
      ∃ t, exec (.writeParam m ⟨some .nodeId, sel⟩ v) s = .next t ∧ t.blocks = u.blocks ∧ Answered m .notReady .none t ∧
        Traffic [] [] u t) ∧
    (u.cfu.locks.identity = false → u.cfu.start = .running → u.cmc.gen ≠ 0xFFFFFFFF → (v = 0 ∨ (v = u.nodeId ∧ v ≤ 65534)) →
      ∃ t, exec (.writeParam m ⟨some .nodeId, sel⟩ v) s = .next t ∧ t.blocks = u.blocks ∧ Traffic [] [] u t ∧
        Answered m (if u.nodeId = v then .ok else .adjusted) (.param ⟨some .nodeId, sel⟩ u.nodeId) t) ∧
    (u.cfu.locks.identity = false → u.cfu.start = .isolated → v ≠ 0 → w ≠ u.nodeId →
      ∃ t, written t ∧ (∀ d, (t.adjacency d).enable = (u.adjacency d).enable ∧
          ((u.adjacency d).enable = true → (t.adjacency d).state = .down ∧ (t.adjacency d).nbr = none)) ∧
        (u.fle.seq ≤ 0xFFFFFFF0 → OwnNodeFits { u with cfu := cfu } → t.fle.seq = u.fle.seq + 1 ∧ OwnNodeHeld u.fle.seq t) ∧
        t.fle.refreshTimer = some (u.now + u.cfu.params.refreshInterval * 1000) ∧ t.rqu = u.rqu ∧ t.shu = u.shu) ∧
    (u.cfu.locks.identity = false → u.cfu.start = .running → u.cmc.gen ≠ 0xFFFFFFFF → v ≠ 0 → w ≠ u.nodeId →
      ∃ t, written t ∧ (∀ d, (t.adjacency d).enable = (u.adjacency d).enable ∧
          (t.adjacency d).state = (if (u.adjacency d).state = .disabled then .disabled else .down)) ∧
        (∀ e ∈ t.tdb.nodes, e.2.id = w ∧ e.2.ver.committed = none) ∧ t.tdb.links = [] ∧ t.cmc.gen = u.cmc.gen + 1 ∧
        (u.fle.seq ≤ 0xFFFFFFF0 → t.fle.seq = u.fle.seq + 1 ∧ OwnNodeHeld u.fle.seq t) ∧
        FlushAnswered { u with cfu := cfu } u t ∧
        t.cmc.normalReq = true ∧ t.rqu = { u.rqu with queue := [] } ∧ t.shu = ⟨[], [], []⟩ ∧ t.fsw.fwd = [])

/-- LOCK_GROUP sets one lock, and no command but a power-on or pin reset clears one. -/
def Obligations.LocksAreSticky : Prop :=
  (∀ (m : MgmtFrom) (g : LockGroup) (s u : State), u = settle s →
    Commanded m u →
    ∃ t, exec (.lockGroup m (some g)) s = .next t ∧
      t.blocks = State.blocks { u with cfu := { u.cfu with locks := u.cfu.locks.lock g } } ∧ t.cfu.locks.has g = true ∧
      (∀ h, h ≠ g → t.cfu.locks.has h = u.cfu.locks.has h) ∧ Answered m .ok (.locks t.cfu.locks) t ∧ Traffic [] [] u t) ∧
  ∀ (c : Instr) (g : LockGroup) (s t : State), c ≠ .powerOnReset → c ≠ .pinReset → exec c s = .next t →
    s.cfu.locks.has g = true → t.cfu.locks.has g = true

/-! ## Adjacencies -/

/-- A GREET of this part's own node ID is discarded; any other moves a degree from DOWN to DETECT with a new record, and a
GREET with the new seen value is placed. -/
def Obligations.GreetInDownOpensDetect : Prop :=
  ∀ (d : Degree) (g : GreetBody) (s u : State), u = settle s → takesInput u (.deg d) = true → g.formOk = true →
    (g.senderNode = u.nodeId →
      ∃ t, exec (.greet d g) s = .next t ∧ t.blocks = u.blocks ∧ Raised .frameError (.port (.deg d)) t ∧
        Traffic [.frameError] [] u t) ∧
    (g.senderNode ≠ u.nodeId → (u.adjacency d).state = .down →
      ∃ t, exec (.greet d g) s = .next t ∧
        t.blocks = (u.setAdjacency d { u.adjacency d with
          state := .detect
          nbr := some ⟨g.senderNode, g.senderDegree, g.senderDomain, 0, none⟩
          greetTimer := some (u.now + u.cfu.params.greetInterval)
          deadTimer := some (u.now + u.cfu.params.deadCount * u.cfu.params.greetInterval) }).blocks ∧
        GreetPlaced d g.senderNode u t ∧ Traffic [] [.deg d] u t)

/-- A GREET in DETECT or QUALIFY, short of completing QUALIFY, by its sender and its seen field. -/
def Obligations.GreetInDetectAndQualify : Prop :=
  ∀ (d : Degree) (g : GreetBody) (n : Neighbour) (s u : State), u = settle s → takesInput u (.deg d) = true →
    g.formOk = true → g.senderNode ≠ u.nodeId → (u.adjacency d).nbr = some n →
    ((u.adjacency d).state = .detect ∨ (u.adjacency d).state = .qualify) →
    let dead := u.cfu.params.deadCount * u.cfu.params.greetInterval
    let same := n.node = g.senderNode ∧ n.degree = g.senderDegree ∧ n.domain = g.senderDomain
    (same → g.seen = u.nodeId → (u.adjacency d).state = .detect →
      ∃ t, exec (.greet d g) s = .next t ∧ Traffic [] [] u t ∧
        t.blocks = (u.setAdjacency d { u.adjacency d with
          state := .qualify, nbr := some { n with counter := 1, lastGreet := some u.now }
          deadTimer := some (u.now + dead) }).blocks) ∧
    (same → g.seen = u.nodeId → (u.adjacency d).state = .qualify →
      ∀ c, (((∃ l, n.lastGreet = some l ∧ u.now - l ≤ dead) ∧ c = n.counter + 1) ∨
          ((∃ l, n.lastGreet = some l ∧ dead < u.now - l) ∧ c = 1)) → c < u.cfu.params.qualifyCount →
        ∃ t, exec (.greet d g) s = .next t ∧ Traffic [] [] u t ∧
          t.blocks = (u.setAdjacency d { u.adjacency d with
            nbr := some { n with counter := c, lastGreet := some u.now }, deadTimer := some (u.now + dead) }).blocks) ∧
    (same → g.seen ≠ u.nodeId →
      ∃ t, exec (.greet d g) s = .next t ∧ Traffic [] [] u t ∧
        t.blocks = (u.setAdjacency d { u.adjacency d with deadTimer := some (u.now + dead) }).blocks) ∧
    (¬ same →
      ∃ t, exec (.greet d g) s = .next t ∧ GreetPlaced d g.senderNode u t ∧ Traffic [] [.deg d] u t ∧
        t.blocks = (u.setAdjacency d { u.adjacency d with
          state := .detect
          nbr := some ⟨g.senderNode, g.senderDegree, g.senderDomain, 0, none⟩
          greetTimer := some (u.now + u.cfu.params.greetInterval), deadTimer := some (u.now + dead) }).blocks)

/-- The valid GREET that completes QUALIFY: the degree is UP, its own link record is originated, a tally round and timer start,
a normal request and an ADJACENCY event are raised, and no GREET is placed. -/
def Obligations.GreetCompletesQualify : Prop :=
  ∀ (d : Degree) (g : GreetBody) (n : Neighbour) (l : Moment) (s u : State), u = settle s →
    takesInput u (.deg d) = true → g.formOk = true → g.senderNode ≠ u.nodeId → (u.adjacency d).state = .qualify →
    (u.adjacency d).nbr = some n → n.node = g.senderNode → n.degree = g.senderDegree → n.domain = g.senderDomain →
    g.seen = u.nodeId → n.lastGreet = some l → u.now - l ≤ u.cfu.params.deadCount * u.cfu.params.greetInterval →
    u.cfu.params.qualifyCount ≤ n.counter + 1 →
    ∃ t, exec (.greet d g) s = .next t ∧
      t.adm = (u.setAdjacency d { u.adjacency d with
        state := .up, nbr := some { n with counter := n.counter + 1, lastGreet := some u.now }
        deadTimer := some (u.now + u.cfu.params.deadCount * u.cfu.params.greetInterval) }).adm ∧
      RoundStarted d t ∧ (t.flood d).tallyTimer = some (u.now + u.cfu.params.tallyInterval * 1000) ∧
      t.cmc.normalReq = true ∧
      (u.cmc.state = .idle → u.cmc.freeze = false → u.cmc.gen ≠ 0xFFFFFFFF → t.cmc.state = .settling ∧
        t.cmc.settle = 0 ∧ t.cmc.checks = 0 ∧ t.cmc.checkTimer = some (u.now + 100)) ∧
      Raised .adjacency (.degree d) t ∧ Traffic [.adjacency, .sequence, .tableFull] [] u t ∧
      (u.fle.seq ≤ 0xFFFFFFF0 → t.fle.seq = u.fle.seq + 1 ∧
        (OwnLinkFits d u → OwnLinkHeld d ⟨u.fle.seq, .active, ⟨n.node, if n.domain = 0 then some n.degree else none,
            vget u.cfu.params.degreeCost d, vget u.cfu.params.degreeImp d, vget u.fle.slotMaps d⟩⟩ t ∧
          (u.fle.seq < 0xFFFFFFF0 → ∀ e, (t.adjacency e).state = .up → Floods e (.link ⟨u.nodeId, d.val⟩) t))) ∧
      t.rqu = u.rqu ∧ t.rsv = u.rsv ∧ t.shu = u.shu ∧ t.dtu = u.dtu ∧ t.cfu = u.cfu

/-- GREETs in UP and HOLD: a valid one keeps the degree UP, any other moves it to HOLD with the effects of leaving UP; in HOLD
a GREET restarts the hold timer or does nothing. -/
def Obligations.GreetInUpAndHold : Prop :=
  ∀ (d : Degree) (g : GreetBody) (n : Neighbour) (s u : State), u = settle s → takesInput u (.deg d) = true →
    g.formOk = true → g.senderNode ≠ u.nodeId → (u.adjacency d).nbr = some n →
    let valid := n.node = g.senderNode ∧ n.degree = g.senderDegree ∧ n.domain = g.senderDomain ∧ g.seen = u.nodeId
    let hold := u.cfu.params.adjHoldTime * 1000
    ((u.adjacency d).state = .up → valid →
      ∃ t, exec (.greet d g) s = .next t ∧ Traffic [] [] u t ∧
        t.blocks = (u.setAdjacency d { u.adjacency d with
          nbr := some { n with lastGreet := some u.now }
          deadTimer := some (u.now + u.cfu.params.deadCount * u.cfu.params.greetInterval) }).blocks) ∧
    ((u.adjacency d).state = .up → ¬ valid →
      ∃ t, exec (.greet d g) s = .next t ∧ GreetPlaced d 0 u t ∧ LeftUp d u t ∧
        t.adm = (u.setAdjacency d { u.adjacency d with
          state := .hold, deadTimer := none, holdTimer := some (u.now + hold), holdLimit := some (u.now + 6 * hold)
          greetTimer := some (u.now + u.cfu.params.greetInterval) }).adm) ∧
    ((u.adjacency d).state = .hold → u.cfu.params.retrigger = 1 →
      ∃ t, exec (.greet d g) s = .next t ∧ Traffic [] [] u t ∧
        t.blocks = (u.setAdjacency d { u.adjacency d with holdTimer := some (u.now + hold) }).blocks) ∧
    ((u.adjacency d).state = .hold → u.cfu.params.retrigger = 0 →
      ∃ t, exec (.greet d g) s = .next t ∧ Traffic [] [] u t ∧ t.blocks = u.blocks)

/-- The greet timer's expiry places a GREET with the seen value of the state and restarts the timer; the hold timer and the hold
limit end HOLD in DOWN and place none.  A timer that does not run does nothing (the model's choice, log 10). -/
def Obligations.GreetAndHoldTimerExpiries : Prop :=
  ∀ (d : Degree) (s u : State), u = settle s →
    (∀ m, (u.adjacency d).greetTimer = some m →
      ∃ t, exec (.greetTimerExpiry d) s = .next t ∧ Traffic [] [.deg d] u t ∧
        t.blocks = ({ u with now := max u.now m }.setAdjacency d { u.adjacency d with
          greetTimer := some (max u.now m + u.cfu.params.greetInterval) }).blocks ∧
        ((u.adjacency d).state ∈ [.down, .hold] → GreetPlaced d 0 u t) ∧
        ((u.adjacency d).state ∈ [.detect, .qualify, .up] → ∀ n, (u.adjacency d).nbr = some n → GreetPlaced d n.node u t)) ∧
    ((u.adjacency d).greetTimer = none → exec (.greetTimerExpiry d) s = .next (finish u)) ∧
    (∀ m, (u.adjacency d).state = .hold →
      let down := ({ u with now := max u.now m }.setAdjacency d { u.adjacency d with
        state := .down, nbr := none, holdTimer := none, holdLimit := none }).blocks
      ((u.adjacency d).holdTimer = some m →
        ∃ t, exec (.holdTimerExpiry d) s = .next t ∧ Traffic [] [] u t ∧ t.blocks = down) ∧
      ((u.adjacency d).holdLimit = some m →
        ∃ t, exec (.holdLimitExpiry d) s = .next t ∧ Traffic [] [] u t ∧ t.blocks = down))

/-- The dead timer's expiry: DETECT and QUALIFY go to DOWN with a GREET of seen 0, UP to HOLD with the effects of leaving UP. -/
def Obligations.DeadTimerExpiry : Prop :=
  ∀ (d : Degree) (m : Moment) (s u : State), u = settle s → (u.adjacency d).deadTimer = some m →
    let n := max u.now m
    let hold := u.cfu.params.adjHoldTime * 1000
    (((u.adjacency d).state = .detect ∨ (u.adjacency d).state = .qualify) →
      ∃ t, exec (.deadTimerExpiry d) s = .next t ∧ GreetPlaced d 0 u t ∧ Traffic [] [.deg d] u t ∧
        t.blocks = ({ u with now := n }.setAdjacency d ⟨.down, (u.adjacency d).enable, none,
          some (n + u.cfu.params.greetInterval), none, none, none⟩).blocks) ∧
    ((u.adjacency d).state = .up →
      ∃ t, exec (.deadTimerExpiry d) s = .next t ∧ t.now = n ∧ GreetPlaced d 0 u t ∧ LeftUp d u t ∧
        t.adm = (u.setAdjacency d { u.adjacency d with
          state := .hold, deadTimer := none, holdTimer := some (n + hold), holdLimit := some (n + 6 * hold)
          greetTimer := some (n + u.cfu.params.greetInterval) }).adm)

/-- DEGREE_ENABLE: the enable is set, and a DISABLED degree of a RUNNING part goes to DOWN and greets with seen 0. -/
def Obligations.DegreeEnableEntersDown : Prop :=
  ∀ (m : MgmtFrom) (d : Degree) (s u : State), u = settle s → Commanded m u →
    (u.cfu.start = .running → (u.adjacency d).state = .disabled →
      ∃ t, exec (.degreeEnable m d.val) s = .next t ∧ GreetPlaced d 0 u t ∧ Answered m .ok .none t ∧
        Traffic [] [.deg d] u t ∧
        t.blocks = (u.setAdjacency d ⟨.down, true, none, some (u.now + u.cfu.params.greetInterval), none, none,
          none⟩).blocks) ∧
    ((u.cfu.start ≠ .running ∨ (u.adjacency d).state ≠ .disabled) →
      ∃ t, exec (.degreeEnable m d.val) s = .next t ∧ Answered m .ok .none t ∧ Traffic [] [] u t ∧
        t.blocks = (u.setAdjacency d { u.adjacency d with enable := true }).blocks)

/-- DEGREE_DISABLE: the enable is cleared; a degree that was not DISABLED in RUNNING goes to DISABLED, its output side is
left empty, an urgent request is raised, and one that was UP leaves UP (in the order of log 22, DEDUCED). -/
def Obligations.DegreeDisableEntersDisabled : Prop :=
  ∀ (m : MgmtFrom) (d : Degree) (s u : State), u = settle s → Commanded m u →
    (u.cfu.start = .running → (u.adjacency d).state ≠ .disabled →
      ∃ t, exec (.degreeDisable m d.val) s = .next t ∧ Answered m .ok .none t ∧ UrgentTaken u t ∧
        t.adm = (u.setAdjacency d ⟨.disabled, false, none, none, none, none, none⟩).adm ∧
        t.port (.deg d) = ⟨[], [], none, none, (u.port (.deg d)).ready, (u.port (.deg d)).lastServed⟩ ∧
        ((u.adjacency d).state = .up → LeftUp d u t) ∧
        ((u.adjacency d).state ≠ .up → Traffic [] [.deg d] u t ∧ t.tdb = u.tdb ∧ t.fle = u.fle)) ∧
    ((u.cfu.start ≠ .running ∨ (u.adjacency d).state = .disabled) →
      ∃ t, exec (.degreeDisable m d.val) s = .next t ∧ Answered m .ok .none t ∧ Traffic [] [] u t ∧
        t.blocks = (u.setAdjacency d { u.adjacency d with enable := false }).blocks)


/-! ## Flooding and the topology database -/

/-- A native ADVERT of another origin, of a link or of a node, by its sequence against the one held: equal, older, newer, or not held.
A record of another domain is left as it was; an insertion that finds no room marks the origin INCOMPLETE and raises TABLE_FULL.
At a write or an insertion the pull-list entries whose wanted values the summary now has leave their lists and the waiting PULLs; at a
refusal all those of the origin do (R101).  That one which also meets another domain is refused with no notice is the model's choice (log 38, DESIGN CHOICE). -/
def Obligations.AdvertTakenBySequence : Prop :=
  ∀ (d : Degree) (o : NodeId) (seq age num far farNum cost imp regen transit : Nat) (flags : BitVec 8)
    (used blocked : BitVec 384) (s u : State), u = settle s → takesInput u (.deg d) = true → u.isUp d = true →
    o ≠ u.nodeId →
    let a : AdvertBody := ⟨0, o, seq, age, .link num far flags farNum cost imp used blocked, 0, 0⟩
    let b : AdvertBody := ⟨0, o, seq, age, .node regen transit, 0, 0⟩
    let k : LinkKey := ⟨o, num⟩
    let st : PartState := if age = 0 then .withdrawn else .active
    let p : Machine.Part LinkContent :=
      ⟨seq, st, ⟨far, if flags.getLsbD 0 then some farNum else none, cost, imp, ⟨used &&& ~~~blocked, blocked⟩⟩⟩
    let w : Machine.Part NodeContent := ⟨seq, st, ⟨regen, transit == 1, .degree d⟩⟩
    let linger := if age = 0 then some 60 else none
    let nothing (x : AdvertBody) := ∃ t, exec (.advert d x) s = .next t ∧ t.blocks = u.blocks ∧ Traffic [] [] u t
    let corrected (x : AdvertBody) (j : RecordKey) := ∃ t, exec (.advert d x) s = .next t ∧ Traffic [] [] u t ∧
      t.blocks = (u.setFlood d { u.flood d with sendList :=
        (if j ∈ (u.flood d).sendList then (u.flood d).sendList else (u.flood d).sendList ++ [j]) }).blocks
    let floods (j : RecordKey) (t : State) := ∀ e, u.isUp e = true → e ≠ d → Floods e j t
    let lists (j : RecordKey) (t : State) := ∀ e, (t.flood e).sendList =
      if u.isUp e = true ∧ e ≠ d ∧ j ∉ (u.flood e).sendList then (u.flood e).sendList ++ [j]
      else (u.flood e).sendList
    let calm (t : State) := t.cmc = { u.cmc with changed := true } ∧ t.rqu = u.rqu ∧ t.rsv = u.rsv ∧ t.fle.seq = u.fle.seq ∧
      t.tdb.exclusions = u.tdb.exclusions
    let refused (x : AdvertBody) (m : Member) := ∃ t, exec (.advert d x) s = .next t ∧ Raised .tableFull m t ∧
      Traffic [.tableFull] [] u t ∧ t.tdb.links = u.tdb.links ∧ t.cmc = u.cmc ∧ t.rqu = u.rqu ∧ t.rsv = u.rsv ∧
      t.fle.seq = u.fle.seq ∧
      (∀ e, (t.flood e).sendList = (u.flood e).sendList ∧
        (t.flood e).pulls = (u.flood e).pulls.filter (·.origin ≠ o) ∧ (t.flood e).waiting =
          if ∃ y ∈ (u.flood e).pulls, y.origin = o then (u.flood e).waiting.filter (· ≠ o) else (u.flood e).waiting) ∧
      (∀ i r, u.tdb.findNode o = some (i, r) → t.tdb.findNode o = some (i, { r with incomplete := true }) ∧
        t.tdb.incomplete = u.tdb.incomplete) ∧
      (u.tdb.findNode o = none → t.tdb.nodes = u.tdb.nodes ∧ t.tdb.incomplete =
        if o ∈ u.tdb.incomplete then u.tdb.incomplete
        else (if u.tdb.incomplete.length < 32 then u.tdb.incomplete else u.tdb.incomplete.drop 1) ++ [o])
    let others := (u.tdb.links.filter fun e => !(e.2.key.origin == u.nodeId && decide (e.2.key.num ≤ 7))).length
    let otherNodes := (u.tdb.nodes.filter fun e => e.2.id != u.nodeId).length
    (a.formOk = true →
      (∀ i r q, u.tdb.findLink k = some (i, r) → r.ver.working = some q →
        (seq = q.seq → nothing a) ∧ (Quiet u → seq < q.seq → corrected a (.link k)) ∧
        (q.seq < seq → r.ver.domain ≠ 0 → nothing a) ∧
        (q.seq < seq → r.ver.domain = 0 → ∃ t, exec (.advert d a) s = .next t ∧ Traffic [] [] u t ∧ floods (.link k) t ∧
          PullsChecked o u t ∧ t.tdb.findLink k = some (i, ⟨k, ⟨0, none, r.ver.committed, some p, age, linger⟩⟩) ∧
          t.tdb.nodes = u.tdb.nodes ∧ t.tdb.exclusions = u.tdb.exclusions ∧ t.fle.seq = u.fle.seq ∧ t.cmc.changed = true ∧
          (age = 0 → r.ver.committedActive = true → UrgentTaken u t) ∧
          ((age ≠ 0 ∨ r.ver.committedActive = false) → calm t ∧ (Quiet u → lists (.link k) t)))) ∧
      (u.tdb.findLink k = none →
        ((∃ e, u.tdb.findNode o = some e ∧ e.2.ver.domain ≠ 0) → nothing a) ∧
        ((∀ e, u.tdb.findNode o = some e → e.2.ver.domain = 0) →
          (others < 2040 → u.tdb.links.length < 2048 →
            ∃ t i, exec (.advert d a) s = .next t ∧ Traffic [] [] u t ∧ floods (.link k) t ∧ (Quiet u → lists (.link k) t) ∧
              PullsChecked o u t ∧ t.tdb.findLink k = some (i, ⟨k, ⟨0, none, none, some p, age, linger⟩⟩) ∧ calm t) ∧
          (2040 ≤ others → refused a .linkTable)))) ∧
    (b.formOk = true →
      (∀ i r q, u.tdb.findNode o = some (i, r) → r.ver.working = some q →
        (seq = q.seq → nothing b) ∧ (Quiet u → seq < q.seq → corrected b (.node o)) ∧
        (q.seq < seq → r.ver.domain ≠ 0 → nothing b) ∧
        (q.seq < seq → r.ver.domain = 0 → ∃ t, exec (.advert d b) s = .next t ∧ Traffic [] [] u t ∧ floods (.node o) t ∧
          (Quiet u → lists (.node o) t) ∧ PullsChecked o u t ∧ calm t ∧ t.tdb.links = u.tdb.links ∧
          t.tdb.findNode o = some (i, ⟨o, ⟨0, none, r.ver.committed, some w, age, linger⟩, r.incomplete⟩))) ∧
      (u.tdb.findNode o = none →
        ((∃ e ∈ u.tdb.links, e.2.key.origin = o ∧ e.2.ver.domain ≠ 0) → nothing b) ∧
        ((∀ e ∈ u.tdb.links, e.2.key.origin = o → e.2.ver.domain = 0) →
          (otherNodes < 255 → u.tdb.nodes.length < 256 →
            ∃ t i, exec (.advert d b) s = .next t ∧ Traffic [] [] u t ∧ floods (.node o) t ∧ (Quiet u → lists (.node o) t) ∧
              PullsChecked o u t ∧ calm t ∧ t.tdb.incomplete = u.tdb.incomplete.filter (· ≠ o) ∧
              t.tdb.findNode o = some (i, ⟨o, ⟨0, none, none, some w, age, linger⟩, decide (o ∈ u.tdb.incomplete)⟩)) ∧
          (255 ≤ otherNodes → refused b .nodeTable))))

/-- An own-origin ADVERT, of the own node record or of any link number, is never stored as received: at or above the own sequence
counter it raises the counter past itself, and the key is originated anew and flooded to every UP degree; below it, the held sequence decides.  An own link key above
7 names no degree, and nothing is originated for it.  A jump that leaves the counter exhausted raises JUMPED and then EXHAUSTED. -/
def Obligations.OwnOriginAdvertRaisesSequence : Prop :=
  ∀ (d : Degree) (a : AdvertBody) (k : RecordKey) (s u : State), u = settle s → takesInput u (.deg d) = true →
    u.isUp d = true → a.formOk = true → a.domain = 0 → a.origin = u.nodeId →
    ((∃ regen transit, a.record = .node regen transit ∧ k = .node u.nodeId) ∨
      (∃ num far flags farNum cost imp used blocked, a.record = .link num far flags farNum cost imp used blocked ∧
        k = .link ⟨u.nodeId, num⟩)) →
    let after (t : State) := exec (.advert d a) s = .next t ∧ Traffic [.sequence, .tableFull] [] u t ∧ t.adm = u.adm ∧
      t.dtu = u.dtu ∧ t.rqu = u.rqu ∧ t.rsv = u.rsv ∧ t.shu = u.shu ∧ t.cfu = u.cfu ∧ t.fsw.fwd = u.fsw.fwd
    let named := k = .node u.nodeId ∨ ∃ e : Degree, k = .link ⟨u.nodeId, e.val⟩
    let reaches (q : Nat) (t : State) := q < 0xFFFFFFF0 → ∀ f, u.isUp f = true → Floods f k t
    let again (q : Nat) (t : State) := t.fle.seq = q + 1 ∧
      (k = .node u.nodeId → OwnNodeFits u → OwnNodeHeld q t ∧ reaches q t) ∧
      ∀ e : Degree, k = .link ⟨u.nodeId, e.val⟩ → OwnLinkFits e u → reaches q t ∧
        (∀ n, u.isUp e = true → (u.adjacency e).nbr = some n → OwnLinkHeld e ⟨q, .active, upContent e n t⟩ t) ∧
        (u.isUp e = false → OwnLinkWithdrawn e q u t)
    let nothing := ∃ t, exec (.advert d a) s = .next t ∧ t.blocks = u.blocks ∧ Traffic [] [] u t
    (u.fle.seq ≤ a.seq →
      (named → a.seq < 0xFFFFFFF0 → ∃ t, after t ∧ Raised .sequence .jumped t ∧ again (a.seq + 1) t) ∧
      (named → a.seq = 0xFFFFFFF0 → ∃ t, after t ∧ t.fle.seq = 0xFFFFFFF1 ∧ Raised .sequence .jumped t ∧
        Raised .sequence .exhausted t ∧ (t.ntu.source .sequence).overrun = true) ∧
      (¬ named → ∃ t, after t ∧ t.fle.seq = a.seq + 1 ∧ Raised .sequence .jumped t ∧ t.tdb = u.tdb ∧
        (a.seq = 0xFFFFFFF0 → Raised .sequence .exhausted t ∧ (t.ntu.source .sequence).overrun = true))) ∧
    (a.seq < u.fle.seq →
      (∀ h, u.tdb.heldSeq k = some h →
        (a.seq = h → nothing) ∧
        (Quiet u → a.seq < h → ∃ t, exec (.advert d a) s = .next t ∧ Traffic [] [] u t ∧
          t.blocks = (u.setFlood d { u.flood d with sendList :=
            (if k ∈ (u.flood d).sendList then (u.flood d).sendList else (u.flood d).sendList ++ [k]) }).blocks)) ∧
      ((u.tdb.heldSeq k = none ∨ ∃ h, u.tdb.heldSeq k = some h ∧ h < a.seq) →
        (named → u.fle.seq ≤ 0xFFFFFFF0 → ∃ t, after t ∧ again u.fle.seq t) ∧ (¬ named → nothing)))

/-- An ADVERT of a foreign domain: discarded at once when the domain is quarantined; counted against its entry when it does not
translate: FAULTED, reported afresh, or QUARANTINED with its links withdrawn and an urgent request; else its node IDs, link number,
cost, impairment and slot map are translated and the record is stored, with a DOMAIN_WARN when an offset reaches the threshold of a
CLEAN entry. -/
def Obligations.ForeignAdvertIsTranslatedOrCounted : Prop :=
  ∀ (d : Degree) (a : AdvertBody) (k : Fin 16) (s u : State), u = settle s → takesInput u (.deg d) = true →
    u.isUp d = true → a.formOk = true → a.domain = k.val → k ≠ 0 →
    let e := vget u.dtu k
    (e.state = .quarantined → ∃ t, exec (.advert d a) s = .next t ∧ t.blocks = u.blocks ∧ Traffic [] [] u t) ∧
    (∀ f, e.state ≠ .quarantined →
      ((e.fields.valid = false ∧ f = .unmapped) ∨
        (e.fields.valid = true ∧ translate u.tdb u.nodeId d e.fields a = .fault f)) →
      ((e.state = .clean ∨ e.state = .warned ∨ e.outstanding = false) →
        ∃ t, exec (.advert d a) s = .next t ∧ Raised .domainFault (.domain k.val) t ∧ Traffic [.domainFault] [] u t ∧
          t.blocks = State.blocks { u with dtu := vset u.dtu k ⟨e.fields, .faulted, true, f⟩ }) ∧
      (e.state = .faulted → e.outstanding = true →
        ∃ t, exec (.advert d a) s = .next t ∧ Raised .domainFault (.domain k.val) t ∧ Traffic [.domainFault] [] u t ∧
          t.dtu = vset u.dtu k ⟨e.fields, .quarantined, true, f⟩ ∧ UrgentTaken u t ∧
          t.tdb.nodes = u.tdb.nodes ∧ t.tdb.links = u.tdb.links.map (fun x =>
            if x.2.ver.domain = k.val ∧ x.2.ver.workingActive = true then (x.1, { x.2 with ver := x.2.ver.withdraw }) else x) ∧
          (∀ x ∈ t.tdb.links, x.2.ver.domain = k.val → x.2.ver.workingActive = false) ∧
          ∀ b, (t.flood b).sendList = (u.flood b).sendList)) ∧
    (e.state ≠ .quarantined → e.fields.valid = true →
      let st : PartState := if a.age = 0 then .withdrawn else .active
      let linger := if a.age = 0 then some 60 else none
      let id (n : Nat) := e.fields.nodeBase + (n - e.fields.nativeBase)
      let mapped (n : Nat) := e.fields.nativeBase ≤ n ∧ n - e.fields.nativeBase < e.fields.nodeLimit ∧ 1 ≤ id n ∧ id n ≤ 65534
      let origin (n : Nat) := mapped n ∧ id n ≠ u.nodeId ∧
        (∀ x ∈ u.tdb.nodes, x.2.id = id n → x.2.ver.domain = k.val) ∧
        (∀ x ∈ u.tdb.links, x.2.key.origin = id n → x.2.ver.domain = k.val)
      let high (n : Nat) := e.fields.nodeLimit - e.fields.nodeLimit / 8 ≤ n - e.fields.nativeBase
      let kept (t : State) (warn : Prop) := exec (.advert d a) s = .next t ∧ Traffic [.domainWarn] [] u t ∧
        (e.state = .clean → warn → Raised .domainWarn (.domain k.val) t ∧
          t.dtu = vset u.dtu k { e with state := .warned }) ∧
        (¬ (e.state = .clean ∧ warn) → t.dtu = u.dtu ∧ Traffic [] [] u t)
      (∀ regen transit, a.record = .node regen transit → origin a.nativeOrigin →
        (∀ i r q, u.tdb.findNode (id a.nativeOrigin) = some (i, r) → r.ver.working = some q → q.seq < a.seq →
          ∃ t, kept t (high a.nativeOrigin) ∧ t.tdb.findNode (id a.nativeOrigin) = some (i, { r with ver := ⟨k.val,
            some a.nativeOrigin, r.ver.committed, some ⟨a.seq, st, ⟨regen, transit == 1, .degree d⟩⟩, a.age, linger⟩ })) ∧
        (u.tdb.findNode (id a.nativeOrigin) = none → u.tdb.nodes.length < 255 →
          ∃ t i m, kept t (high a.nativeOrigin) ∧ t.tdb.findNode (id a.nativeOrigin) = some (i, ⟨id a.nativeOrigin, ⟨k.val,
            some a.nativeOrigin, none, some ⟨a.seq, st, ⟨regen, transit == 1, .degree d⟩⟩, a.age, linger⟩, m⟩))) ∧
      ∀ num far flags farNum cost imp used blocked, a.record = .link num far flags farNum cost imp used blocked →
        origin a.nativeOrigin → mapped a.nativeFar → num ≤ 255 →
        let channels := (384 - e.fields.gridOffset) / e.fields.gridRatio
        (∀ c, channels ≤ c → c < 384 → used.getLsbD c = false ∧ blocked.getLsbD c = false) →
        let key : LinkKey := ⟨id a.nativeOrigin, num⟩
        let warn := high a.nativeOrigin ∨ high a.nativeFar
        let content (m : SlotMap) : LinkContent := ⟨id a.nativeFar, none, min (cost * e.fields.costScale) 65535,
          min (imp * e.fields.impScale) 4095, m⟩
        let slots (m : SlotMap) := ∀ n, n < 384 →
          let c := (n - e.fields.gridOffset) / e.fields.gridRatio
          m.slot n = if n < e.fields.gridOffset ∨ channels ≤ c then .blocked else if blocked.getLsbD c = true then .blocked
            else if used.getLsbD c = true then .used else .free
        (∀ i r q, u.tdb.findLink key = some (i, r) → r.ver.working = some q → q.seq < a.seq →
          ∃ t m, kept t warn ∧ slots m ∧ t.tdb.findLink key = some (i, ⟨key, ⟨k.val, some num, r.ver.committed,
            some ⟨a.seq, st, content m⟩, a.age, linger⟩⟩)) ∧
        (u.tdb.findLink key = none → u.tdb.links.length < 2040 →
          ∃ t m i, kept t warn ∧ slots m ∧ t.tdb.findLink key = some (i, ⟨key, ⟨k.val, some num, none,
            some ⟨a.seq, st, content m⟩, a.age, linger⟩⟩)))

/-- A TALLY draws, for every origin of its range, the pull and the push its comparison calls for, and no other: no pull of an origin
that is INCOMPLETE, equal or behind, none beyond 32 entries, and no push where only a pull is called for.  A PULL is answered by the keys
of the origins it lists. -/
def Obligations.TallyAndPullFillTheLists : Prop :=
  (∀ (d : Degree) (b : TallyBody) (s u : State), u = settle s → takesInput u (.deg d) = true → u.isUp d = true →
    Quiet u → b.formOk = true →
    let differ (e w : TallyEntry) := w.highest == e.highest && (w.count != e.count || w.sum != e.sum)
    let pulls (e : TallyEntry) : Bool := !u.tdb.isIncomplete e.origin &&
      (u.tdb.summary e.origin).all fun w => decide (w.highest < e.highest) || differ e w
    let pushes (o : NodeId) := b.first ≤ o ∧ o ≤ b.last ∧ ∃ w, u.tdb.summary o = some w ∧
      ∀ e ∈ b.entries, e.origin = o → e.highest < w.highest ∨ differ e w = true
    let entry (e : TallyEntry) : PullEntry := ⟨e.origin, e.highest, e.count, e.sum, u.now + u.cfu.params.pullWait⟩
    let listed (e : TallyEntry) := (u.flood d).pulls.any fun x => x.origin == e.origin
    let created := (b.entries.filter fun e => pulls e && !listed e).take (32 - (u.flood d).pulls.length)
    let refreshed := b.entries.filter fun e => pulls e && listed e
    ∃ t, exec (.tally d b) s = .next t ∧ Traffic [] [] u t ∧ t.blocks = (u.setFlood d (t.flood d)).blocks ∧
      (t.flood d).pulls = ((u.flood d).pulls.map fun x => match refreshed.find? fun e => e.origin == x.origin with
        | some e => entry e
        | none => x) ++ created.map entry ∧
      (∀ o, o ∈ (t.flood d).waiting ↔ o ∈ (u.flood d).waiting ∨ ∃ e ∈ refreshed ++ created, e.origin = o) ∧
      (t.flood d).round = (u.flood d).round ∧ (t.flood d).tallyTimer = (u.flood d).tallyTimer ∧
      (u.flood d).sendList <+: (t.flood d).sendList ∧
      ∀ k, k ∈ (t.flood d).sendList ↔ (k ∈ (u.flood d).sendList ∨ ∃ o, pushes o ∧ k ∈ u.tdb.keysOf o)) ∧
  ∀ (d : Degree) (os : List NodeId) (s u : State), u = settle s → takesInput u (.deg d) = true → u.isUp d = true →
    Quiet u → pullFormOk os = true →
    ∃ t, exec (.pull d os) s = .next t ∧ Traffic [] [] u t ∧ (u.flood d).sendList <+: (t.flood d).sendList ∧
      t.blocks = (u.setFlood d { u.flood d with sendList := (t.flood d).sendList }).blocks ∧
      ∀ k, k ∈ (t.flood d).sendList ↔ (k ∈ (u.flood d).sendList ∨ ∃ o ∈ os, k ∈ u.tdb.keysOf o)

/-- A SLOTMAP from NP: an equal map changes nothing, a changed one is stored and, on an UP degree, advertised in the
own link record, which floods to every UP degree; one from a degree is
discarded with FRAME_ERROR. -/
def Obligations.SlotmapIsStoredAndAdvertised : Prop :=
  ∀ (d : Degree) (m : SlotmapBody) (s u : State), u = settle s → u.cfu.start = .running → m.degree = d.val →
    let new : SlotMap := ⟨m.used &&& ~~~m.blocked, m.blocked⟩
    (∀ e, takesInput u (.deg e) = true → ∃ t, exec (.slotmap (.deg e) m) s = .next t ∧ t.blocks = u.blocks ∧
      Raised .frameError (.port (.deg e)) t ∧ Traffic [.frameError] [] u t) ∧
    (new = vget u.fle.slotMaps d →
      ∃ t, exec (.slotmap .np m) s = .next t ∧ t.blocks = u.blocks ∧ Traffic [] [] u t) ∧
    (new ≠ vget u.fle.slotMaps d → u.isUp d = false →
      ∃ t, exec (.slotmap .np m) s = .next t ∧ Traffic [] [] u t ∧
        t.blocks = State.blocks { u with fle := { u.fle with slotMaps := vset u.fle.slotMaps d new } }) ∧
    (new ≠ vget u.fle.slotMaps d → u.isUp d = true →
      ∃ t, exec (.slotmap .np m) s = .next t ∧ t.fle.slotMaps = vset u.fle.slotMaps d new ∧ t.adm = u.adm ∧
        t.rqu = u.rqu ∧ t.rsv = u.rsv ∧ t.shu = u.shu ∧ t.dtu = u.dtu ∧ t.cfu = u.cfu ∧
        Traffic [.sequence, .tableFull] [] u t ∧
        ∀ n, (u.adjacency d).nbr = some n → u.fle.seq ≤ 0xFFFFFFF0 → OwnLinkFits d u → t.fle.seq = u.fle.seq + 1 ∧
          OwnLinkHeld d ⟨u.fle.seq, .active, ⟨n.node, if n.domain = 0 then some n.degree else none,
            vget u.cfu.params.degreeCost d, vget u.cfu.params.degreeImp d, new⟩⟩ t ∧
          (u.fle.seq < 0xFFFFFFF0 → ∀ e, u.isUp e = true → Floods e (.link ⟨u.nodeId, d.val⟩) t))

/-- A FAULTREP adds a REPORTED exclusion by the five rows of an addition, and raises EXCLUSION when it appends or finds the list
full; one out of range is discarded with FRAME_ERROR.  (The `stamp` of an addition is the model's own, log 7.) -/
def Obligations.FaultrepAddsReportedExclusion : Prop :=
  ∀ (p : Port) (r : SlotRun) (s u : State), u = settle s → takesInput u p = true →
    let n : SlotRun := if r.count = 0 then { r with first := 0 } else r
    let inRange := 1 ≤ n.key.origin ∧ n.key.origin ≤ 65534 ∧ n.key.num ≤ 255 ∧ n.first ≤ 383 ∧
      (n.count = 0 ∨ (n.count ≤ 384 ∧ n.first + n.count - 1 ≤ 383))
    let life := if u.cfu.params.reportedLifetime = 0 then none else some u.cfu.params.reportedLifetime
    (¬ inRange → ∃ t, exec (.faultrep p r) s = .next t ∧ t.blocks = u.blocks ∧ Raised .frameError (.port p) t ∧
      Traffic [.frameError] [] u t) ∧
    (inRange → (∀ e ∈ u.tdb.exclusions, e.run ≠ n) → u.tdb.exclusions.length < 128 →
      ∃ t, exec (.faultrep p r) s = .next t ∧ Raised .exclusion .added t ∧ Traffic [.exclusion] [] u t ∧
        t.blocks = State.blocks { u with
          stamp := u.stamp + 1
          tdb := { u.tdb with exclusions := u.tdb.exclusions ++ [⟨n, .reported, life, u.now, u.stamp + 1⟩] } }) ∧
    (inRange → (∀ e ∈ u.tdb.exclusions, e.run ≠ n) → 128 ≤ u.tdb.exclusions.length →
      ∃ t, exec (.faultrep p r) s = .next t ∧ Raised .exclusion .full t ∧ Traffic [.exclusion] [] u t ∧
        t.blocks = u.blocks) ∧
    (inRange → ∀ e, u.tdb.exclusions.find? (fun e => e.run == n) = some e →
      (e.origin = .loaded → ∃ t, exec (.faultrep p r) s = .next t ∧ t.blocks = u.blocks ∧ Traffic [] [] u t) ∧
      (e.origin = .reported → ∃ t, exec (.faultrep p r) s = .next t ∧ Traffic [] [] u t ∧
        t.blocks = State.blocks { u with tdb := { u.tdb with exclusions := u.tdb.exclusions.map fun x =>
          if x.run = n then { x with lifetime := life } else x } }))

/-- EXCLUDE_ADD and EXCLUDE_REMOVE with their answers, and the expiry of a REPORTED exclusion's lifetime.  (That the answer FULL
carries no result data is the model's reading of R77 against R206, DEDUCED, log 14; the `stamp` of an addition is
the model's own, log 7.) -/
def Obligations.ExclusionsAreAddedAndRemoved : Prop :=
  ∀ (m : MgmtFrom) (r : SlotRun) (s u : State), u = settle s →
    let n : SlotRun := if r.count = 0 then { r with first := 0 } else r
    let l := u.tdb.exclusions
    let put (x : List Exclusion) : State := { u with tdb := { u.tdb with exclusions := x } }
    (Commanded m u → n.rangeOk = false →
      (∃ t, exec (.excludeAdd m r) s = .next t ∧ t.blocks = u.blocks ∧ Answered m .badArgument .none t ∧ Traffic [] [] u t) ∧
      ∃ t, exec (.excludeRemove m r) s = .next t ∧ t.blocks = u.blocks ∧ Answered m .badArgument .none t ∧
        Traffic [] [] u t) ∧
    (Commanded m u → n.rangeOk = true → (∀ e ∈ l, e.run ≠ n) →
      (l.length < 128 → ∃ t, exec (.excludeAdd m r) s = .next t ∧ Traffic [] [] u t ∧
        Answered m .ok (.exclusionAt l.length (l.length + 1)) t ∧
        t.blocks = State.blocks { put (l ++ [⟨n, .loaded, none, u.now, u.stamp + 1⟩]) with stamp := u.stamp + 1 }) ∧
      (128 ≤ l.length → ∃ t, exec (.excludeAdd m r) s = .next t ∧ Traffic [] [] u t ∧ Answered m .full .none t ∧
        t.blocks = u.blocks) ∧
      ∃ t, exec (.excludeRemove m r) s = .next t ∧ t.blocks = u.blocks ∧ Answered m .ok .notFound t ∧ Traffic [] [] u t) ∧
    (Commanded m u → n.rangeOk = true → ∀ i e, l.findIdx? (fun e => e.run == n) = some i → l[i]? = some e →
      (∃ t, exec (.excludeAdd m r) s = .next t ∧ Traffic [] [] u t ∧ Answered m .ok (.exclusionAt i l.length) t ∧
        (e.origin = .loaded → t.blocks = u.blocks) ∧
        (e.origin = .reported → t.blocks = (put (l.map fun x =>
          if x.run = n then { x with origin := .loaded, lifetime := none } else x)).blocks)) ∧
      ∃ t, exec (.excludeRemove m r) s = .next t ∧ Traffic [] [] u t ∧ Answered m .ok .removed t ∧
        t.blocks = (put (l.filter fun x => x.run ≠ n)).blocks) ∧
    ((∃ e ∈ l, e.run = r ∧ e.origin = .reported ∧ e.lifetime = some 0) →
      ∃ t, exec (.exclusionLifetimeExpiry r) s = .next t ∧ Traffic [] [] u t ∧
        t.blocks = (put (l.filter fun x => x.run ≠ r)).blocks)

/-- The age clock takes every age but those of own records, every linger and every lifetime down by one, to 0 at the least. -/
def Obligations.AgeClockCountsDown : Prop :=
  ∀ s u : State, u = settle s →
    ∃ t, exec .ageClockExpiry s = .next t ∧ Traffic [] [] u t ∧
      t.blocks = State.blocks { u with
        now := max u.now u.tdb.ageClock
        tdb := {
          nodes := u.tdb.nodes.map fun e => (e.1, { e.2 with ver := { e.2.ver with
            age := if e.2.id = u.nodeId then e.2.ver.age else e.2.ver.age - 1
            linger := e.2.ver.linger.map (· - 1) } })
          links := u.tdb.links.map fun e => (e.1, { e.2 with ver := { e.2.ver with
            age := if e.2.key.origin = u.nodeId ∧ e.2.key.num ≤ 7 then e.2.ver.age else e.2.ver.age - 1
            linger := e.2.ver.linger.map (· - 1) } })
          incomplete := u.tdb.incomplete
          exclusions := u.tdb.exclusions.map fun e => { e with lifetime := e.lifetime.map (· - 1) }
          ageClock := max u.now u.tdb.ageClock + 1000 } }

/-- A record whose age has run out is withdrawn without flooding or a request; one whose linger has run out is removed unless
the committed view still shows it or a withdrawal is pending over a committed part; both check the pull lists against the origin's new
summary (R101).  An expiry that is not due changes nothing (the
model's choice, log 10). -/
def Obligations.AgeAndLingerExpiries : Prop :=
  (∀ (k : LinkKey) (i : Nat) (r : LinkRec) (s u : State), u = settle s → u.tdb.findLink k = some (i, r) →
    (∀ p, r.ver.age = 0 → r.ver.working = some p → p.state = .active →
      ∃ t, exec (.ageExpiry (.link k)) s = .next t ∧ Traffic [] [] u t ∧
        t.tdb.findLink k = some (i, { r with ver := { r.ver with
          pending := some { p with state := .withdrawn }, age := 0, linger := some 60 } }) ∧
        (∀ d, (t.flood d).sendList = (u.flood d).sendList) ∧ t.cmc = { u.cmc with changed := true } ∧
        PullsChecked k.origin u t ∧ t.tdb.nodes = u.tdb.nodes ∧ t.rqu = u.rqu ∧ t.rsv = u.rsv) ∧
    ((r.ver.age ≠ 0 ∨ ∀ p, r.ver.working = some p → p.state = .withdrawn) →
      ∃ t, exec (.ageExpiry (.link k)) s = .next t ∧ t.blocks = u.blocks ∧ Traffic [] [] u t) ∧
    (∀ p, r.ver.linger = some 0 → p.state = .withdrawn →
      ((r.ver.committed = none ∧ r.ver.pending = some p) ∨ (r.ver.committed = some p ∧ r.ver.pending = none)) →
      ∃ t, exec (.lingerExpiry (.link k)) s = .next t ∧ Traffic [] [] u t ∧ t.tdb.findLink k = none ∧
        t.tdb.links = u.tdb.links.filter (fun e => e.2.key ≠ k) ∧ t.tdb.incomplete = [] ∧ PullsChecked k.origin u t ∧
        (∀ e ∈ t.tdb.nodes, e.2.incomplete = false) ∧
        (∀ d, (t.flood d).sendList = (u.flood d).sendList.filter (· ≠ .link k)) ∧
        t.cmc = { u.cmc with changed := true } ∧ t.shu = u.shu ∧ t.fsw.fwd = u.fsw.fwd ∧
        t.tdb.exclusions = u.tdb.exclusions) ∧
    ((r.ver.linger ≠ some 0 ∨ (r.ver.committed.isSome = true ∧ r.ver.pending.isSome = true)) →
      ∃ t, exec (.lingerExpiry (.link k)) s = .next t ∧ t.blocks = u.blocks ∧ Traffic [] [] u t)) ∧
  ∀ (n : NodeId) (i : Nat) (r : NodeRec) (s u : State), u = settle s → u.tdb.findNode n = some (i, r) →
    (∀ p, r.ver.age = 0 → r.ver.working = some p → p.state = .active →
      ∃ t, exec (.ageExpiry (.node n)) s = .next t ∧ Traffic [] [] u t ∧
        t.tdb.findNode n = some (i, { r with ver := { r.ver with
          pending := some { p with state := .withdrawn }, age := 0, linger := some 60 } }) ∧
        (∀ d, (t.flood d).sendList = (u.flood d).sendList) ∧ t.cmc = { u.cmc with changed := true } ∧
        PullsChecked n u t ∧ t.tdb.links = u.tdb.links ∧ t.rqu = u.rqu ∧ t.rsv = u.rsv) ∧
    ((r.ver.age ≠ 0 ∨ ∀ p, r.ver.working = some p → p.state = .withdrawn) →
      ∃ t, exec (.ageExpiry (.node n)) s = .next t ∧ t.blocks = u.blocks ∧ Traffic [] [] u t) ∧
    (∀ p, r.ver.linger = some 0 → p.state = .withdrawn →
      ((r.ver.committed = none ∧ r.ver.pending = some p) ∨ (r.ver.committed = some p ∧ r.ver.pending = none)) →
      ∃ t, exec (.lingerExpiry (.node n)) s = .next t ∧ Traffic [] [] u t ∧ t.tdb.findNode n = none ∧
        t.tdb.nodes = (u.tdb.nodes.filter (fun e => e.2.id ≠ n)).map (fun e => (e.1, { e.2 with incomplete := false })) ∧
        t.tdb.links = u.tdb.links ∧ t.tdb.incomplete = [] ∧ PullsChecked n u t ∧
        (∀ d, (t.flood d).sendList = (u.flood d).sendList.filter (· ≠ .node n)) ∧
        t.cmc = { u.cmc with changed := true } ∧ t.shu = u.shu ∧ t.fsw.fwd = u.fsw.fwd ∧
        t.tdb.exclusions = u.tdb.exclusions) ∧
    ((r.ver.linger ≠ some 0 ∨ (r.ver.committed.isSome = true ∧ r.ver.pending.isSome = true)) →
      ∃ t, exec (.lingerExpiry (.node n)) s = .next t ∧ t.blocks = u.blocks ∧ Traffic [] [] u t)

/-- The refresh timer originates the own node record and the own link record of every UP degree, in degree order, each with the next
sequence and flooded to every UP degree (with the counter exhausted S stays and SEQUENCE tells so), and restarts; a tally timer restarts
and starts a round unless one is in progress; a pull-list
entry past its deadline leaves with its place in the waiting PULL. -/
def Obligations.FloodTimerExpiries : Prop :=
  ∀ (d : Degree) (m : Moment) (s u : State), u = settle s →
    let n := max u.now m
    let ups := allDegrees.filter u.isUp
    (u.fle.refreshTimer = some m → ∃ t, exec .refreshTimerExpiry s = .next t ∧ t.now = n ∧
      t.fle.refreshTimer = some (n + u.cfu.params.refreshInterval * 1000) ∧ t.adm = u.adm ∧ t.cfu = u.cfu ∧
      Traffic [.sequence, .tableFull] [] u t ∧
      (0xFFFFFFF0 < u.fle.seq → t.fle.seq = u.fle.seq ∧ Raised .sequence .exhausted t)) ∧
    (u.fle.refreshTimer = some m → u.fle.seq + 9 ≤ 0xFFFFFFF0 →
      ∃ t, exec .refreshTimerExpiry s = .next t ∧ t.now = n ∧
        t.fle.refreshTimer = some (n + u.cfu.params.refreshInterval * 1000) ∧ t.fle.seq = u.fle.seq + 1 + ups.length ∧
        (OwnNodeFits u → OwnNodeHeld u.fle.seq t ∧ ∀ f, u.isUp f = true → Floods f (.node u.nodeId) t) ∧
        (TablesOk u → ∀ (e : Degree) (b : Neighbour), u.isUp e = true → (u.adjacency e).nbr = some b → OwnLinkFits e u →
          (u.tdb.findLink ⟨u.nodeId, e.val⟩ = none → u.tdb.links.length ≤ 2040) →
          OwnLinkHeld e ⟨u.fle.seq + 1 + (ups.filter (· < e)).length, .active, upContent e b t⟩ t ∧
          ∀ f, u.isUp f = true → Floods f (.link ⟨u.nodeId, e.val⟩) t) ∧
        t.adm = u.adm ∧ t.rqu = u.rqu ∧ t.rsv = u.rsv ∧
        t.shu = u.shu ∧ t.dtu = u.dtu ∧ t.cfu = u.cfu ∧ Traffic [.tableFull] [] u t) ∧
    (Quiet u → (u.flood d).tallyTimer = some m →
      ∃ t, exec (.tallyTimerExpiry d) s = .next t ∧ Traffic [] [] u t ∧
        t.blocks = ({ u with now := n }.setFlood d { u.flood d with
          round := some ((u.flood d).round.getD 1)
          tallyTimer := some (n + u.cfu.params.tallyInterval * 1000) }).blocks) ∧
    (∀ o e, (u.flood d).pulls.find? (fun e => e.origin == o) = some e → e.deadline = m →
      ∃ t, exec (.pullDeadlineExpiry d o) s = .next t ∧ Traffic [] [] u t ∧
        t.blocks = ({ u with now := n }.setFlood d { u.flood d with
          pulls := (u.flood d).pulls.filter fun e => e.origin ≠ o
          waiting := (u.flood d).waiting.filter (· ≠ o) }).blocks)


/-! ## The commit controller -/

/-- One quiet check: the counters move by what changed and what is open, and the settle count and the settle limit of 20 times it
decide between a normal drain, a forced one and another round.  The auto-commit timer restarts at each expiry and raises a normal
request when a record has a pending part. -/
def Obligations.QuietCheckAndAutoCommitExpiries : Prop :=
  (∀ (m : Moment) (k : Nat) (s u : State), u = settle s → u.cmc.state = .settling → u.cmc.checkTimer = some m →
    let open' := ∃ d, (u.isUp d = true ∧ (u.flood d).pulls ≠ []) ∨ (u.adjacency d).state = .qualify
    ((u.cmc.changed = true ∧ k = 0) ∨ (u.cmc.changed = false ∧ open' ∧ k = u.cmc.settle) ∨
      (u.cmc.changed = false ∧ ¬ open' ∧ k = u.cmc.settle + 1)) →
    let count := u.cfu.params.settleCount
    let c := { u.cmc with settle := k, checks := u.cmc.checks + 1, changed := false }
    let after (x : Cmc) : State := { u with now := max u.now m, cmc := x }
    ∃ t, exec .quietCheck s = .next t ∧ Traffic [] [] u t ∧
      (count ≤ k →
        t.blocks = (after { c with state := .draining, mode := .normal, forced := false, checkTimer := none }).blocks) ∧
      (k < count → 20 * count ≤ u.cmc.checks + 1 →
        t.blocks = (after { c with state := .draining, mode := .normal, forced := true, checkTimer := none }).blocks) ∧
      (k < count → u.cmc.checks + 1 < 20 * count →
        t.blocks = (after { c with checkTimer := some (max u.now m + 100) }).blocks)) ∧
  ∀ (m : Moment) (s u : State), u = settle s → u.cmc.autoTimer = some m →
    let n := max u.now m
    let c := { u.cmc with autoTimer := some (n + u.cfu.params.autoCommit * 1000) }
    let some' := (∃ e ∈ u.tdb.nodes, e.2.ver.pending.isSome = true) ∨ ∃ e ∈ u.tdb.links, e.2.ver.pending.isSome = true
    (¬ some' → ∃ t, exec .autoCommitTimerExpiry s = .next t ∧ Traffic [] [] u t ∧
      t.blocks = State.blocks { u with now := n, cmc := c }) ∧
    (some' → u.cmc.state = .idle → u.cmc.freeze = false → u.cmc.gen ≠ 0xFFFFFFFF →
      ∃ t, exec .autoCommitTimerExpiry s = .next t ∧ Traffic [] [] u t ∧
        t.blocks = State.blocks { u with now := n, cmc := { c with
          normalReq := true, state := .settling, settle := 0, checks := 0, changed := false
          checkTimer := some (n + 100) } }) ∧
    (some' → (u.cmc.state ≠ .idle ∨ u.cmc.freeze = true ∨ u.cmc.gen = 0xFFFFFFFF) →
      ∃ t, exec .autoCommitTimerExpiry s = .next t ∧ Traffic [] [] u t ∧
        t.blocks = State.blocks { u with now := n, cmc := { c with normalReq := true } })

/-- COMMIT, FREEZE and THAW: the request, the freeze flag and what they start, with the commit state and G in the answer; an urgent drain
that THAW starts aborts the lanes and returns their requests.  With the
generation exhausted THAW clears the freeze flag and starts nothing.  (In DRAINING the answer names the drain mode with the commit state,
the model's choice, log 39.) -/
def Obligations.CommitFreezeThaw : Prop :=
  ∀ (m : MgmtFrom) (s u : State), u = settle s → Commanded m u →
    let settling (c : Cmc) : Cmc := { c with
      state := .settling, settle := 0, checks := 0, changed := false, checkTimer := some (u.now + 100) }
    (u.cfu.start ≠ .running → ∃ t, exec (.commit m) s = .next t ∧ t.blocks = u.blocks ∧ Answered m .notReady .none t ∧
      Traffic [] [] u t) ∧
    (u.cfu.start = .running → ∃ t, exec (.commit m) s = .next t ∧ Traffic [] [] u t ∧
      Answered m .ok (.commit t.cmc.report u.cmc.gen) t ∧
      t.blocks = State.blocks { u with cmc :=
        if u.cmc.state = .idle ∧ u.cmc.freeze = false ∧ u.cmc.gen ≠ 0xFFFFFFFF then settling { u.cmc with normalReq := true }
        else { u.cmc with normalReq := true } }) ∧
    (∃ t, exec (.freeze m) s = .next t ∧ Traffic [] [] u t ∧ Answered m .ok (.commit t.cmc.report u.cmc.gen) t ∧
      t.blocks = State.blocks { u with cmc :=
        if u.cmc.freeze = false ∧ u.cmc.state = .settling then
          { u.cmc with freeze := true, checkTimer := none, settle := 0, checks := 0, state := .idle }
        else { u.cmc with freeze := true } }) ∧
    (u.cmc.freeze = false → ∃ t, exec (.thaw m) s = .next t ∧ Traffic [] [] u t ∧ t.blocks = u.blocks ∧
      Answered m .ok (.commit u.cmc.report u.cmc.gen) t) ∧
    (u.cmc.freeze = true → u.cmc.gen = 0xFFFFFFFF → ∃ t, exec (.thaw m) s = .next t ∧ Traffic [] [] u t ∧
      Answered m .ok (.commit u.cmc.report u.cmc.gen) t ∧
      t.blocks = State.blocks { u with cmc := { u.cmc with freeze := false } }) ∧
    (u.cmc.freeze = true → u.cmc.gen ≠ 0xFFFFFFFF →
      (u.cmc.state = .idle → u.cmc.urgentReq = true → ∃ t, exec (.thaw m) s = .next t ∧ Traffic [] [] u t ∧
        AbortTaken u t ∧ t.rsv.l0.work = .idle ∧ t.rsv.l1.work = .idle ∧
        t.blocks = State.blocks { u with rqu := t.rqu, rsv := t.rsv, cmc := { u.cmc with
          freeze := false, state := .draining, mode := .urgent, forced := false, checkTimer := none } } ∧ Answered m .ok (.commit .drainingUrgent u.cmc.gen) t) ∧
      (u.cmc.state = .idle → u.cmc.urgentReq = false → ∃ t, exec (.thaw m) s = .next t ∧ Traffic [] [] u t ∧
        Answered m .ok (.commit t.cmc.report u.cmc.gen) t ∧
        t.blocks = State.blocks { u with cmc := if u.cmc.normalReq = true then settling { u.cmc with freeze := false }
          else { u.cmc with freeze := false } }) ∧
      (u.cmc.state = .draining → u.cmc.mode = .normal → u.cmc.urgentReq = true →
        ∃ t, exec (.thaw m) s = .next t ∧ Traffic [] [] u t ∧ AbortTaken u t ∧
          t.rsv.l0.work = .idle ∧ t.rsv.l1.work = .idle ∧
          t.blocks = State.blocks { u with
            rqu := t.rqu, rsv := t.rsv, cmc := { u.cmc with freeze := false, mode := .urgent } } ∧ Answered m .ok (.commit .drainingUrgent u.cmc.gen) t) ∧
      (u.cmc.state = .draining → (u.cmc.mode = .urgent ∨ u.cmc.urgentReq = false) →
        ∃ t, exec (.thaw m) s = .next t ∧ Traffic [] [] u t ∧ Answered m .ok (.commit u.cmc.report u.cmc.gen) t ∧
          t.blocks = State.blocks { u with cmc := { u.cmc with freeze := false } }))

/-- The promotion, taken in DRAINING with both lanes IDLE: every pending part, of a node or a link record, is committed, records committed
WITHDRAWN with linger 0 are removed (a removal clears every INCOMPLETE mark) and no others, G increases by one, the request flags are cleared, the state is IDLE, the changed-link set is what R114 says, the
results with a run on a changed link are re-checked against the new view, the watches that fire raise WATCH, and L0 builds the tree of
the new G.  The claims taken first (log 5), a promotion not due that changes nothing (log 10) and the order of several removals (log
26) are the model's choices. -/
def Obligations.PromotionCommitsPendingParts : Prop :=
  ∀ s u : State, u = claimAll s →
    (¬ (u.cmc.state = .draining ∧ u.rsv.l0.work = .idle ∧ u.rsv.l1.work = .idle) → exec .promotion s = .next u) ∧
    (u.cmc.state = .draining → u.rsv.l0.work = .idle → u.rsv.l1.work = .idle →
      let runs (i : Nat) := (u.shu.holds.filter fun h => h.2.result == i).map (·.2.run)
      let goneNode (x : Nat × NodeRec) := x.2.ver.pending.any (·.state == .withdrawn) = true ∧ x.2.ver.linger = some 0
      let goneLink (x : Nat × LinkRec) := x.2.ver.pending.any (·.state == .withdrawn) = true ∧ x.2.ver.linger = some 0
      let removes := (∃ x ∈ u.tdb.nodes, goneNode x) ∨ ∃ x ∈ u.tdb.links, goneLink x
      ∃ t, exec .promotion s = .next t ∧
        t.cmc.gen = u.cmc.gen + 1 ∧ t.cmc.normalReq = false ∧ t.cmc.urgentReq = false ∧ t.cmc.state = .idle ∧
        t.cmc.freeze = u.cmc.freeze ∧
        (∀ e ∈ t.tdb.nodes, ∃ e' ∈ u.tdb.nodes, e'.1 = e.1 ∧ e'.2.id = e.2.id ∧
          e.2.ver = { e'.2.ver with committed := e'.2.ver.pending.or e'.2.ver.committed, pending := none } ∧
          (removes → e.2.incomplete = false) ∧ (¬ removes → e.2.incomplete = e'.2.incomplete)) ∧
        (∀ e ∈ t.tdb.links, ∃ e' ∈ u.tdb.links, e'.1 = e.1 ∧ e'.2.key = e.2.key ∧
          e.2.ver = { e'.2.ver with committed := e'.2.ver.pending.or e'.2.ver.committed, pending := none }) ∧
        (∀ e' ∈ u.tdb.nodes, goneNode e' → ∀ e ∈ t.tdb.nodes, e.2.id ≠ e'.2.id) ∧
        (∀ e' ∈ u.tdb.links, goneLink e' → ∀ e ∈ t.tdb.links, e.2.key ≠ e'.2.key) ∧
        (∀ e' ∈ u.tdb.nodes, (∀ x ∈ u.tdb.nodes, x.2.id = e'.2.id → ¬ goneNode x) →
          ∃ e ∈ t.tdb.nodes, e.1 = e'.1 ∧ e.2.id = e'.2.id) ∧
        (∀ e' ∈ u.tdb.links, (∀ x ∈ u.tdb.links, x.2.key = e'.2.key → ¬ goneLink x) →
          ∃ e ∈ t.tdb.links, e.1 = e'.1 ∧ e.2.key = e'.2.key) ∧
        (removes → t.tdb.incomplete = []) ∧ (¬ removes → t.tdb.incomplete = u.tdb.incomplete) ∧
        (let first (k : LinkKey) := ∃ e ∈ u.tdb.links, e.2.key = k ∧ e.2.ver.pending.isSome = true
        let moved (n : NodeId) := u.tdb.nodeActive n ≠ t.tdb.nodeActive n
        let shown (k : LinkKey) (c : LinkContent) := ∃ p, p.content = c ∧
          (u.tdb.committedLink k = some p ∨ t.tdb.committedLink k = some p)
        let twin (k j : LinkKey) := ∃ c, shown k c ∧ c.far = j.origin ∧ c.farNum = some j.num
        ∀ k, k ∈ t.cmc.changedLinks ↔ (∃ e ∈ u.tdb.links, e.2.key = k) ∧
          (first k ∨ (moved k.origin ∨ ∃ c, shown k c ∧ moved c.far) ∨ (∃ j, twin k j ∧ first j) ∨
            ∃ j, first j ∧ twin j k)) ∧
        (TablesOk u → ∀ e ∈ u.shu.results,
          let slot (x : SlotState) := ∃ h ∈ runs e.1, ∃ n, n < h.width ∧ ∃ p, t.tdb.committedLink h.key = some p ∧
            p.content.slots.slot (h.start + n) = x
          let unusable := ∃ h ∈ runs e.1, t.tdb.usable h.key = false
          let met := ∃ h ∈ runs e.1, h.key ∈ t.cmc.changedLinks
          let stale := unusable ∨ (e.2.state = .held ∧ (slot .used ∨ slot .blocked)) ∨
            (e.2.state = .claimed ∧ slot .blocked)
          let settled := ¬ stale ∧ e.2.state = .claimed ∧ ¬ slot .free
          (met → stale → RouteAnswered e.2.requester e.2.tag .stale (u.cmc.gen + 1) [] t) ∧
          (met → (stale ∨ settled) → e ∉ t.shu.results ∧ ∀ h ∈ t.shu.holds, h.2.result ≠ e.1) ∧
          (¬ (met ∧ (stale ∨ settled)) → e ∈ t.shu.results ∧
            ∀ h ∈ u.shu.holds, h.2.result = e.1 → h ∈ t.shu.holds)) ∧
        (∀ e ∈ t.shu.results, e ∈ u.shu.results) ∧ (∀ e ∈ t.shu.holds, e ∈ u.shu.holds) ∧
        t.shu.expired = u.shu.expired ∧
        (∀ (i : Fin 8) w, vget u.ntu.watches i = some w →
          let fires := (w.mode = .any ∧ ∃ k ∈ w.keys, k ∈ t.cmc.changedLinks) ∨
            (w.mode = .all ∧ (∃ k ∈ w.keys, u.tdb.linkActive k = true) ∧ ∀ k ∈ w.keys, t.tdb.linkActive k = false)
          (fires → Raised .watch (.watch i.val) t) ∧
          (¬ fires → Member.watch i.val ∈ (t.ntu.source .watch).detail →
            Member.watch i.val ∈ (u.ntu.source .watch).detail)) ∧ t.ntu.watches = u.ntu.watches ∧
        ((∀ i, vget u.ntu.watches i = none) → Traffic [.commit] [] u t) ∧
        t.rsv.l0.work = .tree (u.cmc.gen + 1) ∧ t.rsv.treeJob = none ∧ t.rsv.l1 = u.rsv.l1 ∧
        (t.ntu.source .commit).pending = true ∧ (t.ntu.source .commit).gen = some (u.cmc.gen + 1) ∧
        (u.cmc.forced = true → Raised .commit .forced t) ∧ (u.cmc.mode = .urgent → Raised .commit .urgent t) ∧
        Traffic [.commit, .watch] [] u t ∧ t.adm = u.adm ∧ t.dtu = u.dtu ∧ t.cfu = u.cfu ∧ t.rqu = u.rqu ∧
        t.tdb.exclusions = u.tdb.exclusions ∧ t.fsw.fwd = u.fsw.fwd ∧ t.fle.seq = u.fle.seq)

/-- FLUSH: refused while the generation is exhausted and outside RUNNING; otherwise every request is answered ABORTED and gone, the
tables hold nothing but what is originated (the own node record and the own link record of every UP degree, flooded to every UP degree),
results are answered STALE, they and the holds are free, the committed view is empty, G increases by one and a normal request is
raised. -/
def Obligations.FlushEmptiesAndPromotes : Prop :=
  ∀ (m : MgmtFrom) (s u : State), u = settle s → Commanded m u →
    ((u.cfu.start ≠ .running ∨ u.cmc.gen = 0xFFFFFFFF) → ∃ t, exec (.flush m) s = .next t ∧ t.blocks = u.blocks ∧
      Answered m .notReady .none t ∧ Traffic [] [] u t) ∧
    (u.cfu.start = .running → u.cmc.gen ≠ 0xFFFFFFFF →
      ∃ t, exec (.flush m) s = .next t ∧ Answered m .ok (.commit t.cmc.report (u.cmc.gen + 1)) t ∧
        t.cmc.gen = u.cmc.gen + 1 ∧ t.cmc.normalReq = true ∧ t.cmc.urgentReq = false ∧ t.cmc.freeze = u.cmc.freeze ∧
        (u.cmc.freeze = false → u.cmc.gen + 1 ≠ 0xFFFFFFFF → t.cmc.state = .settling) ∧
        (u.cmc.freeze = true → t.cmc.state = .idle) ∧
        (∀ e ∈ t.tdb.nodes, e.2.ver.committed = none ∧ e.2.id = u.nodeId) ∧
        (∀ e ∈ t.tdb.links, e.2.ver.committed = none ∧ e.2.key.origin = u.nodeId ∧
          ∃ d, u.isUp d = true ∧ e.2.key.num = d.val) ∧
        t.tdb.incomplete = [] ∧ t.tdb.exclusions = u.tdb.exclusions ∧
        (∀ k, k ∈ t.cmc.changedLinks ↔ ∃ e ∈ u.tdb.links, e.2.key = k ∧ e.2.ver.committed.isSome = true) ∧
        t.fsw.fwd = [] ∧ t.fsw.fwdGen = 0 ∧ t.shu = ⟨[], [], []⟩ ∧ t.rqu = { u.rqu with queue := [] } ∧
        t.rsv.l0.work = .tree (u.cmc.gen + 1) ∧ t.rsv.l1.work = .idle ∧ t.rsv.treeJob = none ∧ FlushAnswered u u t ∧
        (u.fle.seq ≤ 0xFFFFFFF0 → OwnNodeHeld u.fle.seq t) ∧
        (let ups := allDegrees.filter u.isUp
        (u.fle.seq + 9 ≤ 0xFFFFFFF0 → t.fle.seq = u.fle.seq + 1 + ups.length ∧
          (∀ f, u.isUp f = true → Floods f (.node u.nodeId) t) ∧
          ∀ (e : Degree) (b : Neighbour), u.isUp e = true → (u.adjacency e).nbr = some b →
            OwnLinkHeld e ⟨u.fle.seq + 1 + (ups.filter (· < e)).length, .active, upContent e b t⟩ t ∧
            ∀ f, u.isUp f = true → Floods f (.link ⟨u.nodeId, e.val⟩) t) ∧
        (0xFFFFFFF0 < u.fle.seq → t.fle.seq = u.fle.seq ∧ Raised .sequence .exhausted t ∧ OwnNodeHeld 0xFFFFFFF0 t ∧
          ∀ (e : Degree) (b : Neighbour), u.isUp e = true → (u.adjacency e).nbr = some b →
            OwnLinkHeld e ⟨0xFFFFFFF0, .active, upContent e b t⟩ t)) ∧
        (∀ d, (t.flood d).pulls = [] ∧ (t.flood d).waiting = [] ∧ (u.isUp d = true → RoundStarted d t) ∧
          (u.isUp d = false → (t.flood d).round = none)) ∧
        t.fle.slotMaps = u.fle.slotMaps ∧
        t.fle.refreshTimer = some (u.now + u.cfu.params.refreshInterval * 1000) ∧
        (t.ntu.source .commit).gen = some (u.cmc.gen + 1) ∧ Raised .commit .forced t ∧
        t.adm = u.adm ∧ t.dtu = u.dtu ∧ t.cfu = u.cfu ∧ t.ntu.watches = u.ntu.watches ∧
        Traffic [.commit, .watch, .sequence] [] u t)

/-- SOFT_RESET: every block takes its soft-reset values, what a soft reset keeps is kept, and the node ID decides between RUNNING and
ISOLATED; RUNNING originates the own node record.  (That entry 0 of the domain table reads without a fault is the model's choice, log
40.) -/
def Obligations.SoftResetValuesAndEntry : Prop :=
  ∀ (m : MgmtFrom) (s u : State), u = settle s → Commanded m u →
    ∃ t, exec (.softReset m) s = .next t ∧ t.cfu = { u.cfu with start := if u.nodeId = 0 then .isolated else .running } ∧
      Answered m .ok (.started (if u.nodeId = 0 then .isolated else .running) 0) t ∧
      (∀ d, (t.adjacency d).enable = (u.adjacency d).enable ∧ (t.adjacency d).nbr = none ∧
        (t.adjacency d).state = if u.nodeId ≠ 0 ∧ (u.adjacency d).enable = true then .down else .disabled) ∧
      (∀ k, vget t.dtu k = ⟨(vget u.dtu k).fields, .clean, false, .none⟩) ∧
      t.tdb.links = [] ∧ t.tdb.incomplete = [] ∧ t.tdb.exclusions = u.tdb.exclusions.filter (fun e => e.origin = .loaded) ∧
      (u.nodeId = 0 → t.tdb.nodes = [] ∧ t.fle.seq = u.fle.seq ∧ t.fle.refreshTimer = none ∧ t.cmc.autoTimer = none) ∧
      (u.nodeId ≠ 0 → (∀ e ∈ t.tdb.nodes, e.2.id = u.nodeId) ∧
        (u.fle.seq ≤ 0xFFFFFFF0 → t.fle.seq = u.fle.seq + 1 ∧ OwnNodeHeld u.fle.seq t) ∧
        t.fle.refreshTimer = some (u.now + u.cfu.params.refreshInterval * 1000) ∧
        t.cmc.autoTimer =
          if u.cfu.params.autoCommit = 0 then none else some (u.now + u.cfu.params.autoCommit * 1000)) ∧
      (∀ d, t.flood d = ⟨[], [], [], none, none⟩ ∧ vget t.fle.slotMaps d = ⟨0, 0⟩) ∧
      t.cmc.gen = 0 ∧ t.cmc.state = .idle ∧ t.cmc.freeze = false ∧ t.cmc.normalReq = false ∧ t.cmc.urgentReq = false ∧
      t.cmc.changedLinks = [] ∧ t.cmc.checkTimer = none ∧ t.rqu.queue = [] ∧ t.rqu.cursor = 15 ∧
      (∀ i, vget t.rqu.referrals i = none) ∧ t.rqu.delegation = u.rqu.delegation ∧
      t.rsv = ⟨⟨.idle, none, none⟩, ⟨.idle, none, none⟩, none⟩ ∧ t.shu = ⟨[], [], []⟩ ∧ t.fsw.fwd = [] ∧
      (∀ d, (t.port (.deg d)).queue = [] ∧ (t.port (.deg d)).backlog = [] ∧ (t.port (.deg d)).lastServed = .np) ∧
      (t.port .np).lastServed = .np ∧ t.ntu.watches = u.ntu.watches ∧
      ∀ i, (t.ntu.source i).enable = (u.ntu.source i).enable ∧ (i ≠ .congestion → i ≠ .sequence →
        (t.ntu.source i).pending = false ∧ (t.ntu.source i).detail = [])

/-! ## Domains, delegation, watches and notices -/

/-- DOMAIN_WRITE, DOMAIN_RELEASE and DELEGATE_WRITE: the DOMAIN lock, the argument checks, the entry or peer they leave and their
answers.  (That peer 0 is refused while the node ID is 0, as a peer equal to it, is the model's reading of R134, DEDUCED, log 13.) -/
def Obligations.DomainTableAndDelegationWrites : Prop :=
  ∀ (m : MgmtFrom) (n : Nat) (f : DomainFields) (peer : NodeId) (s u : State), u = settle s → Commanded m u →
    let refused (c : Instr) (code : ResultCode) := ∃ t, exec c s = .next t ∧ t.blocks = u.blocks ∧
      Answered m code .none t ∧ Traffic [] [] u t
    let inRange := f.nativeBase ≤ 0xFFFFFFFF ∧ f.nodeBase ≤ 65535 ∧ 1 ≤ f.nodeLimit ∧ f.nodeLimit ≤ 256 ∧
      f.gridRatio ∈ [1, 2, 4, 6] ∧ f.gridOffset ≤ 383 ∧ 1 ≤ f.costScale ∧ f.costScale ≤ 16 ∧ 1 ≤ f.impScale ∧
      f.impScale ≤ 16
    (u.cfu.locks.domain = true → refused (.domainWrite m n f) .locked ∧ refused (.delegateWrite m n peer) .locked) ∧
    (u.cfu.locks.domain = false → (n = 0 ∨ 15 < n) →
      refused (.domainWrite m n f) .badArgument ∧ refused (.delegateWrite m n peer) .badArgument) ∧
    (u.cfu.locks.domain = false → ¬ inRange → refused (.domainWrite m n f) .badArgument) ∧
    (u.cfu.locks.domain = false → (peer = 65535 ∨ peer = u.nodeId) → refused (.delegateWrite m n peer) .badArgument) ∧
    ((n = 0 ∨ 15 < n) → refused (.domainRelease m n) .badArgument) ∧
    ∀ k : Fin 16, k ≠ 0 → n = k.val →
      (u.cfu.locks.domain = false → inRange →
        ∃ t, exec (.domainWrite m n f) s = .next t ∧ Answered m .ok .none t ∧ Traffic [] [] u t ∧
          t.blocks = State.blocks { u with
            dtu := vset u.dtu k ⟨f, .clean, false, .none⟩
            rqu := if f.valid = true then u.rqu else { u.rqu with delegation := vset u.rqu.delegation k 0 } }) ∧
      (∃ t, exec (.domainRelease m n) s = .next t ∧ Answered m .ok .none t ∧ Traffic [] [] u t ∧
        t.blocks = State.blocks { u with dtu := (vset u.dtu k
          (if (vget u.dtu k).state = .faulted ∨ (vget u.dtu k).state = .quarantined then
            { vget u.dtu k with state := .clean, outstanding := false }
          else vget u.dtu k)) }) ∧
      (u.cfu.locks.domain = false → peer ≠ 65535 → peer ≠ u.nodeId →
        ∀ q, ((((vget u.dtu k).fields.valid = true ∨ peer = 0) ∧ q = peer) ∨
            ((vget u.dtu k).fields.valid = false ∧ q = 0)) →
          ∃ t, exec (.delegateWrite m n peer) s = .next t ∧ Traffic [] [] u t ∧
            Answered m (if q = peer then .ok else .adjusted) (.delegation n q) t ∧
            t.blocks = State.blocks { u with rqu := { u.rqu with delegation := vset u.rqu.delegation k q } })

/-- WATCH_WRITE, NOTICE_ENABLE and NOTICE_CLEAR: the watch they leave, the enables and the episodes, the fault-outstanding flags a
clear of DOMAIN_FAULT takes with it, and their answers; a source that is pending, enabled and has sent none at the end of an event, or of a
NOTICE_ENABLE, has its NOTICE placed, and any other source but CONGESTION draws none.  (A bad mode with key count 0 is refused, DEDUCED, log 16; the answer to
NOTICE_CLEAR carries the enable set beside the pending set, DEDUCED, log 30.) -/
def Obligations.WatchAndNoticeCommands : Prop :=
  (∀ (m : MgmtFrom) (w : WatchArgs) (mask : BitVec 16) (s u : State), u = settle s → Commanded m u →
    let bad := 7 < w.index ∨ 4 < w.keys.length ∨ w.mode = none ∨ (∃ k ∈ w.keys, k.origin = 0 ∨ k.origin = 65535) ∨
      ¬ w.keys.Nodup
    let masked (i : NoticeId) : Bool := mask.getLsbD i.number.val
    (bad → ∃ t, exec (.watchWrite m w) s = .next t ∧ t.blocks = u.blocks ∧ Answered m .badArgument .none t ∧
      Traffic [] [] u t) ∧
    (¬ bad → ∀ (k : Fin 8) (mode : WatchMode), w.index = k.val → w.mode = some mode →
      ∃ t, exec (.watchWrite m w) s = .next t ∧ Answered m .ok .none t ∧ Traffic [] [] u t ∧
        t.blocks = State.blocks { u with ntu := { u.ntu with watches :=
          (vset u.ntu.watches k (if w.keys = [] then none else some ⟨mode, w.keys⟩)) } }) ∧
    (∃ t waiting, exec (.noticeEnable m mask) s = .next t ∧
      Answered m .ok (.notices (NoticeId.all.filter masked) waiting) t ∧
      (∀ i, i ≠ .congestion → (i ∈ waiting ↔ (u.ntu.source i).pending = true)) ∧
      { t.blocks with ntu := u.ntu } = { u.blocks with ntu := u.ntu } ∧ t.ntu.watches = u.ntu.watches ∧
      (∀ p, PortGrows (u.port p) (t.port p)) ∧
      ∀ i, (t.ntu.source i).enable = masked i ∧
        (masked i = true → (u.ntu.source i).pending = true → (t.ntu.source i).sent = true) ∧
        (masked i = true → (u.ntu.source i).pending = true → (u.ntu.source i).sent = false → NoticePlaced i t) ∧
        (i ≠ .congestion → (masked i = false ∨ (u.ntu.source i).pending = false ∨ (u.ntu.source i).sent = true) →
          NoticeSilent i u t ∧ (t.ntu.source i).sent = (u.ntu.source i).sent) ∧
        (i ≠ .congestion → (t.ntu.source i).pending = (u.ntu.source i).pending ∧
          (t.ntu.source i).overrun = (u.ntu.source i).overrun ∧ (t.ntu.source i).detail = (u.ntu.source i).detail ∧
          (t.ntu.source i).gen = (u.ntu.source i).gen)) ∧
    (∃ t, exec (.noticeClear m mask) s = .next t ∧
      Answered m .ok (.notices (NoticeId.all.filter fun i => (u.ntu.source i).enable)
        (NoticeId.all.filter fun i => (u.ntu.source i).pending && !masked i)) t ∧
      t.blocks = State.blocks { u with dtu :=
        (if mask.getLsbD 2 = true then u.dtu.map fun e => { e with outstanding := false } else u.dtu) } ∧
      Traffic (NoticeId.all.filter masked) [] u t ∧
      ∀ i, masked i = true → i ≠ .congestion →
        t.ntu.source i = ⟨(u.ntu.source i).enable, false, false, false, [], none⟩)) ∧
  ∀ (i : NoticeId) (s : State),
    let n := s.ntu.source i
    (n.pending = true → n.enable = true → n.sent = false →
      NoticePlaced i (finish s) ∧ ((finish s).ntu.source i).sent = true) ∧
    (i ≠ .congestion → (n.pending = false ∨ n.enable = false ∨ n.sent = true) → s.claims = [] → NoticeSilent i s (finish s))

/-! ## Path requests, referrals and results -/

/-- A ROUTEQ by the steps of admission up to the queue: a sender no answer could reach, no committed view, a field out of range, a
pair already present, a full queue, and a place at the tail of its class.  (The entry keeps the flag bits 4 to 7 as received, the
model's choice, log 27.) -/
def Obligations.RouteqAdmission : Prop :=
  ∀ (p : Port) (src : NodeId) (q : RouteqBody) (s u : State), u = settle s → takesInput u p = true →
    let who := identity p src
    let refused (o : RouteOutcome) := ∃ t, exec (.routeq p src q) s = .next t ∧ t.blocks = u.blocks ∧
      RouteAnswered who q.tag o u.cmc.gen [] t ∧ Traffic [] [] u t
    let bad := 2 < q.cls ∨ 1 < q.kind ∨ q.width = 0 ∨ 32 < q.width ∨ q.maxHops = 0 ∨ 32 < q.maxHops ∨
      q.src = 0 ∨ q.src = 65535 ∨ q.dst = 0 ∨ q.dst = 65535 ∨ q.src = q.dst ∨
      q.waypoint = 65535 ∨ (q.waypoint ≠ 0 ∧ (q.waypoint = q.src ∨ q.waypoint = q.dst)) ∨
      (q.flags.getLsbD 3 = true ∧ (383 < q.rangeFirst ∨ 383 < q.rangeLast ∨ q.rangeLast < q.rangeFirst ∨
        q.rangeLast < q.rangeFirst + q.width - 1)) ∨
      (q.flags.getLsbD 2 = true ∧ q.kind = 0)
    let present := (∃ r ∈ u.rqu.queue, r.requester = who ∧ r.body.tag = q.tag) ∨
      (∃ r ∈ u.rsv.requests, r.requester = who ∧ r.body.tag = q.tag) ∨
      (∃ i r, vget u.rqu.referrals i = some r ∧ r.requester = who ∧ r.tag = q.tag) ∨
      ∃ e ∈ u.shu.results, e.2.requester = who ∧ e.2.tag = q.tag
    ((∃ d, p = .deg d) → (src = 0 ∨ src = 65535 ∨ src = u.nodeId) →
      ∃ t, exec (.routeq p src q) s = .next t ∧ t.blocks = u.blocks ∧ Raised .frameError (.port p) t ∧
        Traffic [.frameError] [] u t) ∧
    ((p = .np ∨ (src ≠ 0 ∧ src ≠ 65535 ∧ src ≠ u.nodeId)) →
      (u.cmc.gen = 0 → refused .refusedNotReady) ∧
      (u.cmc.gen ≠ 0 → bad → refused .refusedParam) ∧
      (u.cmc.gen ≠ 0 → ¬ bad → present → refused .refusedDup) ∧
      (u.cmc.gen ≠ 0 → ¬ bad → ¬ present → referralPeer u who q = none →
        64 ≤ u.rqu.queue.length + u.rsv.requests.length → refused .refusedFull) ∧
      (u.cmc.gen ≠ 0 → ¬ bad → ¬ present → referralPeer u who q = none →
        u.rqu.queue.length + u.rsv.requests.length < 64 →
        ∃ t, exec (.routeq p src q) s = .next t ∧ Traffic [] [] u t ∧
          t.blocks = State.blocks { u with
            rqu := { u.rqu with
              queue := u.rqu.queue.filter (fun e => decide (e.body.cls ≤ q.cls)) ++ ⟨who, q, 0, u.rqu.admitted + 1⟩ ::
                u.rqu.queue.filter (fun e => decide (q.cls < e.body.cls))
              admitted := u.rqu.admitted + 1 }
            shu := { u.shu with expired := u.shu.expired.filter (· ≠ (who, q.tag)) } }))

/-- A ROUTEQ to a delegated domain: REFERRAL_UNREACHABLE without a route to the peer, REFUSED_FULL without a free entry, else an
entry at the first free index after the cursor and the request forwarded to the peer with HOLD cleared. -/
def Obligations.ReferralIsMadeAndForwarded : Prop :=
  ∀ (p : Port) (src peer : NodeId) (q : RouteqBody) (j : Nat) (r : NodeRec) (k : Fin 16) (s u : State), u = settle s →
    takesInput u p = true → badSender u p src = false → u.cmc.gen ≠ 0 → q.fieldsOk = true →
    present u (identity p src) q.tag = false → u.tdb.findNode q.dst = some (j, r) → r.ver.committedActive = true →
    r.ver.domain = k.val → k ≠ 0 → vget u.rqu.delegation k = peer → peer ≠ 0 → peer ≠ identity p src →
    peer ≠ u.nodeId →
    let who := identity p src
    (lookup u peer = none →
      ∃ t, exec (.routeq p src q) s = .next t ∧ t.blocks = u.blocks ∧ Raised .referral .unreachable t ∧
        RouteAnswered who q.tag .referralUnreachable u.cmc.gen [] t ∧ Traffic [.referral] [] u t) ∧
    (lookup u peer ≠ none → (∀ i, vget u.rqu.referrals i ≠ none) →
      ∃ t, exec (.routeq p src q) s = .next t ∧ t.blocks = u.blocks ∧
        RouteAnswered who q.tag .refusedFull u.cmc.gen [] t ∧ Traffic [] [] u t) ∧
    (lookup u peer ≠ none → ∀ (n : Nat) (i : Fin 16), i.val = (u.rqu.cursor + 1 + n) % 16 →
      vget u.rqu.referrals i = none →
      (∀ n', n' < n → ∀ i' : Fin 16, i'.val = (u.rqu.cursor + 1 + n') % 16 → vget u.rqu.referrals i' ≠ none) →
      ∃ t flags, exec (.routeq p src q) s = .next t ∧ Traffic [] [] u t ∧ flags.getLsbD 0 = false ∧
        (∀ b, 1 ≤ b → b ≤ 3 → flags.getLsbD b = q.flags.getLsbD b) ∧
        Placed ⟨0x05, if peer = 65535 then 1 else 64, 0, u.nodeId, peer,
          .routeq { q with tag := i.val, flags := flags }⟩ t ∧
        t.blocks = State.blocks { u with
          rqu := { u.rqu with
            referrals := vset u.rqu.referrals i
              (some ⟨who, q.tag, peer, q.flags.getLsbD 0, u.now + u.cfu.params.referralWait * 1000⟩)
            cursor := i.val }
          shu := { u.shu with expired := u.shu.expired.filter (· ≠ (who, q.tag)) } })

/-- A ROUTEA from the peer of a used referral entry is relayed to the original requester and frees the entry; any other raises
REFERRAL LATE.  An entry's deadline answers REFERRAL_TIMEOUT and frees it. -/
def Obligations.ReferralIsRelayedOrTimesOut : Prop :=
  (∀ (p : Port) (src : NodeId) (a : RouteaBody) (s u : State), u = settle s → takesInput u p = true →
    badSender u p src = false → a.paths.length ≤ 2 → (∀ b ∈ a.paths, 1 ≤ b.hops.length ∧ b.hops.length ≤ 32) →
    (∀ (i : Fin 16) r, a.tag = i.val → vget u.rqu.referrals i = some r → r.peer = identity p src →
      ∃ t, exec (.routea p src a) s = .next t ∧ Traffic [] [] u t ∧
        Placed ⟨0x06, if r.requester = 65535 then 1 else 64, 0, u.nodeId, r.requester,
          .routea ⟨r.tag, if r.holdAsked = true ∧ a.outcome = 0x00 then 0x01 else a.outcome, a.gen, a.paths⟩⟩ t ∧
        t.blocks = State.blocks { u with rqu := { u.rqu with referrals := vset u.rqu.referrals i none } }) ∧
    ((∀ (i : Fin 16) r, a.tag = i.val → vget u.rqu.referrals i = some r → r.peer ≠ identity p src) →
      ∃ t, exec (.routea p src a) s = .next t ∧ t.blocks = u.blocks ∧ Raised .referral .late t ∧
        Traffic [.referral] [] u t)) ∧
  ∀ (i : Fin 16) (r : Referral) (s u : State), u = settle s → vget u.rqu.referrals i = some r →
    ∃ t, exec (.referralDeadlineExpiry i.val) s = .next t ∧ Traffic [] [] u t ∧
      RouteAnswered r.requester r.tag .referralTimeout u.cmc.gen [] t ∧
      t.blocks = State.blocks { u with
        now := max u.now r.deadline, rqu := { u.rqu with referrals := vset u.rqu.referrals i none } }

/-- CLAIM and RELEASE, with no own step due, against the sender's result, the request queue, the expired list and the results of
others, with the answer each draws. -/
def Obligations.ClaimAndReleaseMatching : Prop :=
  ∀ (p : Port) (src : NodeId) (tag : Nat) (u : State), settle u = u → takesInput u p = true →
    badSender u p src = false →
    let who := identity p src
    let hit := u.shu.results.find? fun e => e.2.requester == who && e.2.tag == tag
    let queued := ∃ r ∈ u.rqu.queue, r.requester = who ∧ r.body.tag = tag
    let answered (c : Instr) (o : RouteOutcome) (v : State) := ∃ t, exec c u = .next t ∧ t.blocks = v.blocks ∧
      RouteAnswered who tag o u.cmc.gen [] t ∧ Traffic [] [] u t
    (∀ i r, hit = some (i, r) → r.state = .held →
      answered (.claim p src tag) .claimed { u with shu := { u.shu with results := (tput u.shu.results i
        { r with
          state := .claimed, holdDeadline := none
          claimDeadline := some (u.now + u.cfu.params.claimTimeout * 1000) }) } }) ∧
    (TablesOk u → ∀ i r, hit = some (i, r) → r.state = .claimed → answered (.claim p src tag) .claimed u) ∧
    (queued → answered (.release p src tag) .cancelled { u with rqu := { u.rqu with
      queue := u.rqu.queue.filter fun r => !(r.requester == who && r.body.tag == tag) } }) ∧
    (¬ queued → ∀ i r, hit = some (i, r) →
      answered (.release p src tag) .released { u with shu := { u.shu with
        results := u.shu.results.filter (fun e => e.1 != i), holds := u.shu.holds.filter (fun e => e.2.result != i) } }) ∧
    ∀ c, (c = .claim p src tag ∨ (c = .release p src tag ∧ ¬ queued)) → hit = none →
      ((who, tag) ∈ u.shu.expired → answered c .expired { u with shu := { u.shu with
        expired := u.shu.expired.filter (· ≠ (who, tag)) } }) ∧
      ((who, tag) ∉ u.shu.expired → (∃ e ∈ u.shu.results, e.2.tag = tag) → answered c .notOwner u) ∧
      ((who, tag) ∉ u.shu.expired → (∀ e ∈ u.shu.results, e.2.tag ≠ tag) → answered c .unknown u)

/-- The hold deadline of a HELD result frees it with its holds, lists its pair as expired and answers EXPIRED; the claim deadline
of a CLAIMED one frees it with its holds, sends no ROUTEA and raises CLAIM_UNSEEN. -/
def Obligations.ResultDeadlinesFreeTheResult : Prop :=
  ∀ (i : Nat) (r : Result) (m : Moment) (s u : State), u = settle s → tget u.shu.results i = some r →
    let results := u.shu.results.filter fun e => e.1 != i
    let holds := u.shu.holds.filter fun e => e.2.result != i
    let others := u.shu.expired.filter (· ≠ (r.requester, r.tag))
    (r.state = .held → r.holdDeadline = some m →
      ∃ t, exec (.holdDeadlineExpiry i) s = .next t ∧ Traffic [] [] u t ∧
        RouteAnswered r.requester r.tag .expired u.cmc.gen [] t ∧
        t.blocks = State.blocks { u with
          now := max u.now m
          shu := ⟨results, holds, (if others.length < 16 then others else others.drop 1) ++ [(r.requester, r.tag)]⟩ }) ∧
    (r.state = .claimed → r.claimDeadline = some m →
      ∃ t, exec (.claimDeadlineExpiry i) s = .next t ∧ Traffic [.claimUnseen] [] u t ∧
        (t.ntu.source .claimUnseen).pending = true ∧
        (∀ p, (∀ q ∈ (t.port p).queue, q ∈ (u.port p).queue ∨ q.frame.kind ≠ 0x06) ∧
          ∀ f ∈ (t.port p).backlog, f ∈ (u.port p).backlog ∨ f.kind ≠ 0x06) ∧
        t.blocks = State.blocks { u with now := max u.now m, shu := ⟨results, holds, u.shu.expired⟩ })

/-! ## The route solver and the lanes -/

/-- Dispatch after the other own steps that are due (the model's choice, log 5): a dispatch that is not due, with an empty queue, changes
nothing (the model's choice, log 10), a head that cannot be dispatched stays, a PAIR
takes both lanes, a SINGLE takes L0 when it is IDLE and L1 otherwise, and two SINGLEs fill both; a start captures its view
(with the model's own `stamp`, log 7). -/
def Obligations.DispatchFillsTheLanes : Prop :=
  ∀ s v : State, v = promoteDue (claimAll s) →
    let cap (n : Nat) : Capture := ⟨v.cmc.gen, v.tdb.exclusions.map (·.run), v.shu.holds.map (·.2.run),
      v.cfu.params.regenPenalty, v.now, v.stamp + n⟩
    let busy (w : Work) := w ≠ .idle
    let blocked (r : Request) := v.cmc.state = .draining ∨ v.rsv.treeJob ≠ none ∨
      (r.body.kind = 1 ∧ (busy v.rsv.l0.work ∨ busy v.rsv.l1.work)) ∨ (busy v.rsv.l0.work ∧ busy v.rsv.l1.work)
    (v.rqu.queue = [] → exec .dispatch s = .next v) ∧
    (∀ r rest, v.rqu.queue = r :: rest → blocked r → exec .dispatch s = .next v) ∧
    (∀ r rest, v.rqu.queue = r :: rest → ¬ blocked r → r.body.kind = 1 →
      exec .dispatch s = .next { v with
        stamp := v.stamp + 1, rqu := { v.rqu with queue := rest }
        rsv := { v.rsv with
          l0 := { v.rsv.l0 with work := .computing r (cap 1) }, l1 := { v.rsv.l1 with work := .computing r (cap 1) } } }) ∧
    (∀ r rest, v.rqu.queue = r :: rest → ¬ blocked r → r.body.kind ≠ 1 → v.rsv.l0.work ≠ .idle →
      exec .dispatch s = .next { v with
        stamp := v.stamp + 1, rqu := { v.rqu with queue := rest }
        rsv := { v.rsv with l1 := { v.rsv.l1 with work := .computing r (cap 1) } } }) ∧
    (∀ r rest, v.rqu.queue = r :: rest → ¬ blocked r → r.body.kind ≠ 1 → v.rsv.l0.work = .idle →
      (v.rsv.l1.work ≠ .idle ∨ rest = [] ∨ ∃ r' rest', rest = r' :: rest' ∧ r'.body.kind = 1) →
      exec .dispatch s = .next { v with
        stamp := v.stamp + 1, rqu := { v.rqu with queue := rest }
        rsv := { v.rsv with l0 := { v.rsv.l0 with work := .computing r (cap 1) } } }) ∧
    (∀ r r' rest, v.rqu.queue = r :: r' :: rest → ¬ blocked r → r.body.kind ≠ 1 → r'.body.kind ≠ 1 →
      v.rsv.l0.work = .idle → v.rsv.l1.work = .idle →
      exec .dispatch s = .next { v with
        stamp := v.stamp + 2, rqu := { v.rqu with queue := rest }
        rsv := { v.rsv with
          l0 := { v.rsv.l0 with work := .computing r (cap 1) }, l1 := { v.rsv.l1 with work := .computing r' (cap 2) } } })

/-- The tree build's completion replaces the forwarding table: each node committed ACTIVE at its index with the first degree of the
first forwarding path in the order, NONE without one and for this node. -/
def Obligations.TreeBuildReplacesForwardingTable : Prop :=
  ∀ (g : Nat) (s u : State), u = settle s → u.rsv.l0.work = .tree g → u.rsv.treeJob = none →
    let paths (n : NodeId) := pathsFrom (u.tdb.edges (fun _ => true) [] []) u.tdb.transitNode n u.tdb.nodes.length
      u.nodeId [u.nodeId]
    ∃ t, exec .treeBuildCompletion s = .next t ∧ Traffic [] [] u t ∧
      t.blocks = State.blocks { u with
        rsv := { u.rsv with l0 := ⟨.idle, some ⟨.tree, g⟩, u.rsv.l0.current⟩ }
        fsw := { u.fsw with fwd := t.fsw.fwd, fwdGen := g } } ∧
      (∀ e ∈ u.tdb.nodes, e.2.ver.committedActive = true → ∃ f ∈ t.fsw.fwd, f.1 = e.1 ∧ f.2.node = e.2.id) ∧
      ∀ f ∈ t.fsw.fwd, (∃ e ∈ u.tdb.nodes, e.1 = f.1 ∧ e.2.id = f.2.node ∧ e.2.ver.committedActive = true) ∧
        (f.2.node = u.nodeId → f.2.degree = none) ∧
        (f.2.node ≠ u.nodeId → paths f.2.node = [] → f.2.degree = none) ∧
        ∀ l rest, f.2.node ≠ u.nodeId → l :: rest ∈ paths f.2.node →
          (∀ p ∈ paths f.2.node, p ≠ l :: rest → forwardingLt (l :: rest) p = true) → f.2.degree = degree? l.key.num

/-- The outcome of a computation.  A SINGLE: UNKNOWN_NODE, NO_ROUTE, NO_SPECTRUM and OVER_BUDGET by what is missing, else FOUND with
the result of the candidate that no feasible candidate precedes in the order.  A PAIR: the same over pair candidates, with NO_DISJOINT
when there is none, else FOUND with the results of W and P of the pair that no feasible pair precedes. -/
def Obligations.ComputationTakesFirstFeasible : Prop :=
  ∀ (t : Tdb) (q : RouteqBody) (cap : Capture),
    let unknown := t.nodeActive q.src = false ∨ t.nodeActive q.dst = false ∨
      (q.waypoint ≠ 0 ∧ t.nodeActive q.waypoint = false)
    let via (c : Candidate) := q.waypoint = 0 ∨ q.waypoint ∈ c.path.dropLast.map (·.far)
    let candidate (c : Candidate) := c ∈ allCandidates t q cap ∧ via c
    let spectrum (c : Candidate) := ∀ seg ∈ c.segments, assignedStart q seg ≠ none
    let budget (c : Candidate) := q.budget = 0 ∨ ∀ seg ∈ c.segments, (seg.map (·.imp)).sum ≤ q.budget
    let cost (c : Candidate) := (c.path.map (·.cost)).sum + cap.penalty * c.regs.length
    let pair (e : PairCandidate) := e.w ∈ allCandidates t q cap ∧ e.p ∈ allCandidates t q cap ∧
      (∀ k ∈ linkKeys e.w.path, k ∉ linkKeys e.p.path) ∧
      (q.flags.getLsbD 2 = true → ∀ n ∈ e.w.path.dropLast.map (·.far), n ∉ e.p.path.dropLast.map (·.far)) ∧
      (via e.w ∨ via e.p) ∧ (∀ n ∈ e.w.regenNodes, n ∈ e.p.regenNodes → 2 ≤ t.regenCount n) ∧
      (cost e.w < cost e.p ∨ (cost e.w = cost e.p ∧ lexLt keyLt (linkKeys e.w.path) (linkKeys e.p.path) = true))
    let lit (e : PairCandidate) := pair e ∧ spectrum e.w ∧ spectrum e.p
    let feasible (e : PairCandidate) := lit e ∧ budget e.w ∧ budget e.p
    (unknown → solve t q cap = .failed .unknownNode) ∧
    (¬ unknown → (∀ c, ¬ candidate c) → solve t q cap = .failed .noRoute) ∧
    (q.kind ≠ 1 → ¬ unknown →
      ((∃ c, candidate c) → (∀ c, candidate c → ¬ spectrum c) → solve t q cap = .failed .noSpectrum) ∧
      ((∃ c, candidate c ∧ spectrum c) → (∀ c, candidate c → spectrum c → ¬ budget c) →
        solve t q cap = .failed .overBudget) ∧
      ((∃ c, candidate c ∧ spectrum c ∧ budget c) →
        ∃ c, candidate c ∧ spectrum c ∧ budget c ∧ solve t q cap = .found [c.result q cap.penalty] ∧
          ∀ c', candidate c' → spectrum c' → budget c' → candidateLt cap.penalty c' c = false)) ∧
    (q.kind = 1 → ¬ unknown → (∃ c, candidate c) →
      ((∀ e, ¬ pair e) → solve t q cap = .failed .noDisjoint) ∧
      ((∃ e, pair e) → (∀ e, ¬ lit e) → solve t q cap = .failed .noSpectrum) ∧
      ((∃ e, lit e) → (∀ e, ¬ feasible e) → solve t q cap = .failed .overBudget) ∧
      ((∃ e, feasible e) →
        ∃ e, feasible e ∧ solve t q cap = .found [e.w.result q cap.penalty, e.p.result q cap.penalty] ∧
          ∀ e', feasible e' → pairLt cap.penalty e' e = false))

/-- The completion of a computation: an answer with the captured G when nothing is found; a return to the queue when a new
exclusion or a hold meets the result; FOUND without HOLD; FOUND_UNHELD without room; else a HELD result with one hold per run.  (That an exclusion is new since
the start is read from `stamp`, log 7.) -/
def Obligations.CompletionAnswersHoldsOrReturns : Prop :=
  ∀ (l : LaneId) (r : Request) (cap : Capture) (s u : State), u = settle s →
    (u.rsv.lane l).work = .computing r cap → u.rsv.treeJob = none →
    let ends (e : WorkEnd) : Rsv :=
      if r.body.kind = 1 then u.rsv.finishAll e else u.rsv.setLane l ((u.rsv.lane l).finish e)
    let ended (e : WorkEnd) : State := { u with rsv := ends e }
    let answered (t : State) (o : RouteOutcome) (gen : Nat) (paths : List PathResult) :=
      RouteAnswered r.requester r.body.tag o gen paths t
    let returned (e : WorkEnd) := ∃ t, exec (.completion l) s = .next t ∧ Traffic [] [] u t ∧
      (t.rsv.lane l) = ⟨.idle, some ⟨e, cap.gen⟩, (u.rsv.lane l).current⟩ ∧
      (r.retries < 2 → t.blocks = State.blocks { ended e with rqu := { u.rqu with queue :=
        (u.rqu.queue.filter (fun x => decide (x.body.cls < r.body.cls)) ++ { r with retries := r.retries + 1 } ::
        u.rqu.queue.filter (fun x => decide (r.body.cls ≤ x.body.cls))) } }) ∧
      (2 ≤ r.retries → t.blocks = (ended e).blocks ∧ answered t .aborted u.cmc.gen [])
    (∀ e o, (e, o) ∈ [(WorkEnd.noRoute, RouteOutcome.noRoute), (.noDisjoint, .noDisjoint), (.noSpectrum, .noSpectrum),
        (.overBudget, .overBudget), (.unknownNode, .unknownNode)] → solve u.tdb r.body cap = .failed e →
      ∃ t, exec (.completion l) s = .next t ∧ t.blocks = (ended e).blocks ∧ answered t o cap.gen [] ∧
        (t.rsv.lane l) = ⟨.idle, some ⟨e, cap.gen⟩, (u.rsv.lane l).current⟩ ∧ Traffic [] [] u t) ∧
    ∀ paths, solve u.tdb r.body cap = .found paths →
      let runs : List HeldRun := paths.flatMap fun p => p.hops.map fun h => ⟨h.key, h.start, r.body.width⟩
      let met := ∃ x ∈ u.tdb.exclusions, cap.stamp < x.stamp ∧ ∃ run ∈ runs, x.run.key = run.key ∧
        (x.run.count = 0 ∨ (x.run.first < run.start + run.width ∧ run.start < x.run.first + x.run.count))
      let conflict := ∃ run ∈ runs, ∃ h ∈ u.shu.holds, h.2.run.key = run.key ∧
        run.start < h.2.run.start + h.2.run.width ∧ h.2.run.start < run.start + run.width
      let given (o : RouteOutcome) := ∃ t, exec (.completion l) s = .next t ∧ t.blocks = (ended .found).blocks ∧
        answered t o cap.gen paths ∧ Traffic [] [] u t
      (met → returned .excluded) ∧
      (¬ met → r.body.flags.getLsbD 0 = false → given .found) ∧
      (¬ met → r.body.flags.getLsbD 0 = true → conflict → returned .found) ∧
      (¬ met → r.body.flags.getLsbD 0 = true → ¬ conflict → TablesOk u →
        (64 ≤ u.shu.results.length ∨ 512 < u.shu.holds.length + runs.length) → given .foundUnheld) ∧
      (¬ met → r.body.flags.getLsbD 0 = true → ¬ conflict → TablesOk u → u.shu.results.length < 64 →
        u.shu.holds.length + runs.length ≤ 512 →
        ∃ t i, exec (.completion l) s = .next t ∧ answered t .found cap.gen paths ∧ Traffic [] [] u t ∧
          tget u.shu.results i = none ∧ (∀ j, j < i → tget u.shu.results j ≠ none) ∧
          (∀ h ∈ u.shu.holds, h ∈ t.shu.holds) ∧ (∀ run ∈ runs, ∃ j, (j, ⟨run, i⟩) ∈ t.shu.holds) ∧
          t.shu.holds.length = u.shu.holds.length + runs.length ∧
          t.blocks = State.blocks { ended .found with shu := { u.shu with
            results := (tput u.shu.results i ⟨r.requester, r.body.tag, r.body.kind == 1, cap.gen, .held, paths, runs.length,
              some (u.now + u.cfu.params.resultHoldTime * 1000), none⟩)
            holds := t.shu.holds } })

/-! ## Invariants every step keeps -/

/-- Every step keeps the notice sources' episodes in order, the check timer and the freeze flag in step with the commit state, and
leaves no notice to be originated and no direct claim untaken. -/
def Obligations.NoticesAndCommitKeptByEveryStep : Prop :=
  ∀ s t : State, step s = .next t → (NoticesOk s → NoticesOk t) ∧ (CommitOk s → CommitOk t) ∧ (Quiet s → Quiet t) ∧
    (s.claims = [] → t.claims = [])

/-- Every step keeps each adjacency's record and timers as its state gives them, and every degree DISABLED outside RUNNING. -/
def Obligations.AdjacenciesKeptByEveryStep : Prop :=
  ∀ s t : State, AdjacenciesOk s → step s = .next t → AdjacenciesOk t

/-- Every step keeps the node, link, forwarding, results and hold tables in canonical form and within their capacities. -/
def Obligations.TablesKeptByEveryStep : Prop :=
  ∀ s t : State, TablesOk s → step s = .next t → TablesOk t
end

