-- ==== Sys2Proof/Laws/State.lean ====
section
/-! SUPPORT. What each update of one place of the state leaves unchanged and what reading it back gives. -/

namespace Sys2Proof.Machine

/-! ## Vectors -/

variable {α : Type} {n : Nat}

@[simp] theorem vget_vset_same (v : Vector α n) (i : Fin n) (a : α) : vget (vset v i a) i = a := by
  simp [vget, vset]

theorem vget_vset_ne (v : Vector α n) (i j : Fin n) (a : α) (h : i ≠ j) : vget (vset v i a) j = vget v j := by
  have h' : i.val ≠ j.val := fun e => h (Fin.ext e)
  simp [vget, vset, Vector.getElem_set_ne, h']

theorem vget_vset (v : Vector α n) (i j : Fin n) (a : α) :
    vget (vset v i a) j = if i = j then a else vget v j := by
  by_cases h : i = j
  · subst h; simp
  · simp [vget_vset_ne, h]

@[simp] theorem vset_vget_same (v : Vector α n) (i : Fin n) : vset v i (vget v i) = v := by
  apply Vector.ext; intro k hk
  by_cases h : i.val = k
  · subst h; simp [vget, vset]
  · simp [vset, Vector.getElem_set_ne, h]

@[simp] theorem vget_vec8 (f : Degree → α) (d : Degree) : vget (vec8 f) d = f d := by
  fin_cases d <;> rfl

@[simp] theorem vget_replicate (a : α) (i : Fin n) : vget (Vector.replicate n a) i = a := by
  simp [vget]

theorem mem_allDegrees (d : Degree) : d ∈ allDegrees := by
  fin_cases d <;> decide

theorem mem_allPorts (p : Port) : p ∈ allPorts := by
  cases p with
  | np => decide
  | deg d => fin_cases d <;> decide

/-! ## One place read back -/

@[simp] theorem adjacency_setAdjacency (s : State) (d e : Degree) (a : Adjacency) :
    (s.setAdjacency d a).adjacency e = if d = e then a else s.adjacency e := by
  simp [State.adjacency, State.setAdjacency, vget_vset]

@[simp] theorem flood_setFlood (s : State) (d e : Degree) (x : FleDegree) :
    (s.setFlood d x).flood e = if d = e then x else s.flood e := by
  simp [State.flood, State.setFlood, vget_vset]

@[simp] theorem port_setPort_same (s : State) (p : Port) (o : OutPort) : (s.setPort p o).port p = o := by
  cases p <;> simp [State.port, State.setPort]

theorem port_setPort_ne (s : State) (p q : Port) (o : OutPort) (h : p ≠ q) : (s.setPort p o).port q = s.port q := by
  cases p <;> cases q <;> simp_all [State.port, State.setPort, vget_vset]

theorem port_setPort (s : State) (p q : Port) (o : OutPort) :
    (s.setPort p o).port q = if p = q then o else s.port q := by
  by_cases h : p = q
  · subst h; simp
  · simp [port_setPort_ne, h]

@[simp] theorem source_setSource_same (n : Ntu) (i : NoticeId) (x : NoticeSource) : (n.setSource i x).source i = x := by
  simp [Ntu.source, Ntu.setSource]

theorem number_ne {i j : NoticeId} (h : i ≠ j) : i.number ≠ j.number := by
  cases i <;> cases j <;> simp_all [NoticeId.number]

theorem source_setSource_ne (n : Ntu) (i j : NoticeId) (x : NoticeSource) (h : i ≠ j) :
    (n.setSource i x).source j = n.source j := by
  simp [Ntu.source, Ntu.setSource, vget_vset_ne, number_ne h]

theorem source_setSource (n : Ntu) (i j : NoticeId) (x : NoticeSource) :
    (n.setSource i x).source j = if i = j then x else n.source j := by
  by_cases h : i = j
  · subst h; simp
  · simp [source_setSource_ne, h]

@[simp] theorem watches_setSource (n : Ntu) (i : NoticeId) (x : NoticeSource) : (n.setSource i x).watches = n.watches := rfl

/-! ## Fields left unchanged -/

@[simp] theorem pending_setAdjacency (s : State) (d : Degree) (a : Adjacency) : (s.setAdjacency d a).pending = s.pending := rfl
@[simp] theorem now_setAdjacency (s : State) (d : Degree) (a : Adjacency) : (s.setAdjacency d a).now = s.now := rfl
@[simp] theorem stamp_setAdjacency (s : State) (d : Degree) (a : Adjacency) : (s.setAdjacency d a).stamp = s.stamp := rfl
@[simp] theorem freeCount_setAdjacency (s : State) (d : Degree) (a : Adjacency) : (s.setAdjacency d a).freeCount = s.freeCount := rfl
@[simp] theorem fsw_setAdjacency (s : State) (d : Degree) (a : Adjacency) : (s.setAdjacency d a).fsw = s.fsw := rfl
@[simp] theorem dtu_setAdjacency (s : State) (d : Degree) (a : Adjacency) : (s.setAdjacency d a).dtu = s.dtu := rfl
@[simp] theorem tdb_setAdjacency (s : State) (d : Degree) (a : Adjacency) : (s.setAdjacency d a).tdb = s.tdb := rfl
@[simp] theorem claims_setAdjacency (s : State) (d : Degree) (a : Adjacency) : (s.setAdjacency d a).claims = s.claims := rfl
@[simp] theorem fle_setAdjacency (s : State) (d : Degree) (a : Adjacency) : (s.setAdjacency d a).fle = s.fle := rfl
@[simp] theorem cmc_setAdjacency (s : State) (d : Degree) (a : Adjacency) : (s.setAdjacency d a).cmc = s.cmc := rfl
@[simp] theorem rqu_setAdjacency (s : State) (d : Degree) (a : Adjacency) : (s.setAdjacency d a).rqu = s.rqu := rfl
@[simp] theorem rsv_setAdjacency (s : State) (d : Degree) (a : Adjacency) : (s.setAdjacency d a).rsv = s.rsv := rfl
@[simp] theorem shu_setAdjacency (s : State) (d : Degree) (a : Adjacency) : (s.setAdjacency d a).shu = s.shu := rfl
@[simp] theorem ntu_setAdjacency (s : State) (d : Degree) (a : Adjacency) : (s.setAdjacency d a).ntu = s.ntu := rfl
@[simp] theorem cfu_setAdjacency (s : State) (d : Degree) (a : Adjacency) : (s.setAdjacency d a).cfu = s.cfu := rfl

@[simp] theorem pending_setFlood (s : State) (d : Degree) (x : FleDegree) : (s.setFlood d x).pending = s.pending := rfl
@[simp] theorem now_setFlood (s : State) (d : Degree) (x : FleDegree) : (s.setFlood d x).now = s.now := rfl
@[simp] theorem stamp_setFlood (s : State) (d : Degree) (x : FleDegree) : (s.setFlood d x).stamp = s.stamp := rfl
@[simp] theorem freeCount_setFlood (s : State) (d : Degree) (x : FleDegree) : (s.setFlood d x).freeCount = s.freeCount := rfl
@[simp] theorem fsw_setFlood (s : State) (d : Degree) (x : FleDegree) : (s.setFlood d x).fsw = s.fsw := rfl
@[simp] theorem adm_setFlood (s : State) (d : Degree) (x : FleDegree) : (s.setFlood d x).adm = s.adm := rfl
@[simp] theorem dtu_setFlood (s : State) (d : Degree) (x : FleDegree) : (s.setFlood d x).dtu = s.dtu := rfl
@[simp] theorem tdb_setFlood (s : State) (d : Degree) (x : FleDegree) : (s.setFlood d x).tdb = s.tdb := rfl
@[simp] theorem claims_setFlood (s : State) (d : Degree) (x : FleDegree) : (s.setFlood d x).claims = s.claims := rfl
@[simp] theorem cmc_setFlood (s : State) (d : Degree) (x : FleDegree) : (s.setFlood d x).cmc = s.cmc := rfl
@[simp] theorem rqu_setFlood (s : State) (d : Degree) (x : FleDegree) : (s.setFlood d x).rqu = s.rqu := rfl
@[simp] theorem rsv_setFlood (s : State) (d : Degree) (x : FleDegree) : (s.setFlood d x).rsv = s.rsv := rfl
@[simp] theorem shu_setFlood (s : State) (d : Degree) (x : FleDegree) : (s.setFlood d x).shu = s.shu := rfl
@[simp] theorem ntu_setFlood (s : State) (d : Degree) (x : FleDegree) : (s.setFlood d x).ntu = s.ntu := rfl
@[simp] theorem cfu_setFlood (s : State) (d : Degree) (x : FleDegree) : (s.setFlood d x).cfu = s.cfu := rfl

@[simp] theorem pending_setPort (s : State) (p : Port) (o : OutPort) : (s.setPort p o).pending = s.pending := by cases p <;> rfl
@[simp] theorem now_setPort (s : State) (p : Port) (o : OutPort) : (s.setPort p o).now = s.now := by cases p <;> rfl
@[simp] theorem stamp_setPort (s : State) (p : Port) (o : OutPort) : (s.setPort p o).stamp = s.stamp := by cases p <;> rfl
@[simp] theorem freeCount_setPort (s : State) (p : Port) (o : OutPort) : (s.setPort p o).freeCount = s.freeCount := by cases p <;> rfl
@[simp] theorem adm_setPort (s : State) (p : Port) (o : OutPort) : (s.setPort p o).adm = s.adm := by cases p <;> rfl
@[simp] theorem dtu_setPort (s : State) (p : Port) (o : OutPort) : (s.setPort p o).dtu = s.dtu := by cases p <;> rfl
@[simp] theorem tdb_setPort (s : State) (p : Port) (o : OutPort) : (s.setPort p o).tdb = s.tdb := by cases p <;> rfl
@[simp] theorem claims_setPort (s : State) (p : Port) (o : OutPort) : (s.setPort p o).claims = s.claims := by cases p <;> rfl
@[simp] theorem fle_setPort (s : State) (p : Port) (o : OutPort) : (s.setPort p o).fle = s.fle := by cases p <;> rfl
@[simp] theorem cmc_setPort (s : State) (p : Port) (o : OutPort) : (s.setPort p o).cmc = s.cmc := by cases p <;> rfl
@[simp] theorem rqu_setPort (s : State) (p : Port) (o : OutPort) : (s.setPort p o).rqu = s.rqu := by cases p <;> rfl
@[simp] theorem rsv_setPort (s : State) (p : Port) (o : OutPort) : (s.setPort p o).rsv = s.rsv := by cases p <;> rfl
@[simp] theorem shu_setPort (s : State) (p : Port) (o : OutPort) : (s.setPort p o).shu = s.shu := by cases p <;> rfl
@[simp] theorem ntu_setPort (s : State) (p : Port) (o : OutPort) : (s.setPort p o).ntu = s.ntu := by cases p <;> rfl
@[simp] theorem cfu_setPort (s : State) (p : Port) (o : OutPort) : (s.setPort p o).cfu = s.cfu := by cases p <;> rfl

@[simp] theorem pending_reach (s : State) (t : Moment) : (s.reach t).pending = s.pending := rfl
@[simp] theorem stamp_reach (s : State) (t : Moment) : (s.reach t).stamp = s.stamp := rfl
@[simp] theorem freeCount_reach (s : State) (t : Moment) : (s.reach t).freeCount = s.freeCount := rfl
@[simp] theorem fsw_reach (s : State) (t : Moment) : (s.reach t).fsw = s.fsw := rfl
@[simp] theorem adm_reach (s : State) (t : Moment) : (s.reach t).adm = s.adm := rfl
@[simp] theorem dtu_reach (s : State) (t : Moment) : (s.reach t).dtu = s.dtu := rfl
@[simp] theorem tdb_reach (s : State) (t : Moment) : (s.reach t).tdb = s.tdb := rfl
@[simp] theorem claims_reach (s : State) (t : Moment) : (s.reach t).claims = s.claims := rfl
@[simp] theorem fle_reach (s : State) (t : Moment) : (s.reach t).fle = s.fle := rfl
@[simp] theorem cmc_reach (s : State) (t : Moment) : (s.reach t).cmc = s.cmc := rfl
@[simp] theorem rqu_reach (s : State) (t : Moment) : (s.reach t).rqu = s.rqu := rfl
@[simp] theorem rsv_reach (s : State) (t : Moment) : (s.reach t).rsv = s.rsv := rfl
@[simp] theorem shu_reach (s : State) (t : Moment) : (s.reach t).shu = s.shu := rfl
@[simp] theorem ntu_reach (s : State) (t : Moment) : (s.reach t).ntu = s.ntu := rfl
@[simp] theorem cfu_reach (s : State) (t : Moment) : (s.reach t).cfu = s.cfu := rfl

@[simp] theorem pending_nextStamp (s : State) : (s.nextStamp).pending = s.pending := rfl
@[simp] theorem now_nextStamp (s : State) : (s.nextStamp).now = s.now := rfl
@[simp] theorem freeCount_nextStamp (s : State) : (s.nextStamp).freeCount = s.freeCount := rfl
@[simp] theorem fsw_nextStamp (s : State) : (s.nextStamp).fsw = s.fsw := rfl
@[simp] theorem adm_nextStamp (s : State) : (s.nextStamp).adm = s.adm := rfl
@[simp] theorem dtu_nextStamp (s : State) : (s.nextStamp).dtu = s.dtu := rfl
@[simp] theorem tdb_nextStamp (s : State) : (s.nextStamp).tdb = s.tdb := rfl
@[simp] theorem claims_nextStamp (s : State) : (s.nextStamp).claims = s.claims := rfl
@[simp] theorem fle_nextStamp (s : State) : (s.nextStamp).fle = s.fle := rfl
@[simp] theorem cmc_nextStamp (s : State) : (s.nextStamp).cmc = s.cmc := rfl
@[simp] theorem rqu_nextStamp (s : State) : (s.nextStamp).rqu = s.rqu := rfl
@[simp] theorem rsv_nextStamp (s : State) : (s.nextStamp).rsv = s.rsv := rfl
@[simp] theorem shu_nextStamp (s : State) : (s.nextStamp).shu = s.shu := rfl
@[simp] theorem ntu_nextStamp (s : State) : (s.nextStamp).ntu = s.ntu := rfl
@[simp] theorem cfu_nextStamp (s : State) : (s.nextStamp).cfu = s.cfu := rfl

@[simp] theorem pending_raise (i : NoticeId) (ms : List Member) (s : State) : (raise i ms s).pending = s.pending := rfl
@[simp] theorem now_raise (i : NoticeId) (ms : List Member) (s : State) : (raise i ms s).now = s.now := rfl
@[simp] theorem stamp_raise (i : NoticeId) (ms : List Member) (s : State) : (raise i ms s).stamp = s.stamp := rfl
@[simp] theorem freeCount_raise (i : NoticeId) (ms : List Member) (s : State) : (raise i ms s).freeCount = s.freeCount := rfl
@[simp] theorem fsw_raise (i : NoticeId) (ms : List Member) (s : State) : (raise i ms s).fsw = s.fsw := rfl
@[simp] theorem adm_raise (i : NoticeId) (ms : List Member) (s : State) : (raise i ms s).adm = s.adm := rfl
@[simp] theorem dtu_raise (i : NoticeId) (ms : List Member) (s : State) : (raise i ms s).dtu = s.dtu := rfl
@[simp] theorem tdb_raise (i : NoticeId) (ms : List Member) (s : State) : (raise i ms s).tdb = s.tdb := rfl
@[simp] theorem claims_raise (i : NoticeId) (ms : List Member) (s : State) : (raise i ms s).claims = s.claims := rfl
@[simp] theorem fle_raise (i : NoticeId) (ms : List Member) (s : State) : (raise i ms s).fle = s.fle := rfl
@[simp] theorem cmc_raise (i : NoticeId) (ms : List Member) (s : State) : (raise i ms s).cmc = s.cmc := rfl
@[simp] theorem rqu_raise (i : NoticeId) (ms : List Member) (s : State) : (raise i ms s).rqu = s.rqu := rfl
@[simp] theorem rsv_raise (i : NoticeId) (ms : List Member) (s : State) : (raise i ms s).rsv = s.rsv := rfl
@[simp] theorem shu_raise (i : NoticeId) (ms : List Member) (s : State) : (raise i ms s).shu = s.shu := rfl
@[simp] theorem cfu_raise (i : NoticeId) (ms : List Member) (s : State) : (raise i ms s).cfu = s.cfu := rfl

@[simp] theorem pending_raiseCommit (ms : List Member) (g : Nat) (s : State) : (raiseCommit ms g s).pending = s.pending := rfl
@[simp] theorem now_raiseCommit (ms : List Member) (g : Nat) (s : State) : (raiseCommit ms g s).now = s.now := rfl
@[simp] theorem stamp_raiseCommit (ms : List Member) (g : Nat) (s : State) : (raiseCommit ms g s).stamp = s.stamp := rfl
@[simp] theorem freeCount_raiseCommit (ms : List Member) (g : Nat) (s : State) : (raiseCommit ms g s).freeCount = s.freeCount := rfl
@[simp] theorem fsw_raiseCommit (ms : List Member) (g : Nat) (s : State) : (raiseCommit ms g s).fsw = s.fsw := rfl
@[simp] theorem adm_raiseCommit (ms : List Member) (g : Nat) (s : State) : (raiseCommit ms g s).adm = s.adm := rfl
@[simp] theorem dtu_raiseCommit (ms : List Member) (g : Nat) (s : State) : (raiseCommit ms g s).dtu = s.dtu := rfl
@[simp] theorem tdb_raiseCommit (ms : List Member) (g : Nat) (s : State) : (raiseCommit ms g s).tdb = s.tdb := rfl
@[simp] theorem claims_raiseCommit (ms : List Member) (g : Nat) (s : State) : (raiseCommit ms g s).claims = s.claims := rfl
@[simp] theorem fle_raiseCommit (ms : List Member) (g : Nat) (s : State) : (raiseCommit ms g s).fle = s.fle := rfl
@[simp] theorem cmc_raiseCommit (ms : List Member) (g : Nat) (s : State) : (raiseCommit ms g s).cmc = s.cmc := rfl
@[simp] theorem rqu_raiseCommit (ms : List Member) (g : Nat) (s : State) : (raiseCommit ms g s).rqu = s.rqu := rfl
@[simp] theorem rsv_raiseCommit (ms : List Member) (g : Nat) (s : State) : (raiseCommit ms g s).rsv = s.rsv := rfl
@[simp] theorem shu_raiseCommit (ms : List Member) (g : Nat) (s : State) : (raiseCommit ms g s).shu = s.shu := rfl
@[simp] theorem cfu_raiseCommit (ms : List Member) (g : Nat) (s : State) : (raiseCommit ms g s).cfu = s.cfu := rfl

@[simp] theorem pending_frameError (p : Port) (s : State) : (frameError p s).pending = s.pending := rfl
@[simp] theorem now_frameError (p : Port) (s : State) : (frameError p s).now = s.now := rfl
@[simp] theorem stamp_frameError (p : Port) (s : State) : (frameError p s).stamp = s.stamp := rfl
@[simp] theorem freeCount_frameError (p : Port) (s : State) : (frameError p s).freeCount = s.freeCount := rfl
@[simp] theorem fsw_frameError (p : Port) (s : State) : (frameError p s).fsw = s.fsw := rfl
@[simp] theorem adm_frameError (p : Port) (s : State) : (frameError p s).adm = s.adm := rfl
@[simp] theorem dtu_frameError (p : Port) (s : State) : (frameError p s).dtu = s.dtu := rfl
@[simp] theorem tdb_frameError (p : Port) (s : State) : (frameError p s).tdb = s.tdb := rfl
@[simp] theorem claims_frameError (p : Port) (s : State) : (frameError p s).claims = s.claims := rfl
@[simp] theorem fle_frameError (p : Port) (s : State) : (frameError p s).fle = s.fle := rfl
@[simp] theorem cmc_frameError (p : Port) (s : State) : (frameError p s).cmc = s.cmc := rfl
@[simp] theorem rqu_frameError (p : Port) (s : State) : (frameError p s).rqu = s.rqu := rfl
@[simp] theorem rsv_frameError (p : Port) (s : State) : (frameError p s).rsv = s.rsv := rfl
@[simp] theorem shu_frameError (p : Port) (s : State) : (frameError p s).shu = s.shu := rfl
@[simp] theorem cfu_frameError (p : Port) (s : State) : (frameError p s).cfu = s.cfu := rfl

@[simp] theorem now_of_reach (s : State) (t : Moment) : (s.reach t).now = max s.now t := rfl

@[simp] theorem fwd_setPort (s : State) (p : Port) (o : OutPort) : (s.setPort p o).fsw.fwd = s.fsw.fwd := by cases p <;> rfl
@[simp] theorem fwdGen_setPort (s : State) (p : Port) (o : OutPort) : (s.setPort p o).fsw.fwdGen = s.fsw.fwdGen := by
  cases p <;> rfl

@[simp] theorem seq_setFlood (s : State) (d : Degree) (x : FleDegree) : (s.setFlood d x).fle.seq = s.fle.seq := rfl
@[simp] theorem slotMaps_setFlood (s : State) (d : Degree) (x : FleDegree) : (s.setFlood d x).fle.slotMaps = s.fle.slotMaps := rfl
@[simp] theorem refresh_setFlood (s : State) (d : Degree) (x : FleDegree) :
    (s.setFlood d x).fle.refreshTimer = s.fle.refreshTimer := rfl

/-- A projection that every element of a fold leaves alone is left alone by the fold. -/
theorem foldl_keeps {β γ : Type} (π : State → γ) (f : State → β → State) (l : List β) (s : State)
    (h : ∀ s x, π (f s x) = π s) : π (l.foldl f s) = π s := by
  induction l generalizing s with
  | nil => rfl
  | cons x l ih => simp [List.foldl_cons, ih, h]

/-- A property that every element of a fold preserves is preserved by the fold. -/
theorem foldl_inv {β : Type} (P : State → Prop) (f : State → β → State) (l : List β) (s : State)
    (h : ∀ s x, P s → P (f s x)) (hs : P s) : P (l.foldl f s) := by
  induction l generalizing s with
  | nil => exact hs
  | cons x l ih => exact ih _ (h _ _ hs)

end Sys2Proof.Machine
end

