-- ==== Sys2Proof/Laws/Traffic.lean ====
section
/-! SUPPORT. What the operations on frames and notices can do: they change traffic alone (`State.blocks` stays), and the end of
an event changes beside it only the lists of FLE's degrees (`State.steady` stays), which it leaves alone too where FLE has no
frame it could place (`FloodDone`). -/

namespace Sys2Proof.Machine

/-! ## Blocks -/

/-- A source rewritten with its enable kept leaves the sources without their episodes as they were. -/
theorem bare_setSource (n : Ntu) (i : NoticeId) (x : NoticeSource) (h : x.enable = (n.source i).enable) :
    (n.setSource i x).sources.map (fun n => { NoticeSource.reset with enable := n.enable }) =
      n.sources.map fun n => { NoticeSource.reset with enable := n.enable } := by
  apply Vector.ext
  intro k hk
  by_cases e : i.number.val = k
  · subst e
    simp [Ntu.setSource, Ntu.source, vset, vget] at *
    simp [h]
  · simp [Ntu.setSource, vset, Vector.getElem_set_ne, e]

theorem blocks_of_source (s : State) (i : NoticeId) (x : NoticeSource) (h : x.enable = (s.ntu.source i).enable) :
    { s with ntu := s.ntu.setSource i x }.blocks = s.blocks := by
  simp [State.blocks, bare_setSource _ _ _ h]

@[simp] theorem enable_raise (ms : List Member) (g : Option Nat) (n : NoticeSource) : (n.raise ms g).enable = n.enable := by
  unfold NoticeSource.raise; split <;> rfl

@[simp] theorem blocks_raise (i : NoticeId) (ms : List Member) (s : State) : (raise i ms s).blocks = s.blocks :=
  blocks_of_source _ _ _ (by simp)

@[simp] theorem blocks_raiseCommit (ms : List Member) (g : Nat) (s : State) : (raiseCommit ms g s).blocks = s.blocks :=
  blocks_of_source _ _ _ (by simp)

@[simp] theorem blocks_frameError (p : Port) (s : State) : (frameError p s).blocks = s.blocks := blocks_raise _ _ _

@[simp] theorem blocks_setPort (s : State) (p : Port) (o : OutPort) : (s.setPort p o).blocks = s.blocks := by
  cases p <;> rfl

@[simp] theorem blocks_withClaims (s : State) (cs : List OwnClaim) : { s with claims := cs }.blocks = s.blocks := rfl

@[simp] theorem blocks_claimOwn (p : Port) (f : Frame) (s : State) : (claimOwn p f s).blocks = s.blocks := by
  unfold claimOwn; dsimp only; split <;> [simp; (split <;> simp)]

@[simp] theorem blocks_claimPassing (p q : Port) (f : Frame) (s : State) : (claimPassing p q f s).blocks = s.blocks := by
  unfold claimPassing; dsimp only; split <;> simp

@[simp] theorem blocks_enqueueOwn (p : Port) (f : Frame) (s : State) : (enqueueOwn p f s).blocks = s.blocks := by
  simp [enqueueOwn]

@[simp] theorem blocks_claimBacklogHead (p : Port) (s : State) : (claimBacklogHead p s).blocks = s.blocks := by
  unfold claimBacklogHead; dsimp only; split
  · rfl
  · split <;> simp

@[simp] theorem blocks_placeOwn (b : OwnBlock) (f : Frame) (s : State) : (placeOwn b f s).blocks = s.blocks := by
  unfold placeOwn; split <;> simp

@[simp] theorem blocks_answer (b : OwnBlock) (dest : NodeId) (tag : Nat) (o : RouteOutcome) (gen : Nat)
    (ps : List PathResult) (s : State) : (answer b dest tag o gen ps s).blocks = s.blocks := by simp [answer]

@[simp] theorem blocks_answerNow (b : OwnBlock) (dest : NodeId) (tag : Nat) (o : RouteOutcome) (s : State) :
    (answerNow b dest tag o s).blocks = s.blocks := by simp [answerNow]

@[simp] theorem blocks_markSent (s : State) (i : NoticeId) : (markSent s i).blocks = s.blocks :=
  blocks_of_source _ _ _ rfl

@[simp] theorem blocks_offerAll (s : State) : (offerAll s).blocks = s.blocks := rfl

@[simp] theorem blocks_answerMgmt (who : NodeId) (tag : Nat) (r : Reply) (s : State) :
    (answerMgmt who tag r s).blocks = s.blocks := by simp [answerMgmt]

@[simp] theorem blocks_deliver (p : Port) (f : RawFrame) (s : State) : (deliver p f s).blocks = s.blocks := by simp [deliver]

@[simp] theorem blocks_forward (p : Port) (f : RawFrame) (s : State) : (forward p f s).blocks = s.blocks := by
  unfold forward; split <;> simp

/-! ## The direct claims of an event -/

@[simp] theorem claims_claimOwn (p : Port) (f : Frame) (s : State) : (claimOwn p f s).claims = s.claims := by
  unfold claimOwn; dsimp only; split <;> [simp; (split <;> simp)]

@[simp] theorem claims_claimPassing (p q : Port) (f : Frame) (s : State) : (claimPassing p q f s).claims = s.claims := by
  unfold claimPassing; dsimp only; split <;> simp

@[simp] theorem claims_enqueueOwn (p : Port) (f : Frame) (s : State) : (enqueueOwn p f s).claims = s.claims := by
  simp [enqueueOwn]

@[simp] theorem claims_claimBacklogHead (p : Port) (s : State) : (claimBacklogHead p s).claims = s.claims := by
  unfold claimBacklogHead; dsimp only; split
  · rfl
  · split <;> simp

@[simp] theorem claims_markSent (s : State) (i : NoticeId) : (markSent s i).claims = s.claims := rfl

@[simp] theorem claims_offerAll (s : State) : (offerAll s).claims = s.claims := rfl

/-! ## Fields of states with equal blocks -/

theorem pending_of_blocks {s t : State} (h : t.blocks = s.blocks) : t.pending = s.pending :=
  show t.blocks.pending = s.blocks.pending by rw [h]
theorem now_of_blocks {s t : State} (h : t.blocks = s.blocks) : t.now = s.now :=
  show t.blocks.now = s.blocks.now by rw [h]
theorem stamp_of_blocks {s t : State} (h : t.blocks = s.blocks) : t.stamp = s.stamp :=
  show t.blocks.stamp = s.blocks.stamp by rw [h]
theorem freeCount_of_blocks {s t : State} (h : t.blocks = s.blocks) : t.freeCount = s.freeCount :=
  show t.blocks.freeCount = s.blocks.freeCount by rw [h]
theorem adm_of_blocks {s t : State} (h : t.blocks = s.blocks) : t.adm = s.adm :=
  show t.blocks.adm = s.blocks.adm by rw [h]
theorem dtu_of_blocks {s t : State} (h : t.blocks = s.blocks) : t.dtu = s.dtu :=
  show t.blocks.dtu = s.blocks.dtu by rw [h]
theorem tdb_of_blocks {s t : State} (h : t.blocks = s.blocks) : t.tdb = s.tdb :=
  show t.blocks.tdb = s.blocks.tdb by rw [h]
theorem fle_of_blocks {s t : State} (h : t.blocks = s.blocks) : t.fle = s.fle :=
  show t.blocks.fle = s.blocks.fle by rw [h]
theorem cmc_of_blocks {s t : State} (h : t.blocks = s.blocks) : t.cmc = s.cmc :=
  show t.blocks.cmc = s.blocks.cmc by rw [h]
theorem rqu_of_blocks {s t : State} (h : t.blocks = s.blocks) : t.rqu = s.rqu :=
  show t.blocks.rqu = s.blocks.rqu by rw [h]
theorem rsv_of_blocks {s t : State} (h : t.blocks = s.blocks) : t.rsv = s.rsv :=
  show t.blocks.rsv = s.blocks.rsv by rw [h]
theorem shu_of_blocks {s t : State} (h : t.blocks = s.blocks) : t.shu = s.shu :=
  show t.blocks.shu = s.blocks.shu by rw [h]
theorem cfu_of_blocks {s t : State} (h : t.blocks = s.blocks) : t.cfu = s.cfu :=
  show t.blocks.cfu = s.blocks.cfu by rw [h]
theorem fwd_of_blocks {s t : State} (h : t.blocks = s.blocks) : t.fsw.fwd = s.fsw.fwd :=
  show t.blocks.fsw.fwd = s.blocks.fsw.fwd by rw [h]
theorem fwdGen_of_blocks {s t : State} (h : t.blocks = s.blocks) : t.fsw.fwdGen = s.fsw.fwdGen :=
  show t.blocks.fsw.fwdGen = s.blocks.fsw.fwdGen by rw [h]
theorem watches_of_blocks {s t : State} (h : t.blocks = s.blocks) : t.ntu.watches = s.ntu.watches :=
  show t.blocks.ntu.watches = s.blocks.ntu.watches by rw [h]

/-! ## The end of an event -/

/-- The part without its traffic and without the lists of FLE's degrees: what the end of an event leaves alone. -/
def State.steady (s : State) : State :=
  { s.blocks with fle := { s.fle with degrees := Vector.replicate 8 FleDegree.reset } }

theorem steady_of_blocks {s t : State} (h : t.blocks = s.blocks) : t.steady = s.steady := by
  simp only [State.steady, h, fle_of_blocks h]

theorem steady_setFlood (s : State) (d : Degree) (x : FleDegree) : (s.setFlood d x).steady = s.steady := rfl

theorem steady_fleClaim (d : Degree) (s : State) : (fleClaim d s).steady = s.steady := by
  unfold fleClaim
  dsimp only
  split
  · split
    · rw [steady_of_blocks (blocks_enqueueOwn _ _ _), steady_setFlood]
    · split
      · rw [steady_of_blocks (blocks_enqueueOwn _ _ _), steady_setFlood]
      · split
        · rw [steady_of_blocks (blocks_enqueueOwn _ _ _), steady_setFlood]
        · rw [steady_setFlood]
  · rfl

theorem claims_fleClaim (d : Degree) (s : State) : (fleClaim d s).claims = s.claims := by
  unfold fleClaim
  dsimp only
  split
  · split
    · simp
    · split
      · simp
      · split <;> simp
  · rfl

/-- A projection an operation leaves alone is left alone by the operation repeated. -/
theorem repeatOn_keeps {γ : Type} (π : State → γ) (f : State → State) (h : ∀ s, π (f s) = π s) (n : Nat) (s : State) :
    π (repeatOn f n s) = π s := by
  induction n generalizing s with
  | zero => rfl
  | succ n ih => rw [repeatOn, ih, h]

@[simp] theorem steady_fleClaimsAt (p : Port) (s : State) : (fleClaimsAt p s).steady = s.steady := by
  cases p with
  | deg d => exact repeatOn_keeps _ _ (steady_fleClaim d) _ _
  | np => rfl

@[simp] theorem claims_fleClaimsAt (p : Port) (s : State) : (fleClaimsAt p s).claims = s.claims := by
  cases p with
  | deg d => exact repeatOn_keeps _ _ (claims_fleClaim d) _ _
  | np => rfl

@[simp] theorem steady_claimDirect (p : Port) (f : Frame) (s : State) : (claimDirect p f s).steady = s.steady := by
  rw [claimDirect, steady_of_blocks (blocks_claimOwn _ _ _), steady_fleClaimsAt]

@[simp] theorem claims_claimDirect (p : Port) (f : Frame) (s : State) : (claimDirect p f s).claims = s.claims := by
  simp [claimDirect]

@[simp] theorem steady_takeClaims (b : OwnBlock) (cs : List OwnClaim) (s : State) : (takeClaims b cs s).steady = s.steady :=
  foldl_keeps State.steady _ _ _ fun t c => steady_claimDirect c.port c.frame t

@[simp] theorem claims_takeClaims (b : OwnBlock) (cs : List OwnClaim) (s : State) : (takeClaims b cs s).claims = s.claims :=
  foldl_keeps State.claims _ _ _ fun t c => claims_claimDirect c.port c.frame t

@[simp] theorem steady_emitDue (s : State) : (emitDue s).steady = s.steady := by
  simp only [emitDue]
  rw [foldl_keeps State.steady _ _ _ (fun s f => steady_claimDirect _ f s),
    foldl_keeps State.steady _ _ _ (fun s i => steady_of_blocks (blocks_markSent s i))]

@[simp] theorem claims_emitDue (s : State) : (emitDue s).claims = s.claims := by
  simp only [emitDue]
  rw [foldl_keeps State.claims _ _ _ (fun s f => claims_claimDirect _ f s),
    foldl_keeps State.claims _ _ _ (fun s i => claims_markSent s i)]

/-- Notices originated and held change the traffic alone. -/
@[simp] theorem blocks_holdDue (s : State) : (holdDue s).blocks = s.blocks := by
  rw [holdDue, foldl_keeps State.blocks _ _ _ fun s i => blocks_markSent s i, blocks_withClaims]

/-- The NOTICEs that are due join the claims, in source order. -/
theorem claims_holdDue (s : State) : (holdDue s).claims =
    s.claims ++ (dueSources s).map fun i => ⟨.ntu, (noticeRoute s).1, noticeFrame s s.ntu.pendingSet i⟩ := by
  rw [holdDue, foldl_keeps State.claims _ _ _ fun s i => claims_markSent s i]

@[simp] theorem steady_emit (s : State) : (emit s).steady = s.steady := by simp [emit]

@[simp] theorem claims_emit (s : State) : (emit s).claims = s.claims := by simp [emit]

@[simp] theorem steady_endClaims (s : State) : (endClaims s).steady = s.steady := by
  simp only [endClaims, steady_emitDue, steady_takeClaims, steady_emit]; rfl

@[simp] theorem claims_endClaims (s : State) : (endClaims s).claims = [] := by simp [endClaims]

@[simp] theorem steady_finish (s : State) : (finish s).steady = s.steady := by
  rw [finish, steady_of_blocks (blocks_offerAll _), steady_endClaims]

@[simp] theorem claims_finish (s : State) : (finish s).claims = [] := by simp [finish]

/-! ## Fields of states that are steady -/

theorem pending_of_steady {s t : State} (h : t.steady = s.steady) : t.pending = s.pending :=
  show t.steady.pending = s.steady.pending by rw [h]
theorem now_of_steady {s t : State} (h : t.steady = s.steady) : t.now = s.now :=
  show t.steady.now = s.steady.now by rw [h]
theorem stamp_of_steady {s t : State} (h : t.steady = s.steady) : t.stamp = s.stamp :=
  show t.steady.stamp = s.steady.stamp by rw [h]
theorem freeCount_of_steady {s t : State} (h : t.steady = s.steady) : t.freeCount = s.freeCount :=
  show t.steady.freeCount = s.steady.freeCount by rw [h]
theorem adm_of_steady {s t : State} (h : t.steady = s.steady) : t.adm = s.adm :=
  show t.steady.adm = s.steady.adm by rw [h]
theorem dtu_of_steady {s t : State} (h : t.steady = s.steady) : t.dtu = s.dtu :=
  show t.steady.dtu = s.steady.dtu by rw [h]
theorem tdb_of_steady {s t : State} (h : t.steady = s.steady) : t.tdb = s.tdb :=
  show t.steady.tdb = s.steady.tdb by rw [h]
theorem cmc_of_steady {s t : State} (h : t.steady = s.steady) : t.cmc = s.cmc :=
  show t.steady.cmc = s.steady.cmc by rw [h]
theorem rqu_of_steady {s t : State} (h : t.steady = s.steady) : t.rqu = s.rqu :=
  show t.steady.rqu = s.steady.rqu by rw [h]
theorem rsv_of_steady {s t : State} (h : t.steady = s.steady) : t.rsv = s.rsv :=
  show t.steady.rsv = s.steady.rsv by rw [h]
theorem shu_of_steady {s t : State} (h : t.steady = s.steady) : t.shu = s.shu :=
  show t.steady.shu = s.steady.shu by rw [h]
theorem cfu_of_steady {s t : State} (h : t.steady = s.steady) : t.cfu = s.cfu :=
  show t.steady.cfu = s.steady.cfu by rw [h]
theorem fwd_of_steady {s t : State} (h : t.steady = s.steady) : t.fsw.fwd = s.fsw.fwd :=
  show t.steady.fsw.fwd = s.steady.fsw.fwd by rw [h]
theorem fwdGen_of_steady {s t : State} (h : t.steady = s.steady) : t.fsw.fwdGen = s.fsw.fwdGen :=
  show t.steady.fsw.fwdGen = s.steady.fsw.fwdGen by rw [h]
theorem watches_of_steady {s t : State} (h : t.steady = s.steady) : t.ntu.watches = s.ntu.watches :=
  show t.steady.ntu.watches = s.steady.ntu.watches by rw [h]
theorem seq_of_steady {s t : State} (h : t.steady = s.steady) : t.fle.seq = s.fle.seq :=
  show t.steady.fle.seq = s.steady.fle.seq by rw [h]
theorem slotMaps_of_steady {s t : State} (h : t.steady = s.steady) : t.fle.slotMaps = s.fle.slotMaps :=
  show t.steady.fle.slotMaps = s.steady.fle.slotMaps by rw [h]
theorem refresh_of_steady {s t : State} (h : t.steady = s.steady) : t.fle.refreshTimer = s.fle.refreshTimer :=
  show t.steady.fle.refreshTimer = s.steady.fle.refreshTimer by rw [h]

/-- The end of an event leaves the enables of the notice sources alone. -/
theorem enable_of_steady {s t : State} (h : t.steady = s.steady) (i : NoticeId) :
    (t.ntu.source i).enable = (s.ntu.source i).enable := by
  have : t.steady.ntu.source i = s.steady.ntu.source i := by rw [h]
  simpa [State.steady, State.blocks, Ntu.source, vget] using this

/-! ## Where FLE has nothing to place -/

/-- FLE has no frame it could place at any degree. -/
def FloodDone (s : State) : Prop := ∀ d, fleDue s d = false

theorem fleClaim_of_not_due (d : Degree) (s : State) (h : fleDue s d = false) : fleClaim d s = s := by
  simp [fleClaim, h]

theorem repeatOn_fixed (f : State → State) (s : State) (h : f s = s) (n : Nat) : repeatOn f n s = s := by
  induction n with
  | zero => rfl
  | succ n ih => rw [repeatOn, h, ih]

theorem FloodDone.fleClaimsAt {s : State} (h : FloodDone s) (p : Port) : Machine.fleClaimsAt p s = s := by
  cases p with
  | deg d => exact repeatOn_fixed _ _ (fleClaim_of_not_due d s (h d)) _
  | np => rfl

theorem FloodDone.claimDirect {s : State} (h : FloodDone s) (p : Port) (f : Frame) :
    Machine.claimDirect p f s = Machine.claimOwn p f s := by rw [Machine.claimDirect, h.fleClaimsAt]

/-- No degree of `t` is UP, has room or has something in FLE's lists where the same degree of `s` is or has not. -/
def FloodShrinks (s t : State) : Prop :=
  t.adm = s.adm ∧ ∀ d, (s.port (.deg d)).queue.length ≤ (t.port (.deg d)).queue.length ∧
    ((s.flood d).waiting = [] → (t.flood d).waiting = []) ∧ ((s.flood d).round = none → (t.flood d).round = none) ∧
    ((s.flood d).sendList = [] → (t.flood d).sendList = [])

theorem FloodShrinks.refl (s : State) : FloodShrinks s s := ⟨rfl, fun _ => ⟨le_refl _, id, id, id⟩⟩

theorem FloodShrinks.trans {s t u : State} (h : FloodShrinks s t) (k : FloodShrinks t u) : FloodShrinks s u :=
  ⟨k.1.trans h.1, fun d => ⟨(h.2 d).1.trans (k.2 d).1, (k.2 d).2.1 ∘ (h.2 d).2.1, (k.2 d).2.2.1 ∘ (h.2 d).2.2.1,
    (k.2 d).2.2.2 ∘ (h.2 d).2.2.2⟩⟩

theorem FloodShrinks.foldl {β : Type} (f : State → β → State) (h : ∀ s b, FloodShrinks s (f s b)) (l : List β)
    (s : State) : FloodShrinks s (l.foldl f s) := by
  induction l generalizing s with
  | nil => exact FloodShrinks.refl _
  | cons b l ih => exact (h s b).trans (ih _)

theorem FloodDone.shrinks {s t : State} (h : FloodDone s) (k : FloodShrinks s t) : FloodDone t := by
  intro d
  obtain ⟨k1, k2⟩ := k
  obtain ⟨q, w, r, l⟩ := k2 d
  have hu : t.isUp d = s.isUp d := by simp [State.isUp, State.adjacency, k1]
  have hd := h d
  simp only [fleDue, hu, OutPort.room, queueSize, Bool.and_eq_false_iff, Bool.or_eq_false_iff, Bool.not_eq_false',
    List.isEmpty_iff] at hd ⊢
  rcases hd with (hd | hd) | ⟨⟨hw, hr⟩, hl⟩
  · exact Or.inl (Or.inl hd)
  · exact Or.inl (Or.inr (decide_eq_false fun k => of_decide_eq_false hd (lt_of_le_of_lt q k)))
  · exact Or.inr ⟨⟨w hw, by simp [r (by simpa using hr)]⟩, l hl⟩

/-- States with the same adjacencies and FLE whose queues only grew. -/
theorem FloodShrinks.of_queues {s t : State} (ha : t.adm = s.adm) (hf : t.fle = s.fle)
    (hq : ∀ d, (s.port (.deg d)).queue.length ≤ (t.port (.deg d)).queue.length) : FloodShrinks s t := by
  have : ∀ d, t.flood d = s.flood d := fun d => by simp [State.flood, hf]
  exact ⟨ha, fun d => ⟨hq d, by rw [this]; exact ⟨id, id, id⟩⟩⟩

theorem FloodShrinks.of_eq {s t : State} (ha : t.adm = s.adm) (hf : t.fle = s.fle) (hw : t.fsw = s.fsw) :
    FloodShrinks s t := FloodShrinks.of_queues ha hf fun d => by simp [State.port, hw]

theorem queue_setPort_le (s : State) (p : Port) (o : OutPort) (h : (s.port p).queue.length ≤ o.queue.length) (d : Degree) :
    (s.port (.deg d)).queue.length ≤ ((s.setPort p o).port (.deg d)).queue.length := by
  rw [port_setPort]
  split
  · rename_i e; rw [← e]; exact h
  · exact le_refl _

theorem FloodShrinks.claimOwn (p : Port) (f : Frame) (s : State) : FloodShrinks s (Machine.claimOwn p f s) := by
  unfold Machine.claimOwn
  dsimp only
  split
  · exact FloodShrinks.of_queues (by simp) (by simp) (queue_setPort_le _ _ _ (by simp))
  · split
    · exact FloodShrinks.of_queues (by simp) (by simp) (queue_setPort_le _ _ _ (by simp))
    · exact FloodShrinks.of_eq (by simp) (by simp) (by simp)

theorem FloodDone.takeClaims {s : State} (h : FloodDone s) (b : OwnBlock) (cs : List OwnClaim) :
    (Machine.takeClaims b cs s).blocks = s.blocks ∧ FloodDone (Machine.takeClaims b cs s) := by
  unfold Machine.takeClaims
  generalize cs.filter (fun c => c.block == b) = l
  induction l generalizing s with
  | nil => exact ⟨rfl, h⟩
  | cons c l ih =>
    rw [List.foldl_cons, h.claimDirect]
    obtain ⟨i1, i2⟩ := ih (h.shrinks (FloodShrinks.claimOwn c.port c.frame s))
    exact ⟨i1.trans (blocks_claimOwn _ _ _), i2⟩

theorem FloodDone.emitDue {s : State} (h : FloodDone s) :
    (Machine.emitDue s).blocks = s.blocks ∧ FloodDone (Machine.emitDue s) := by
  simp only [Machine.emitDue]
  have hm : ∀ (l : List NoticeId) (t : State), (l.foldl markSent t).blocks = t.blocks ∧ FloodShrinks t (l.foldl markSent t) :=
    fun l t => ⟨foldl_keeps State.blocks _ _ _ fun s i => blocks_markSent s i,
      FloodShrinks.foldl markSent (fun _ _ => FloodShrinks.of_eq rfl rfl rfl) l t⟩
  have hc : ∀ (q : Port) (l : List Frame) (t : State), FloodDone t →
      (l.foldl (fun t f => Machine.claimDirect q f t) t).blocks = t.blocks ∧
        FloodDone (l.foldl (fun t f => Machine.claimDirect q f t) t) := by
    intro q l
    induction l with
    | nil => exact fun t ht => ⟨rfl, ht⟩
    | cons f l ih =>
      intro t ht
      rw [List.foldl_cons, ht.claimDirect]
      obtain ⟨i1, i2⟩ := ih _ (ht.shrinks (FloodShrinks.claimOwn q f t))
      exact ⟨i1.trans (blocks_claimOwn _ _ _), i2⟩
  obtain ⟨m1, m2⟩ := hm (NoticeId.all.filter fun i => (s.ntu.source i).due) s
  obtain ⟨c1, c2⟩ := hc (noticeRoute s).1 ((NoticeId.all.filter fun i => (s.ntu.source i).due).map
    (noticeFrame s s.ntu.pendingSet)) _ (h.shrinks m2)
  exact ⟨c1.trans m1, c2⟩

theorem FloodDone.emit {s : State} (h : FloodDone s) : (Machine.emit s).blocks = s.blocks ∧ FloodDone (Machine.emit s) := by
  have a := h.emitDue
  have b := a.2.emitDue
  exact ⟨b.1.trans a.1, b.2⟩

theorem FloodDone.endClaims {s : State} (h : FloodDone s) :
    (Machine.endClaims s).blocks = s.blocks ∧ FloodDone (Machine.endClaims s) := by
  have h0 : FloodDone { s with claims := [] } := h.shrinks (FloodShrinks.of_eq rfl rfl rfl)
  have a := h0.takeClaims .rqu s.claims
  have b := a.2.takeClaims .shu s.claims
  have n := b.2.takeClaims .ntu s.claims
  have c := n.2.emit
  have d := c.2.takeClaims .cfu s.claims
  have e := d.2.emitDue
  exact ⟨e.1.trans (d.1.trans (c.1.trans (n.1.trans (b.1.trans a.1)))), e.2⟩

/-- The end of an event after which FLE has nothing to place changes traffic alone. -/
theorem FloodDone.blocks_finish {s : State} (h : FloodDone s) : (Machine.finish s).blocks = s.blocks := by
  rw [finish, blocks_offerAll, h.endClaims.1]

theorem FloodDone.fle_finish {s : State} (h : FloodDone s) : (Machine.finish s).fle = s.fle := fle_of_blocks h.blocks_finish

/-! ## Fields that traffic leaves unchanged -/

@[simp] theorem pending_claimOwn (p : Port) (f : Frame) (s : State) : (claimOwn p f s).pending = s.pending := pending_of_blocks (by simp)
@[simp] theorem now_claimOwn (p : Port) (f : Frame) (s : State) : (claimOwn p f s).now = s.now := now_of_blocks (by simp)
@[simp] theorem stamp_claimOwn (p : Port) (f : Frame) (s : State) : (claimOwn p f s).stamp = s.stamp := stamp_of_blocks (by simp)
@[simp] theorem freeCount_claimOwn (p : Port) (f : Frame) (s : State) : (claimOwn p f s).freeCount = s.freeCount := freeCount_of_blocks (by simp)
@[simp] theorem adm_claimOwn (p : Port) (f : Frame) (s : State) : (claimOwn p f s).adm = s.adm := adm_of_blocks (by simp)
@[simp] theorem dtu_claimOwn (p : Port) (f : Frame) (s : State) : (claimOwn p f s).dtu = s.dtu := dtu_of_blocks (by simp)
@[simp] theorem tdb_claimOwn (p : Port) (f : Frame) (s : State) : (claimOwn p f s).tdb = s.tdb := tdb_of_blocks (by simp)
@[simp] theorem fle_claimOwn (p : Port) (f : Frame) (s : State) : (claimOwn p f s).fle = s.fle := fle_of_blocks (by simp)
@[simp] theorem cmc_claimOwn (p : Port) (f : Frame) (s : State) : (claimOwn p f s).cmc = s.cmc := cmc_of_blocks (by simp)
@[simp] theorem rqu_claimOwn (p : Port) (f : Frame) (s : State) : (claimOwn p f s).rqu = s.rqu := rqu_of_blocks (by simp)
@[simp] theorem rsv_claimOwn (p : Port) (f : Frame) (s : State) : (claimOwn p f s).rsv = s.rsv := rsv_of_blocks (by simp)
@[simp] theorem shu_claimOwn (p : Port) (f : Frame) (s : State) : (claimOwn p f s).shu = s.shu := shu_of_blocks (by simp)
@[simp] theorem cfu_claimOwn (p : Port) (f : Frame) (s : State) : (claimOwn p f s).cfu = s.cfu := cfu_of_blocks (by simp)
@[simp] theorem fwd_claimOwn (p : Port) (f : Frame) (s : State) : (claimOwn p f s).fsw.fwd = s.fsw.fwd := fwd_of_blocks (by simp)
@[simp] theorem watches_claimOwn (p : Port) (f : Frame) (s : State) : (claimOwn p f s).ntu.watches = s.ntu.watches := watches_of_blocks (by simp)

@[simp] theorem pending_claimPassing (p q : Port) (f : Frame) (s : State) : (claimPassing p q f s).pending = s.pending := pending_of_blocks (by simp)
@[simp] theorem now_claimPassing (p q : Port) (f : Frame) (s : State) : (claimPassing p q f s).now = s.now := now_of_blocks (by simp)
@[simp] theorem stamp_claimPassing (p q : Port) (f : Frame) (s : State) : (claimPassing p q f s).stamp = s.stamp := stamp_of_blocks (by simp)
@[simp] theorem freeCount_claimPassing (p q : Port) (f : Frame) (s : State) : (claimPassing p q f s).freeCount = s.freeCount := freeCount_of_blocks (by simp)
@[simp] theorem adm_claimPassing (p q : Port) (f : Frame) (s : State) : (claimPassing p q f s).adm = s.adm := adm_of_blocks (by simp)
@[simp] theorem dtu_claimPassing (p q : Port) (f : Frame) (s : State) : (claimPassing p q f s).dtu = s.dtu := dtu_of_blocks (by simp)
@[simp] theorem tdb_claimPassing (p q : Port) (f : Frame) (s : State) : (claimPassing p q f s).tdb = s.tdb := tdb_of_blocks (by simp)
@[simp] theorem fle_claimPassing (p q : Port) (f : Frame) (s : State) : (claimPassing p q f s).fle = s.fle := fle_of_blocks (by simp)
@[simp] theorem cmc_claimPassing (p q : Port) (f : Frame) (s : State) : (claimPassing p q f s).cmc = s.cmc := cmc_of_blocks (by simp)
@[simp] theorem rqu_claimPassing (p q : Port) (f : Frame) (s : State) : (claimPassing p q f s).rqu = s.rqu := rqu_of_blocks (by simp)
@[simp] theorem rsv_claimPassing (p q : Port) (f : Frame) (s : State) : (claimPassing p q f s).rsv = s.rsv := rsv_of_blocks (by simp)
@[simp] theorem shu_claimPassing (p q : Port) (f : Frame) (s : State) : (claimPassing p q f s).shu = s.shu := shu_of_blocks (by simp)
@[simp] theorem cfu_claimPassing (p q : Port) (f : Frame) (s : State) : (claimPassing p q f s).cfu = s.cfu := cfu_of_blocks (by simp)
@[simp] theorem fwd_claimPassing (p q : Port) (f : Frame) (s : State) : (claimPassing p q f s).fsw.fwd = s.fsw.fwd := fwd_of_blocks (by simp)
@[simp] theorem watches_claimPassing (p q : Port) (f : Frame) (s : State) : (claimPassing p q f s).ntu.watches = s.ntu.watches := watches_of_blocks (by simp)

@[simp] theorem pending_placeOwn (b : OwnBlock) (f : Frame) (s : State) : (placeOwn b f s).pending = s.pending := pending_of_blocks (by simp)
@[simp] theorem now_placeOwn (b : OwnBlock) (f : Frame) (s : State) : (placeOwn b f s).now = s.now := now_of_blocks (by simp)
@[simp] theorem stamp_placeOwn (b : OwnBlock) (f : Frame) (s : State) : (placeOwn b f s).stamp = s.stamp := stamp_of_blocks (by simp)
@[simp] theorem freeCount_placeOwn (b : OwnBlock) (f : Frame) (s : State) : (placeOwn b f s).freeCount = s.freeCount := freeCount_of_blocks (by simp)
@[simp] theorem adm_placeOwn (b : OwnBlock) (f : Frame) (s : State) : (placeOwn b f s).adm = s.adm := adm_of_blocks (by simp)
@[simp] theorem dtu_placeOwn (b : OwnBlock) (f : Frame) (s : State) : (placeOwn b f s).dtu = s.dtu := dtu_of_blocks (by simp)
@[simp] theorem tdb_placeOwn (b : OwnBlock) (f : Frame) (s : State) : (placeOwn b f s).tdb = s.tdb := tdb_of_blocks (by simp)
@[simp] theorem fle_placeOwn (b : OwnBlock) (f : Frame) (s : State) : (placeOwn b f s).fle = s.fle := fle_of_blocks (by simp)
@[simp] theorem cmc_placeOwn (b : OwnBlock) (f : Frame) (s : State) : (placeOwn b f s).cmc = s.cmc := cmc_of_blocks (by simp)
@[simp] theorem rqu_placeOwn (b : OwnBlock) (f : Frame) (s : State) : (placeOwn b f s).rqu = s.rqu := rqu_of_blocks (by simp)
@[simp] theorem rsv_placeOwn (b : OwnBlock) (f : Frame) (s : State) : (placeOwn b f s).rsv = s.rsv := rsv_of_blocks (by simp)
@[simp] theorem shu_placeOwn (b : OwnBlock) (f : Frame) (s : State) : (placeOwn b f s).shu = s.shu := shu_of_blocks (by simp)
@[simp] theorem cfu_placeOwn (b : OwnBlock) (f : Frame) (s : State) : (placeOwn b f s).cfu = s.cfu := cfu_of_blocks (by simp)
@[simp] theorem fwd_placeOwn (b : OwnBlock) (f : Frame) (s : State) : (placeOwn b f s).fsw.fwd = s.fsw.fwd := fwd_of_blocks (by simp)
@[simp] theorem watches_placeOwn (b : OwnBlock) (f : Frame) (s : State) : (placeOwn b f s).ntu.watches = s.ntu.watches := watches_of_blocks (by simp)

@[simp] theorem pending_answer (b : OwnBlock) (dest : NodeId) (tag : Nat) (o : RouteOutcome) (gen : Nat) (ps : List PathResult) (s : State) : (answer b dest tag o gen ps s).pending = s.pending := pending_of_blocks (by simp)
@[simp] theorem now_answer (b : OwnBlock) (dest : NodeId) (tag : Nat) (o : RouteOutcome) (gen : Nat) (ps : List PathResult) (s : State) : (answer b dest tag o gen ps s).now = s.now := now_of_blocks (by simp)
@[simp] theorem stamp_answer (b : OwnBlock) (dest : NodeId) (tag : Nat) (o : RouteOutcome) (gen : Nat) (ps : List PathResult) (s : State) : (answer b dest tag o gen ps s).stamp = s.stamp := stamp_of_blocks (by simp)
@[simp] theorem freeCount_answer (b : OwnBlock) (dest : NodeId) (tag : Nat) (o : RouteOutcome) (gen : Nat) (ps : List PathResult) (s : State) : (answer b dest tag o gen ps s).freeCount = s.freeCount := freeCount_of_blocks (by simp)
@[simp] theorem adm_answer (b : OwnBlock) (dest : NodeId) (tag : Nat) (o : RouteOutcome) (gen : Nat) (ps : List PathResult) (s : State) : (answer b dest tag o gen ps s).adm = s.adm := adm_of_blocks (by simp)
@[simp] theorem dtu_answer (b : OwnBlock) (dest : NodeId) (tag : Nat) (o : RouteOutcome) (gen : Nat) (ps : List PathResult) (s : State) : (answer b dest tag o gen ps s).dtu = s.dtu := dtu_of_blocks (by simp)
@[simp] theorem tdb_answer (b : OwnBlock) (dest : NodeId) (tag : Nat) (o : RouteOutcome) (gen : Nat) (ps : List PathResult) (s : State) : (answer b dest tag o gen ps s).tdb = s.tdb := tdb_of_blocks (by simp)
@[simp] theorem fle_answer (b : OwnBlock) (dest : NodeId) (tag : Nat) (o : RouteOutcome) (gen : Nat) (ps : List PathResult) (s : State) : (answer b dest tag o gen ps s).fle = s.fle := fle_of_blocks (by simp)
@[simp] theorem cmc_answer (b : OwnBlock) (dest : NodeId) (tag : Nat) (o : RouteOutcome) (gen : Nat) (ps : List PathResult) (s : State) : (answer b dest tag o gen ps s).cmc = s.cmc := cmc_of_blocks (by simp)
@[simp] theorem rqu_answer (b : OwnBlock) (dest : NodeId) (tag : Nat) (o : RouteOutcome) (gen : Nat) (ps : List PathResult) (s : State) : (answer b dest tag o gen ps s).rqu = s.rqu := rqu_of_blocks (by simp)
@[simp] theorem rsv_answer (b : OwnBlock) (dest : NodeId) (tag : Nat) (o : RouteOutcome) (gen : Nat) (ps : List PathResult) (s : State) : (answer b dest tag o gen ps s).rsv = s.rsv := rsv_of_blocks (by simp)
@[simp] theorem shu_answer (b : OwnBlock) (dest : NodeId) (tag : Nat) (o : RouteOutcome) (gen : Nat) (ps : List PathResult) (s : State) : (answer b dest tag o gen ps s).shu = s.shu := shu_of_blocks (by simp)
@[simp] theorem cfu_answer (b : OwnBlock) (dest : NodeId) (tag : Nat) (o : RouteOutcome) (gen : Nat) (ps : List PathResult) (s : State) : (answer b dest tag o gen ps s).cfu = s.cfu := cfu_of_blocks (by simp)
@[simp] theorem fwd_answer (b : OwnBlock) (dest : NodeId) (tag : Nat) (o : RouteOutcome) (gen : Nat) (ps : List PathResult) (s : State) : (answer b dest tag o gen ps s).fsw.fwd = s.fsw.fwd := fwd_of_blocks (by simp)
@[simp] theorem watches_answer (b : OwnBlock) (dest : NodeId) (tag : Nat) (o : RouteOutcome) (gen : Nat) (ps : List PathResult) (s : State) : (answer b dest tag o gen ps s).ntu.watches = s.ntu.watches := watches_of_blocks (by simp)

@[simp] theorem pending_answerNow (b : OwnBlock) (dest : NodeId) (tag : Nat) (o : RouteOutcome) (s : State) : (answerNow b dest tag o s).pending = s.pending := pending_of_blocks (by simp)
@[simp] theorem now_answerNow (b : OwnBlock) (dest : NodeId) (tag : Nat) (o : RouteOutcome) (s : State) : (answerNow b dest tag o s).now = s.now := now_of_blocks (by simp)
@[simp] theorem stamp_answerNow (b : OwnBlock) (dest : NodeId) (tag : Nat) (o : RouteOutcome) (s : State) : (answerNow b dest tag o s).stamp = s.stamp := stamp_of_blocks (by simp)
@[simp] theorem freeCount_answerNow (b : OwnBlock) (dest : NodeId) (tag : Nat) (o : RouteOutcome) (s : State) : (answerNow b dest tag o s).freeCount = s.freeCount := freeCount_of_blocks (by simp)
@[simp] theorem adm_answerNow (b : OwnBlock) (dest : NodeId) (tag : Nat) (o : RouteOutcome) (s : State) : (answerNow b dest tag o s).adm = s.adm := adm_of_blocks (by simp)
@[simp] theorem dtu_answerNow (b : OwnBlock) (dest : NodeId) (tag : Nat) (o : RouteOutcome) (s : State) : (answerNow b dest tag o s).dtu = s.dtu := dtu_of_blocks (by simp)
@[simp] theorem tdb_answerNow (b : OwnBlock) (dest : NodeId) (tag : Nat) (o : RouteOutcome) (s : State) : (answerNow b dest tag o s).tdb = s.tdb := tdb_of_blocks (by simp)
@[simp] theorem fle_answerNow (b : OwnBlock) (dest : NodeId) (tag : Nat) (o : RouteOutcome) (s : State) : (answerNow b dest tag o s).fle = s.fle := fle_of_blocks (by simp)
@[simp] theorem cmc_answerNow (b : OwnBlock) (dest : NodeId) (tag : Nat) (o : RouteOutcome) (s : State) : (answerNow b dest tag o s).cmc = s.cmc := cmc_of_blocks (by simp)
@[simp] theorem rqu_answerNow (b : OwnBlock) (dest : NodeId) (tag : Nat) (o : RouteOutcome) (s : State) : (answerNow b dest tag o s).rqu = s.rqu := rqu_of_blocks (by simp)
@[simp] theorem rsv_answerNow (b : OwnBlock) (dest : NodeId) (tag : Nat) (o : RouteOutcome) (s : State) : (answerNow b dest tag o s).rsv = s.rsv := rsv_of_blocks (by simp)
@[simp] theorem shu_answerNow (b : OwnBlock) (dest : NodeId) (tag : Nat) (o : RouteOutcome) (s : State) : (answerNow b dest tag o s).shu = s.shu := shu_of_blocks (by simp)
@[simp] theorem cfu_answerNow (b : OwnBlock) (dest : NodeId) (tag : Nat) (o : RouteOutcome) (s : State) : (answerNow b dest tag o s).cfu = s.cfu := cfu_of_blocks (by simp)
@[simp] theorem fwd_answerNow (b : OwnBlock) (dest : NodeId) (tag : Nat) (o : RouteOutcome) (s : State) : (answerNow b dest tag o s).fsw.fwd = s.fsw.fwd := fwd_of_blocks (by simp)
@[simp] theorem watches_answerNow (b : OwnBlock) (dest : NodeId) (tag : Nat) (o : RouteOutcome) (s : State) : (answerNow b dest tag o s).ntu.watches = s.ntu.watches := watches_of_blocks (by simp)

@[simp] theorem pending_offerAll (s : State) : (offerAll s).pending = s.pending := pending_of_blocks (by simp)
@[simp] theorem now_offerAll (s : State) : (offerAll s).now = s.now := now_of_blocks (by simp)
@[simp] theorem stamp_offerAll (s : State) : (offerAll s).stamp = s.stamp := stamp_of_blocks (by simp)
@[simp] theorem freeCount_offerAll (s : State) : (offerAll s).freeCount = s.freeCount := freeCount_of_blocks (by simp)
@[simp] theorem adm_offerAll (s : State) : (offerAll s).adm = s.adm := adm_of_blocks (by simp)
@[simp] theorem dtu_offerAll (s : State) : (offerAll s).dtu = s.dtu := dtu_of_blocks (by simp)
@[simp] theorem tdb_offerAll (s : State) : (offerAll s).tdb = s.tdb := tdb_of_blocks (by simp)
@[simp] theorem fle_offerAll (s : State) : (offerAll s).fle = s.fle := fle_of_blocks (by simp)
@[simp] theorem cmc_offerAll (s : State) : (offerAll s).cmc = s.cmc := cmc_of_blocks (by simp)
@[simp] theorem rqu_offerAll (s : State) : (offerAll s).rqu = s.rqu := rqu_of_blocks (by simp)
@[simp] theorem rsv_offerAll (s : State) : (offerAll s).rsv = s.rsv := rsv_of_blocks (by simp)
@[simp] theorem shu_offerAll (s : State) : (offerAll s).shu = s.shu := shu_of_blocks (by simp)
@[simp] theorem cfu_offerAll (s : State) : (offerAll s).cfu = s.cfu := cfu_of_blocks (by simp)
@[simp] theorem fwd_offerAll (s : State) : (offerAll s).fsw.fwd = s.fsw.fwd := fwd_of_blocks (by simp)
@[simp] theorem watches_offerAll (s : State) : (offerAll s).ntu.watches = s.ntu.watches := watches_of_blocks (by simp)

@[simp] theorem pending_answerMgmt (who : NodeId) (tag : Nat) (r : Reply) (s : State) : (answerMgmt who tag r s).pending = s.pending := pending_of_blocks (by simp)
@[simp] theorem now_answerMgmt (who : NodeId) (tag : Nat) (r : Reply) (s : State) : (answerMgmt who tag r s).now = s.now := now_of_blocks (by simp)
@[simp] theorem stamp_answerMgmt (who : NodeId) (tag : Nat) (r : Reply) (s : State) : (answerMgmt who tag r s).stamp = s.stamp := stamp_of_blocks (by simp)
@[simp] theorem freeCount_answerMgmt (who : NodeId) (tag : Nat) (r : Reply) (s : State) : (answerMgmt who tag r s).freeCount = s.freeCount := freeCount_of_blocks (by simp)
@[simp] theorem adm_answerMgmt (who : NodeId) (tag : Nat) (r : Reply) (s : State) : (answerMgmt who tag r s).adm = s.adm := adm_of_blocks (by simp)
@[simp] theorem dtu_answerMgmt (who : NodeId) (tag : Nat) (r : Reply) (s : State) : (answerMgmt who tag r s).dtu = s.dtu := dtu_of_blocks (by simp)
@[simp] theorem tdb_answerMgmt (who : NodeId) (tag : Nat) (r : Reply) (s : State) : (answerMgmt who tag r s).tdb = s.tdb := tdb_of_blocks (by simp)
@[simp] theorem fle_answerMgmt (who : NodeId) (tag : Nat) (r : Reply) (s : State) : (answerMgmt who tag r s).fle = s.fle := fle_of_blocks (by simp)
@[simp] theorem cmc_answerMgmt (who : NodeId) (tag : Nat) (r : Reply) (s : State) : (answerMgmt who tag r s).cmc = s.cmc := cmc_of_blocks (by simp)
@[simp] theorem rqu_answerMgmt (who : NodeId) (tag : Nat) (r : Reply) (s : State) : (answerMgmt who tag r s).rqu = s.rqu := rqu_of_blocks (by simp)
@[simp] theorem rsv_answerMgmt (who : NodeId) (tag : Nat) (r : Reply) (s : State) : (answerMgmt who tag r s).rsv = s.rsv := rsv_of_blocks (by simp)
@[simp] theorem shu_answerMgmt (who : NodeId) (tag : Nat) (r : Reply) (s : State) : (answerMgmt who tag r s).shu = s.shu := shu_of_blocks (by simp)
@[simp] theorem cfu_answerMgmt (who : NodeId) (tag : Nat) (r : Reply) (s : State) : (answerMgmt who tag r s).cfu = s.cfu := cfu_of_blocks (by simp)
@[simp] theorem fwd_answerMgmt (who : NodeId) (tag : Nat) (r : Reply) (s : State) : (answerMgmt who tag r s).fsw.fwd = s.fsw.fwd := fwd_of_blocks (by simp)
@[simp] theorem watches_answerMgmt (who : NodeId) (tag : Nat) (r : Reply) (s : State) : (answerMgmt who tag r s).ntu.watches = s.ntu.watches := watches_of_blocks (by simp)

@[simp] theorem pending_enqueueOwn (p : Port) (f : Frame) (s : State) : (enqueueOwn p f s).pending = s.pending := pending_of_blocks (by simp)
@[simp] theorem now_enqueueOwn (p : Port) (f : Frame) (s : State) : (enqueueOwn p f s).now = s.now := now_of_blocks (by simp)
@[simp] theorem stamp_enqueueOwn (p : Port) (f : Frame) (s : State) : (enqueueOwn p f s).stamp = s.stamp := stamp_of_blocks (by simp)
@[simp] theorem freeCount_enqueueOwn (p : Port) (f : Frame) (s : State) : (enqueueOwn p f s).freeCount = s.freeCount := freeCount_of_blocks (by simp)
@[simp] theorem adm_enqueueOwn (p : Port) (f : Frame) (s : State) : (enqueueOwn p f s).adm = s.adm := adm_of_blocks (by simp)
@[simp] theorem dtu_enqueueOwn (p : Port) (f : Frame) (s : State) : (enqueueOwn p f s).dtu = s.dtu := dtu_of_blocks (by simp)
@[simp] theorem tdb_enqueueOwn (p : Port) (f : Frame) (s : State) : (enqueueOwn p f s).tdb = s.tdb := tdb_of_blocks (by simp)
@[simp] theorem fle_enqueueOwn (p : Port) (f : Frame) (s : State) : (enqueueOwn p f s).fle = s.fle := fle_of_blocks (by simp)
@[simp] theorem cmc_enqueueOwn (p : Port) (f : Frame) (s : State) : (enqueueOwn p f s).cmc = s.cmc := cmc_of_blocks (by simp)
@[simp] theorem rqu_enqueueOwn (p : Port) (f : Frame) (s : State) : (enqueueOwn p f s).rqu = s.rqu := rqu_of_blocks (by simp)
@[simp] theorem rsv_enqueueOwn (p : Port) (f : Frame) (s : State) : (enqueueOwn p f s).rsv = s.rsv := rsv_of_blocks (by simp)
@[simp] theorem shu_enqueueOwn (p : Port) (f : Frame) (s : State) : (enqueueOwn p f s).shu = s.shu := shu_of_blocks (by simp)
@[simp] theorem cfu_enqueueOwn (p : Port) (f : Frame) (s : State) : (enqueueOwn p f s).cfu = s.cfu := cfu_of_blocks (by simp)
@[simp] theorem fwd_enqueueOwn (p : Port) (f : Frame) (s : State) : (enqueueOwn p f s).fsw.fwd = s.fsw.fwd := fwd_of_blocks (by simp)
@[simp] theorem watches_enqueueOwn (p : Port) (f : Frame) (s : State) : (enqueueOwn p f s).ntu.watches = s.ntu.watches := watches_of_blocks (by simp)

@[simp] theorem pending_claimBacklogHead (p : Port) (s : State) : (claimBacklogHead p s).pending = s.pending := pending_of_blocks (by simp)
@[simp] theorem now_claimBacklogHead (p : Port) (s : State) : (claimBacklogHead p s).now = s.now := now_of_blocks (by simp)
@[simp] theorem stamp_claimBacklogHead (p : Port) (s : State) : (claimBacklogHead p s).stamp = s.stamp := stamp_of_blocks (by simp)
@[simp] theorem freeCount_claimBacklogHead (p : Port) (s : State) : (claimBacklogHead p s).freeCount = s.freeCount := freeCount_of_blocks (by simp)
@[simp] theorem adm_claimBacklogHead (p : Port) (s : State) : (claimBacklogHead p s).adm = s.adm := adm_of_blocks (by simp)
@[simp] theorem dtu_claimBacklogHead (p : Port) (s : State) : (claimBacklogHead p s).dtu = s.dtu := dtu_of_blocks (by simp)
@[simp] theorem tdb_claimBacklogHead (p : Port) (s : State) : (claimBacklogHead p s).tdb = s.tdb := tdb_of_blocks (by simp)
@[simp] theorem fle_claimBacklogHead (p : Port) (s : State) : (claimBacklogHead p s).fle = s.fle := fle_of_blocks (by simp)
@[simp] theorem cmc_claimBacklogHead (p : Port) (s : State) : (claimBacklogHead p s).cmc = s.cmc := cmc_of_blocks (by simp)
@[simp] theorem rqu_claimBacklogHead (p : Port) (s : State) : (claimBacklogHead p s).rqu = s.rqu := rqu_of_blocks (by simp)
@[simp] theorem rsv_claimBacklogHead (p : Port) (s : State) : (claimBacklogHead p s).rsv = s.rsv := rsv_of_blocks (by simp)
@[simp] theorem shu_claimBacklogHead (p : Port) (s : State) : (claimBacklogHead p s).shu = s.shu := shu_of_blocks (by simp)
@[simp] theorem cfu_claimBacklogHead (p : Port) (s : State) : (claimBacklogHead p s).cfu = s.cfu := cfu_of_blocks (by simp)
@[simp] theorem fwd_claimBacklogHead (p : Port) (s : State) : (claimBacklogHead p s).fsw.fwd = s.fsw.fwd := fwd_of_blocks (by simp)
@[simp] theorem watches_claimBacklogHead (p : Port) (s : State) : (claimBacklogHead p s).ntu.watches = s.ntu.watches := watches_of_blocks (by simp)

@[simp] theorem pending_emit (s : State) : (emit s).pending = s.pending := pending_of_steady (by simp)
@[simp] theorem now_emit (s : State) : (emit s).now = s.now := now_of_steady (by simp)
@[simp] theorem stamp_emit (s : State) : (emit s).stamp = s.stamp := stamp_of_steady (by simp)
@[simp] theorem freeCount_emit (s : State) : (emit s).freeCount = s.freeCount := freeCount_of_steady (by simp)
@[simp] theorem adm_emit (s : State) : (emit s).adm = s.adm := adm_of_steady (by simp)
@[simp] theorem dtu_emit (s : State) : (emit s).dtu = s.dtu := dtu_of_steady (by simp)
@[simp] theorem tdb_emit (s : State) : (emit s).tdb = s.tdb := tdb_of_steady (by simp)
@[simp] theorem cmc_emit (s : State) : (emit s).cmc = s.cmc := cmc_of_steady (by simp)
@[simp] theorem rqu_emit (s : State) : (emit s).rqu = s.rqu := rqu_of_steady (by simp)
@[simp] theorem rsv_emit (s : State) : (emit s).rsv = s.rsv := rsv_of_steady (by simp)
@[simp] theorem shu_emit (s : State) : (emit s).shu = s.shu := shu_of_steady (by simp)
@[simp] theorem cfu_emit (s : State) : (emit s).cfu = s.cfu := cfu_of_steady (by simp)
@[simp] theorem fwd_emit (s : State) : (emit s).fsw.fwd = s.fsw.fwd := fwd_of_steady (by simp)
@[simp] theorem watches_emit (s : State) : (emit s).ntu.watches = s.ntu.watches := watches_of_steady (by simp)

@[simp] theorem pending_endClaims (s : State) : (endClaims s).pending = s.pending := pending_of_steady (by simp)
@[simp] theorem now_endClaims (s : State) : (endClaims s).now = s.now := now_of_steady (by simp)
@[simp] theorem stamp_endClaims (s : State) : (endClaims s).stamp = s.stamp := stamp_of_steady (by simp)
@[simp] theorem freeCount_endClaims (s : State) : (endClaims s).freeCount = s.freeCount := freeCount_of_steady (by simp)
@[simp] theorem adm_endClaims (s : State) : (endClaims s).adm = s.adm := adm_of_steady (by simp)
@[simp] theorem dtu_endClaims (s : State) : (endClaims s).dtu = s.dtu := dtu_of_steady (by simp)
@[simp] theorem tdb_endClaims (s : State) : (endClaims s).tdb = s.tdb := tdb_of_steady (by simp)
@[simp] theorem cmc_endClaims (s : State) : (endClaims s).cmc = s.cmc := cmc_of_steady (by simp)
@[simp] theorem rqu_endClaims (s : State) : (endClaims s).rqu = s.rqu := rqu_of_steady (by simp)
@[simp] theorem rsv_endClaims (s : State) : (endClaims s).rsv = s.rsv := rsv_of_steady (by simp)
@[simp] theorem shu_endClaims (s : State) : (endClaims s).shu = s.shu := shu_of_steady (by simp)
@[simp] theorem cfu_endClaims (s : State) : (endClaims s).cfu = s.cfu := cfu_of_steady (by simp)
@[simp] theorem fwd_endClaims (s : State) : (endClaims s).fsw.fwd = s.fsw.fwd := fwd_of_steady (by simp)
@[simp] theorem watches_endClaims (s : State) : (endClaims s).ntu.watches = s.ntu.watches := watches_of_steady (by simp)

@[simp] theorem pending_finish (s : State) : (finish s).pending = s.pending := pending_of_steady (by simp)
@[simp] theorem now_finish (s : State) : (finish s).now = s.now := now_of_steady (by simp)
@[simp] theorem stamp_finish (s : State) : (finish s).stamp = s.stamp := stamp_of_steady (by simp)
@[simp] theorem freeCount_finish (s : State) : (finish s).freeCount = s.freeCount := freeCount_of_steady (by simp)
@[simp] theorem adm_finish (s : State) : (finish s).adm = s.adm := adm_of_steady (by simp)
@[simp] theorem dtu_finish (s : State) : (finish s).dtu = s.dtu := dtu_of_steady (by simp)
@[simp] theorem tdb_finish (s : State) : (finish s).tdb = s.tdb := tdb_of_steady (by simp)
@[simp] theorem cmc_finish (s : State) : (finish s).cmc = s.cmc := cmc_of_steady (by simp)
@[simp] theorem rqu_finish (s : State) : (finish s).rqu = s.rqu := rqu_of_steady (by simp)
@[simp] theorem rsv_finish (s : State) : (finish s).rsv = s.rsv := rsv_of_steady (by simp)
@[simp] theorem shu_finish (s : State) : (finish s).shu = s.shu := shu_of_steady (by simp)
@[simp] theorem cfu_finish (s : State) : (finish s).cfu = s.cfu := cfu_of_steady (by simp)
@[simp] theorem fwd_finish (s : State) : (finish s).fsw.fwd = s.fsw.fwd := fwd_of_steady (by simp)
@[simp] theorem watches_finish (s : State) : (finish s).ntu.watches = s.ntu.watches := watches_of_steady (by simp)
@[simp] theorem fwdGen_finish (s : State) : (finish s).fsw.fwdGen = s.fsw.fwdGen := fwdGen_of_steady (by simp)
@[simp] theorem seq_finish (s : State) : (finish s).fle.seq = s.fle.seq := seq_of_steady (by simp)
@[simp] theorem slotMaps_finish (s : State) : (finish s).fle.slotMaps = s.fle.slotMaps := slotMaps_of_steady (by simp)
@[simp] theorem refresh_finish (s : State) : (finish s).fle.refreshTimer = s.fle.refreshTimer := refresh_of_steady (by simp)

end Sys2Proof.Machine
end

