-- ==== Sys2Proof/Laws/Growth.lean ====
section
/-! SUPPORT. The operations on frames and notices as `Traffic`, `Raised` and `Placed` see them: ports only grow, episodes only
grow, and a frame once placed stays placed. -/

namespace Sys2Proof.Machine

/-! ## Ports -/

theorem PortGrows.refl (a : OutPort) : PortGrows a a := ⟨⟨[], [], by simp⟩, rfl, rfl, rfl, fun _ h => h⟩

theorem PortGrows.trans {a b c : OutPort} (h : PortGrows a b) (k : PortGrows b c) : PortGrows a c := by
  obtain ⟨⟨m, l, h1, h2, h3⟩, h4, h5, h6, h7⟩ := h
  obtain ⟨⟨m', l', k1, k2, k3⟩, k4, k5, k6, k7⟩ := k
  refine ⟨⟨m ++ m', l ++ l', by simp [k1, h1], ?_, by simp [k3, h3]⟩, by simp [k4, h4], by simp [k5, h5],
    by simp [k6, h6], fun x hx => k7 x (h7 x hx)⟩
  intro q hq
  rcases List.mem_append.1 hq with hq | hq
  · exact h2 q hq
  · exact k2 q hq

theorem PortGrows.offerNext (o : OutPort) : PortGrows o o.offerNext := by
  unfold OutPort.offerNext
  split
  · rename_i h
    have ho : o.offer = none := by simp at h; exact h.2
    split <;>
      refine ⟨⟨[], [], by simp⟩, rfl, rfl, rfl, fun x hx => ?_⟩ <;> simp [ho] at hx
  · exact PortGrows.refl o

/-! ## Traffic -/

theorem Traffic.refl (is : List NoticeId) (ps : List Port) (s : State) : Traffic is ps s s :=
  ⟨fun _ _ => PortGrows.refl _, fun _ _ _ => rfl⟩

theorem Traffic.trans {is : List NoticeId} {ps : List Port} {s t u : State} (h : Traffic is ps s t)
    (k : Traffic is ps t u) : Traffic is ps s u :=
  ⟨fun p hp => (h.1 p hp).trans (k.1 p hp), fun i hi hc => (k.2 i hi hc).trans (h.2 i hi hc)⟩

theorem Traffic.mono {is js : List NoticeId} {ps qs : List Port} {s t : State} (h : Traffic is ps s t)
    (hi : ∀ i ∈ is, i ∈ js) (hp : ∀ p ∈ ps, p ∈ qs) : Traffic js qs s t :=
  ⟨fun p hq => h.1 p fun m => hq (hp p m), fun i hj hc => h.2 i (fun m => hj (hi i m)) hc⟩

/-- A change outside FSW and NTU is no traffic. -/
theorem Traffic.of_eq {is : List NoticeId} {ps : List Port} {s t : State} (h : t.fsw = s.fsw) (k : t.ntu = s.ntu) :
    Traffic is ps s t := by
  have hp : ∀ p, t.port p = s.port p := fun p => by cases p <;> simp [State.port, h]
  exact ⟨fun p _ => hp p ▸ PortGrows.refl _, fun i _ _ => by rw [k]⟩

theorem Traffic.source {is : List NoticeId} {ps : List Port} (s : State) (i : NoticeId) (x : NoticeSource)
    (h : i ∈ is ∨ i = .congestion ∨ { x with sent := false } = { s.ntu.source i with sent := false }) :
    Traffic is ps s { s with ntu := s.ntu.setSource i x } := by
  refine ⟨fun p _ => ?_, fun j hj hc => ?_⟩
  · cases p <;> exact PortGrows.refl _
  · by_cases e : i = j
    · subst e
      rcases h with h | h | h
      · exact absurd h hj
      · exact absurd h hc
      · simpa using h
    · simp [source_setSource_ne _ _ _ _ e]

theorem Traffic.raise {is : List NoticeId} {ps : List Port} {i : NoticeId} (h : i ∈ is ∨ i = .congestion) (ms : List Member)
    (s : State) : Traffic is ps s (Machine.raise i ms s) :=
  Traffic.source s i _ (h.elim Or.inl fun e => Or.inr (Or.inl e))

theorem Traffic.raiseCommit {is : List NoticeId} {ps : List Port} (h : NoticeId.commit ∈ is) (ms : List Member) (g : Nat)
    (s : State) : Traffic is ps s (Machine.raiseCommit ms g s) := Traffic.source s .commit _ (Or.inl h)

theorem Traffic.frameError {is : List NoticeId} {ps : List Port} (h : NoticeId.frameError ∈ is) (p : Port) (s : State) :
    Traffic is ps s (Machine.frameError p s) := Traffic.raise (Or.inl h) _ _

theorem Traffic.setPort {is : List NoticeId} {ps : List Port} (s : State) (p : Port) (o : OutPort)
    (h : p ∈ ps ∨ PortGrows (s.port p) o) : Traffic is ps s (s.setPort p o) := by
  refine ⟨fun q hq => ?_, fun i _ _ => by simp⟩
  rw [port_setPort]
  split
  · rename_i e; subst e
    exact h.resolve_left hq
  · exact PortGrows.refl _

theorem Traffic.claimOwn {is : List NoticeId} {ps : List Port} (p : Port) (f : Frame) (s : State) :
    Traffic is ps s (Machine.claimOwn p f s) := by
  unfold Machine.claimOwn
  dsimp only
  split
  · exact Traffic.setPort _ _ _ (Or.inr ⟨⟨[⟨true, f⟩], [], by simp⟩, rfl, rfl, rfl, fun _ h => h⟩)
  · split
    · exact Traffic.setPort _ _ _ (Or.inr ⟨⟨[], [f], by simp⟩, rfl, rfl, rfl, fun _ h => h⟩)
    · exact Traffic.raise (Or.inr rfl) _ _

theorem Traffic.placeOwn {is : List NoticeId} {ps : List Port} (b : OwnBlock) (f : Frame) (s : State) :
    Traffic is ps s (Machine.placeOwn b f s) := by
  unfold Machine.placeOwn
  split
  · exact Traffic.of_eq rfl rfl
  · exact Traffic.raise (Or.inr rfl) _ _

theorem Traffic.answer {is : List NoticeId} {ps : List Port} (b : OwnBlock) (dest : NodeId) (tag : Nat) (o : RouteOutcome)
    (g : Nat) (xs : List PathResult) (s : State) : Traffic is ps s (Machine.answer b dest tag o g xs s) :=
  Traffic.placeOwn _ _ _

theorem Traffic.answerNow {is : List NoticeId} {ps : List Port} (b : OwnBlock) (dest : NodeId) (tag : Nat) (o : RouteOutcome)
    (s : State) : Traffic is ps s (Machine.answerNow b dest tag o s) := Traffic.placeOwn _ _ _

theorem Traffic.enqueueOwn {is : List NoticeId} {ps : List Port} (p : Port) (f : Frame) (s : State) :
    Traffic is ps s (Machine.enqueueOwn p f s) :=
  Traffic.setPort _ _ _ (Or.inr ⟨⟨[⟨true, f⟩], [], by simp⟩, rfl, rfl, rfl, fun _ h => h⟩)

theorem Traffic.fleClaim {is : List NoticeId} {ps : List Port} (d : Degree) (s : State) :
    Traffic is ps s (Machine.fleClaim d s) := by
  have hf : ∀ x, Traffic is ps s (s.setFlood d x) := fun x => Traffic.of_eq rfl rfl
  unfold Machine.fleClaim
  dsimp only
  split
  · split
    · exact (hf _).trans (Traffic.enqueueOwn _ _ _)
    · split
      · exact (hf _).trans (Traffic.enqueueOwn _ _ _)
      · split
        · exact (hf _).trans (Traffic.enqueueOwn _ _ _)
        · exact hf _
  · exact Traffic.refl _ _ _

theorem Traffic.repeatOn {is : List NoticeId} {ps : List Port} (f : State → State) (h : ∀ s, Traffic is ps s (f s)) (n : Nat)
    (s : State) : Traffic is ps s (Machine.repeatOn f n s) := by
  induction n generalizing s with
  | zero => exact Traffic.refl _ _ _
  | succ n ih => exact (h s).trans (ih _)

theorem Traffic.fleClaimsAt {is : List NoticeId} {ps : List Port} (p : Port) (s : State) :
    Traffic is ps s (Machine.fleClaimsAt p s) := by
  cases p with
  | deg d => exact Traffic.repeatOn _ (Traffic.fleClaim d) _ _
  | np => exact Traffic.refl _ _ _

theorem Traffic.claimDirect {is : List NoticeId} {ps : List Port} (p : Port) (f : Frame) (s : State) :
    Traffic is ps s (Machine.claimDirect p f s) := (Traffic.fleClaimsAt p s).trans (Traffic.claimOwn _ _ _)

theorem Traffic.markSent {is : List NoticeId} {ps : List Port} (s : State) (i : NoticeId) :
    Traffic is ps s (Machine.markSent s i) := Traffic.source s i _ (Or.inr (Or.inr rfl))

theorem Traffic.foldl {is : List NoticeId} {ps : List Port} {β : Type} (f : State → β → State)
    (h : ∀ s b, Traffic is ps s (f s b)) (l : List β) (s : State) : Traffic is ps s (l.foldl f s) := by
  induction l generalizing s with
  | nil => exact Traffic.refl _ _ _
  | cons b l ih => exact (h s b).trans (ih _)

theorem Traffic.emitDue {is : List NoticeId} {ps : List Port} (s : State) : Traffic is ps s (Machine.emitDue s) :=
  (Traffic.foldl _ Traffic.markSent _ _).trans (Traffic.foldl _ (fun _ _ => Traffic.claimDirect _ _ _) _ _)

theorem Traffic.holdDue {is : List NoticeId} {ps : List Port} (s : State) : Traffic is ps s (Machine.holdDue s) := by
  unfold Machine.holdDue
  exact Traffic.trans (Traffic.of_eq rfl rfl) (Traffic.foldl _ Traffic.markSent _ _)

theorem Traffic.emit {is : List NoticeId} {ps : List Port} (s : State) : Traffic is ps s (Machine.emit s) :=
  (Traffic.emitDue s).trans (Traffic.emitDue _)

theorem Traffic.takeClaims {is : List NoticeId} {ps : List Port} (b : OwnBlock) (cs : List OwnClaim) (s : State) :
    Traffic is ps s (Machine.takeClaims b cs s) := Traffic.foldl _ (fun _ _ => Traffic.claimDirect _ _ _) _ _

theorem Traffic.endClaims {is : List NoticeId} {ps : List Port} (s : State) : Traffic is ps s (Machine.endClaims s) :=
  ((((Traffic.of_eq (t := { s with claims := [] }) rfl rfl).trans (Traffic.takeClaims _ _ _)).trans
    (Traffic.takeClaims _ _ _)).trans ((Traffic.takeClaims _ _ _).trans (Traffic.emit _))).trans
    ((Traffic.takeClaims _ _ _).trans (Traffic.emitDue _))

theorem port_offerAll (s : State) (p : Port) : (offerAll s).port p = (s.port p).offerNext := by
  cases p <;> simp [offerAll, State.port]

theorem Traffic.offerAll {is : List NoticeId} {ps : List Port} (s : State) : Traffic is ps s (Machine.offerAll s) :=
  ⟨fun p _ => port_offerAll s p ▸ PortGrows.offerNext _, fun _ _ _ => rfl⟩

theorem Traffic.finish {is : List NoticeId} {ps : List Port} (s : State) : Traffic is ps s (Machine.finish s) :=
  (Traffic.endClaims s).trans (Traffic.offerAll _)

theorem Traffic.answerMgmt {is : List NoticeId} {ps : List Port} (who : NodeId) (tag : Nat) (r : Reply) (s : State) :
    Traffic is ps s (Machine.answerMgmt who tag r s) := Traffic.placeOwn _ _ _

/-! ## Episodes only grow -/

theorem mem_insertBy_of_mem {α : Type} (lt : α → α → Bool) (a x : α) (l : List α) (h : x ∈ l) : x ∈ insertBy lt a l := by
  induction l with
  | nil => simp at h
  | cons b l ih =>
    unfold insertBy
    split
    · exact List.mem_cons_of_mem _ h
    · split
      · rcases List.mem_cons.1 h with h | h
        · simp [h]
        · exact List.mem_cons_of_mem _ (ih h)
      · exact h

theorem code_injective {a b : Member} (h : a.code = b.code) : a = b := by
  have hd : ∀ d : Degree, d.val < 8 := fun d => d.isLt
  cases a with
  | degree d => cases b with
    | degree e => have := hd d; have := hd e; simp only [Member.code] at h; congr 1; ext; omega
    | port p => cases p with
      | deg e => have := hd d; have := hd e; simp only [Member.code] at h; omega
      | np => have := hd d; simp only [Member.code] at h; omega
    | domain n => have := hd d; simp only [Member.code] at h; omega
    | watch n => have := hd d; simp only [Member.code] at h; omega
    | absent | invalid | nodeTable | linkTable | forced | urgent | added | full | late | unreachable | queueFull | noRoute
    | jumped | exhausted => simp only [Member.code] at h; omega
  | port p => cases p with
    | deg d => cases b with
      | degree e => have := hd d; have := hd e; simp only [Member.code] at h; omega
      | port q => cases q with
        | deg e => have := hd d; have := hd e; simp only [Member.code] at h; congr 2; ext; omega
        | np => have := hd d; simp only [Member.code] at h; omega
      | domain n => have := hd d; simp only [Member.code] at h; omega
      | watch n => have := hd d; simp only [Member.code] at h; omega
      | absent | invalid | nodeTable | linkTable | forced | urgent | added | full | late | unreachable | queueFull | noRoute
      | jumped | exhausted => simp only [Member.code] at h; omega
    | np => cases b with
      | degree e => have := hd e; simp only [Member.code] at h; omega
      | port q => cases q with
        | deg e => have := hd e; simp only [Member.code] at h; omega
        | np => rfl
      | domain n => simp only [Member.code] at h; omega
      | watch n => simp only [Member.code] at h; omega
      | absent | invalid | nodeTable | linkTable | forced | urgent | added | full | late | unreachable | queueFull | noRoute
      | jumped | exhausted => simp only [Member.code] at h; omega
  | domain n => cases b with
    | degree e => have := hd e; simp only [Member.code] at h; omega
    | port q => cases q with
      | deg e => have := hd e; simp only [Member.code] at h; omega
      | np => simp only [Member.code] at h; omega
    | domain m => simp only [Member.code] at h; congr 1; omega
    | watch m => simp only [Member.code] at h; omega
    | absent | invalid | nodeTable | linkTable | forced | urgent | added | full | late | unreachable | queueFull | noRoute
    | jumped | exhausted => simp only [Member.code] at h; omega
  | watch n => cases b with
    | degree e => have := hd e; simp only [Member.code] at h; omega
    | port q => cases q with
      | deg e => have := hd e; simp only [Member.code] at h; omega
      | np => simp only [Member.code] at h; omega
    | domain m => simp only [Member.code] at h; omega
    | watch m => simp only [Member.code] at h; congr 1; omega
    | absent | invalid | nodeTable | linkTable | forced | urgent | added | full | late | unreachable | queueFull | noRoute
    | jumped | exhausted => simp only [Member.code] at h; omega
  | absent | invalid | nodeTable | linkTable | forced | urgent | added | full | late | unreachable | queueFull | noRoute
  | jumped | exhausted =>
    cases b with
    | degree e => have := hd e; simp only [Member.code] at h; omega
    | port q => cases q with
      | deg e => have := hd e; simp only [Member.code] at h; omega
      | np => simp only [Member.code] at h; omega
    | domain m => simp only [Member.code] at h; omega
    | watch m => simp only [Member.code] at h; omega
    | absent | invalid | nodeTable | linkTable | forced | urgent | added | full | late | unreachable | queueFull | noRoute
    | jumped | exhausted => first | rfl | (simp only [Member.code] at h; omega)

theorem mem_insertBy_self (m : Member) (l : List Member) : m ∈ insertBy memberLt m l := by
  induction l with
  | nil => simp [insertBy]
  | cons b l ih =>
    unfold insertBy
    split
    · simp
    · split
      · exact List.mem_cons_of_mem _ ih
      · rename_i h k
        have : m = b := code_injective (by simp [memberLt] at h k; omega)
        simp [this]

theorem mem_addMembers_of_mem (x : Member) (ms l : List Member) (h : x ∈ l) : x ∈ addMembers ms l := by
  unfold addMembers
  induction ms generalizing l with
  | nil => exact h
  | cons m ms ih => exact ih _ (mem_insertBy_of_mem _ _ _ _ h)

theorem mem_addMembers (x : Member) (ms l : List Member) (h : x ∈ ms) : x ∈ addMembers ms l := by
  unfold addMembers
  induction ms generalizing l with
  | nil => simp at h
  | cons m ms ih =>
    rcases List.mem_cons.1 h with h | h
    · subst h; exact mem_addMembers_of_mem x ms _ (mem_insertBy_self x l)
    · exact ih _ h

/-- An event leaves its source pending with its members in the detail (R192). -/
theorem raised_raise {i : NoticeId} {m : Member} {ms : List Member} (h : m ∈ ms) (s : State) :
    Raised i m (raise i ms s) := by
  unfold Raised raise NoticeSource.raise
  split <;> simp_all [mem_addMembers]

theorem pending_raise_self (i : NoticeId) (ms : List Member) (s : State) : ((raise i ms s).ntu.source i).pending = true := by
  unfold raise NoticeSource.raise
  split <;> simp_all

/-- Episodes of `t` hold what those of `s` held. -/
def Keeps (s t : State) : Prop :=
  ∀ i, (s.ntu.source i).pending = true →
    (t.ntu.source i).pending = true ∧ ∀ m ∈ (s.ntu.source i).detail, m ∈ (t.ntu.source i).detail

theorem Keeps.refl (s : State) : Keeps s s := fun _ h => ⟨h, fun _ k => k⟩

theorem Keeps.trans {s t u : State} (h : Keeps s t) (k : Keeps t u) : Keeps s u := fun i hi =>
  ⟨(k i (h i hi).1).1, fun m hm => (k i (h i hi).1).2 m ((h i hi).2 m hm)⟩

theorem Keeps.of_eq {s t : State} (h : t.ntu = s.ntu) : Keeps s t := fun i hi => by rw [h]; exact ⟨hi, fun _ k => k⟩

theorem Keeps.source (s : State) (i : NoticeId) (x : NoticeSource)
    (h : (s.ntu.source i).pending = true → x.pending = true ∧ ∀ m ∈ (s.ntu.source i).detail, m ∈ x.detail) :
    Keeps s { s with ntu := s.ntu.setSource i x } := by
  intro j hj
  by_cases e : i = j
  · subst e; simpa using h hj
  · simp [source_setSource_ne _ _ _ _ e, hj]

theorem Keeps.raise (i : NoticeId) (ms : List Member) (s : State) : Keeps s (Machine.raise i ms s) :=
  Keeps.source _ _ _ fun h => by
    unfold NoticeSource.raise; simp only [h, if_true]; exact ⟨trivial, fun m hm => mem_addMembers_of_mem _ _ _ hm⟩

theorem Keeps.raiseCommit (ms : List Member) (g : Nat) (s : State) : Keeps s (Machine.raiseCommit ms g s) :=
  Keeps.source _ _ _ fun h => by
    unfold NoticeSource.raise; simp only [h, if_true]; exact ⟨trivial, fun m hm => mem_addMembers_of_mem _ _ _ hm⟩

theorem Keeps.claimOwn (p : Port) (f : Frame) (s : State) : Keeps s (Machine.claimOwn p f s) := by
  unfold Machine.claimOwn
  dsimp only
  split
  · exact Keeps.of_eq (by simp)
  · split
    · exact Keeps.of_eq (by simp)
    · exact Keeps.raise _ _ _

theorem Keeps.placeOwn (b : OwnBlock) (f : Frame) (s : State) : Keeps s (Machine.placeOwn b f s) := by
  unfold Machine.placeOwn
  split
  · exact Keeps.of_eq rfl
  · exact Keeps.raise _ _ _

theorem Keeps.answer (b : OwnBlock) (dest : NodeId) (tag : Nat) (o : RouteOutcome) (g : Nat) (xs : List PathResult)
    (s : State) : Keeps s (Machine.answer b dest tag o g xs s) := Keeps.placeOwn _ _ _

theorem Keeps.answerNow (b : OwnBlock) (dest : NodeId) (tag : Nat) (o : RouteOutcome) (s : State) :
    Keeps s (Machine.answerNow b dest tag o s) := Keeps.placeOwn _ _ _

theorem ntu_fleClaim (d : Degree) (s : State) : (fleClaim d s).ntu = s.ntu := by
  unfold fleClaim enqueueOwn
  dsimp only
  split
  · split
    · simp
    · split
      · simp
      · split <;> simp
  · rfl

@[simp] theorem ntu_fleClaimsAt (p : Port) (s : State) : (fleClaimsAt p s).ntu = s.ntu := by
  cases p with
  | deg d => exact repeatOn_keeps State.ntu _ (ntu_fleClaim d) _ _
  | np => rfl

theorem Keeps.claimDirect (p : Port) (f : Frame) (s : State) : Keeps s (Machine.claimDirect p f s) :=
  (Keeps.of_eq (ntu_fleClaimsAt p s)).trans (Keeps.claimOwn _ _ _)

theorem Keeps.foldl {β : Type} (f : State → β → State) (h : ∀ s b, Keeps s (f s b)) (l : List β) (s : State) :
    Keeps s (l.foldl f s) := by
  induction l generalizing s with
  | nil => exact Keeps.refl _
  | cons b l ih => exact (h s b).trans (ih _)

theorem Keeps.markSent (s : State) (i : NoticeId) : Keeps s (Machine.markSent s i) :=
  Keeps.source s i _ fun h => ⟨h, fun _ k => k⟩

theorem Keeps.emitDue (s : State) : Keeps s (Machine.emitDue s) :=
  (Keeps.foldl _ Keeps.markSent _ _).trans
    (Keeps.foldl _ (fun _ _ => Keeps.claimDirect _ _ _) _ _)

theorem Keeps.holdDue (s : State) : Keeps s (Machine.holdDue s) := by
  have h (cs : List OwnClaim) : Keeps s ((dueSources s).foldl Machine.markSent { s with claims := cs }) :=
    Keeps.trans (t := { s with claims := cs }) (Keeps.of_eq rfl) (Keeps.foldl _ Keeps.markSent _ _)
  exact h _

theorem Keeps.emit (s : State) : Keeps s (Machine.emit s) := (Keeps.emitDue s).trans (Keeps.emitDue _)

theorem Keeps.takeClaims (b : OwnBlock) (cs : List OwnClaim) (s : State) : Keeps s (Machine.takeClaims b cs s) :=
  Keeps.foldl _ (fun _ _ => Keeps.claimDirect _ _ _) _ _

theorem Keeps.endClaims (s : State) : Keeps s (Machine.endClaims s) :=
  ((((Keeps.of_eq (t := { s with claims := [] }) rfl).trans (Keeps.takeClaims _ _ _)).trans (Keeps.takeClaims _ _ _)).trans
    ((Keeps.takeClaims _ _ _).trans (Keeps.emit _))).trans ((Keeps.takeClaims _ _ _).trans (Keeps.emitDue _))

theorem Keeps.finish (s : State) : Keeps s (Machine.finish s) := (Keeps.endClaims s).trans (Keeps.of_eq rfl)

theorem Raised.keeps {i : NoticeId} {m : Member} {s t : State} (h : Raised i m s) (k : Keeps s t) : Raised i m t :=
  ⟨(k i h.1).1, (k i h.1).2 m h.2⟩

/-! ## A frame placed stays placed -/

theorem Waits.grows {p : Port} {f : Frame} {s t : State} (h : Waits p f s) (k : PortGrows (s.port p) (t.port p)) :
    Waits p f t := by
  obtain ⟨⟨m, l, k1, _, k3⟩, _⟩ := k
  rcases h with h | h
  · left; rw [k1]; exact List.mem_append_left _ h
  · right; rw [k3]; exact List.mem_append_left _ h

/-- A backlog that is full stays full. -/
def Full (s t : State) : Prop :=
  ∀ q, Config.backlogSize ≤ (s.port q).backlog.length → Config.backlogSize ≤ (t.port q).backlog.length

theorem Traffic.full {is : List NoticeId} {s t : State} (h : Traffic is [] s t) : Full s t := fun q hq => by
  obtain ⟨⟨m, l, _, _, h3⟩, _⟩ := h.1 q (by simp)
  rw [h3, List.length_append]; omega

theorem routeOwn_of_steady {s t : State} (h : t.steady = s.steady) (n : NodeId) : routeOwn t n = routeOwn s n := by
  have h1 := adm_of_steady h
  have h2 := fwd_of_steady h
  have h3 := cfu_of_steady h
  simp [routeOwn, lookup, State.nodeId, State.adjacency, h1, h2, h3]

theorem StandsAt.grows {p : Port} {f : Frame} {s t : State} (h : StandsAt p f s) (k : Traffic [] [] s t) (c : Keeps s t) :
    StandsAt p f t := by
  rcases h with h | h
  · exact Or.inl (h.grows (k.1 p (by simp)))
  · exact Or.inr ⟨k.full p h.1, (c _ h.2).1⟩

/-- A claim: the frame stands at its port (R18). -/
theorem standsAt_claimOwn (p : Port) (f : Frame) (s : State) : StandsAt p f (claimOwn p f s) := by
  unfold claimOwn
  dsimp only
  split
  · left; left; simp
  · split
    · left; right; simp
    · rename_i h
      right
      refine ⟨?_, pending_raise_self _ _ _⟩
      have : ((raise .congestion [.queueFull] s).port p) = s.port p := by cases p <;> rfl
      rw [this]; omega

theorem standsAt_takeClaims {b : OwnBlock} {p : Port} {f : Frame} {cs : List OwnClaim} (h : ⟨b, p, f⟩ ∈ cs) (s : State) :
    StandsAt p f (takeClaims b cs s) := by
  have hm : ⟨b, p, f⟩ ∈ cs.filter fun c => c.block == b := by simp [h]
  unfold takeClaims
  generalize cs.filter (fun c => c.block == b) = l at hm
  induction l generalizing s with
  | nil => simp at hm
  | cons c l ih =>
    rw [List.foldl_cons]
    rcases List.mem_cons.1 hm with e | e
    · subst e
      exact (standsAt_claimOwn p f _).grows (Traffic.foldl _ (fun _ _ => Traffic.claimDirect _ _ _) _ _)
        (Keeps.foldl _ (fun _ _ => Keeps.claimDirect _ _ _) _ _)
    · exact ih _ e

/-- A frame among the direct claims of an event stands at its port when the event has ended (R20). -/
theorem standsAt_finish {b : OwnBlock} {p : Port} {f : Frame} {s : State} (h : ⟨b, p, f⟩ ∈ s.claims) :
    StandsAt p f (finish s) := by
  refine StandsAt.grows (s := endClaims s) ?_ (Traffic.offerAll _) (Keeps.of_eq rfl)
  unfold endClaims
  dsimp only
  have tt {u : State} : Traffic [] [] u (emitDue (takeClaims .cfu s.claims (emit u))) :=
    (Traffic.emit _).trans ((Traffic.takeClaims _ _ _).trans (Traffic.emitDue _))
  have kk {u : State} : Keeps u (emitDue (takeClaims .cfu s.claims (emit u))) :=
    (Keeps.emit _).trans ((Keeps.takeClaims _ _ _).trans (Keeps.emitDue _))
  cases b with
  | rqu =>
    exact (standsAt_takeClaims h _).grows ((Traffic.takeClaims _ _ _).trans ((Traffic.takeClaims _ _ _).trans tt))
      ((Keeps.takeClaims _ _ _).trans ((Keeps.takeClaims _ _ _).trans kk))
  | shu => exact (standsAt_takeClaims h _).grows ((Traffic.takeClaims _ _ _).trans tt) ((Keeps.takeClaims _ _ _).trans kk)
  | ntu => exact (standsAt_takeClaims h _).grows tt kk
  | cfu =>
    exact (standsAt_takeClaims h _).grows (Traffic.emitDue _) (Keeps.emitDue _)

/-- A frame of RQU, SHU, NTU or CFU was originated: it is among the direct claims of the event at the port its destination gives,
or it had no route and CONGESTION is pending (R16, R20). -/
def Claimed (f : Frame) (s : State) : Prop :=
  (∀ p, routeOwn s f.dst = some p → ∃ b, ⟨b, p, f⟩ ∈ s.claims) ∧
  (routeOwn s f.dst = none → (s.ntu.source .congestion).pending = true)

/-- A frame that RQU, SHU or CFU places is claimed for (R16). -/
theorem claimed_placeOwn (b : OwnBlock) (f : Frame) (s : State) : Claimed f (placeOwn b f s) := by
  have hr : routeOwn (placeOwn b f s) f.dst = routeOwn s f.dst := routeOwn_of_steady (steady_of_blocks (by simp)) _
  unfold Claimed
  rw [hr]
  unfold placeOwn
  split
  · rename_i p h
    refine ⟨fun q hq => ⟨b, ?_⟩, fun hn => by simp [h] at hn⟩
    have : p = q := by simpa [h] using hq
    simp [this]
  · rename_i h
    exact ⟨fun q hq => by simp [h] at hq, fun _ => pending_raise_self _ _ _⟩

/-- What follows within the event leaves the claim: the route stays, the claims and the episodes only grow. -/
theorem Claimed.grows {f : Frame} {s t : State} (h : Claimed f s) (hr : routeOwn t f.dst = routeOwn s f.dst)
    (hc : ∀ c ∈ s.claims, c ∈ t.claims) (k : Keeps s t) : Claimed f t :=
  ⟨fun p hp => (h.1 p (hr ▸ hp)).imp fun _ hb => hc _ hb, fun hn => (k _ (h.2 (hr ▸ hn))).1⟩

/-- A frame claimed for is placed when the event has ended (R16 to R20). -/
theorem Claimed.finish {f : Frame} {s : State} (h : Claimed f s) : Placed f (Machine.finish s) := by
  have hr : routeOwn (Machine.finish s) f.dst = routeOwn s f.dst := routeOwn_of_steady (by simp) _
  refine ⟨fun p hp => ?_, fun hp => (Keeps.finish s _ (h.2 (hr ▸ hp))).1⟩
  obtain ⟨b, hb⟩ := h.1 p (hr ▸ hp)
  exact standsAt_finish hb

theorem routeaFrame_eq (s : State) (dest : NodeId) (tag : Nat) (o : RouteOutcome) (g : Nat) (xs : List PathResult) :
    routeaFrame s dest tag o g xs = ⟨0x06, if dest = 65535 then 1 else 64, 0, s.nodeId, dest,
      .routea ⟨tag, o.code, g, xs.map PathResult.block⟩⟩ := by
  simp [routeaFrame, ownFrame, kindRoutea, neighbourDst]

/-- An answer of an event is placed when the event has ended. -/
theorem routeAnswered_finish {dest : NodeId} {tag : Nat} {o : RouteOutcome} {g : Nat} {xs : List PathResult} {s t : State}
    (h : Claimed (routeaFrame s dest tag o g xs) t) (hn : t.nodeId = s.nodeId) :
    RouteAnswered dest tag o g xs (finish t) := by
  have hf : (finish t).nodeId = s.nodeId := by rw [← hn]; simp [State.nodeId]
  unfold RouteAnswered routeAnswer
  rw [hf, ← routeaFrame_eq]
  exact h.finish

theorem routeAnswered_answer (b : OwnBlock) (dest : NodeId) (tag : Nat) (o : RouteOutcome) (g : Nat) (xs : List PathResult)
    (s : State) : RouteAnswered dest tag o g xs (finish (answer b dest tag o g xs s)) :=
  routeAnswered_finish (claimed_placeOwn _ _ _) (by simp [State.nodeId])

theorem routeAnswered_answerNow (b : OwnBlock) (dest : NodeId) (tag : Nat) (o : RouteOutcome) (s : State) :
    RouteAnswered dest tag o s.cmc.gen [] (finish (answerNow b dest tag o s)) := routeAnswered_answer _ _ _ _ _ _ _

/-! ## Management commands (R206) -/

theorem identity_ne (m : MgmtFrom) (s : State) (h : badSender s m.port m.src = false) : identity m.port m.src ≠ 65535 := by
  cases hp : m.port <;> simp_all [identity, badSender]

theorem answered_answerMgmt (m : MgmtFrom) (r : Reply) (s : State) (h : identity m.port m.src ≠ 65535) :
    Answered m r.code r.data (finish (answerMgmt (identity m.port m.src) m.tag r s)) := by
  have hn : (finish (answerMgmt (identity m.port m.src) m.tag r s)).nodeId = s.nodeId := by simp [State.nodeId]
  have := (claimed_placeOwn .cfu (ownFrame s kindMgmta (identity m.port m.src) (.mgmta m.tag r.code r.data)) s).finish
  unfold Answered
  rw [hn]
  simpa [answerMgmt, ownFrame, kindMgmta, neighbourDst, h] using this

/-- What a management command does once it reaches its owning rule (R206): its own effect, the answer placed, and the end of
the event. -/
theorem manageFrom_commanded (m : MgmtFrom) (f : State → Done) (s : State) (h : Commanded m s) :
    manageFrom m f s = answerMgmt (identity m.port m.src) m.tag (f s).2 (f s).1 := by
  obtain ⟨h1, h2, h3, h4⟩ := h
  simp [manageFrom, manage, h1, h2, h3, h4]

/-- A command that reaches its owning rule, whole: what its rule leaves of the part beside FLE's lists and the traffic, and of
FLE's lists where FLE has nothing to place; its answer placed, the rest of the traffic grown. -/
theorem commanded_event (m : MgmtFrom) (f : State → Done) (s : State) (h : Commanded m (settle s)) :
    ∃ t, event (manageFrom m f) s = .next t ∧ t.steady = (f (settle s)).1.steady ∧
      (FloodDone (f (settle s)).1 → t.blocks = (f (settle s)).1.blocks) ∧
      Answered m (f (settle s)).2.code (f (settle s)).2.data t ∧
      (∀ is ps, Traffic is ps (f (settle s)).1 t) ∧ Keeps (f (settle s)).1 t := by
  refine ⟨_, rfl, ?_, ?_, ?_, ?_, ?_⟩ <;> rw [manageFrom_commanded _ _ _ h]
  · rw [steady_finish, steady_of_blocks (blocks_answerMgmt _ _ _ _)]
  · intro k
    rw [FloodDone.blocks_finish, blocks_answerMgmt]
    refine k.shrinks (FloodShrinks.of_queues (by simp) (by simp) fun d => ?_)
    obtain ⟨⟨_, _, e, _⟩, _⟩ := (Traffic.answerMgmt (is := []) (ps := []) (identity m.port m.src) m.tag
      (f (settle s)).2 (f (settle s)).1).1 (.deg d) (by simp)
    rw [e, List.length_append]; omega
  · exact answered_answerMgmt m _ _ (identity_ne m _ h.2.1)
  · exact fun is ps => (Traffic.answerMgmt _ _ _ _).trans (Traffic.finish _)
  · exact (Keeps.placeOwn _ _ _).trans (Keeps.finish _)

end Sys2Proof.Machine
end

