-- ==== Sys2Proof/Laws/Commit.lean ====
section
/-! SUPPORT. What the requests to the commit controller, its abort and the return of a request do: the parts of the state they
may change, the traffic they make, and the urgent request as `UrgentTaken` states it, with the requests an abort returns. -/

namespace Sys2Proof.Machine

/-! ## A request returned (R131) -/

theorem blocks_returnRequest (r : Request) (s : State) :
    (returnRequest r s).blocks = { s with rqu := (returnRequest r s).rqu }.blocks := by
  by_cases h : r.retries < 2
  · simp [returnRequest, h, State.blocks]
  · have hb : (returnRequest r s).blocks = s.blocks := by simp [returnRequest, h]
    rw [hb, rqu_of_blocks hb]

theorem Traffic.returnRequest {is : List NoticeId} {ps : List Port} (r : Request) (s : State) :
    Traffic is ps s (Machine.returnRequest r s) := by
  unfold Machine.returnRequest
  split
  · exact Traffic.of_eq rfl rfl
  · exact Traffic.answerNow _ _ _ _ _

theorem blocks_returnRequests (rs : List Request) (s : State) :
    (rs.foldl (fun t r => returnRequest r t) s).blocks =
      { s with rqu := (rs.foldl (fun t r => returnRequest r t) s).rqu }.blocks := by
  induction rs generalizing s with
  | nil => rfl
  | cons r rs ih =>
    have h1 := ih (returnRequest r s)
    have h2 := blocks_returnRequest r s
    rw [List.foldl_cons, h1]
    generalize (rs.foldl (fun t r => returnRequest r t) (returnRequest r s)).rqu = q
    have h3 := congrArg (fun t : State => { t with rqu := q }) h2
    simpa [State.blocks] using h3

theorem Traffic.returnRequests {is : List NoticeId} {ps : List Port} (rs : List Request) (s : State) :
    Traffic is ps s (rs.foldl (fun t r => Machine.returnRequest r t) s) :=
  Traffic.foldl _ (fun t r => Traffic.returnRequest r t) rs s

/-! ## The abort (R112) -/

theorem blocks_abort (s : State) :
    (abort s).blocks = { s with rqu := (abort s).rqu, rsv := s.rsv.finishAll .aborted }.blocks :=
  blocks_returnRequests _ _

theorem Traffic.abort {is : List NoticeId} {ps : List Port} (s : State) : Traffic is ps s (Machine.abort s) :=
  (Traffic.of_eq (t := { s with rsv := s.rsv.finishAll .aborted }) rfl rfl).trans (Traffic.returnRequests _ _)

theorem rsv_abort (s : State) : (abort s).rsv = s.rsv.finishAll .aborted := rsv_of_blocks (blocks_abort s)

theorem cmc_abort (s : State) : (abort s).cmc = s.cmc :=
  cmc_of_blocks (t := abort s) (s := { s with rqu := (abort s).rqu, rsv := s.rsv.finishAll .aborted }) (blocks_abort s)

theorem work_finish (e : WorkEnd) (l : Lane) : (l.finish e).work = .idle := by
  unfold Lane.finish
  split
  · rename_i h; simpa [Lane.isIdle] using h
  · rfl

/-! ## The requests an abort returns (R131, R132, R163) -/

/-- What a step that ends an event keeps of its last state: the lanes, the requests, CMC, the routes; and the frames claimed for are
placed. -/
def Ends (v t : State) : Prop :=
  t.rsv = v.rsv ∧ t.rqu = v.rqu ∧ t.cmc = v.cmc ∧ t.fsw.fwd = v.fsw.fwd ∧ t.fsw.fwdGen = v.fsw.fwdGen ∧
  t.nodeId = v.nodeId ∧ ∀ f, Claimed f v → Placed f t

theorem ends_finish (v : State) : Ends v (finish v) :=
  ⟨by simp, by simp, by simp, by simp, by simp, by simp [State.nodeId], fun _ h => h.finish⟩

theorem ends_answerMgmt (who : NodeId) (tag : Nat) (r : Reply) (v : State) : Ends v (finish (answerMgmt who tag r v)) := by
  refine ⟨by simp, by simp, by simp, by simp, ?_, by simp [State.nodeId], fun f h => ?_⟩
  · rw [fwdGen_finish, answerMgmt]; exact fwdGen_of_steady (steady_of_blocks (by simp))
  · refine (h.grows (routeOwn_of_steady (steady_of_blocks (by simp)) _) ?_ (Keeps.placeOwn _ _ _)).finish
    unfold placeOwn
    split
    · exact fun c hc => List.mem_append_left _ hc
    · exact fun c hc => hc

theorem queue_returnRequest (r : Request) (s : State) :
    (returnRequest r s).rqu = { s.rqu with queue := requeued s.rqu.queue r } := by
  unfold returnRequest requeued
  split
  · rfl
  · simp

theorem rqu_returnRequests (rs : List Request) (s : State) :
    (rs.foldl (fun t r => returnRequest r t) s).rqu = { s.rqu with queue := rs.foldl requeued s.rqu.queue } := by
  induction rs generalizing s with
  | nil => rfl
  | cons r rs ih => rw [List.foldl_cons, ih, queue_returnRequest]; rfl

/-- Returned requests leave the routes, the generation and the node ID alone, and only add claims and episodes. -/
theorem returnRequest_keeps (r : Request) (s : State) :
    (∀ n, routeOwn (returnRequest r s) n = routeOwn s n) ∧ (returnRequest r s).cmc = s.cmc ∧
    (returnRequest r s).nodeId = s.nodeId ∧ (∀ c ∈ s.claims, c ∈ (returnRequest r s).claims) ∧
    Keeps s (returnRequest r s) := by
  unfold returnRequest
  split
  · exact ⟨fun _ => rfl, rfl, rfl, fun _ h => h, Keeps.of_eq rfl⟩
  · refine ⟨routeOwn_of_steady (steady_of_blocks (by simp)), by simp, by simp [State.nodeId], ?_, Keeps.answerNow _ _ _ _ _⟩
    unfold answerNow answer placeOwn
    split
    · exact fun c hc => List.mem_append_left _ hc
    · exact fun c hc => hc

theorem claimed_returnRequests (rs : List Request) (s : State) (f : Frame) (h : Claimed f s) :
    Claimed f (rs.foldl (fun t r => returnRequest r t) s) := by
  induction rs generalizing s with
  | nil => exact h
  | cons r rs ih =>
    obtain ⟨h1, _, _, h4, h5⟩ := returnRequest_keeps r s
    exact ih _ (h.grows (h1 _) h4 h5)

/-- A request returned for the third time is answered ABORTED with the current generation. -/
theorem aborted_returnRequests (rs : List Request) (s : State) (r : Request) (hr : r ∈ rs) (h2 : 2 ≤ r.retries) :
    Claimed (routeaFrame s r.requester r.body.tag .aborted s.cmc.gen []) (rs.foldl (fun t r => returnRequest r t) s) := by
  induction rs generalizing s with
  | nil => simp at hr
  | cons x rs ih =>
    rw [List.foldl_cons]
    obtain ⟨_, hc, hn, _, _⟩ := returnRequest_keeps x s
    rcases List.mem_cons.1 hr with e | e
    · subst e
      refine claimed_returnRequests _ _ _ ?_
      have : ¬ r.retries < 2 := by omega
      rw [returnRequest, if_neg this]
      exact claimed_placeOwn _ _ _
    · have := ih (returnRequest x s) e
      rw [hc] at this
      rwa [show routeaFrame (returnRequest x s) r.requester r.body.tag .aborted s.cmc.gen [] =
        routeaFrame s r.requester r.body.tag .aborted s.cmc.gen [] by simp only [routeaFrame, ownFrame, hn]] at this

theorem returned_of_ends {rs : List Request} {s v t : State} (hq : v.rqu = s.rqu) (hg : v.cmc.gen = s.cmc.gen)
    (h : Ends (rs.foldl (fun t r => returnRequest r t) v) t) : Returned rs s t := by
  obtain ⟨_, h2, _, _, _, h6, h7⟩ := h
  refine ⟨by rw [h2, rqu_returnRequests, hq], fun r hr hn => ?_⟩
  have hc := h7 _ (aborted_returnRequests rs v r hr hn)
  have hv : ∀ (l : List Request) (w : State), (l.foldl (fun t r => returnRequest r t) w).nodeId = w.nodeId := by
    intro l
    induction l with
    | nil => exact fun _ => rfl
    | cons x l ih => exact fun w => (ih _).trans (returnRequest_keeps x w).2.2.1
  rw [hv] at h6
  unfold RouteAnswered routeAnswer
  rwa [h6, ← hg, ← routeaFrame_eq]

theorem requests_of_lanesHold {v : Rsv} {rs : List Request} (h : LanesHold v rs) : v.requests = rs := by
  have h1 : ∀ (l : Lane) r, Computes l r → l.request = some r := by rintro l r ⟨c, e⟩; simp [Lane.request, e]
  have h0 : ∀ l : Lane, (∀ r, ¬ Computes l r) → l.request = none := by
    intro l k
    unfold Lane.request
    split
    · rfl
    · rename_i r c e; exact absurd ⟨c, e⟩ (k r)
    · rfl
  unfold Rsv.requests
  rcases h with ⟨e, k⟩ | ⟨r, e, k⟩ | ⟨a, b, e, ka, kb, na, _⟩
  · rw [h0 _ fun r => (k r).1, h0 _ fun r => (k r).2, e]
  · rcases k with ⟨k, n⟩ | ⟨k, n⟩ | ⟨k, k', n⟩
    · rw [h1 _ _ k, h0 _ n, e]
    · rw [h1 _ _ k, h0 _ n, e]
    · rw [h1 _ _ k, h1 _ _ k', e]; simp [RouteqBody.isPair, n]
  · rw [h1 _ _ ka, h1 _ _ kb, e]; simp [RouteqBody.isPair, na]

theorem laneAborted_finish (l : Lane) : LaneAborted l (l.finish .aborted) := by
  refine ⟨fun h => by simp [Lane.finish, Lane.isIdle, h], fun r cap h => ?_, fun g h => ?_⟩ <;>
    simp [Lane.finish, Lane.isIdle, h, Work.gen]

/-- The abort is taken as R112, R132, R163 and R164 say, whatever ends the event. -/
theorem abortTaken_of_ends {s v t : State} (hv : v.rsv = s.rsv) (hq : v.rqu = s.rqu) (hg : v.cmc.gen = s.cmc.gen)
    (hf : v.fsw = s.fsw) (h : Ends (abort v) t) : AbortTaken s t := by
  have hb := blocks_abort v
  have h1 : t.rsv = s.rsv.finishAll .aborted := by rw [h.1, rsv_abort, hv]
  refine ⟨?_, ?_, ?_, ?_, ?_, fun rs hr => ?_⟩
  · rw [h1]; exact laneAborted_finish _
  · rw [h1]; exact laneAborted_finish _
  · rw [h1]; rfl
  · rw [h.2.2.2.1, fwd_of_blocks hb, ← hf]
  · rw [h.2.2.2.2.1, fwdGen_of_steady (steady_of_blocks hb), ← hf]
  · have hs := requests_of_lanesHold (hv ▸ hr : LanesHold v.rsv rs)
    have key : ∀ l, sortStable (fun a b : Request => decide (b.admission ≤ a.admission)) rs = l → Returned l s t := by
      intro l e
      refine returned_of_ends (v := { v with rsv := v.rsv.finishAll .aborted }) hq hg ?_
      rwa [abort, hs, e] at h
    refine ⟨fun hl => key rs ?_, fun a b e => ⟨fun k => key _ ?_, fun k => key _ ?_⟩⟩
    · match rs, hl with
      | [], _ => rfl
      | [_], _ => rfl
    · simp [e, sortStable, insertStable, k.le]
    · have : ¬ b.admission ≤ a.admission := by omega
      simp [e, sortStable, insertStable, this]

/-! ## A normal request (R109) -/

theorem normalRequest_eq (s : State) : normalRequest s = { s with cmc := (normalRequest s).cmc } := by
  unfold normalRequest
  dsimp only
  split
  · split <;> rfl
  · rfl
  · rfl

theorem normalReq_normalRequest (s : State) : (normalRequest s).cmc.normalReq = true := by
  unfold normalRequest
  dsimp only
  split
  · split <;> rfl
  · rfl
  · rfl

/-! ## An urgent request (R109, R112) -/

theorem blocks_urgentRequest (s : State) :
    (urgentRequest s).blocks = { s with
      cmc := (urgentRequest s).cmc, rqu := (urgentRequest s).rqu, rsv := (urgentRequest s).rsv }.blocks := by
  have hs : ∀ t : State, { t with
      cmc := (abort t).cmc, rqu := (abort t).rqu, rsv := (abort t).rsv }.blocks = (abort t).blocks := by
    intro t; rw [blocks_abort, cmc_abort, rsv_abort]
  unfold urgentRequest
  dsimp only
  split
  · split
    · rfl
    · exact (hs _).symm
  · split
    · rfl
    · exact (hs _).symm
  · split
    · rfl
    · exact (hs _).symm
  · rfl

theorem Traffic.urgentRequest {is : List NoticeId} {ps : List Port} (s : State) :
    Traffic is ps s (Machine.urgentRequest s) := by
  unfold Machine.urgentRequest
  dsimp only
  split
  · split
    · exact Traffic.of_eq rfl rfl
    · exact (Traffic.of_eq rfl rfl).trans (Traffic.abort _)
  · split
    · exact Traffic.of_eq rfl rfl
    · exact (Traffic.of_eq rfl rfl).trans (Traffic.abort _)
  · split
    · exact Traffic.of_eq rfl rfl
    · exact (Traffic.of_eq rfl rfl).trans (Traffic.abort _)
  · exact Traffic.of_eq rfl rfl

/-- An urgent request is taken as R109, R112 and R115 say, whatever ends the event. -/
theorem urgentTaken_of_ends {s t : State} (h : Ends (urgentRequest s) t) : UrgentTaken s t := by
  have hz : ({ s.cmc with urgentReq := true } : Cmc).frozen = s.cmc.frozen := rfl
  have hf : s.cmc.frozen = true ↔ s.cmc.freeze = true ∨ s.cmc.gen = 0xFFFFFFFF := by
    simp [Cmc.frozen, Config.lastGeneration]
  unfold urgentRequest at h
  dsimp only at h
  rw [hz] at h
  unfold UrgentTaken
  have stays : ∀ c : Cmc, c = { s.cmc with urgentReq := true } → Ends { s with cmc := c } t →
      (s.cmc.freeze = true ∨ s.cmc.gen = 0xFFFFFFFF ∨ (s.cmc.state = .draining ∧ s.cmc.mode = .urgent)) →
      UrgentTaken s t := by
    rintro c e ⟨h1, h2, h3, -⟩ k
    subst e
    refine ⟨by rw [h3], by rw [h3], by rw [h3], fun a b n => ?_, fun _ => ⟨by rw [h3], by rw [h3], h1, h2⟩⟩
    rcases k with k | k | k
    · simp [a] at k
    · exact absurd k b
    · exact absurd k n
  have goes : ∀ c : Cmc, c.urgentReq = true → c.gen = s.cmc.gen → c.freeze = s.cmc.freeze → c.state = .draining →
      c.mode = .urgent → (s.cmc.state = .draining → c.forced = s.cmc.forced) →
      (s.cmc.state ≠ .draining → c.forced = false ∧ c.checkTimer = none) → ¬ s.cmc.frozen = true →
      ¬ (s.cmc.state = .draining ∧ s.cmc.mode = .urgent) → Ends (abort { s with cmc := c }) t → UrgentTaken s t := by
    intro c c1 c2 c3 c4 c5 c6 c7 nf nu e
    have a := abortTaken_of_ends (s := s) (v := { s with cmc := c }) rfl rfl c2 rfl e
    have hc : t.cmc = c := by rw [e.2.2.1, cmc_abort]
    have hr : t.rsv = s.rsv.finishAll .aborted := by rw [e.1, rsv_abort]
    refine ⟨by rw [hc, c1], by rw [hc, c2], by rw [hc, c3], fun _ _ _ => ⟨by rw [hc, c4], by rw [hc, c5], ?_, ?_, a,
      by rw [hc]; exact c6, by rw [hc]; exact c7⟩, fun k => ?_⟩
    · rw [hr]; exact work_finish _ _
    · rw [hr]; exact work_finish _ _
    · rw [hf] at nf; exact absurd k (by tauto)
  split at h <;> rename_i hst
  · split at h
    · rename_i k; exact stays _ rfl h (by rw [hf] at k; tauto)
    · rename_i k
      exact goes { s.cmc with urgentReq := true, state := .draining, mode := .urgent, forced := false, checkTimer := none }
        rfl rfl rfl rfl rfl (by simp [hst]) (fun _ => ⟨rfl, rfl⟩) k (by simp [hst]) h
  · split at h
    · rename_i k; exact stays _ rfl h (by rw [hf] at k; tauto)
    · rename_i k
      exact goes { s.cmc with urgentReq := true, state := .draining, mode := .urgent, forced := false, checkTimer := none }
        rfl rfl rfl rfl rfl (by simp [hst]) (fun _ => ⟨rfl, rfl⟩) k (by simp [hst]) h
  · rename_i hm
    split at h
    · rename_i k; exact stays _ rfl h (by rw [hf] at k; tauto)
    · rename_i k
      exact goes { s.cmc with urgentReq := true, mode := .urgent } rfl rfl rfl hm rfl (fun _ => rfl) (fun n => absurd hm n) k (by simp_all) h
  · rename_i hm
    exact stays _ rfl h (by simp_all)

end Sys2Proof.Machine
end

