-- ==== Sys2Proof/Laws/Settle.lean ====
section
/-! SUPPORT. When no own step is due and no transceiver is ready, the part settles as it is; what settling never
changes; that it leaves FLE nothing to claim; and what that means for frames that reach the switch together. -/

namespace Sys2Proof.Machine

theorem claimBacklogHead_of_not_due (p : Port) (s : State) (h : backlogDue s p = false) : claimBacklogHead p s = s := by
  unfold claimBacklogHead
  dsimp only
  split
  · rfl
  · rename_i f rest hb
    have : (s.port p).room p = false := by simpa [backlogDue, hb] using h
    simp [this]

theorem claimPort_of_not_due (p : Port) (s : State) (hf : FloodDone s) (hb : ∀ p, backlogDue s p = false) :
    claimPort p s = s := by
  rw [claimPort, hf.fleClaimsAt]
  exact repeatOn_fixed _ _ (claimBacklogHead_of_not_due p s (hb p)) _

theorem offerNext_of_not_ready (o : OutPort) (h : o.ready = false) : o.offerNext = o := by
  simp [OutPort.offerNext, h]

theorem vec8_vget {α : Type} (v : Vector α 8) : vec8 (fun d => vget v d) = v := by
  apply Vector.ext
  intro i hi
  exact vget_vec8 (fun d => vget v d) ⟨i, hi⟩

theorem offerAll_of_not_ready (s : State) (h : ∀ p, (s.port p).ready = false) : offerAll s = s := by
  have hd : (fun d : Degree => (vget s.fsw.degrees d).offerNext) = fun d => vget s.fsw.degrees d :=
    funext fun d => offerNext_of_not_ready _ (h (.deg d))
  have hn : s.fsw.np.offerNext = s.fsw.np := offerNext_of_not_ready _ (h .np)
  simp only [offerAll, hd, hn, vec8_vget]

/-- With no own step due, no transceiver ready and no direct claim left, settling changes nothing. -/
theorem settle_of_not_due (s : State) (h : settleDue s = false) (r : ∀ p, (s.port p).ready = false) (c : s.claims = []) :
    settle s = s := by
  simp only [settleDue, Bool.or_eq_false_iff, List.any_eq_false, Bool.not_eq_true] at h
  obtain ⟨⟨⟨hf, hb⟩, hp⟩, hd⟩ := h
  have hc : claimAll s = s := by
    have he : { s with claims := [] } = s := by rw [← c]
    have hk : ∀ (l : List Port), l.foldl (fun t p => claimPort p t) s = s := by
      intro l
      induction l with
      | nil => rfl
      | cons p l ih =>
        rw [List.foldl_cons, claimPort_of_not_due p s (fun d => hf d (mem_allDegrees d)) fun p => hb p (mem_allPorts p)]
        exact ih
    rw [claimAll, he, hk]
    exact offerAll_of_not_ready s r
  have hq : dispatchHead s = s := by
    unfold dispatchHead
    split
    · rfl
    · rename_i q rest hq
      have : canDispatch s q = false := by simpa [dispatchDue, hq] using hd
      simp [this]
  rw [settle, hc, promoteDue, hp]
  simp only [Bool.false_eq_true, if_false, dispatchAll, hq]

/-! ## What settling never changes -/

/-- The queue of commands, the clock and the blocks that claims, promotion and dispatch leave alone: ADM, DTU and CFU. -/
def State.standing (s : State) : List Instr × Moment × Nat × Vector Adjacency 8 × Vector DomainEntry 16 × Cfu :=
  (s.pending, s.now, s.freeCount, s.adm, s.dtu, s.cfu)

theorem standing_of_steady {s t : State} (h : t.steady = s.steady) : t.standing = s.standing := by
  simp only [State.standing, pending_of_steady h, now_of_steady h, freeCount_of_steady h, adm_of_steady h, dtu_of_steady h,
    cfu_of_steady h]

theorem steady_claimPort (p : Port) (s : State) : (claimPort p s).steady = s.steady := by
  rw [claimPort, repeatOn_keeps State.steady _ fun t => steady_of_blocks (blocks_claimBacklogHead p t)]
  simp

/-- The claims that wait change the traffic and FLE's lists alone. -/
@[simp] theorem steady_claimAll (s : State) : (claimAll s).steady = s.steady := by
  rw [claimAll, steady_of_blocks (blocks_offerAll _), foldl_keeps State.steady _ _ _ fun t p => steady_claimPort p t]; rfl

@[simp] theorem claims_claimAll (s : State) : (claimAll s).claims = [] := by
  rw [claimAll, claims_offerAll, foldl_keeps State.claims _ _ _ fun t p => ?_]
  rw [claimPort, repeatOn_keeps State.claims _ fun t => claims_claimBacklogHead p t]
  simp

theorem standing_removeRecord (k : RecordKey) (s : State) : (removeRecord k s).standing = s.standing := rfl

theorem standing_promoteTables (s : State) : (promoteTables s).standing = s.standing :=
  foldl_keeps State.standing (fun t k => removeRecord k t) s.tdb.removedByPromotion s
    (fun t k => standing_removeRecord k t)

theorem standing_recheckResult (e : Nat × Result) (s : State) : (recheckResult e s).standing = s.standing := by
  unfold recheckResult
  split
  · rfl
  · rw [standing_of_steady (steady_of_blocks (blocks_answerNow _ _ _ _ _))]; rfl
  · rfl

theorem standing_startTree (s : State) : (startTree s).standing = s.standing := by
  unfold startTree
  split
  · rfl
  · split <;> rfl

theorem standing_raiseWatches (t : Tdb) (l : List LinkKey) (s : State) : (raiseWatches t l s).standing = s.standing := by
  unfold raiseWatches
  split
  · rfl
  · exact standing_of_steady (steady_of_blocks (blocks_raise _ _ _))

theorem standing_promote (s : State) : (promote s).standing = s.standing := by
  unfold promote handTree recheckAll
  dsimp only
  rw [standing_startTree]
  change (raiseWatches _ _ _).standing = _
  rw [standing_raiseWatches, foldl_keeps State.standing _ _ _ fun t e => standing_recheckResult e t,
    standing_of_steady (steady_of_blocks (blocks_raiseCommit _ _ _))]
  exact standing_promoteTables s

theorem standing_promoteDue (s : State) : (promoteDue s).standing = s.standing := by
  unfold promoteDue
  split
  · rw [standing_of_steady (steady_finish _), standing_promote]
  · rfl

theorem standing_dispatchHead (s : State) : (dispatchHead s).standing = s.standing := by
  unfold dispatchHead
  split
  · rfl
  · split <;> rfl

/-- Settling leaves the queue of commands, the clock, ADM, DTU and CFU alone. -/
theorem standing_settle (s : State) : (settle s).standing = s.standing := by
  rw [settle, dispatchAll, standing_dispatchHead, standing_dispatchHead, standing_promoteDue,
    standing_of_steady (steady_claimAll s)]

theorem fields_settle (s : State) : (settle s).pending = s.pending ∧ (settle s).now = s.now ∧
    (settle s).freeCount = s.freeCount ∧ (settle s).adm = s.adm ∧ (settle s).dtu = s.dtu ∧ (settle s).cfu = s.cfu := by
  have h := standing_settle s
  simp only [State.standing, Prod.mk.injEq] at h
  exact h

@[simp] theorem pending_settle (s : State) : (settle s).pending = s.pending := (fields_settle s).1

@[simp] theorem now_settle (s : State) : (settle s).now = s.now := (fields_settle s).2.1

@[simp] theorem freeCount_settle (s : State) : (settle s).freeCount = s.freeCount := (fields_settle s).2.2.1

@[simp] theorem adm_settle (s : State) : (settle s).adm = s.adm := (fields_settle s).2.2.2.1

@[simp] theorem dtu_settle (s : State) : (settle s).dtu = s.dtu := (fields_settle s).2.2.2.2.1

@[simp] theorem cfu_settle (s : State) : (settle s).cfu = s.cfu := (fields_settle s).2.2.2.2.2

theorem claims_dispatchHead (s : State) : (dispatchHead s).claims = s.claims := by
  unfold dispatchHead
  split
  · rfl
  · split <;> rfl

/-- No direct claim is left when the part has settled. -/
@[simp] theorem claims_settle (s : State) : (settle s).claims = [] := by
  rw [settle, dispatchAll, claims_dispatchHead, claims_dispatchHead, promoteDue]
  split <;> simp

/-! ## A part that has settled leaves FLE nothing to place -/

/-- A claim of FLE that is due fills a place of the queue or ends FLE's lists. -/
theorem fleClaim_progress (d : Degree) (s : State) (h : fleDue s d = true) :
    ((fleClaim d s).port (.deg d)).queue.length = (s.port (.deg d)).queue.length + 1 ∨ fleDue (fleClaim d s) d = false := by
  have hq : ∀ (x : FleDegree) (f : Frame), ((enqueueOwn (.deg d) f (s.setFlood d x)).port (.deg d)).queue.length =
      (s.port (.deg d)).queue.length + 1 := fun x f => by
    rw [enqueueOwn, port_setPort_same]
    exact List.length_append
  unfold fleClaim
  simp only [h, if_true]
  split
  · exact Or.inl (hq _ _)
  · rename_i hw
    split
    · exact Or.inl (hq _ _)
    · rename_i hr
      split
      · exact Or.inl (hq _ _)
      · rename_i hn
        right
        have hl : ∀ l, (nextAdvert s l).1 = none → (nextAdvert s l).2 = [] := by
          intro l
          induction l with
          | nil => exact fun _ => rfl
          | cons k l ih =>
            unfold nextAdvert
            split
            · exact fun e => by simp at e
            · exact ih
        have hw' : (s.flood d).waiting = [] := by simpa using hw
        simp [fleDue, hl _ hn, hw', hr]

/-- FLE's claims at a degree leave it nothing to place there. -/
theorem fleDue_fleClaims (d : Degree) (s : State) : fleDue (fleClaims d s) d = false := by
  have key : ∀ (n : Nat) (s : State), 24 ≤ (s.port (.deg d)).queue.length + n →
      fleDue (repeatOn (fleClaim d) n s) d = false := by
    intro n
    induction n with
    | zero =>
      intro s hs
      simp only [repeatOn, fleDue, OutPort.room, queueSize, Config.degreeQueueSize]
      have : ¬ (s.port (.deg d)).queue.length < 24 := by omega
      simp [this]
    | succ n ih =>
      intro s hs
      rw [repeatOn]
      cases hd : fleDue s d with
      | false => rw [fleClaim_of_not_due d s hd, repeatOn_fixed _ _ (fleClaim_of_not_due d s hd)]; exact hd
      | true =>
        rcases fleClaim_progress d s hd with h | h
        · exact ih _ (by omega)
        · rw [repeatOn_fixed _ _ (fleClaim_of_not_due d _ h)]; exact h
  exact key _ s (by have : Config.degreeQueueSize = 24 := rfl; omega)

theorem fleDue_of_eq {s t : State} {e : Degree} (ha : t.adm = s.adm) (hf : t.flood e = s.flood e)
    (hq : (s.port (.deg e)).queue.length ≤ (t.port (.deg e)).queue.length) (h : fleDue s e = false) :
    fleDue t e = false := by
  have hu : t.isUp e = s.isUp e := by simp [State.isUp, State.adjacency, ha]
  simp only [fleDue, hu, hf, OutPort.room, queueSize, Bool.and_eq_false_iff] at h ⊢
  rcases h with (h | h) | h
  · exact Or.inl (Or.inl h)
  · exact Or.inl (Or.inr (decide_eq_false fun k => of_decide_eq_false h (lt_of_le_of_lt hq k)))
  · exact Or.inr h

theorem queue_le_of_traffic {s t : State} (h : Traffic [] [] s t) (p : Port) :
    (s.port p).queue.length ≤ (t.port p).queue.length := by
  obtain ⟨⟨_, _, e, _⟩, _⟩ := h.1 p (by simp)
  rw [e, List.length_append]; omega

theorem flood_fleClaim_ne (d e : Degree) (h : d ≠ e) (s : State) : (fleClaim d s).flood e = s.flood e := by
  have hq : ∀ (f : Frame) (t : State), (enqueueOwn (.deg d) f t).flood e = t.flood e := fun f t => by
    simp [State.flood, enqueueOwn]
  unfold fleClaim
  dsimp only
  split
  · split
    · simp [hq, h]
    · split
      · simp [hq, h]
      · split <;> simp [hq, h]
  · rfl

theorem fleDue_claimPort (p : Port) (e : Degree) (s : State) (h : fleDue s e = false ∨ p = .deg e) :
    fleDue (claimPort p s) e = false := by
  have hb : ∀ (t : State), fleDue t e = false → fleDue (repeatOn (claimBacklogHead p) Config.backlogSize t) e = false := by
    intro t ht
    generalize Config.backlogSize = n
    induction n generalizing t with
    | zero => exact ht
    | succ n ih =>
      refine ih _ (fleDue_of_eq (by simp) (by simp [State.flood]) ?_ ht)
      unfold claimBacklogHead
      dsimp only
      split
      · exact le_refl _
      · split
        · exact queue_setPort_le _ _ _ (by simp) _
        · exact le_refl _
  refine hb _ ?_
  cases p with
  | np => exact h.resolve_right (by simp)
  | deg d =>
    by_cases hd : d = e
    · subst hd; exact fleDue_fleClaims d s
    · have hs := h.resolve_right (by simp [hd])
      have ha : (fleClaimsAt (.deg d) s).adm = s.adm := adm_of_steady (by simp)
      exact fleDue_of_eq ha (repeatOn_keeps (fun t => t.flood e) _ (flood_fleClaim_ne d e hd) _ _)
        (queue_le_of_traffic (Traffic.fleClaimsAt _ _) _) hs

/-- FLE has nothing left to place after the claims that wait. -/
theorem floodDone_claimAll (s : State) : FloodDone (claimAll s) := by
  have key : ∀ (l : List Port) (e : Degree) (t : State), (fleDue t e = false ∨ .deg e ∈ l) →
      fleDue (l.foldl (fun t p => claimPort p t) t) e = false := by
    intro l e
    induction l with
    | nil => exact fun t h => h.resolve_right (by simp)
    | cons p l ih =>
      intro t h
      rw [List.foldl_cons]
      rcases h with h | h
      · exact ih _ (Or.inl (fleDue_claimPort p e t (Or.inl h)))
      · rcases List.mem_cons.1 h with h | h
        · exact ih _ (Or.inl (fleDue_claimPort p e t (Or.inr h.symm)))
        · exact ih _ (Or.inr h)
  intro e
  rw [claimAll]
  exact fleDue_of_eq (adm_offerAll _) (by simp [State.flood]) (queue_le_of_traffic (Traffic.offerAll _) _)
    (key _ e _ (Or.inr (mem_allPorts _)))

theorem floodShrinks_mapFlood (f : Degree → FleDegree → FleDegree) (s : State)
    (h : ∀ d x, (x.waiting = [] → (f d x).waiting = []) ∧ (x.round = none → (f d x).round = none) ∧
      (x.sendList = [] → (f d x).sendList = [])) : FloodShrinks s (mapFlood f s) :=
  ⟨rfl, fun d => by
    have : (mapFlood f s).flood d = f d (s.flood d) := by simp [State.flood, mapFlood]
    rw [this]; exact ⟨le_refl _, h d _⟩⟩

theorem floodShrinks_checkPulls (o : NodeId) (s : State) : FloodShrinks s (checkPulls o s) := by
  refine floodShrinks_mapFlood _ s fun d x => ?_
  unfold FleDegree.dropPulls
  split <;> simp_all

theorem floodShrinks_removeRecord (k : RecordKey) (s : State) : FloodShrinks s (removeRecord k s) := by
  refine FloodShrinks.trans (t := dropKey k { s with tdb := clearIncomplete (s.tdb.erase k) }) ?_
    (floodShrinks_checkPulls _ _)
  exact FloodShrinks.trans (FloodShrinks.of_eq (t := { s with tdb := clearIncomplete (s.tdb.erase k) }) rfl rfl rfl)
    (floodShrinks_mapFlood _ _ fun d x => by simp_all)

theorem floodShrinks_promote (s : State) : FloodShrinks s (promote s) := by
  have h1 : FloodShrinks s (promoteTables s) :=
    (FloodShrinks.foldl _ (fun t k => floodShrinks_removeRecord k t) s.tdb.removedByPromotion s).trans
      (FloodShrinks.of_eq rfl rfl rfl)
  have h2 : ∀ (e : Nat × Result) (t : State), FloodShrinks t (recheckResult e t) := by
    intro e t
    unfold recheckResult
    split
    · exact FloodShrinks.refl _
    · exact (FloodShrinks.of_eq (t := freeResult e.1 t) rfl rfl rfl).trans
        (FloodShrinks.of_queues (by simp) (by simp) fun d => queue_le_of_traffic (Traffic.answerNow _ _ _ _ _) _)
    · exact FloodShrinks.of_eq rfl rfl rfl
  have h3 : ∀ (b : Tdb) (l : List LinkKey) (t : State), FloodShrinks t (raiseWatches b l t) := by
    intro b l t
    unfold raiseWatches
    split
    · exact FloodShrinks.refl _
    · exact FloodShrinks.of_eq rfl rfl rfl
  have h4 : ∀ t : State, FloodShrinks t (startTree t) := by
    intro t
    unfold startTree
    split
    · exact FloodShrinks.refl _
    · split
      · exact FloodShrinks.of_eq rfl rfl rfl
      · exact FloodShrinks.refl _
  unfold promote handTree
  dsimp only
  refine FloodShrinks.trans ?_ (h4 _)
  refine FloodShrinks.trans ?_ (FloodShrinks.of_eq (s := raiseWatches _ _ _) rfl rfl rfl)
  refine FloodShrinks.trans ?_ (h3 _ _ _)
  refine FloodShrinks.trans ?_ (FloodShrinks.foldl _ (fun t e => h2 e t) _ _)
  exact h1.trans ((FloodShrinks.of_eq rfl rfl rfl).trans (FloodShrinks.of_eq rfl rfl rfl))

theorem FloodDone.finish {s : State} (h : FloodDone s) : FloodDone (Machine.finish s) :=
  h.endClaims.2.shrinks (FloodShrinks.of_queues rfl rfl fun _ => queue_le_of_traffic (Traffic.offerAll _) _)

theorem floodShrinks_dispatchHead (s : State) : FloodShrinks s (dispatchHead s) := by
  unfold dispatchHead
  split
  · exact FloodShrinks.refl _
  · split
    · exact FloodShrinks.of_eq rfl rfl rfl
    · exact FloodShrinks.refl _

theorem floodDone_promoteDue {s : State} (h : FloodDone s) : FloodDone (promoteDue s) := by
  unfold promoteDue
  split
  · exact (h.shrinks (floodShrinks_promote s)).finish
  · exact h

/-- FLE has nothing left to place when the part has settled. -/
theorem floodDone_settle (s : State) : FloodDone (settle s) :=
  (floodDone_promoteDue (floodDone_claimAll s)).shrinks
    ((floodShrinks_dispatchHead _).trans (floodShrinks_dispatchHead _))

/-! ## Frames that reach the switch together -/

/-- FLE with nothing ready claims nothing. -/
theorem fleClaimsAll_of_done {s : State} (h : FloodDone s) : fleClaimsAll s = s := by
  have key : ∀ l : List Degree, l.foldl (fun t d => fleClaims d t) s = s := by
    intro l
    induction l with
    | nil => rfl
    | cons d l ih => rw [List.foldl_cons, fleClaims, repeatOn_fixed _ _ (fleClaim_of_not_due d s (h d))]; exact ih
  exact key _

/-- In a part that has settled, the own claims are those left to the end of the event. -/
theorem ownTogether_settle (s : State) : ownTogether (settle s) = endClaims (settle s) := by
  rw [ownTogether, fleClaimsAll_of_done (floodDone_settle s)]

/-- Frames that all pass through change nothing before their claims. -/
theorem takeEach_of_passing (as : List Arrival) (s : State) (h : ∀ a ∈ as, isPassing s a = true) :
    takeEach as s = (s, as.map fun a => ⟨a, isTransit s a.frame⟩) := by
  induction as with
  | nil => rfl
  | cons a as ih =>
    rw [takeEach, if_pos (h a (by simp)), ih fun b hb => h b (by simp [hb])]
    rfl

/-- Frames that all pass through, in a part that has settled: their claims follow the own claims of the event. -/
theorem takeTogether_of_passing (as : List Arrival) (s : State) (h : ∀ a ∈ as, isPassing (settle s) a = true) :
    takeTogether as (settle s) = allPorts.foldl
      (claimTogether ((as.map fun a => ⟨a, isTransit (settle s) a.frame⟩).filterMap (passingClaim (endClaims (settle s)))))
      (endClaims (settle s)) := by
  rw [takeTogether, takeEach_of_passing as _ h]
  dsimp only
  rw [ownTogether_settle]

end Sys2Proof.Machine
end

