-- ==== Sys2Proof/Laws/Floods.lean ====
section
/-! SUPPORT. What the end of an event does to FLE's lists: a key stays on its way (`Floods`), pull lists stay, and a waiting PULL stays
where FLE has no frame it could place. -/

namespace Sys2Proof.Machine

theorem flood_enqueueOwn (p : Port) (f : Frame) (s : State) (e : Degree) : (enqueueOwn p f s).flood e = s.flood e := by
  cases p <;> rfl

/-- A property that FLE's claims keep, and that depends on the blocks and on ports that grow, holds when the event has ended. -/
theorem finish_inv (P : State → Prop) (hf : ∀ d s, P s → P (fleClaim d s))
    (hb : ∀ s t : State, t.blocks = s.blocks → Traffic [] [] s t → P s → P t) {s : State} (h : P s) : P (finish s) := by
  have hr : ∀ (d : Degree) (n : Nat) (t : State), P t → P (repeatOn (fleClaim d) n t) := by
    intro d n
    induction n with
    | zero => exact fun _ k => k
    | succ n ih => exact fun t k => ih _ (hf d t k)
  have hc : ∀ (p : Port) (f : Frame) (t : State), P t → P (claimDirect p f t) := by
    intro p f t k
    refine hb (fleClaimsAt p t) _ (blocks_claimOwn _ _ _) (Traffic.claimOwn _ _ _) ?_
    cases p with
    | deg d => exact hr d _ t k
    | np => exact k
  have ht : ∀ (b : OwnBlock) (cs : List OwnClaim) (t : State), P t → P (takeClaims b cs t) := fun b cs t k =>
    foldl_inv P _ _ _ (fun t c => hc _ _ t) k
  have he : ∀ t : State, P t → P (emitDue t) := fun t k =>
    foldl_inv P _ _ _ (fun t f => hc _ f t)
      (foldl_inv P _ _ _ (fun t i k => hb t _ (blocks_markSent t i) (Traffic.markSent t i) k) k)
  refine hb (endClaims s) _ (blocks_offerAll _) (Traffic.offerAll _) ?_
  exact he _ (ht _ _ _ (he _ (he _ (ht _ _ _ (ht _ _ _ (ht _ _ _
    (hb s _ (blocks_withClaims _ _) (Traffic.of_eq rfl rfl) h)))))))

/-! ## Keys on their way (R94, R95) -/

theorem keyAdvert_of_steady {s t : State} (h : t.steady = s.steady) (k : RecordKey) : keyAdvert t k = keyAdvert s k := by
  simp [keyAdvert, State.nodeId, Fle.live, seq_of_steady h, cfu_of_steady h, tdb_of_steady h, dtu_of_steady h]

/-- A key that can be sent is the next ADVERT, or stays behind it. -/
theorem mem_nextAdvert (s : State) {k : RecordKey} {a : AdvertBody} (ha : keyAdvert s k = some a) (l : List RecordKey)
    (h : k ∈ l) : (nextAdvert s l).1 = some a ∨ ((nextAdvert s l).1.isSome = true ∧ k ∈ (nextAdvert s l).2) := by
  induction l with
  | nil => simp at h
  | cons j l ih =>
    unfold nextAdvert
    split
    · rename_i b hb
      rcases List.mem_cons.1 h with e | e
      · subst e; left; rw [← ha, hb]
      · exact Or.inr ⟨rfl, e⟩
    · rename_i hn
      rcases List.mem_cons.1 h with e | e
      · subst e; simp [hn] at ha
      · exact ih e

theorem floods_fleClaim {e : Degree} {k : RecordKey} {a : AdvertBody} (d : Degree) (s : State) (ha : keyAdvert s k = some a)
    (h : Floods e k s) : Floods e k (fleClaim d s) := by
  have hk : keyAdvert (fleClaim d s) k = some a := (keyAdvert_of_steady (steady_fleClaim d s) k).trans ha
  have hn : (fleClaim d s).nodeId = s.nodeId := by simp [State.nodeId, cfu_of_steady (steady_fleClaim d s)]
  rcases h with h | ⟨b, hb, h⟩
  · by_cases hd : d = e
    · subst hd
      unfold Floods
      rw [hk, hn]
      unfold fleClaim
      dsimp only
      split
      · split
        · left; simpa [flood_enqueueOwn] using h
        · split
          · left; simpa [flood_enqueueOwn] using h
          · rcases mem_nextAdvert s ha _ h with g | ⟨g, g'⟩
            · right; refine ⟨a, rfl, ?_⟩
              simp [g, enqueueOwn, ownFrame, kindAdvert, neighbourDst, State.nodeId]
            · left
              obtain ⟨b, hb⟩ := Option.isSome_iff_exists.1 g
              simpa [hb, flood_enqueueOwn] using g'
      · left; exact h
    · left; rw [flood_fleClaim_ne d e hd]; exact h
  · right
    obtain ⟨⟨m, _, hq, _⟩, _⟩ := (Traffic.fleClaim (is := []) (ps := []) d s).1 (.deg e) (by simp)
    refine ⟨b, by rw [hk, ← hb, ha], ?_⟩
    rw [hn, hq]
    exact List.mem_append_left _ h

/-- A key on its way that can be sent is on its way when the event has ended. -/
theorem floods_finish {e : Degree} {k : RecordKey} {a : AdvertBody} {s : State} (ha : keyAdvert s k = some a)
    (h : Floods e k s) : Floods e k (finish s) := by
  refine (finish_inv (fun t => keyAdvert t k = some a ∧ Floods e k t) (fun d t x => ?_) (fun t u hb ht x => ?_) ⟨ha, h⟩).2
  · exact ⟨(keyAdvert_of_steady (steady_fleClaim d t) k).trans x.1, floods_fleClaim d t x.1 x.2⟩
  · have hs := steady_of_blocks hb
    refine ⟨(keyAdvert_of_steady hs k).trans x.1, ?_⟩
    rcases x.2 with h | ⟨b, hk, h⟩
    · left; rw [State.flood, fle_of_blocks hb]; exact h
    · right
      obtain ⟨⟨m, _, hq, _⟩, _⟩ := ht.1 (.deg e) (by simp)
      refine ⟨b, (keyAdvert_of_steady hs k).trans hk, ?_⟩
      rw [hq, show u.nodeId = t.nodeId by simp [State.nodeId, cfu_of_steady hs]]
      exact List.mem_append_left _ h

/-! ## Pull lists and waiting PULLs (R100, R101) -/

/-- The end of an event leaves the pull lists, and the waiting PULLs that FLE could not place. -/
theorem pulls_finish {e : Degree} {s : State} (h : (s.isUp e && (s.port (.deg e)).room (.deg e)) = true → (s.flood e).waiting = []) :
    ((finish s).flood e).pulls = (s.flood e).pulls ∧ ((finish s).flood e).waiting = (s.flood e).waiting := by
  have hu : ∀ {t u : State}, u.steady = t.steady → u.isUp e = t.isUp e := fun k => by
    simp [State.isUp, State.adjacency, adm_of_steady k]
  have hg : ∀ {t u : State}, Traffic [] [] t u → (u.port (.deg e)).room (.deg e) = true →
      (t.port (.deg e)).room (.deg e) = true := by
    intro t u k r
    obtain ⟨⟨m, _, hq, _⟩, _⟩ := k.1 (.deg e) (by simp)
    simp only [OutPort.room, decide_eq_true_eq, hq, List.length_append] at r ⊢
    omega
  refine (finish_inv (fun t => ((t.flood e).pulls = (s.flood e).pulls ∧ (t.flood e).waiting = (s.flood e).waiting) ∧
    ((t.isUp e && (t.port (.deg e)).room (.deg e)) = true → (t.flood e).waiting = [])) (fun d t x => ?_)
    (fun t u hb ht x => ?_) ⟨⟨rfl, rfl⟩, h⟩).1
  · have keep : ((fleClaim d t).flood e).pulls = (t.flood e).pulls ∧
        ((fleClaim d t).flood e).waiting = (t.flood e).waiting := by
      by_cases hd : d = e
      · subst hd
        unfold fleClaim
        dsimp only
        split
        · rename_i hdue
          have hw := x.2 (by simp only [fleDue, Bool.and_eq_true] at hdue ⊢; exact hdue.1)
          split
          · rename_i k; simp [hw] at k
          · split
            · simp [flood_enqueueOwn]
            · split <;> simp [flood_enqueueOwn]
        · exact ⟨rfl, rfl⟩
      · rw [flood_fleClaim_ne d e hd]; exact ⟨rfl, rfl⟩
    refine ⟨⟨keep.1.trans x.1.1, keep.2.trans x.1.2⟩, fun k => ?_⟩
    rw [keep.2]
    simp only [Bool.and_eq_true] at k x
    exact x.2 ⟨by rw [← hu (steady_fleClaim d t)]; exact k.1, hg (Traffic.fleClaim d t) k.2⟩
  · have hf : u.flood e = t.flood e := by rw [State.flood, fle_of_blocks hb]; rfl
    rw [hf]
    refine ⟨x.1, fun k => ?_⟩
    simp only [Bool.and_eq_true] at k x
    exact x.2 ⟨by rw [← hu (steady_of_blocks hb)]; exact k.1, hg ht k.2⟩

/-- The check of the pull lists at a state, and the end of its event (R101). -/
theorem pullsChecked_finish {o : NodeId} {s t : State} (hd : FloodDone s) (hf : t.flood = (checkPulls o { s with tdb := t.tdb }).flood)
    (ha : t.adm = s.adm) (hq : ∀ e : Degree, (s.port (.deg e)).queue.length ≤ (t.port (.deg e)).queue.length) :
    PullsChecked o s (finish t) := by
  have hm : (fun x : PullEntry => x.origin == o &&
      (finish t).tdb.summary o == some ⟨o, x.highest, x.count, x.sum⟩) = fun x => x.origin == o && PullEntry.matched t.tdb x := by
    funext x
    simp only [tdb_finish, PullEntry.matched]
    cases hx : x.origin == o
    · rfl
    · rw [eq_of_beq hx]
  unfold PullsChecked
  rw [hm]
  intro met e
  have hx : t.flood e = FleDegree.dropPulls o (PullEntry.matched t.tdb) (s.flood e) := by
    rw [hf]; simp [checkPulls, mapFlood, State.flood]
  have hw : (t.isUp e && (t.port (.deg e)).room (.deg e)) = true → (t.flood e).waiting = [] := by
    intro k
    have := hd e
    simp only [Bool.and_eq_true, OutPort.room, decide_eq_true_eq] at k
    have hu : s.isUp e = true := by rw [← k.1]; simp [State.isUp, State.adjacency, ha]
    have hr : (s.port (.deg e)).queue.length < queueSize (.deg e) := lt_of_le_of_lt (hq e) k.2
    simp only [fleDue, hu, OutPort.room, hr, decide_true, Bool.true_and, Bool.or_eq_false_iff, Bool.not_eq_false',
      List.isEmpty_iff] at this
    rw [hx]
    unfold FleDegree.dropPulls
    split <;> simp [this.1.1]
  rw [(pulls_finish hw).1, (pulls_finish hw).2, hx]
  unfold FleDegree.dropPulls
  split
  · refine ⟨rfl, congrArg (List.filter · _) (funext fun x => ?_)⟩
    by_cases h : x = o <;> simp [h]
  · rename_i k
    refine ⟨?_, rfl⟩
    symm
    rw [List.filter_eq_self]
    intro x hx
    simp only [Bool.not_eq_true, List.any_eq_false] at k
    simpa [met, imp_iff_not_or] using k x hx

end Sys2Proof.Machine
end

