-- ==== Sys2Proof/Laws/Notices.lean ====
section
/-! SUPPORT. The NOTICE of a source that is due at the end of an event: it is placed as `NoticePlaced` states (R193, R194). -/

namespace Sys2Proof.Machine

theorem due_raise {i j : NoticeId} {s : State} (ms : List Member) (h : (s.ntu.source i).due = true) :
    ((raise j ms s).ntu.source i).due = true := by
  by_cases e : i = j
  · subst e
    have hs : (raise i ms s).ntu.source i = (s.ntu.source i).raise ms none := by simp [raise]
    rw [hs]
    simp only [NoticeSource.due, Bool.and_eq_true] at h ⊢
    unfold NoticeSource.raise
    split <;> simp_all
  · have hs : (raise j ms s).ntu.source i = s.ntu.source i := source_setSource_ne _ _ _ _ fun k => e k.symm
    rwa [hs]

theorem due_claimDirect {i : NoticeId} {s : State} (p : Port) (f : Frame) (h : (s.ntu.source i).due = true) :
    ((claimDirect p f s).ntu.source i).due = true := by
  have h' : ((fleClaimsAt p s).ntu.source i).due = true := by simpa using h
  have hp : ∀ o, (((fleClaimsAt p s).setPort p o).ntu.source i).due = true := by
    intro o; rw [ntu_setPort]; exact h'
  unfold claimDirect claimOwn
  dsimp only
  split
  · exact hp _
  · split
    · exact hp _
    · exact due_raise _ h'

theorem due_takeClaims {i : NoticeId} {s : State} (b : OwnBlock) (cs : List OwnClaim) (h : (s.ntu.source i).due = true) :
    ((takeClaims b cs s).ntu.source i).due = true := by
  unfold takeClaims
  generalize cs.filter (fun c => c.block == b) = l
  induction l generalizing s with
  | nil => exact h
  | cons c l ih => exact ih (due_claimDirect _ _ h)

theorem mem_noticeIds (i : NoticeId) : i ∈ NoticeId.all := by cases i <;> decide

theorem standsAt_claims {p : Port} {f : Frame} {l : List Frame} (h : f ∈ l) (s : State) :
    StandsAt p f (l.foldl (fun t f => claimDirect p f t) s) := by
  induction l generalizing s with
  | nil => simp at h
  | cons g l ih =>
    rw [List.foldl_cons]
    rcases List.mem_cons.1 h with e | e
    · subst e
      exact (standsAt_claimOwn p f _).grows (Traffic.foldl _ (fun _ _ => Traffic.claimDirect _ _ _) _ _)
        (Keeps.foldl _ (fun _ _ => Keeps.claimDirect _ _ _) _ _)
    · exact ih e _

/-- The emission places the NOTICE of a source that is due. -/
theorem standsAt_emitDue {i : NoticeId} {s : State} (h : (s.ntu.source i).due = true) :
    StandsAt (noticeRoute s).1 (noticeFrame s s.ntu.pendingSet i) (emitDue s) :=
  standsAt_claims (List.mem_map.2 ⟨i, by simp [dueSources, mem_noticeIds, h], rfl⟩) _

/-- What a state's NOTICE says stays true while the event ends: what follows makes the traffic grow, keeps the rest, and raises
CONGESTION alone. -/
theorem noticePlaced_of_grows {i : NoticeId} {v t : State} (hp : (v.ntu.source i).pending = true)
    (h : StandsAt (noticeRoute v).1 (noticeFrame v v.ntu.pendingSet i) t) (ht : Traffic [] [] v t) (hk : Keeps v t)
    (hs : t.steady = v.steady) : NoticePlaced i t := by
  have same : ∀ j, j ≠ .congestion → (t.ntu.source j).pending = (v.ntu.source j).pending ∧
      (t.ntu.source j).overrun = (v.ntu.source j).overrun ∧ (t.ntu.source j).detail = (v.ntu.source j).detail := by
    intro j hj
    have := ht.2 j (by simp) hj
    simp only [NoticeSource.mk.injEq] at this
    tauto
  have hm : ∀ j, j ∈ v.ntu.pendingSet ↔ (v.ntu.source j).pending = true := by
    intro j; simp [Ntu.pendingSet, mem_noticeIds]
  have hl : ∀ n, lookup t n = lookup v n := by
    intro n; simp [lookup, State.adjacency, adm_of_steady hs, fwd_of_steady hs]
  have hn : t.nodeId = v.nodeId := by simp [State.nodeId, cfu_of_steady hs]
  refine ⟨v.ntu.pendingSet, (v.ntu.source i).overrun, (v.ntu.source i).detail, (hm i).2 hp, ?_, ?_, ?_, (hk i hp).2, ?_⟩
  · exact fun j hj => by rw [hm, (same j hj).1]
  · exact fun hc => (hk _ ((hm _).1 hc)).1
  · exact fun hi => ⟨(same i hi).2.1.symm, (same i hi).2.2.symm⟩
  · dsimp only
    rw [hn, cfu_of_steady hs, cmc_of_steady hs]
    simp only [hl]
    refine ⟨fun hd => ?_, fun h0 h1 => ⟨fun d hd => ?_, fun hd => ?_⟩⟩
    · have hr : noticeRoute v = (.np, 0) := by simp [noticeRoute, hd]
      rw [noticeFrame, hr] at h
      exact h
    · have hr : noticeRoute v = (.deg d, 0) := by simp [noticeRoute, h0, h1, hd]
      rw [noticeFrame, hr] at h
      exact h
    · have hr : noticeRoute v = (.np, fallbackFlag) := by simp [noticeRoute, h0, h1, hd]
      rw [noticeFrame, hr] at h
      exact h

/-- Every source that is due when an event ends has its NOTICE placed (R193, R194). -/
theorem noticePlaced_finish {i : NoticeId} {s : State} (h : (s.ntu.source i).due = true) : NoticePlaced i (finish s) := by
  unfold finish endClaims
  dsimp only
  generalize hv : takeClaims .ntu s.claims (takeClaims .shu s.claims (takeClaims .rqu s.claims { s with claims := [] })) = v
  have hd : (v.ntu.source i).due = true := by
    rw [← hv]; exact due_takeClaims _ _ (due_takeClaims _ _ (due_takeClaims _ _ h))
  have hp : (v.ntu.source i).pending = true := by
    simp only [NoticeSource.due, Bool.and_eq_true] at hd; exact hd.1.1
  have g : ∀ {is : List NoticeId} (u : State), Traffic is [] u (offerAll (emitDue (takeClaims .cfu s.claims u))) := fun u =>
    (Traffic.takeClaims _ _ _).trans ((Traffic.emitDue _).trans (Traffic.offerAll _))
  have k : ∀ u : State, Keeps u (offerAll (emitDue (takeClaims .cfu s.claims u))) := fun u =>
    (Keeps.takeClaims _ _ _).trans ((Keeps.emitDue _).trans (Keeps.of_eq rfl))
  refine noticePlaced_of_grows hp ((standsAt_emitDue hd).grows ((Traffic.emitDue _).trans (g _))
    ((Keeps.emitDue _).trans (k _))) ((Traffic.emit _).trans (g _)) ((Keeps.emit _).trans (k _)) ?_
  rw [steady_of_blocks (blocks_offerAll _), steady_emitDue, steady_takeClaims, steady_emit]

/-! ## NOTICE_ENABLE (R195) -/

/-- The NOTICEs that wait with the event's other claims are placed when it ends. -/
theorem noticePlaced_holdDue {i : NoticeId} {s : State} (who : NodeId) (tag : Nat) (r : Reply)
    (h : (s.ntu.source i).due = true) : NoticePlaced i (finish (answerMgmt who tag r (holdDue s))) := by
  have hp : (s.ntu.source i).pending = true := by simp only [NoticeSource.due, Bool.and_eq_true] at h; exact h.1.1
  have hm : (⟨.ntu, (noticeRoute s).1, noticeFrame s s.ntu.pendingSet i⟩ : OwnClaim) ∈ (holdDue s).claims := by
    rw [claims_holdDue]
    exact List.mem_append_right _ (List.mem_map.2 ⟨i, by simp [dueSources, mem_noticeIds, h], rfl⟩)
  have hm' : (⟨.ntu, (noticeRoute s).1, noticeFrame s s.ntu.pendingSet i⟩ : OwnClaim) ∈
      (answerMgmt who tag r (holdDue s)).claims := by
    unfold answerMgmt placeOwn
    split
    · exact List.mem_append_left _ hm
    · exact hm
  refine noticePlaced_of_grows hp (standsAt_finish hm')
    ((Traffic.holdDue _).trans ((Traffic.answerMgmt _ _ _ _).trans (Traffic.finish _)))
    ((Keeps.holdDue _).trans ((Keeps.placeOwn _ _ _).trans (Keeps.finish _))) ?_
  rw [steady_finish, steady_of_blocks (blocks_answerMgmt _ _ _ _), steady_of_blocks (blocks_holdDue _)]

/-! ## A source that is not due stays silent (R193) -/

/-- A frame that is no NOTICE of a source. -/
def NotOf (i : NoticeId) (f : Frame) : Prop := ∀ n, f.body = .notice n → n.source ≠ i

/-- A step that places no NOTICE of a source and leaves the source as it is. -/
def Silent (i : NoticeId) (s t : State) : Prop := NoticeSilent i s t ∧ t.ntu.source i = s.ntu.source i

theorem Silent.refl (i : NoticeId) (s : State) : Silent i s s := ⟨fun _ => ⟨fun _ h => Or.inl h, fun _ h => Or.inl h⟩, rfl⟩

theorem Silent.trans {i : NoticeId} {s t u : State} (h : Silent i s t) (k : Silent i t u) : Silent i s u :=
  ⟨fun p => ⟨fun q hq => ((k.1 p).1 q hq).elim ((h.1 p).1 q) Or.inr, fun f hf => ((k.1 p).2 f hf).elim ((h.1 p).2 f) Or.inr⟩,
    k.2.trans h.2⟩

theorem Silent.of_eq {i : NoticeId} {s t : State} (h : ∀ p, (t.port p).queue = (s.port p).queue ∧
    (t.port p).backlog = (s.port p).backlog) (k : t.ntu.source i = s.ntu.source i) : Silent i s t :=
  ⟨fun p => ⟨fun _ hq => Or.inl ((h p).1 ▸ hq), fun _ hf => Or.inl ((h p).2 ▸ hf)⟩, k⟩

theorem Silent.setPort {i : NoticeId} (s : State) (p : Port) (o : OutPort)
    (hq : ∀ q ∈ o.queue, q ∈ (s.port p).queue ∨ NotOf i q.frame) (hb : ∀ f ∈ o.backlog, f ∈ (s.port p).backlog ∨ NotOf i f) :
    Silent i s (s.setPort p o) := by
  refine ⟨fun p' => ?_, by rw [ntu_setPort]⟩
  by_cases e : p = p'
  · subst e; rw [port_setPort_same]; exact ⟨hq, hb⟩
  · rw [port_setPort_ne _ _ _ _ e]; exact ⟨fun _ h => Or.inl h, fun _ h => Or.inl h⟩

theorem Silent.enqueueOwn {i : NoticeId} (p : Port) (f : Frame) (s : State) (h : NotOf i f) :
    Silent i s (Machine.enqueueOwn p f s) :=
  Silent.setPort _ _ _ (fun q hq => (List.mem_append.1 hq).imp id fun k => by simp at k; subst k; exact h) fun _ k => Or.inl k

theorem Silent.fleClaim {i : NoticeId} (d : Degree) (s : State) : Silent i s (Machine.fleClaim d s) := by
  have hs : ∀ (x : FleDegree), Silent i s (s.setFlood d x) := fun x => Silent.of_eq (fun p => by cases p <;> exact ⟨rfl, rfl⟩) rfl
  unfold Machine.fleClaim
  dsimp only
  split
  · split
    · exact (hs _).trans (Silent.enqueueOwn _ _ _ (by intro n h; simp [ownFrame] at h))
    · split
      · exact (hs _).trans (Silent.enqueueOwn _ _ _ (by intro n h; simp [ownFrame] at h))
      · split
        · exact (hs _).trans (Silent.enqueueOwn _ _ _ (by intro n h; simp [ownFrame] at h))
        · exact hs _
  · exact Silent.refl _ _

theorem Silent.fleClaimsAt {i : NoticeId} (p : Port) (s : State) : Silent i s (Machine.fleClaimsAt p s) := by
  have key : ∀ (d : Degree) (n : Nat) (t : State), Silent i t (repeatOn (Machine.fleClaim d) n t) := by
    intro d n
    induction n with
    | zero => exact fun t => Silent.refl _ _
    | succ n ih => exact fun t => (Silent.fleClaim d t).trans (ih _)
  cases p with
  | deg d => exact key d _ s
  | np => exact Silent.refl _ _

theorem Silent.claimDirect {i : NoticeId} (hi : i ≠ .congestion) (p : Port) (f : Frame) (s : State) (h : NotOf i f) :
    Silent i s (Machine.claimDirect p f s) := by
  refine (Silent.fleClaimsAt p s).trans ?_
  unfold Machine.claimDirect claimOwn
  dsimp only
  split
  · exact Silent.setPort _ _ _ (fun q hq => (List.mem_append.1 hq).imp id fun k => by simp at k; subst k; exact h)
      fun _ k => Or.inl k
  · split
    · exact Silent.setPort _ _ _ (fun _ k => Or.inl k)
        fun q hq => (List.mem_append.1 hq).imp id fun k => by simp at k; subst k; exact h
    · exact Silent.of_eq (fun p => by cases p <;> exact ⟨rfl, rfl⟩) (source_setSource_ne _ _ _ _ hi.symm)

theorem Silent.foldl {i : NoticeId} {β : Type} (f : State → β → State) (l : List β) (h : ∀ s, ∀ b ∈ l, Silent i s (f s b))
    (s : State) : Silent i s (l.foldl f s) := by
  induction l generalizing s with
  | nil => exact Silent.refl _ _
  | cons b l ih => exact (h s b (by simp)).trans (ih (fun s c hc => h s c (by simp [hc])) _)

theorem Silent.takeClaims {i : NoticeId} (hi : i ≠ .congestion) (b : OwnBlock) (cs : List OwnClaim)
    (h : ∀ c ∈ cs, NotOf i c.frame) (s : State) : Silent i s (Machine.takeClaims b cs s) :=
  Silent.foldl _ _ (fun _ c hc => Silent.claimDirect hi _ _ _ (h c (List.mem_filter.1 hc).1)) s

theorem Silent.emitDue {i : NoticeId} (hi : i ≠ .congestion) (s : State) (h : (s.ntu.source i).due = false) :
    Silent i s (Machine.emitDue s) := by
  have hd : i ∉ dueSources s := by simp [dueSources, h]
  refine Silent.trans (Silent.foldl markSent _ (fun t j hj => ?_) s) (Silent.foldl _ _ (fun t f hf => ?_) _)
  · exact Silent.of_eq (fun p => by cases p <;> exact ⟨rfl, rfl⟩) (source_setSource_ne _ _ _ _ fun e => hd (e ▸ hj))
  · refine Silent.claimDirect hi _ _ _ ?_
    obtain ⟨j, hj, rfl⟩ := List.mem_map.1 hf
    intro n hn
    simp only [noticeFrame, Body.notice.injEq] at hn
    subst hn
    exact fun e => hd (e ▸ hj)

/-- A source that is not due when an event ends, and whose NOTICE does not wait among the claims, draws none (R193). -/
theorem noticeSilent_finish {i : NoticeId} (hi : i ≠ .congestion) {s : State} (h : (s.ntu.source i).due = false)
    (hc : ∀ c ∈ s.claims, NotOf i c.frame) : NoticeSilent i s (finish s) := by
  have e : ∀ {t : State}, Silent i s t → Silent i s (Machine.emitDue t) := fun {t} k =>
    k.trans (Silent.emitDue hi t (by rw [k.2]; exact h))
  have c : ∀ (b : OwnBlock) {t : State}, Silent i s t → Silent i s (Machine.takeClaims b s.claims t) := fun b {t} k =>
    k.trans (Silent.takeClaims hi b _ hc t)
  have h0 : Silent i s { s with claims := [] } := Silent.of_eq (fun p => by cases p <;> exact ⟨rfl, rfl⟩) rfl
  refine ((e (c .cfu (e (e (c .ntu (c .shu (c .rqu h0))))))).trans (u := finish s) (Silent.of_eq (fun p => ?_) rfl)).1
  rw [finish, port_offerAll]
  unfold OutPort.offerNext
  split
  · split <;> exact ⟨rfl, rfl⟩
  · exact ⟨rfl, rfl⟩

end Sys2Proof.Machine
end

