-- ==== Sys2Proof/Laws/Tables.lean ====
section
/-! SUPPORT. Tables kept as lists of (index, entry) pairs: what reading, writing, freeing and the lowest free index do, and
that every one of them keeps the rising order. -/

namespace Sys2Proof.Machine

variable {α : Type}

/-! ## Rising tables -/

theorem rising_iff_pairwise (t : List (Nat × α)) :
    Table.rising t = true ↔ t.Pairwise (fun a b => a.1 < b.1) := by
  induction t with
  | nil => simp [Table.rising]
  | cons a t ih =>
    cases t with
    | nil => simp [Table.rising]
    | cons b t =>
      obtain ⟨i, x⟩ := a
      obtain ⟨j, y⟩ := b
      rw [Table.rising, Bool.and_eq_true, ih, List.pairwise_cons (a := (i, x)), decide_eq_true_eq]
      constructor
      · rintro ⟨hij, hp⟩
        refine ⟨fun c hc => ?_, hp⟩
        rcases List.mem_cons.1 hc with rfl | hc
        · exact hij
        · exact lt_trans hij ((List.pairwise_cons.1 hp).1 c hc)
      · rintro ⟨h1, hp⟩
        exact ⟨h1 (j, y) (by simp), hp⟩

theorem rising_filter {t : List (Nat × α)} (h : Table.rising t = true) (p : Nat × α → Bool) :
    Table.rising (t.filter p) = true := by
  rw [rising_iff_pairwise] at h ⊢
  exact h.filter p

theorem rising_tdel {t : List (Nat × α)} (h : Table.rising t = true) (i : Nat) : Table.rising (tdel t i) = true :=
  rising_filter h _

theorem rising_map {β : Type} {t : List (Nat × α)} (h : Table.rising t = true) (f : Nat × α → Nat × β)
    (hf : ∀ e, (f e).1 = e.1) : Table.rising (t.map f) = true := by
  rw [rising_iff_pairwise] at h ⊢
  rw [List.pairwise_map]
  exact h.imp (by intro a b hab; rw [hf, hf]; exact hab)

theorem rising_tmap {t : List (Nat × α)} (h : Table.rising t = true) (f : α → α) : Table.rising (tmap f t) = true :=
  rising_map h _ fun _ => rfl

/-- The entries after a write: the one written, and every other that stood there. -/
theorem mem_tput_of_mem {t : List (Nat × α)} {i : Nat} {a : α} {e : Nat × α} (h : e ∈ tput t i a) :
    e = (i, a) ∨ e ∈ t := by
  induction t with
  | nil => simp [tput] at h; exact Or.inl h
  | cons b t ih =>
    obtain ⟨j, y⟩ := b
    rw [tput] at h
    split at h
    · rcases List.mem_cons.1 h with h | h
      · exact Or.inl h
      · exact Or.inr h
    · split at h
      · rcases List.mem_cons.1 h with h | h
        · exact Or.inl h
        · exact Or.inr (List.mem_cons_of_mem _ h)
      · rcases List.mem_cons.1 h with h | h
        · exact Or.inr (h ▸ List.mem_cons_self)
        · rcases ih h with h | h
          · exact Or.inl h
          · exact Or.inr (List.mem_cons_of_mem _ h)

theorem mem_tput_self (t : List (Nat × α)) (i : Nat) (a : α) : (i, a) ∈ tput t i a := by
  induction t with
  | nil => simp [tput]
  | cons b t ih =>
    obtain ⟨j, y⟩ := b
    rw [tput]
    split
    · simp
    · split
      · simp
      · exact List.mem_cons_of_mem _ ih

theorem mem_tput_of_ne {t : List (Nat × α)} {i : Nat} {a : α} {e : Nat × α} (h : e ∈ t) (hi : e.1 ≠ i) :
    e ∈ tput t i a := by
  induction t with
  | nil => simp at h
  | cons b t ih =>
    obtain ⟨j, y⟩ := b
    rw [tput]
    split
    · exact List.mem_cons_of_mem _ h
    · split
      · rename_i hij
        rcases List.mem_cons.1 h with h | h
        · exact absurd (by rw [h, hij]) hi
        · exact List.mem_cons_of_mem _ h
      · rcases List.mem_cons.1 h with h | h
        · rw [h]; exact List.mem_cons_self
        · exact List.mem_cons_of_mem _ (ih h)

theorem rising_tput {t : List (Nat × α)} (h : Table.rising t = true) (i : Nat) (a : α) :
    Table.rising (tput t i a) = true := by
  rw [rising_iff_pairwise] at h ⊢
  induction t with
  | nil => simp [tput]
  | cons b t ih =>
    obtain ⟨j, y⟩ := b
    have hb := List.pairwise_cons.1 h
    rw [tput]
    split
    · rename_i hij
      refine List.pairwise_cons.2 ⟨fun c hc => ?_, h⟩
      rcases List.mem_cons.1 hc with rfl | hc
      · exact hij
      · exact lt_trans hij (hb.1 c hc)
    · split
      · rename_i hij
        subst hij
        exact List.pairwise_cons.2 ⟨hb.1, hb.2⟩
      · rename_i h1 h2
        refine List.pairwise_cons.2 ⟨fun c hc => ?_, ih hb.2⟩
        rcases mem_tput_of_mem hc with rfl | hc
        · exact lt_of_le_of_ne (not_lt.1 h1) (Ne.symm h2)
        · exact hb.1 c hc

/-! ## Reading -/

theorem tget_eq_some_of_mem {t : List (Nat × α)} (h : Table.rising t = true) {i : Nat} {a : α} (hm : (i, a) ∈ t) :
    tget t i = some a := by
  rw [rising_iff_pairwise] at h
  induction t with
  | nil => simp at hm
  | cons b t ih =>
    have hb := List.pairwise_cons.1 h
    rcases List.mem_cons.1 hm with rfl | hm
    · simp [tget]
    · have : b.1 ≠ i := Nat.ne_of_lt (hb.1 _ hm)
      have ht : tget (b :: t) i = tget t i := by simp [tget, this]
      rw [ht]; exact ih hb.2 hm

theorem mem_of_tget {t : List (Nat × α)} {i : Nat} {a : α} (h : tget t i = some a) : (i, a) ∈ t := by
  rw [tget, Option.map_eq_some_iff] at h
  obtain ⟨e, he, rfl⟩ := h
  have h1 := List.find?_some he
  have h2 := List.mem_of_find?_eq_some he
  have : e.1 = i := by simpa using h1
  rw [← this]; exact h2

theorem tget_eq_none_iff {t : List (Nat × α)} {i : Nat} : tget t i = none ↔ ∀ e ∈ t, e.1 ≠ i := by
  simp [tget, List.find?_eq_none]

theorem tget_tput_self {t : List (Nat × α)} (h : Table.rising t = true) (i : Nat) (a : α) :
    tget (tput t i a) i = some a := tget_eq_some_of_mem (rising_tput h i a) (mem_tput_self t i a)

theorem tget_tput_of_ne {t : List (Nat × α)} (h : Table.rising t = true) {i j : Nat} (a : α) (hij : j ≠ i) :
    tget (tput t i a) j = tget t j := by
  cases hj : tget t j with
  | some b => exact tget_eq_some_of_mem (rising_tput h i a) (mem_tput_of_ne (mem_of_tget hj) hij)
  | none =>
    rw [tget_eq_none_iff] at hj ⊢
    intro e he
    rcases mem_tput_of_mem he with rfl | he
    · exact fun h => hij h.symm
    · exact hj e he

/-- Writing an entry back where it stands changes nothing. -/
theorem tput_eq_self {t : List (Nat × α)} (h : Table.rising t = true) {i : Nat} {a : α} (hm : (i, a) ∈ t) :
    tput t i a = t := by
  rw [rising_iff_pairwise] at h
  induction t with
  | nil => simp at hm
  | cons b t ih =>
    obtain ⟨j, y⟩ := b
    have hb := List.pairwise_cons.1 h
    rw [tput]
    rcases List.mem_cons.1 hm with hm | hm
    · obtain ⟨rfl, rfl⟩ := Prod.mk.inj hm
      simp
    · have hj : j < i := hb.1 _ hm
      rw [if_neg (by omega), if_neg (by omega), ih hb.2 hm]

/-! ## The lowest free index -/

theorem lowestFreeFrom_spec {t : List (Nat × α)} (h : Table.rising t = true) (n : Nat) :
    n ≤ lowestFreeFrom t n ∧ (∀ e ∈ t, e.1 ≠ lowestFreeFrom t n) ∧
      ∀ j, n ≤ j → j < lowestFreeFrom t n → ∃ e ∈ t, e.1 = j := by
  rw [rising_iff_pairwise] at h
  induction t generalizing n with
  | nil => exact ⟨le_rfl, by simp, fun j h1 h2 => absurd h2 (not_lt.2 h1)⟩
  | cons b t ih =>
    obtain ⟨k, y⟩ := b
    have hb := List.pairwise_cons.1 h
    rw [lowestFreeFrom]
    split
    · rename_i hk
      subst hk
      obtain ⟨h1, h2, h3⟩ := ih hb.2 (k + 1)
      refine ⟨by omega, fun e he => ?_, fun j hj hlt => ?_⟩
      · rcases List.mem_cons.1 he with rfl | he
        · simp only; omega
        · exact h2 e he
      · by_cases hkj : j = k
        · exact ⟨(k, y), by simp, hkj.symm⟩
        · obtain ⟨e, he, hej⟩ := h3 j (by omega) hlt
          exact ⟨e, List.mem_cons_of_mem _ he, hej⟩
    · split
      · rename_i h1 h2
        obtain ⟨g1, g2, g3⟩ := ih hb.2 n
        refine ⟨g1, fun e he => ?_, fun j hj hlt => ?_⟩
        · rcases List.mem_cons.1 he with rfl | he
          · simp only; omega
          · exact g2 e he
        · obtain ⟨e, he, hej⟩ := g3 j hj hlt
          exact ⟨e, List.mem_cons_of_mem _ he, hej⟩
      · rename_i h1 h2
        refine ⟨le_rfl, fun e he => ?_, fun j hj hlt => by omega⟩
        rcases List.mem_cons.1 he with rfl | he
        · exact h1
        · have := hb.1 e he
          simp only at this
          omega

/-- The lowest free index is free, lies below the capacity, and no lower index is free. -/
theorem lowestFree_spec {t : List (Nat × α)} (h : Table.rising t = true) {cap i : Nat} (hi : lowestFree t cap = some i) :
    i < cap ∧ tget t i = none ∧ ∀ j, j < i → tget t j ≠ none := by
  change (if lowestFreeFrom t 0 < cap then some (lowestFreeFrom t 0) else none) = some i at hi
  split at hi
  · rename_i hlt
    obtain rfl := Option.some.inj hi
    obtain ⟨_, h2, h3⟩ := lowestFreeFrom_spec h 0
    refine ⟨hlt, tget_eq_none_iff.2 h2, fun j hj hn => ?_⟩
    obtain ⟨e, he, hej⟩ := h3 j (Nat.zero_le _) hj
    exact tget_eq_none_iff.1 hn e he hej
  · cases hi

end Sys2Proof.Machine
end

