-- ==== Sys2Proof/Tests/Slice0.lean ====
section
/-! SUPPORT. Tests: ill-formed commands the check refuses, the CRC and a frame read from bytes, the worked examples of the
manual that are one event long, and for every statement with hypotheses a state and operands that meet them. -/

namespace Sys2Proof.Tests

open Sys2Proof.Machine

/- Theorems decided by the kernel wait for the whole environment; one after another they need few threads. -/
set_option Elab.async false

/-! ## Ill-formed commands -/

def mgmtNp : MgmtFrom := ⟨.np, 0, 1⟩

def keyTooWide : LinkKey := ⟨65536, 0⟩

def plainRequest : RouteqBody := ⟨6, 1, 0, 0, 4, 17, 42, 4, 0, 0, 0, 0, 0⟩

theorem test_ill_formed_frames :
    Instr.wellFormed (.greet 0 ⟨65536, 0, 0, 0⟩) = false ∧
    Instr.wellFormed (.greet 0 ⟨1, 256, 0, 0⟩) = false ∧
    Instr.wellFormed (.advert 0 ⟨0, 1, 1, 1, .node 256 0, 0, 0⟩) = false ∧
    Instr.wellFormed (.advert 0 ⟨0, 1, 1, 1, .link 65536 2 0 0 1 0 0 0, 0, 0⟩) = false ∧
    Instr.wellFormed (.advert 0 ⟨0, 1, 1, 1, .node 0 0, 5, 0⟩) = false ∧
    Instr.wellFormed (.advert 0 ⟨3, 0, 1, 1, .node 0 0, 5, 5⟩) = false ∧
    Instr.wellFormed (.advert 0 ⟨3, 0, 4294967296, 1, .node 0 0, 5, 0⟩) = false ∧
    Instr.wellFormed (.tally 0 ⟨1, 65536, []⟩) = false ∧
    Instr.wellFormed (.tally 0 ⟨1, 2, [⟨1, 4294967296, 1, 1⟩]⟩) = false ∧
    Instr.wellFormed (.pull 0 [65536]) = false ∧
    Instr.wellFormed (.routeq .np 65536 plainRequest) = false ∧
    Instr.wellFormed (.routeq .np 0 { plainRequest with width := 256 }) = false ∧
    Instr.wellFormed (.routea .np 0 ⟨1, 256, 0, []⟩) = false ∧
    Instr.wellFormed (.routea .np 0 ⟨1, 0, 0, [⟨4294967296, []⟩]⟩) = false ∧
    Instr.wellFormed (.routea .np 0 ⟨1, 0, 0, [⟨1, [⟨keyTooWide, 0⟩]⟩]⟩) = false ∧
    Instr.wellFormed (.claim .np 0 65536) = false ∧
    Instr.wellFormed (.release .np 65536 0) = false ∧
    Instr.wellFormed (.faultrep .np ⟨keyTooWide, 0, 0⟩) = false ∧
    Instr.wellFormed (.slotmap .np ⟨256, 0, 0⟩) = false ∧
    Instr.wellFormed (.transitFrame [⟨.np, ⟨256, 1, 0, 0, 0, []⟩⟩]) = false ∧
    Instr.wellFormed (.deliveredToNp ⟨.deg 0, ⟨0, 256, 0, 0, 0, []⟩⟩ []) = false := by decide

theorem test_ill_formed_commands :
    Instr.wellFormed (.status ⟨.np, 0, 65536⟩) = false ∧
    Instr.wellFormed (.writeParam mgmtNp ⟨none, none⟩ 4294967296) = false ∧
    Instr.wellFormed (.degreeEnable mgmtNp 256) = false ∧
    Instr.wellFormed (.domainWrite mgmtNp 1 { DomainFields.reset with nativeBase := 4294967296 }) = false ∧
    Instr.wellFormed (.domainRelease mgmtNp 256) = false ∧
    Instr.wellFormed (.delegateWrite mgmtNp 1 65536) = false ∧
    Instr.wellFormed (.excludeAdd mgmtNp ⟨⟨1, 256⟩, 0, 0⟩) = false ∧
    Instr.wellFormed (.watchWrite mgmtNp ⟨0, none, [keyTooWide]⟩) = false ∧
    Instr.wellFormed (.tableRead mgmtNp none 65536 0) = false ∧
    Instr.wellFormed (.ageExpiry (.node 65536)) = false ∧
    Instr.wellFormed (.lingerExpiry (.link keyTooWide)) = false ∧
    Instr.wellFormed (.exclusionLifetimeExpiry ⟨⟨1, 0⟩, 65536, 0⟩) = false ∧
    Instr.wellFormed (.imageLoad (.image [⟨[], some (.delegation 1 65536)⟩] [] 0)) = false ∧
    Instr.wellFormed (.imageLoad (.image [⟨[], some (.parameter ⟨none, none⟩ 4294967296)⟩] [] 0)) = false := by decide

/-! ## Frames as bytes -/

/-- The check value of this CRC over the bytes of "123456789". -/
theorem test_crc_check_value :
    crc32 [0x31, 0x32, 0x33, 0x34, 0x35, 0x36, 0x37, 0x38, 0x39] = 0xFC891918#32 := by decide +kernel

/-- A CLAIM of node 42 for tag 7, from 42 to 17, written out by R1 and R2. -/
def claimBytes : List Byte :=
  [0x07, 1, 64, 0, 0, 42, 0, 17, 0, 2, 0, 7] ++
    valueBytes (crc32 [0x07, 1, 64, 0, 0, 42, 0, 17, 0, 2, 0, 7]).toNat 4

theorem test_claim_is_read_from_its_bytes :
    parseFrame claimBytes = some ⟨0x07, 64, 0, 42, 17, [0, 7]⟩ ∧ parseBody 0x07 [0, 7] = some (.claim 7) := by
  decide +kernel

/-! ## A part at work -/

/-- A neighbour record. -/
def neighbour (node counter : Nat) : Neighbour := ⟨node, 5, 0, counter, some 0⟩

def nodeRec (id domain : Nat) : NodeRec :=
  ⟨id, ⟨domain, none, some ⟨3, .active, ⟨0, true, .own⟩⟩, none, 3600, none⟩, false⟩

/-- A node whose age has run out, and one withdrawn whose linger has. -/
def agedNodes : List (Nat × NodeRec) :=
  [(3, ⟨95, ⟨0, none, some ⟨3, .active, ⟨0, true, .own⟩⟩, none, 0, none⟩, false⟩),
    (4, ⟨96, ⟨0, none, none, some ⟨3, .withdrawn, ⟨0, true, .own⟩⟩, 0, some 0⟩, false⟩)]

def activePart (seq far : Nat) : Machine.Part LinkContent := ⟨seq, .active, ⟨far, none, 100, 0, SlotMap.allFree⟩⟩

def withdrawnPart (seq far : Nat) : Machine.Part LinkContent := ⟨seq, .withdrawn, ⟨far, none, 100, 0, SlotMap.allFree⟩⟩

/-- A result of NP on link (17, 4). -/
def heldResult (tag : Nat) : Result := ⟨0, tag, false, 5, .held, [⟨100, [⟨⟨17, 4⟩, 0, false⟩]⟩], 1, some 10000, none⟩

def claimedResult (tag : Nat) : Result := { heldResult tag with state := .claimed, holdDeadline := none, claimDeadline := some 60000 }

def request (who tag kind retries : Nat) : Request := ⟨who, { plainRequest with tag := tag, kind := kind }, retries, 1⟩

def captured : Capture := ⟨5, [], [], 500, 0, 1⟩

/-- A part at work as node 17: D1 to D5 in DOWN, DETECT, QUALIFY, UP and HOLD, a tree build on L0 and a computation on L1. -/
def work : State := { State.reset with
  cfu := { Cfu.reset with start := .running, params := { Params.default with nodeId := 17 } }
  cmc := { Cmc.reset with gen := 5 }
  adm := #v[⟨.disabled, false, none, none, none, none, none⟩, ⟨.down, true, none, some 900, none, none, none⟩,
    ⟨.detect, true, some (neighbour 40 0), some 900, some 4000, none, none⟩,
    ⟨.qualify, true, some (neighbour 41 2), some 900, some 4000, none, none⟩,
    ⟨.up, true, some (neighbour 42 3), some 900, some 4000, none, none⟩,
    ⟨.hold, true, some (neighbour 43 3), some 900, none, some 10000, some 60000⟩,
    ⟨.disabled, false, none, none, none, none, none⟩, ⟨.disabled, false, none, none, none, none, none⟩]
  fle := { Fle.reset with
    seq := 20, refreshTimer := some 1800000
    degrees := vset Fle.reset.degrees 4 ⟨[], [⟨50, 9, 1, 9, 3000⟩], [], none, some 30000⟩ }
  tdb := ⟨[(0, nodeRec 17 0), (1, nodeRec 42 0), (2, nodeRec 88 3)] ++ agedNodes,
    [(0, ⟨⟨17, 4⟩, ⟨0, none, some (activePart 5 42), none, 3600, none⟩⟩),
      (1, ⟨⟨42, 1⟩, ⟨0, none, some (activePart 7 17), none, 0, none⟩⟩),
      (2, ⟨⟨42, 2⟩, ⟨0, none, none, some (withdrawnPart 8 17), 0, some 0⟩⟩),
      (3, ⟨⟨88, 2⟩, ⟨3, some 2, some (activePart 8 42), none, 5, none⟩⟩),
      (4, ⟨⟨90, 1⟩, ⟨3, some 1, some (activePart 8 42), none, 5, none⟩⟩)],
    [], [⟨⟨⟨42, 9⟩, 0, 1⟩, .loaded, none, 0, 1⟩, ⟨⟨⟨42, 9⟩, 5, 1⟩, .reported, some 0, 0, 2⟩], 1000⟩
  fsw := { Fsw.reset with fwd := [(1, ⟨42, some 4⟩), (2, ⟨88, some 4⟩)], fwdGen := 5 }
  rqu := { Rqu.reset with
    queue := [request 0 6 1 0]
    referrals := vset Rqu.reset.referrals 3 (some ⟨0, 30, 42, true, 5000⟩)
    cursor := 3, delegation := vset Rqu.reset.delegation 3 42 }
  rsv := ⟨⟨.tree 5, none, none⟩, ⟨.computing (request 42 31 0 0) captured, none, none⟩, none⟩
  shu := ⟨[(0, heldResult 7), (1, claimedResult 8)], [(0, ⟨⟨⟨17, 4⟩, 0, 4⟩, 0⟩)], [(42, 9)]⟩
  dtu := vset State.reset.dtu 3 ⟨⟨true, 1000, 80, 16, 1, 0, 1, 1⟩, .clean, false, .none⟩ }

/-- No own step is due, no transceiver is ready and no direct claim is left. -/
def rested (u : State) : Bool := (!settleDue u && allPorts.all fun p => !(u.port p).ready) && u.claims.isEmpty

theorem settled {u : State} (h : rested u = true) : u = settle u := by
  simp only [rested, Bool.and_eq_true, Bool.not_eq_true', List.all_eq_true, List.isEmpty_iff] at h
  exact (settle_of_not_due u h.1.1 (fun p => h.1.2 p (mem_allPorts p)) h.2).symm

theorem test_work_is_settled : work = settle work := settled (by decide +kernel)

theorem test_work_is_quiet : Quiet work := by intro i; cases i <;> decide +kernel

theorem test_reset_is_settled : State.reset = settle State.reset := settled (by decide +kernel)

/-- The part with its commit controller changed. -/
def withCmc (c : Cmc) : State := { work with cmc := c }

def greetOf (node seen : Nat) : GreetBody := ⟨node, 5, 0, seen⟩

/-! ## States and operands that meet the hypotheses of the statements -/

/-- A frame without a body. -/
def bare (kind hop : Nat) (src dst : NodeId) : RawFrame := ⟨kind, hop, 0, src, dst, []⟩

/-- The port of D4 with its queue, backlog and offer given. -/
def withPort (q : List Queued) (b : List Frame) (offer : Option Offer) : State :=
  work.setPort (.deg 4) { work.port (.deg 4) with queue := q, backlog := b, offer := offer }

def someFrame : Frame := ⟨0x0D, 64, 0, 17, 42, .raw []⟩

def someGreet : Frame := ⟨0x01, 1, 0, 17, 65535, .greet ⟨17, 4, 0, 42⟩⟩

def fullQueue : List Queued := List.replicate 24 ⟨true, someFrame⟩

def fullBacklog : List Frame := List.replicate 8 someFrame

theorem test_meets_idle :
    State.reset.pending = [] ∧ settleDue State.reset = false ∧ dueCommands State.reset = [] ∧
    dueCommands { State.reset with now := 1000 } = [.ageClockExpiry] ∧
    settleDue { State.reset with now := 1000 } = false ∧
    settleDue (work.setFlood 4 { work.flood 4 with round := some 1 }) = true := by decide +kernel

theorem test_meets_image_load :
    State.reset = settle State.reset ∧ work = settle work ∧ State.reset.cfu.start = .loading ∧ State.reset.nodeId = 0 ∧
    work.cfu.start ≠ .loading := ⟨test_reset_is_settled, test_work_is_settled, by decide +kernel⟩

/-- An image that names node 17, writes three parameters, enables D4 and locks a group. -/
def image : List ImageEntry :=
  [⟨[8], some (.locks [.domain])⟩, ⟨[2], some (.degreeEnable [4])⟩, ⟨[1, 17], some (.parameter ⟨some .nodeId, none⟩ 17)⟩,
    ⟨[1, 0], some (.parameter ⟨some .degreeCost, some 4⟩ 0)⟩, ⟨[1, 2], some (.parameter ⟨some .retrigger, none⟩ 2)⟩]

def imageEnd : List Byte := [0xFF]

theorem test_meets_images :
    (∀ r ∈ image, r.content ≠ none) ∧ (image.flatMap (·.bytes) ++ imageEnd).length ≤ 4096 ∧
    (0 : BitVec 32) ≠ crc32 (image.flatMap (·.bytes) ++ imageEnd) ∧
    4096 < (List.replicate 4097 (0 : Byte)).length ∧ targetOk ⟨some .degreeCost, some 8⟩ = false ∧
    targetOk ⟨some .retrigger, none⟩ = true ∧ DomainFields.rangeOk ⟨true, 0, 0, 257, 6, 383, 16, 16⟩ = false := by
  decide +kernel

/-- The part after the load of the image. -/
def loaded : State :=
  finish (completeLoad (.image image imageEnd (crc32 (image.flatMap (·.bytes) ++ imageEnd))) (settle State.reset))

theorem test_image_loads :
    exec (.imageLoad (.image image imageEnd (crc32 (image.flatMap (·.bytes) ++ imageEnd)))) State.reset = .next loaded ∧
    loaded.cfu.outcome = .valid ∧ (loaded.cfu.skipped, loaded.cfu.clamped) = (1, 1) ∧ loaded.nodeId = 17 ∧
    loaded.cfu.start = .running ∧ vget loaded.cfu.params.degreeCost 4 = 1 ∧ (loaded.adjacency 4).state = .down ∧
    (loaded.adjacency 3).state = .disabled ∧ loaded.cfu.locks.domain = true := ⟨rfl, by decide +kernel⟩

theorem test_meets_input_checks :
    takesInput work (.deg 4) = true ∧ takesInput work .np = true ∧ (claimBytes.take 13).length < 14 ∧
    parseFrame claimBytes = some ⟨0x07, 64, 0, 42, 17, [0, 7]⟩ ∧ claimBytes.length = 16 ∧ work.nodeId = 17 := by
  decide +kernel

theorem test_meets_ports_without_input :
    (work.adjacency 0).enable = false ∧ State.reset.cfu.start ≠ .running ∧ settle work = work ∧
    settle State.reset = State.reset :=
  ⟨by decide +kernel, by decide +kernel, test_work_is_settled.symm, test_reset_is_settled.symm⟩

theorem test_meets_transit :
    takesInput work (.deg 1) = true ∧ takesInput work .np = true ∧
    (bare 0x20 1 9 88).inputOk = true ∧ (bare 0x20 2 9 88).inputOk = true ∧ isTransit work (bare 0x20 2 9 88) = true ∧
    lookup work 88 = some 4 ∧ isTransit work (bare 0x20 64 9 77) = true ∧ lookup work 77 = none ∧
    hopped .np (bare 0x20 1 0 88) = some (passingFrame (bare 0x20 1 0 88)) ∧
    ((endClaims work).port (.deg 4)).queue.length < 23 ∧ ((endClaims work).port (.deg 4)).passing < 19 ∧
    (Port.index (.deg 1) + 8 - ((endClaims work).port (.deg 4)).lastServed.index) % 9 <
      (Port.index .np + 8 - ((endClaims work).port (.deg 4)).lastServed.index) % 9 := by decide +kernel

theorem test_meets_delivered :
    takesInput work (.deg 1) = true ∧ (bare 0x20 1 9 17).inputOk = true ∧ (bare 0x20 1 9 17).dst = work.nodeId ∧
    parseBody 0x20 [] = some .delivered ∧ takesInput work (.deg 2) = true ∧
    ((endClaims work).port .np).queue.length < 31 ∧ ((endClaims work).port .np).passing < 27 ∧
    ((1 : Degree).val + 8 - ((endClaims work).port .np).lastServed.index) % 9 <
      ((2 : Degree).val + 8 - ((endClaims work).port .np).lastServed.index) % 9 := by decide +kernel

/-- Two claims of one input port take their turns in two rounds (R20, log 37). -/
theorem test_round_robin_takes_turns :
    let claim (p : Port) (src : NodeId) : PassingClaim := ⟨.np, p, passingFrame (bare 0x20 1 src 17)⟩
    (roundRobin (.deg 1) [claim (.deg 1) 1, claim (.deg 3) 2, claim (.deg 3) 3, claim .np 4, claim (.deg 1) 5]).map (·.frame.src) =
      [2, 4, 1, 3, 5] := by decide +kernel

/-- A PULL and a frame for node 42 that reach the switch together: the ADVERTs FLE claims for come first at D4 (R20, R95). -/
theorem test_flood_claims_before_passing_frames :
    ((takeTogether [⟨.np, bare 0x20 64 0 42⟩, ⟨.deg 4, ⟨0x04, 1, 0, 42, 65535, [1, 0, 17]⟩⟩] work).port (.deg 4)).queue.map
      (·.frame.kind) = [0x02, 0x02, 0x20] := by decide +kernel

/-- Two malformed frames together: the NOTICE of the first is built before the second is taken (R193, log 32). -/
theorem test_notice_between_frames_together :
    ((takeTogether [⟨.deg 1, bare 0x06 1 9 17⟩, ⟨.deg 4, bare 0x06 1 9 17⟩] work).port .np).queue.map (·.frame.body) =
      [.notice ⟨.frameError, [.frameError], false, [.port (.deg 1)], 5⟩] ∧
    ((takeTogether [⟨.deg 1, bare 0x06 1 9 17⟩, ⟨.deg 4, bare 0x06 1 9 17⟩] work).ntu.source .frameError).overrun = true := by
  decide +kernel

/-- Frames whose claims wait are lost with a disabled degree, and at a soft reset (R22, R23). -/
theorem test_waiting_claims_are_lost :
    let u := { work with claims := [⟨.rqu, .deg 4, someFrame⟩, ⟨.rqu, .np, someFrame⟩] }
    (disableDegree 4 u).claims = [⟨.rqu, .np, someFrame⟩] ∧ (softResetValues u).claims = [] := by decide +kernel

/-- A NOTICE_ENABLE behind a frame whose answer waits: the answer of RQU claims before the NOTICE (R20, R195). -/
theorem test_notice_enable_waits_for_its_turn :
    let u := raise .start [.absent] { setEnables 0 work with claims := [⟨.rqu, .np, someFrame⟩] }
    ((endClaims (doNoticeEnable 1 u).1).port .np).queue.map (·.frame.dst) = [42, 0] ∧
    (endClaims (doNoticeEnable 1 u).1).claims = [] := by decide +kernel

/-- With L1 IDLE alone, a BULK request taken before an URGENT one is dispatched before it (R129). -/
theorem test_dispatch_between_frames_together :
    let ask (tag cls : Nat) : Arrival :=
      ⟨.np, ⟨0x05, 64, 0, 0, 17, (Body.routeq { plainRequest with tag := tag, cls := cls }).bytes⟩⟩
    let u := { work with rsv := { work.rsv with l1 := ⟨.idle, none, none⟩ }, rqu := { work.rqu with queue := [] } }
    ((takeTogether [ask 50 2, ask 51 0] u).rsv.requests.map (·.body.tag), (takeTogether [ask 50 2, ask 51 0] u).rqu.queue.map
      (·.body.tag)) = ([50], [51]) := by decide +kernel

/-- The promotion that a withdrawal makes due is taken before the frame that came with it (R113, log 36). -/
theorem test_promotion_between_frames_together :
    let withdrawal : AdvertBody := ⟨0, 42, 9, 0, .link 1 17 0 0 100 0 0 0, 0, 0⟩
    let t := takeTogether [⟨.deg 4, ⟨0x02, 1, 0, 42, 65535, (Body.advert withdrawal).bytes⟩⟩,
      ⟨.deg 4, ⟨0x04, 1, 0, 42, 65535, [1, 0, 17]⟩⟩] work
    (t.cmc.gen, t.tdb.linkActive ⟨42, 1⟩, work.tdb.linkActive ⟨42, 1⟩) = (6, false, true) := by decide +kernel

theorem test_meets_own_frame_claims :
    (work.port (.deg 4)).backlog = [] ∧ (work.port (.deg 4)).queue.length < queueSize (.deg 4) ∧
    ((withPort fullQueue [] none).port (.deg 4)).queue.length = queueSize (.deg 4) ∧
    ((withPort fullQueue (fullBacklog.drop 1) none).port (.deg 4)).backlog.length = 7 ∧
    ((withPort fullQueue fullBacklog none).port (.deg 4)).backlog.length = 8 := by decide +kernel

theorem test_step_of_reset : ∃ t, step State.reset = .next t := ⟨_, rfl⟩

/-- The hypotheses of the statements about every step. -/
theorem test_meets_invariants (h : Obligations.ResetValuesMeetInvariants) :
    ∃ s t, PortsWithin s ∧ NoticesOk s ∧ AdjacenciesOk s ∧ CommitOk s ∧ TablesOk s ∧ step s = .next t := by
  obtain ⟨t, ht⟩ := test_step_of_reset
  simp only [Obligations.ResetValuesMeetInvariants] at h
  exact ⟨State.reset, t, by tauto⟩

theorem test_meets_transceiver_events :
    rested (withPort [⟨true, someFrame⟩] [] (some (.queued someFrame))) = true ∧
    rested (withPort [] [] (some (.greet someGreet true))) = true ∧
    rested (withPort [] [] (some (.greet someGreet false))) = true ∧
    (work.port (.deg 4)).offer = none ∧ (NoticeId.all.all fun i => !(work.ntu.source i).due) = true := by decide +kernel

theorem test_meets_backlog_head :
    ((fleClaimsAt .np (work.setPort .np { work.port .np with backlog := [someFrame] })).port .np).backlog =
      [someFrame] ∧
    ((fleClaimsAt (.deg 4) (withPort fullQueue [someFrame] none)).port (.deg 4)).queue.length = 24 ∧
    ((fleClaimsAt .np work).port .np).backlog = [] := by decide +kernel

theorem test_meets_fle_claims :
    work.isUp 4 = true ∧ (work.port (.deg 4)).queue.length < 24 ∧ work.isUp 1 = false ∧
    ((work.setFlood 4 ⟨[], [], [50], none, none⟩).flood 4).waiting ≠ [] ∧
    ((work.setFlood 4 ⟨[], [], [], some 1, none⟩).flood 4).round = some 1 ∧
    ((work.setFlood 4 ⟨[.node 17], [], [], none, none⟩).flood 4).sendList = [.node 17] ∧
    (keyAdvert (work.setFlood 4 ⟨[.node 17], [], [], none, none⟩) (.node 17)).isSome = true ∧
    keyAdvert (work.setFlood 4 ⟨[.node 70, .node 17], [], [], none, none⟩) (.node 70) = none ∧
    (work.flood 4).waiting = [] ∧ (work.flood 4).round = none ∧ (work.flood 4).sendList = [] := by decide +kernel

/-- Foreign records in the native form of domain 3: a node inside its block, a link whose far node lies outside it (R52). -/
theorem test_foreign_records_are_sent :
    keyAdvert work (.node 88) = some ⟨3, 0, 3, 3600, .node 0 1, 1008, 0⟩ ∧ keyAdvert work (.link ⟨88, 2⟩) = none ∧
    keyAdvert { work with fle := { work.fle with seq := 0xFFFFFFF1 } } (.node 17) = none ∧
    (nextTally work.tdb 43).1.entries = [⟨88, 8, 2, 11⟩, ⟨90, 8, 1, 8⟩, ⟨95, 3, 1, 3⟩, ⟨96, 3, 1, 3⟩] := by decide +kernel

theorem test_meets_wire :
    (Body.pull [5]).bytes = [1, 0, 5] ∧ (Frame.wire ⟨0x04, 1, 0, 17, 65535, .pull [5]⟩).length = 17 ∧
    (greetOf 40 17).wellFormed = true ∧ pullWellFormed [5] = true ∧ TallyBody.wellFormed ⟨1, 65534, [⟨5, 9, 1, 9⟩]⟩ = true ∧
    plainRequest.wellFormed = true ∧
    RouteaBody.wellFormed ⟨7, 0, 5, [⟨100, [⟨⟨17, 4⟩, 32768⟩]⟩]⟩ = true ∧
    AdvertBody.wellFormed ⟨0, 17, 1, 3600, .node 15 1, 0, 0⟩ = true ∧
    AdvertBody.wellFormed ⟨15, 0, 4294967280, 0, .link 65535 0 0 0 65535 65535 3 5, 4294967295, 1⟩ = true := by
  decide +kernel

/-! ### Management -/

/-- A part in ISOLATED. -/
def isolated : State := { State.reset with cfu := { Cfu.reset with start := .isolated } }

/-- The part at work with a manager on the degrees and one lock set. -/
def managed : State := { work with cfu := { work.cfu with
  params := { work.cfu.params with managers := #v[42, 0, 0, 0] }, locks := ⟨false, true, false, true⟩ } }

/-- The part at work with its identity locked. -/
def sealed : State := { work with cfu := { work.cfu with locks := ⟨true, false, false, false⟩ } }

theorem test_sealed_is_settled : sealed = settle sealed := settled (by decide +kernel)

def mgmtDegree (src : NodeId) : MgmtFrom := ⟨.deg 4, src, 1⟩

theorem test_isolated_is_settled : isolated = settle isolated := settled (by decide +kernel)

theorem test_managed_is_settled : managed = settle managed := settled (by decide +kernel)

theorem test_meets_commanded : Commanded mgmtNp work ∧ Commanded mgmtNp sealed ∧ Commanded mgmtNp isolated ∧ Commanded (mgmtDegree 42) managed := by
  unfold Commanded; decide +kernel

theorem test_meets_access_checks :
    takesMgmt work (.deg 0) = false ∧ takesMgmt work (.deg 4) = true ∧ badSender work (.deg 4) 17 = true ∧
    badSender work (.deg 4) 42 = false ∧ work.cfu.start ≠ .loading ∧ identity (.deg 4) 42 ≠ 0 ∧
    identity (.deg 4) 42 ∉ work.cfu.params.managers.toList ∧ takesMgmt State.reset .np = true ∧
    badSender State.reset .np 0 = false ∧ State.reset.cfu.start = .loading := by decide +kernel

theorem test_meets_read_commands :
    targetOk ⟨some .managerEntry, some 3⟩ = true ∧ targetOk ⟨some .managerEntry, some 4⟩ = false ∧
    targetOk ⟨some .degreeCost, some 7⟩ = true ∧ targetOk ⟨none, none⟩ = false ∧
    tableStartOk .delegation 0 = false ∧ tableStartOk .delegation 1 = true ∧ tableStartOk .delegation 15 = true ∧
    tableStartOk .delegation 16 = false := by decide

theorem test_meets_write_param :
    paramGroup .greetInterval = some .adjacency ∧ managed.cfu.locks.has .adjacency = true ∧
    (∀ g, paramGroup .regenCount = some g → work.cfu.locks.has g = false) ∧
    (∀ g, paramGroup .degreeCost = some g → work.cfu.locks.has g = false) ∧ work.isUp 4 = true ∧
    targetOk ⟨some .degreeCost, some 4⟩ = true ∧ work.cfu.locks.identity = false ∧
    (10050 : Nat) ≥ (paramRange .greetInterval).high := by
  refine ⟨by decide, by decide +kernel, ?_, ?_, by decide +kernel⟩
  · intro g h; cases h
  · intro g h; cases h; decide +kernel

/-- The part at work with node 42 for a manager. -/
def remote : State :=
  { work with cfu := { work.cfu with params := { work.cfu.params with managers := #v[42, 0, 0, 0] } } }

/-- A new cost of D4 written over D4: the ADVERT of the link claims space before the answer (R20). -/
theorem test_fle_claims_before_the_answer :
    let t := finish (manageFrom (mgmtDegree 42) (doWriteParam ⟨some .degreeCost, some 4⟩ 200) remote)
    (t.port (.deg 4)).queue.map (·.frame.kind) = [0x02, 0x0C] ∧ (t.flood 4).sendList = [] ∧ t.fle.seq = 21 := by
  decide +kernel

theorem test_meets_node_id_write :
    isolated.cfu.start = .isolated ∧ min 70000 65534 ≠ isolated.nodeId ∧ work.cfu.start = .running ∧
    sealed.cfu.locks.identity = true ∧ work.cmc.gen ≠ 0xFFFFFFFF ∧ work.nodeId = 17 ∧ min 18 65534 ≠ work.nodeId ∧
    (withCmc { work.cmc with gen := 0xFFFFFFFF }).cmc.gen = 0xFFFFFFFF ∧
    rested (withCmc { work.cmc with gen := 0xFFFFFFFF }) = true := by decide +kernel

/-! ### Adjacencies -/

theorem test_meets_greet_in_down :
    takesInput work (.deg 1) = true ∧ (greetOf 40 0).formOk = true ∧ (greetOf 17 0).formOk = true ∧
    (greetOf 17 0).senderNode = work.nodeId ∧ (greetOf 40 0).senderNode ≠ work.nodeId ∧
    (work.adjacency 1).state = .down := by decide +kernel

/-- The moment just past the dead interval after the last valid GREET. -/
def late : State := { work with now := 4001 }

theorem test_late_is_settled : late = settle late := settled (by decide +kernel)

theorem test_meets_greet_in_detect_and_qualify :
    takesInput work (.deg 2) = true ∧ takesInput work (.deg 3) = true ∧
    (work.adjacency 2).nbr = some (neighbour 40 0) ∧ (work.adjacency 2).state = .detect ∧
    (work.adjacency 3).nbr = some (neighbour 41 2) ∧ (work.adjacency 3).state = .qualify ∧
    (greetOf 41 17).seen = work.nodeId ∧ (greetOf 41 0).seen ≠ work.nodeId ∧ (greetOf 41 17).formOk = true ∧
    late.now - 0 > late.cfu.params.deadCount * late.cfu.params.greetInterval ∧ 1 < late.cfu.params.qualifyCount ∧
    work.cfu.params.qualifyCount ≤ (neighbour 41 2).counter + 1 := by decide +kernel

theorem test_meets_greet_in_up_and_hold :
    takesInput work (.deg 4) = true ∧ takesInput work (.deg 5) = true ∧ (work.adjacency 4).state = .up ∧
    (work.adjacency 4).nbr = some (neighbour 42 3) ∧ (work.adjacency 5).state = .hold ∧
    (work.adjacency 5).nbr = some (neighbour 43 3) ∧ work.cfu.params.retrigger = 1 ∧ (greetOf 42 17).formOk = true := by
  decide +kernel

theorem test_meets_adjacency_timers :
    (work.adjacency 1).greetTimer = some 900 ∧ (work.adjacency 5).holdTimer = some 10000 ∧
    (work.adjacency 5).holdLimit = some 60000 ∧ (work.adjacency 2).deadTimer = some 4000 ∧
    (work.adjacency 4).deadTimer = some 4000 ∧ (work.adjacency 0).greetTimer = none := by decide +kernel

theorem test_meets_enable_and_disable :
    (work.adjacency 0).state = .disabled ∧ (work.adjacency 4).state = .up ∧ work.cfu.start = .running ∧
    isolated.cfu.start ≠ .running := by decide +kernel

/-! ### Flooding and the database -/

theorem test_meets_advert :
    takesInput work (.deg 4) = true ∧ work.isUp 4 = true ∧
    (work.tdb.findLink ⟨42, 1⟩).map (fun e => e.2.ver.working.map (·.seq)) = some (some 7) ∧
    (work.tdb.findLink ⟨88, 2⟩).map (fun e => e.2.ver.domain) = some 3 ∧
    AdvertBody.formOk ⟨0, 42, 8, 0, .link 1 17 0 0 1 0 0 0, 0, 0⟩ = true ∧ work.tdb.findLink ⟨42, 3⟩ = none ∧
    (work.tdb.links.filter fun e => !(e.2.key.origin == work.nodeId && decide (e.2.key.num ≤ 7))).length < 2040 ∧
    (work.tdb.findNode 42).map (fun e => (e.2.ver.domain, e.2.ver.working.map (·.seq))) = some (0, some 3) ∧
    (work.tdb.findNode 88).map (fun e => e.2.ver.domain) = some 3 ∧ work.tdb.findNode 60 = none ∧
    work.tdb.findNode 90 = none ∧ (work.tdb.findLink ⟨90, 1⟩).map (fun e => e.2.ver.domain) = some 3 ∧
    AdvertBody.formOk ⟨0, 42, 1, 0, .node 15 1, 0, 0⟩ = true ∧ (work.tdb.nodes.filter fun e => e.2.id != 17).length < 255 := by
  decide +kernel

/-- The part with every place for other nodes taken, and with every place for other links. -/
def crowded : State := { work with tdb := { work.tdb with
  nodes := List.replicate 255 (1, nodeRec 42 0), links := List.replicate 2040 (0, ⟨⟨42, 1⟩, ⟨0, none, none, none, 0, none⟩⟩) } }

theorem test_meets_refused_insertion :
    rested crowded = true ∧ takesInput crowded (.deg 4) = true ∧ crowded.isUp 4 = true ∧
    2040 ≤ (crowded.tdb.links.filter fun e => !(e.2.key.origin == crowded.nodeId && decide (e.2.key.num ≤ 7))).length ∧
    255 ≤ (crowded.tdb.nodes.filter fun e => e.2.id != crowded.nodeId).length ∧ crowded.tdb.findNode 60 = none ∧
    crowded.tdb.findLink ⟨42, 3⟩ = none ∧ (crowded.tdb.findNode 42).isSome = true := by decide +kernel

/-- An ADVERT of an own link. -/
def ownLinkAdvert (num seq : Nat) : AdvertBody := ⟨0, 17, seq, 3600, .link num 42 0 0 1 0 0 0, 0, 0⟩

theorem test_meets_own_origin :
    AdvertBody.formOk ⟨0, 17, 0xFFFFFFF0, 3600, .node 15 1, 0, 0⟩ = true ∧ work.fle.seq = 20 ∧
    work.tdb.heldSeq (.node 17) = some 3 ∧ AdvertBody.formOk ⟨0, 17, 1, 3600, .node 0 1, 0, 0⟩ = true ∧
    work.tdb.heldSeq (.link ⟨17, 4⟩) = some 5 ∧ work.tdb.heldSeq (.link ⟨17, 3⟩) = none ∧
    (ownLinkAdvert 255 0xFFFFFFF0).formOk = true ∧ (ownLinkAdvert 4 4).formOk = true ∧ (ownLinkAdvert 8 19).formOk = true ∧
    (work.adjacency 4).nbr = some (neighbour 42 3) ∧ work.isUp 3 = false := by decide +kernel

/-- A jump by an own link key that names no degree leaves S exhausted with both events (R92, R192). -/
theorem test_jump_without_a_degree :
    let t := takeOwn 4 (nativeWrite 4 (ownLinkAdvert 255 0xFFFFFFF0)) work
    t.fle.seq = 0xFFFFFFF1 ∧ t.ntu.source .sequence = ⟨true, true, true, false, [.jumped, .exhausted], none⟩ ∧
    t.tdb = work.tdb := by decide +kernel

theorem test_own_node_fits : OwnNodeFits work := by
  have hn : work.tdb.findNode work.nodeId = some (0, nodeRec 17 0) := by decide +kernel
  unfold OwnNodeFits
  rw [hn]
  rfl

def foreignAdvert (domain native : Nat) : AdvertBody := ⟨domain, 0, 5, 3600, .node 0 1, native, 0⟩

/-- An ADVERT of a link of domain 3 from native node 1008 to 1014. -/
def foreignLink (num seq : Nat) : AdvertBody := ⟨3, 0, seq, 3600, .link num 0 0 0 1 0 1 2, 1008, 1014⟩

def withDomain (st : FaultState) (outstanding : Bool) : State :=
  { work with dtu := vset work.dtu 3 { vget work.dtu 3 with state := st, outstanding := outstanding } }

theorem test_meets_foreign_faults :
    (foreignAdvert 3 999).formOk = true ∧ (foreignAdvert 15 999).formOk = true ∧
    translate work.tdb work.nodeId 4 (vget work.dtu 3).fields (foreignAdvert 3 999) = .fault .range ∧
    (vget work.dtu 15).fields.valid = false ∧ rested (withDomain .faulted true) = true ∧
    rested (withDomain .quarantined true) = true ∧ ((vget (withDomain .faulted true).dtu 3).outstanding) = true := by
  decide +kernel

theorem test_meets_translation :
    (foreignAdvert 3 1008).formOk = true ∧ (foreignLink 1 5).formOk = true ∧
    ((vget work.dtu 3).fields.nativeBase, (vget work.dtu 3).fields.nodeBase, (vget work.dtu 3).fields.nodeLimit) =
      (1000, 80, 16) ∧ (vget work.dtu 3).fields.valid = true ∧ (vget work.dtu 3).state = .clean ∧
    (∀ x ∈ work.tdb.nodes, x.2.id = 88 → x.2.ver.domain = 3) ∧
    (∀ x ∈ work.tdb.links, x.2.key.origin = 88 → x.2.ver.domain = 3) ∧
    (work.tdb.findNode 88).map (fun e => e.2.ver.working.map (·.seq)) = some (some 3) ∧ work.tdb.findNode 94 = none ∧
    (work.tdb.findLink ⟨88, 2⟩).map (fun e => e.2.ver.working.map (·.seq)) = some (some 8) ∧
    work.tdb.findLink ⟨88, 1⟩ = none ∧ 16 - 16 / 8 ≤ 1014 - 1000 ∧ ¬ 16 - 16 / 8 ≤ 1008 - 1000 := by decide +kernel

theorem test_meets_tally_and_pull :
    TallyBody.formOk ⟨1, 65534, [⟨42, 9, 2, 15⟩, ⟨60, 1, 1, 1⟩]⟩ = true ∧
    (work.flood 4).pulls.length + 2 ≤ 32 ∧ work.tdb.summary 42 = some ⟨42, 8, 3, 18⟩ ∧ work.tdb.summary 60 = none ∧
    work.tdb.isIncomplete 42 = false ∧ pullFormOk [1, 65534] = true := by decide +kernel

/-- A pull-list entry whose wanted values a stored record makes the summary leaves its list and the waiting PULL (R101). -/
theorem test_met_pull_leaves :
    let wanting := work.setFlood 4 { work.flood 4 with pulls := [⟨42, 9, 3, 20, 3000⟩, ⟨50, 9, 1, 9, 3000⟩], waiting := [42, 50] }
    let t := takeRecord 4 (nativeWrite 4 ⟨0, 42, 9, 3600, .link 1 17 0 0 100 0 0 0, 0, 0⟩) wanting
    t.tdb.summary 42 = some ⟨42, 9, 3, 20⟩ ∧ (t.flood 4).pulls = [⟨50, 9, 1, 9, 3000⟩] ∧ (t.flood 4).waiting = [50] := by
  decide +kernel

/-- A full pull list refreshes the origin it holds and takes no other; an origin lacked draws no push (R98, R99). -/
theorem test_full_pull_list :
    let full := work.setFlood 4 { work.flood 4 with pulls := (List.range 32).map fun i => ⟨i + 50, 9, 1, 9, 3000⟩ }
    let t := takeTally 4 ⟨43, 87, [⟨45, 9, 2, 15⟩, ⟨60, 10, 1, 1⟩]⟩ full
    (t.flood 4).pulls.find? (fun e => e.origin == 60) = some ⟨60, 10, 1, 1, full.cfu.params.pullWait⟩ ∧
    (t.flood 4).pulls.length = 32 ∧ (t.flood 4).waiting = [60] ∧ (t.flood 4).sendList = [] := by decide +kernel

theorem test_meets_slotmap :
    (⟨0, 0⟩ : SlotMap) = vget work.fle.slotMaps 4 ∧ (⟨1, 0⟩ : SlotMap) ≠ vget work.fle.slotMaps 4 ∧
    work.isUp 4 = true ∧ work.isUp 1 = false ∧ work.cfu.start = .running ∧ work.fle.seq ≤ 0xFFFFFFF0 := by decide +kernel

theorem test_own_link_fits : OwnLinkFits 4 work ∧ OwnLinkFits 3 work := by
  have h4 : work.tdb.findLink ⟨work.nodeId, (4 : Degree).val⟩ =
      some (0, ⟨⟨17, 4⟩, ⟨0, none, some (activePart 5 42), none, 3600, none⟩⟩) := by decide +kernel
  have h3 : work.tdb.findLink ⟨work.nodeId, (3 : Degree).val⟩ = none := by decide +kernel
  have hn : work.tdb.findNode work.nodeId = some (0, nodeRec 17 0) := by decide +kernel
  unfold OwnLinkFits
  rw [h4, h3, hn]
  exact ⟨rfl, fun e h => by cases h; rfl, by decide⟩

theorem test_meets_exclusions :
    SlotRun.rangeOk ⟨⟨42, 9⟩, 0, 1⟩ = true ∧ SlotRun.rangeOk ⟨⟨42, 9⟩, 0, 384⟩ = true ∧
    SlotRun.rangeOk ⟨⟨42, 9⟩, 1, 384⟩ = false ∧ (∀ e ∈ work.tdb.exclusions, e.run ≠ ⟨⟨42, 9⟩, 0, 0⟩) ∧
    work.tdb.exclusions.findIdx? (fun e => e.run == ⟨⟨42, 9⟩, 5, 1⟩) = some 1 ∧
    (∃ e ∈ work.tdb.exclusions, e.run = ⟨⟨42, 9⟩, 5, 1⟩ ∧ e.origin = .reported ∧ e.lifetime = some 0) ∧
    (List.replicate 128 (⟨⟨⟨42, 9⟩, 0, 1⟩, .loaded, none, 0, 1⟩ : Exclusion)).length = 128 := by decide +kernel

theorem test_meets_age_and_linger :
    work.tdb.findLink ⟨42, 1⟩ = some (1, ⟨⟨42, 1⟩, ⟨0, none, some (activePart 7 17), none, 0, none⟩⟩) ∧
    work.tdb.findLink ⟨42, 2⟩ = some (2, ⟨⟨42, 2⟩, ⟨0, none, none, some (withdrawnPart 8 17), 0, some 0⟩⟩) ∧
    work.tdb.findLink ⟨17, 4⟩ = some (0, ⟨⟨17, 4⟩, ⟨0, none, some (activePart 5 42), none, 3600, none⟩⟩) ∧
    [95, 96].map work.tdb.findNode = agedNodes.map some := by
  decide +kernel

theorem test_meets_flood_timers :
    work.fle.refreshTimer = some 1800000 ∧ work.fle.seq + 9 ≤ 0xFFFFFFF0 ∧ (work.flood 4).tallyTimer = some 30000 ∧
    (work.flood 4).pulls.find? (fun e => e.origin == 50) = some ⟨50, 9, 1, 9, 3000⟩ ∧ work.isUp 4 = true ∧
    (work.adjacency 4).nbr = some (neighbour 42 3) ∧ work.tdb.findLink ⟨work.nodeId, (4 : Degree).val⟩ ≠ none ∧
    rested { work with fle := { work.fle with seq := 0xFFFFFFF1 } } = true := by
  decide +kernel

/-- The refresh of the part at work writes its node record with sequence 20 and its link record with 21 (R87). -/
theorem test_refresh_writes_the_own_records :
    let t := finish (expireRefresh work)
    (t.tdb.findNode 17).bind (·.2.ver.pending) = some ⟨20, .active, ownNodeContent work⟩ ∧
    (t.tdb.findLink ⟨17, 4⟩).bind (·.2.ver.pending) = some ⟨21, .active, upContent 4 (neighbour 42 3) t⟩ ∧
    (t.flood 4).sendList = [.node 17, .link ⟨17, 4⟩] := by decide +kernel

/-! ### The commit controller -/

def settling (checks settle : Nat) (changed : Bool) : State :=
  withCmc { work.cmc with
    state := .settling, checks := checks, settle := settle, changed := changed, checkTimer := some 100
    autoTimer := some 5000 }

/-- In DRAINING with both lanes IDLE. -/
def drained : State :=
  { work with cmc := { work.cmc with state := .draining }, rsv := Rsv.reset }

theorem test_meets_quiet_check :
    rested (settling 98 4 false) = true ∧ (settling 98 4 false).cmc.checkTimer = some 100 ∧
    ((settling 98 4 false).adjacency 3).state = .qualify ∧ (settling 98 4 true).cmc.changed = true ∧
    (settling 98 4 false).cfu.params.settleCount = 5 ∧ (settling 99 4 false).cmc.checks + 1 = 20 * 5 ∧
    (∃ e ∈ work.tdb.links, e.2.ver.pending.isSome = true) := by decide +kernel

theorem test_meets_commit_freeze_thaw :
    rested (withCmc { work.cmc with freeze := true, urgentReq := true }) = true ∧
    rested (withCmc { work.cmc with freeze := true, normalReq := true }) = true ∧
    rested (withCmc { work.cmc with freeze := true, state := .draining, urgentReq := true }) = true ∧
    rested (withCmc { work.cmc with freeze := true, state := .draining }) = true ∧
    rested (withCmc { work.cmc with freeze := true, gen := 0xFFFFFFFF }) = true ∧
    work.cmc.freeze = false ∧ work.cmc.state = .idle := by decide +kernel

theorem test_meets_promotion :
    (claimAll drained).cmc.state = .draining ∧ (claimAll drained).rsv.l0.work = .idle ∧
    (claimAll drained).rsv.l1.work = .idle ∧ (claimAll work).cmc.state = .idle := by decide +kernel

/-- Node 96 commits WITHDRAWN with linger 0 and leaves, with its marks; the other nodes stay (R71). -/
theorem test_promotion_of_nodes :
    let t := finish (promote (claimAll { drained with tdb := { drained.tdb with incomplete := [70] } }))
    t.tdb.nodes.map (fun e => (e.1, e.2.id)) = [(0, 17), (1, 42), (2, 88), (3, 95)] ∧ t.tdb.incomplete = [] := by
  decide +kernel

/-- In DRAINING with a withdrawal of link (17, 4) pending and two watches on it. -/
def withdrawing : State := { drained with
  tdb := { work.tdb with links := [(0, ⟨⟨17, 4⟩, ⟨0, none, some (activePart 5 42), some (withdrawnPart 6 42), 0, some 60⟩⟩)] }
  ntu := { work.ntu with watches := (vset (vset work.ntu.watches 7 (some ⟨.all, [⟨17, 4⟩]⟩)) 0
    (some ⟨.any, [⟨42, 1⟩, ⟨17, 4⟩]⟩)) } }

theorem test_promotion_rechecks_and_fires :
    withdrawing = claimAll withdrawing ∧ promotionDue withdrawing = true ∧
    (finish (promote withdrawing)).cmc.changedLinks = [⟨17, 4⟩] ∧
    (finish (promote withdrawing)).tdb.usable ⟨17, 4⟩ = false ∧
    (finish (promote withdrawing)).shu = ⟨[(1, claimedResult 8)], [], [(42, 9)]⟩ ∧
    ((finish (promote withdrawing)).ntu.source .watch).detail = [.watch 0, .watch 7] := by decide +kernel

theorem test_tables_of_withdrawing : TablesOk withdrawing := by
  unfold TablesOk TableOk; decide +kernel

/-! ### Aborts and flushes -/

/-- A request of node 42 with its tag, retries and admission number. -/
def single (tag retries admission : Nat) : Request := ⟨42, { plainRequest with tag := tag }, retries, admission⟩

/-- The part whose lanes compute the requests given. -/
def computingBoth (a b : Request) : State :=
  { work with rsv := ⟨⟨.computing a captured, none, none⟩, ⟨.computing b captured, none, none⟩, none⟩ }

theorem test_meets_lanes_hold :
    LanesHold State.reset.rsv [] ∧ LanesHold work.rsv [request 42 31 0 0] ∧
    LanesHold (computingBoth (single 1 2 1) (single 2 0 2)).rsv [single 1 2 1, single 2 0 2] ∧
    LanesHold (computingBoth (request 0 5 1 0) (request 0 5 1 0)).rsv [request 0 5 1 0] := by
  have tree : ∀ r, ¬ Computes work.rsv.l0 r := by
    rintro r ⟨cap, h⟩
    cases (show Work.tree 5 = .computing r cap from h)
  have idle : ∀ r, ¬ Computes Lane.reset r := by
    rintro r ⟨cap, h⟩
    cases (show Work.idle = .computing r cap from h)
  exact ⟨Or.inl ⟨rfl, fun r => ⟨idle r, idle r⟩⟩,
    Or.inr (Or.inl ⟨_, rfl, Or.inr (Or.inl ⟨⟨captured, rfl⟩, tree⟩)⟩),
    Or.inr (Or.inr ⟨_, _, rfl, ⟨captured, rfl⟩, ⟨captured, rfl⟩, by decide, by decide⟩),
    Or.inr (Or.inl ⟨_, rfl, Or.inr (Or.inr ⟨⟨captured, rfl⟩, ⟨captured, rfl⟩, rfl⟩)⟩)⟩

/-- An abort of two computations: the request retried twice is answered ABORTED on the way to node 42, the other heads its class; both
lanes record ABORTED (R131, R132, R145, R163). -/
theorem test_abort_answers_and_requeues :
    let t := finish (urgentRequest (computingBoth (single 1 2 1) (single 2 0 2)))
    t.rqu.queue.map (fun r => (r.body.tag, r.retries)) = [(2, 1), (6, 0)] ∧
    (t.port (.deg 4)).queue.map (·.frame) = [⟨0x06, 64, 0, 17, 42, .routea ⟨1, 0x20, 5, []⟩⟩] ∧
    [t.rsv.l0, t.rsv.l1] = [⟨.idle, some ⟨.aborted, 5⟩, none⟩, ⟨.idle, some ⟨.aborted, 5⟩, none⟩] ∧
    t.fsw.fwd = work.fsw.fwd := by decide +kernel

/-- Two requests of one class return the later admitted first, so the earlier heads the class (R132); an abort of a tree build leaves
the forwarding table (R164). -/
theorem test_abort_returns_in_order :
    (abort (computingBoth (single 1 0 1) (single 2 0 2))).rqu.queue.map (·.body.tag) = [1, 2, 6] ∧
    (abort (computingBoth (single 1 0 2) (single 2 0 1))).rqu.queue.map (·.body.tag) = [2, 1, 6] ∧
    ((abort work).rsv.l0, (abort work).fsw.fwd) = (⟨.idle, some ⟨.aborted, 5⟩, none⟩, work.fsw.fwd) := by decide +kernel

/-- A flush of the part at work: ABORTED by the routes before it, STALE and the NOTICE by none, the own records originated and on their
way (R120, R140, R188, R87). -/
theorem test_flush_answers_and_originates :
    let t := finish (flush (setEnables 0 work))
    (t.port .np).queue.map (fun q => (q.frame.kind, q.frame.dst, q.frame.body)) =
      [(0x06, 0, .routea ⟨6, 0x20, 5, []⟩), (0x06, 0, .routea ⟨7, 0x31, 6, []⟩), (0x06, 0, .routea ⟨8, 0x31, 6, []⟩)] ∧
    (t.port (.deg 4)).queue.map (·.frame.kind) = [0x03, 0x02, 0x02, 0x06] ∧
    (t.tdb.findNode 17).bind (·.2.ver.pending) = some ⟨20, .active, ownNodeContent work⟩ ∧
    (t.tdb.findLink ⟨17, 4⟩).bind (·.2.ver.pending) = some ⟨21, .active, upContent 4 (neighbour 42 3) t⟩ ∧
    (t.rsv.l0, t.rsv.l1) = (⟨.tree 6, some ⟨.aborted, 5⟩, none⟩, ⟨.idle, some ⟨.aborted, 5⟩, none⟩) := by decide +kernel

/-! ### Domains, watches, requests and results -/

theorem test_meets_domain_commands :
    managed.cfu.locks.domain = true ∧ work.cfu.locks.domain = false ∧
    DomainFields.rangeOk ⟨true, 0xFFFFFFFF, 65535, 256, 6, 383, 16, 16⟩ = true ∧
    DomainFields.rangeOk ⟨true, 0, 0, 257, 6, 383, 16, 16⟩ = false ∧ (vget work.dtu 3).fields.valid = true ∧
    (vget work.dtu 15).fields.valid = false ∧ (42 : Nat) ≠ work.nodeId := by decide +kernel

theorem test_meets_watch_write :
    WatchArgs.argsOk ⟨7, some .all, [⟨1, 0⟩, ⟨2, 0⟩, ⟨3, 0⟩, ⟨4, 0⟩]⟩ = true ∧
    WatchArgs.argsOk ⟨8, some .all, []⟩ = false ∧ WatchArgs.argsOk ⟨0, none, []⟩ = false ∧
    WatchArgs.argsOk ⟨0, some .any, [⟨1, 0⟩, ⟨1, 0⟩]⟩ = false := by decide

/-- The part at work with FRAME_ERROR enabled and a notice destination. -/
def noticing (dest : NodeId) : State :=
  setEnables 0x400 { work with cfu := { work.cfu with params := { work.cfu.params with noticeDest := dest } } }

/-- A NOTICE goes to its destination, or to NP with FALLBACK when the lookup yields NONE; a source that has sent draws no other
(R193, R194). -/
theorem test_notice_is_placed :
    let notice (dest : NodeId) (flags : BitVec 8) : Queued :=
      ⟨true, ⟨0x0D, 64, flags, 17, dest, .notice ⟨.frameError, [.frameError], false, [.port (.deg 1)], 5⟩⟩⟩
    let t (dest : NodeId) := finish (frameError (.deg 1) (noticing dest))
    ((t 0).port .np).queue = [notice 0 0] ∧ ((t 42).port (.deg 4)).queue = [notice 42 0] ∧
    ((t 99).port .np).queue = [notice 99 1] ∧ ((finish (frameError (.deg 2) (t 0))).port .np).queue = [notice 0 0] := by
  decide +kernel

theorem test_meets_notices :
    ((noticing 0).ntu.source .frameError).enable = true ∧ ((noticing 0).ntu.source .frameError).sent = false ∧
    rested (noticing 0) = true ∧ ((setEnables 0 work).ntu.source .frameError).enable = false ∧ work.claims = [] ∧
    rested (raise .start [.absent] (setEnables 0 work)) = true ∧
    ((raise .start [.absent] (setEnables 0 work)).ntu.source .start).pending = true ∧
    ((raise .start [.absent] work).ntu.source .start).due = true := by decide +kernel

theorem test_meets_routeq :
    takesInput work .np = true ∧ work.cmc.gen ≠ 0 ∧ (withCmc { work.cmc with gen := 0 }).cmc.gen = 0 ∧
    rested (withCmc { work.cmc with gen := 0 }) = true ∧ plainRequest.fieldsOk = true ∧
    RouteqBody.fieldsOk { plainRequest with width := 33 } = false ∧ present work 0 6 = true ∧ present work 0 5 = false ∧
    referralPeer work 0 plainRequest = none ∧ work.rqu.queue.length + work.rsv.requests.length < 64 ∧
    rested { work with rqu := { work.rqu with queue := List.replicate 63 (request 0 6 1 0) } } = true ∧
    (List.replicate 63 (request 0 6 1 0)).length + work.rsv.requests.length = 64 := by decide +kernel

theorem test_meets_referral :
    (work.tdb.findNode 88).map (fun e => (e.2.ver.committedActive, e.2.ver.domain)) = some (true, 3) ∧
    vget work.rqu.delegation 3 = 42 ∧ lookup work 42 = some 4 ∧
    lookup { work with fsw := { work.fsw with fwd := [] } } 42 = none ∧
    rested { work with fsw := { work.fsw with fwd := [] } } = true ∧
    vget work.rqu.referrals 4 = none ∧ (work.rqu.cursor + 1 + 0) % 16 = 4 ∧
    RouteqBody.fieldsOk { plainRequest with dst := 88 } = true ∧ present work 0 5 = false ∧
    vget work.rqu.referrals 3 = some ⟨0, 30, 42, true, 5000⟩ ∧ identity (.deg 4) 42 = 42 ∧
    badSender work (.deg 4) 42 = false ∧ vget (Vector.replicate 16 (some (⟨0, 30, 42, true, 5000⟩ : Referral))) 15 ≠ none := by
  decide +kernel

theorem test_meets_claim_and_release :
    (work.shu.results.find? fun e => e.2.requester == 0 && e.2.tag == 7) = some (0, heldResult 7) ∧
    (work.shu.results.find? fun e => e.2.requester == 0 && e.2.tag == 8) = some (1, claimedResult 8) ∧
    (work.shu.results.find? fun e => e.2.requester == 42 && e.2.tag == 9) = none ∧ (42, 9) ∈ work.shu.expired ∧
    (work.shu.results.find? fun e => e.2.requester == 42 && e.2.tag == 7) = none ∧ (42, 7) ∉ work.shu.expired ∧
    (∀ e ∈ work.shu.results, e.2.tag ≠ 10) ∧ (∃ r ∈ work.rqu.queue, r.requester = 0 ∧ r.body.tag = 6) ∧
    (¬ ∃ r ∈ work.rqu.queue, r.requester = 0 ∧ r.body.tag = 7) := by decide +kernel

theorem test_meets_claim_of_claimed : TablesOk work := by
  unfold TablesOk TableOk; decide +kernel

theorem test_meets_result_deadlines :
    tget work.shu.results 0 = some (heldResult 7) ∧ (heldResult 7).holdDeadline = some 10000 ∧
    tget work.shu.results 1 = some (claimedResult 8) ∧ (claimedResult 8).claimDeadline = some 60000 := by decide +kernel

/-! ### Lanes and the solver -/

/-- The part with both lanes IDLE and requests of the kinds given in the queue. -/
def waiting (kinds : List Nat) : State :=
  { work with rsv := Rsv.reset, rqu := { work.rqu with queue := kinds.map fun k => request 0 6 k 0 } }

theorem test_meets_dispatch :
    (promoteDue (claimAll (waiting []))).rqu.queue = [] ∧ (promoteDue (claimAll work)).rqu.queue = [request 0 6 1 0] ∧
    (promoteDue (claimAll work)).rsv.l0.work ≠ .idle ∧
    (promoteDue (claimAll (waiting [1]))).rqu.queue = [request 0 6 1 0] ∧
    (promoteDue (claimAll (waiting [0, 0]))).rqu.queue = [request 0 6 0 0, request 0 6 0 0] ∧
    (promoteDue (claimAll (waiting [0, 1]))).rsv.l0.work = .idle ∧
    (promoteDue (claimAll (waiting [0, 1]))).rsv.l1.work = .idle ∧
    (promoteDue (claimAll { waiting [0] with rsv := work.rsv.setLane .l1 Lane.reset })).rsv.l0.work = .tree 5 ∧
    (promoteDue (claimAll { waiting [0] with rsv := work.rsv.setLane .l1 Lane.reset })).rsv.l1.work = .idle := by
  decide +kernel

theorem test_meets_tree_build :
    work.rsv.l0.work = .tree 5 ∧ work.rsv.treeJob = none ∧
    pathsFrom (work.tdb.edges (fun _ => true) [] []) work.tdb.transitNode 88 work.tdb.nodes.length work.nodeId
      [work.nodeId] = [] ∧
    (pathsFrom (work.tdb.edges (fun _ => true) [] []) work.tdb.transitNode 42 work.tdb.nodes.length work.nodeId
      [work.nodeId]).map linkKeys = [[⟨17, 4⟩]] := by decide +kernel

/-- The part whose L1 computes a request of the destination, flags and retries given. -/
def computing (dst : NodeId) (flags : BitVec 8) (retries : Nat) : State :=
  { work with rsv := work.rsv.setLane .l1 ⟨.computing
    ⟨42, { plainRequest with tag := 31, dst := dst, flags := flags }, retries, 1⟩ captured, none, none⟩ }

/-- The request that L1 computes in `computing`. -/
def query (dst : NodeId) (flags : BitVec 8) : RouteqBody := { plainRequest with tag := 31, dst := dst, flags := flags }

/-- The one path to node 42, from slot 0. -/
def onePath : PathResult := ⟨100, [⟨⟨17, 4⟩, 0, false⟩]⟩

theorem test_solves_to_each_outcome :
    solve work.tdb (query 42 0) captured = .found [onePath] ∧
    solve work.tdb (query 99 0) captured = .failed .unknownNode ∧
    solve work.tdb (query 88 0) captured = .failed .noRoute ∧
    solve work.tdb (query 42 0) { captured with exclusions := [⟨⟨17, 4⟩, 0, 384⟩] } = .failed .noSpectrum ∧
    solve { work.tdb with links := [(0, ⟨⟨17, 4⟩, ⟨0, none,
      some ⟨5, .active, ⟨42, none, 100, 7, SlotMap.allFree⟩⟩, none, 3600, none⟩⟩)] }
      { query 42 0 with budget := 6 } captured = .failed .overBudget ∧
    solve work.tdb { query 42 0 with kind := 1 } captured = .failed .noDisjoint := by decide +kernel

theorem test_meets_completion :
    rested (computing 42 1 2) = true ∧ (computing 42 1 2).rsv.treeJob = none ∧
    (∃ x ∈ [(⟨⟨⟨17, 4⟩, 0, 0⟩, .loaded, none, 0, 2⟩ : Exclusion)], captured.stamp < x.stamp ∧ x.run.count = 0) ∧
    work.shu.conflict [⟨⟨17, 4⟩, 0, 4⟩] = true ∧ Shu.reset.conflict [⟨⟨17, 4⟩, 0, 4⟩] = false ∧
    rested { computing 42 1 2 with shu := Shu.reset } = true ∧
    rested { computing 42 1 2 with shu := ⟨(List.range 64).map fun i => (i, heldResult i), [], []⟩ } = true := by
  decide +kernel

theorem test_tables_of_computing :
    TablesOk { computing 42 1 2 with shu := Shu.reset } ∧
    TablesOk { computing 42 1 2 with shu := ⟨(List.range 64).map fun i => (i, heldResult i), [], []⟩ } := by
  unfold TablesOk TableOk; decide +kernel

/-! ## The worked example of 08, 8.12 -/

/-- A node of the worked example of 08, 8.12, by its index, with its regen count. -/
def exampleNode (i regen : Nat) : Nat × NodeRec :=
  (i, ⟨11 + i, ⟨0, none, some ⟨1, .active, ⟨regen, true, .own⟩⟩, none, 3600, none⟩, false⟩)

/-- A link of the worked example: key, far node, far link number, cost, impairment and its FREE slots. -/
def exampleLink (i origin num far farNum cost imp first count : Nat) : Nat × LinkRec :=
  (i, ⟨⟨origin, num⟩, ⟨0, none, some ⟨1, .active, ⟨far, some farNum, cost, imp, ⟨~~~(runBits first count), 0⟩⟩⟩, none, 3600, none⟩⟩)

/-- The committed view of the worked example: links a to g and their twins. -/
def exampleView : Tdb := { Tdb.reset with
  nodes := [exampleNode 0 0, exampleNode 1 2, exampleNode 2 0, exampleNode 3 1, exampleNode 4 1, exampleNode 5 0]
  links := [exampleLink 0 11 0 12 0 100 600 0 40, exampleLink 1 12 1 16 1 150 700 20 8, exampleLink 2 11 1 13 0 80 500 200 4,
    exampleLink 3 13 1 14 1 80 500 200 4, exampleLink 4 14 2 16 2 60 500 300 4, exampleLink 5 12 2 15 2 60 400 100 8,
    exampleLink 6 15 1 16 3 60 400 100 8, exampleLink 7 12 0 11 0 100 600 0 40, exampleLink 8 16 1 12 1 100 700 20 8,
    exampleLink 9 13 0 11 1 100 500 200 4, exampleLink 10 14 1 13 1 100 500 200 4, exampleLink 11 16 2 14 2 100 500 300 4,
    exampleLink 12 15 2 12 2 100 400 100 8, exampleLink 13 16 3 15 1 100 400 100 8] }

def exampleRequest : RouteqBody := ⟨21, 1, 0, 0b11, 4, 11, 16, 5, 1200, 0, 0, 0, 0⟩

def exampleCapture : Capture := ⟨30, [⟨⟨15, 1⟩, 100, 2⟩], [⟨⟨12, 1⟩, 22, 4⟩], 500, 0, 1⟩

def hop (origin num start : Nat) (regen : Bool) : Hop := ⟨⟨origin, num⟩, start, regen⟩

theorem test_worked_example_of_the_solver :
    solve exampleView exampleRequest exampleCapture =
      .found [⟨720, [hop 11 0 0 true, hop 12 2 102 false, hop 15 1 102 false]⟩] ∧
    solve exampleView { exampleRequest with budget := 700 } exampleCapture =
      .found [⟨1220, [hop 11 0 0 true, hop 12 2 100 true, hop 15 1 102 false]⟩] ∧
    solve exampleView { exampleRequest with flags := 1 } exampleCapture = .failed .noSpectrum ∧
    solve exampleView { exampleRequest with maxHops := 2 } exampleCapture = .failed .noSpectrum ∧
    solve exampleView { exampleRequest with excludeMask := 1 } exampleCapture = .failed .noRoute ∧
    solve exampleView { exampleRequest with waypoint := 13 } exampleCapture =
      .found [⟨720, [hop 11 1 200 false, hop 13 1 200 true, hop 14 2 300 false]⟩] := by decide +kernel

/-- Two links of node 11 to node 12 and two of node 12 to node 16, all alike but for their costs and FREE slots. -/
def twoWays (first imp : Nat) : Tdb := { Tdb.reset with
  nodes := [exampleNode 0 0, exampleNode 1 0, exampleNode 5 0]
  links := [exampleLink 0 11 0 12 0 100 imp 0 8, exampleLink 1 11 1 12 1 90 imp first 8,
    exampleLink 2 12 0 11 0 100 imp 0 8, exampleLink 3 12 1 11 1 100 imp first 8, exampleLink 4 12 2 16 2 70 imp 0 8,
    exampleLink 5 12 3 16 3 60 imp first 8, exampleLink 6 16 2 12 2 100 imp 0 8, exampleLink 7 16 3 12 3 100 imp first 8] }

def pairRequest : RouteqBody := ⟨22, 1, 1, 0, 4, 11, 16, 5, 1200, 0, 0, 0, 0⟩

def pairCapture : Capture := ⟨30, [], [], 500, 0, 1⟩

theorem test_pairs_are_solved :
    solve (twoWays 0 100) pairRequest pairCapture =
      .found [⟨160, [hop 11 0 0 false, hop 12 3 0 false]⟩, ⟨160, [hop 11 1 0 false, hop 12 2 0 false]⟩] ∧
    solve (twoWays 0 100) { pairRequest with flags := 0b100 } pairCapture = .failed .noDisjoint ∧
    solve (twoWays 0 100) { pairRequest with width := 9 } pairCapture = .failed .noSpectrum ∧
    solve (twoWays 0 700) pairRequest pairCapture = .failed .overBudget ∧
    solve (twoWays 20 100) pairRequest pairCapture =
      .found [⟨150, [hop 11 1 20 false, hop 12 3 20 false]⟩, ⟨170, [hop 11 0 0 false, hop 12 2 0 false]⟩] := by decide +kernel

theorem test_worked_example_of_the_tree_build :
    forwardingTable exampleView 11 =
      [(0, ⟨11, none⟩), (1, ⟨12, some 0⟩), (2, ⟨13, some 1⟩), (3, ⟨14, some 1⟩), (4, ⟨15, some 0⟩), (5, ⟨16, some 0⟩)] := by
  decide +kernel

end Sys2Proof.Tests
end

section
/-! SUPPORT. The invariants of the state across its operations: `Sound s t` says that ports, notice sources, commit controller and
tables that are in order in `s` are in order in `t`.  It is shown once for every operation of the model. -/

namespace Sys2Proof.Machine

/-! ## Tables in canonical form -/

section
variable {α : Type} {cap : Nat} {t : List (Nat × α)}

theorem TableOk.nil (cap : Nat) : TableOk cap ([] : List (Nat × α)) := ⟨rfl, by simp⟩

theorem TableOk.filter (h : TableOk cap t) (p : Nat × α → Bool) : TableOk cap (t.filter p) :=
  ⟨rising_filter h.1 p, fun e he => h.2 e (List.mem_filter.1 he).1⟩

theorem TableOk.map {β : Type} (h : TableOk cap t) (f : Nat × α → Nat × β) (hf : ∀ e, (f e).1 = e.1) : TableOk cap (t.map f) := by
  refine ⟨rising_map h.1 f hf, fun e he => ?_⟩
  obtain ⟨x, hx, rfl⟩ := List.mem_map.1 he
  rw [hf]
  exact h.2 x hx

theorem TableOk.tmap (h : TableOk cap t) (f : α → α) : TableOk cap (Machine.tmap f t) := h.map _ fun _ => rfl

theorem TableOk.tput (h : TableOk cap t) {i : Nat} (hi : i < cap) (a : α) : TableOk cap (Machine.tput t i a) := by
  refine ⟨rising_tput h.1 i a, fun e he => ?_⟩
  rcases mem_tput_of_mem he with rfl | he
  · exact hi
  · exact h.2 e he

/-- A table keeps its form when an entry it lists, found by a test, is written again. -/
theorem TableOk.tput_found (h : TableOk cap t) {p : Nat × α → Bool} {i : Nat} {r : α} (hf : t.find? p = some (i, r)) (a : α) :
    TableOk cap (Machine.tput t i a) := h.tput (h.2 _ (List.mem_of_find?_eq_some hf)) a

theorem lowestFree_lt {i : Nat} (h : lowestFree t cap = some i) : i < cap := by
  simp only [lowestFree] at h
  split at h
  · simp only [Option.some.injEq] at h; omega
  · cases h

theorem TableOk.tput_free (h : TableOk cap t) {i : Nat} (hi : lowestFree t cap = some i) (a : α) :
    TableOk cap (Machine.tput t i a) := h.tput (lowestFree_lt hi) a

end

/-! ## The relation -/

/-- Ports within their limits, notice sources, the commit controller and the tables in order stay so from `s` to `t`. -/
structure Sound (s t : State) : Prop where
  ports : PortsWithin s → PortsWithin t
  notices : NoticesOk s → NoticesOk t
  commit : CommitOk s → CommitOk t
  tables : TablesOk s → TablesOk t

theorem Sound.refl (s : State) : Sound s s := ⟨id, id, id, id⟩

theorem Sound.trans {s t u : State} (h : Sound s t) (k : Sound t u) : Sound s u :=
  ⟨k.ports ∘ h.ports, k.notices ∘ h.notices, k.commit ∘ h.commit, k.tables ∘ h.tables⟩

theorem Sound.foldl {β : Type} (f : State → β → State) (h : ∀ s b, Sound s (f s b)) (l : List β) (s : State) :
    Sound s (l.foldl f s) := by
  induction l generalizing s with
  | nil => exact Sound.refl s
  | cons b l ih => exact (h s b).trans (ih _)

theorem Sound.repeatOn {f : State → State} (h : ∀ s, Sound s (f s)) (n : Nat) (s : State) :
    Sound s (Machine.repeatOn f n s) := by
  induction n generalizing s with
  | zero => exact Sound.refl s
  | succ n ih => exact (h s).trans (ih _)

/-- All of the state that an invariant speaks of. -/
def State.tracked (s : State) : Fsw × Vector NoticeSource 13 × Cmc × List (Nat × NodeRec) × List (Nat × LinkRec) ×
    List (Nat × Result) × List (Nat × Hold) :=
  (s.fsw, s.ntu.sources, s.cmc, s.tdb.nodes, s.tdb.links, s.shu.results, s.shu.holds)

/-- A change outside what the invariants speak of. -/
theorem Sound.of_tracked {s t : State} (h : t.tracked = s.tracked) : Sound s t := by
  simp only [State.tracked, Prod.mk.injEq] at h
  obtain ⟨hf, hn, hc, h1, h2, h3, h4⟩ := h
  have hp : ∀ p, t.port p = s.port p := fun p => by cases p <;> simp [State.port, hf]
  exact {
    ports := fun k p => hp p ▸ k p
    notices := fun k i => by have := k i; simpa only [Ntu.source, hn] using this
    commit := fun k => by simpa only [CommitOk, hc] using k
    tables := fun k => by simpa only [TablesOk, hf, h1, h2, h3, h4] using k }

theorem Sound.setPort (s : State) (p : Port) (o : OutPort) (h : PortWithin p (s.port p) → PortWithin p o) :
    Sound s (s.setPort p o) where
  ports := fun k q => by
    rw [port_setPort]
    split
    · rename_i e; subst e; exact h (k p)
    · exact k q
  notices := fun k i => by simpa using k i
  commit := fun k => by simpa only [CommitOk, cmc_setPort] using k
  tables := fun k => by simpa only [TablesOk, tdb_setPort, fwd_setPort, shu_setPort] using k

theorem Sound.source (s : State) (i : NoticeId) (x : NoticeSource) (h : SourceOk (s.ntu.source i) → SourceOk x) :
    Sound s { s with ntu := s.ntu.setSource i x } where
  ports := fun k p => by have := k p; cases p <;> exact this
  notices := fun k j => by
    by_cases e : i = j
    · subst e; simpa using h (k i)
    · simpa [source_setSource_ne _ _ _ _ e] using k j
  commit := id
  tables := id

theorem Sound.withCmc (s : State) (c : Cmc) (h : CommitOk s → CommitOk { s with cmc := c }) : Sound s { s with cmc := c } where
  ports := fun k p => by have := k p; cases p <;> exact this
  notices := id
  commit := h
  tables := id

theorem Sound.withTdb (s : State) (t : Tdb) (hn : TableOk Config.nodeTableSize s.tdb.nodes → TableOk Config.nodeTableSize t.nodes)
    (hl : TableOk Config.linkTableSize s.tdb.links → TableOk Config.linkTableSize t.links) : Sound s { s with tdb := t } where
  ports := fun k p => by have := k p; cases p <;> exact this
  notices := id
  commit := id
  tables := fun ⟨k1, k2, k3⟩ => ⟨hn k1, hl k2, k3⟩

theorem Sound.withShu (s : State) (t : Shu) (hr : TableOk Config.resultSize s.shu.results → TableOk Config.resultSize t.results)
    (hh : TableOk Config.holdSize s.shu.holds → TableOk Config.holdSize t.holds) : Sound s { s with shu := t } where
  ports := fun k p => by have := k p; cases p <;> exact this
  notices := id
  commit := id
  tables := fun ⟨k1, k2, k3, k4, k5⟩ => ⟨k1, k2, k3, hr k4, hh k5⟩

/-! ## Frames and notices -/

theorem Sound.raise (i : NoticeId) (ms : List Member) (s : State) : Sound s (Machine.raise i ms s) :=
  Sound.source s i _ fun _ => by unfold SourceOk NoticeSource.raise; split <;> simp_all

theorem Sound.raiseCommit (ms : List Member) (g : Nat) (s : State) : Sound s (Machine.raiseCommit ms g s) :=
  Sound.source s .commit _ fun _ => by unfold SourceOk NoticeSource.raise; split <;> simp_all

theorem Sound.frameError (p : Port) (s : State) : Sound s (Machine.frameError p s) := Sound.raise _ _ _

/-- An own frame joins a queue that has room. -/
theorem PortWithin.join_own {p : Port} {o : OutPort} (h : PortWithin p o) (hr : o.room p = true) (f : Frame) (b : List Frame)
    (hb : b.length ≤ Config.backlogSize) : PortWithin p { o with queue := o.queue ++ [⟨true, f⟩], backlog := b } := by
  obtain ⟨h1, h2, h3⟩ := h
  have hr' : o.queue.length < queueSize p := by simpa [OutPort.room] using hr
  refine ⟨by simpa using hr', ?_, hb⟩
  simpa [OutPort.passing, List.filter_append] using h2

theorem Sound.claimOwn (p : Port) (f : Frame) (s : State) : Sound s (Machine.claimOwn p f s) := by
  unfold Machine.claimOwn
  dsimp only
  split
  · rename_i h
    simp only [Bool.and_eq_true] at h
    exact Sound.setPort _ _ _ fun k => k.join_own h.2 f _ k.2.2
  · split
    · rename_i h
      exact Sound.setPort _ _ _ fun ⟨k1, k2, _⟩ => ⟨k1, k2, by simpa using h⟩
    · exact Sound.raise _ _ _

theorem Sound.claimPassing (p q : Port) (f : Frame) (s : State) : Sound s (Machine.claimPassing p q f s) := by
  unfold Machine.claimPassing
  dsimp only
  split
  · rename_i h
    simp only [OutPort.room, Bool.and_eq_true, decide_eq_true_eq] at h
    refine Sound.setPort _ _ _ fun ⟨k1, k2, k3⟩ => ⟨by simpa using h.1, ?_, k3⟩
    simpa [OutPort.passing, List.filter_append] using h.2
  · exact Sound.refl s

theorem Sound.claimBacklogHead (p : Port) (s : State) : Sound s (Machine.claimBacklogHead p s) := by
  unfold Machine.claimBacklogHead
  dsimp only
  split
  · exact Sound.refl s
  · rename_i f rest hb
    split
    · rename_i h
      refine Sound.setPort _ _ _ fun k => k.join_own h f _ ?_
      have := k.2.2
      rw [hb, List.length_cons] at this
      omega
    · exact Sound.refl s

theorem Sound.placeOwn (b : OwnBlock) (f : Frame) (s : State) : Sound s (Machine.placeOwn b f s) := by
  unfold Machine.placeOwn
  split
  · exact Sound.of_tracked rfl
  · exact Sound.raise _ _ _

theorem Sound.answer (b : OwnBlock) (dest : NodeId) (tag : Nat) (o : RouteOutcome) (g : Nat) (xs : List PathResult) (s : State) :
    Sound s (Machine.answer b dest tag o g xs s) := Sound.placeOwn _ _ _

theorem Sound.answerNow (b : OwnBlock) (dest : NodeId) (tag : Nat) (o : RouteOutcome) (s : State) :
    Sound s (Machine.answerNow b dest tag o s) := Sound.placeOwn _ _ _

theorem Sound.answerMgmt (who : NodeId) (tag : Nat) (r : Reply) (s : State) : Sound s (Machine.answerMgmt who tag r s) :=
  Sound.placeOwn _ _ _

theorem Sound.setFlood (s : State) (d : Degree) (x : FleDegree) : Sound s (s.setFlood d x) := Sound.of_tracked rfl

theorem Sound.setAdjacency (s : State) (d : Degree) (a : Adjacency) : Sound s (s.setAdjacency d a) := Sound.of_tracked rfl

theorem Sound.mapFlood (f : Degree → FleDegree → FleDegree) (s : State) : Sound s (Machine.mapFlood f s) := Sound.of_tracked rfl

/-- FLE's frame joins a queue that has room. -/
theorem Sound.enqueueOwn (p : Port) (f : Frame) (s : State) (h : (s.port p).room p = true) : Sound s (Machine.enqueueOwn p f s) :=
  Sound.setPort _ _ _ fun k => k.join_own h f _ k.2.2

theorem Sound.fleClaim (d : Degree) (s : State) : Sound s (Machine.fleClaim d s) := by
  unfold Machine.fleClaim
  dsimp only
  split
  · rename_i h
    have hr : ∀ x, ((s.setFlood d x).port (.deg d)).room (.deg d) = true := by
      intro x
      simp only [fleDue, Bool.and_eq_true] at h
      exact h.1.2
    split
    · exact (Sound.setFlood _ _ _).trans (Sound.enqueueOwn _ _ _ (hr _))
    · split
      · exact (Sound.setFlood _ _ _).trans (Sound.enqueueOwn _ _ _ (hr _))
      · split
        · exact (Sound.setFlood _ _ _).trans (Sound.enqueueOwn _ _ _ (hr _))
        · exact Sound.setFlood _ _ _
  · exact Sound.refl s

theorem Sound.fleClaims (d : Degree) (s : State) : Sound s (Machine.fleClaims d s) := Sound.repeatOn (Sound.fleClaim d) _ s

theorem Sound.fleClaimsAt (p : Port) (s : State) : Sound s (Machine.fleClaimsAt p s) := by
  cases p with
  | deg d => exact Sound.fleClaims d s
  | np => exact Sound.refl s

theorem Sound.claimDirect (p : Port) (f : Frame) (s : State) : Sound s (Machine.claimDirect p f s) :=
  (Sound.fleClaimsAt p s).trans (Sound.claimOwn _ _ _)

theorem Sound.takeClaims (b : OwnBlock) (cs : List OwnClaim) (s : State) : Sound s (Machine.takeClaims b cs s) :=
  Sound.foldl _ (fun _ _ => Sound.claimDirect _ _ _) _ _

/-- Sources that are pending may be marked sent. -/
theorem Sound.markSents (l : List NoticeId) (s : State) (h : ∀ i ∈ l, (s.ntu.source i).pending = true) :
    Sound s (l.foldl Machine.markSent s) := by
  induction l generalizing s with
  | nil => exact Sound.refl s
  | cons i l ih =>
    have hi := h i (by simp)
    refine (Sound.source s i _ fun _ hp => ?_).trans (ih (Machine.markSent s i) fun j hj => ?_)
    · rw [hi] at hp; cases hp
    · exact (Keeps.markSent s i j (h j (by simp [hj]))).1

theorem pending_of_mem_dueSources {s : State} {i : NoticeId} (h : i ∈ dueSources s) : (s.ntu.source i).pending = true := by
  simp only [dueSources, List.mem_filter, NoticeSource.due, Bool.and_eq_true] at h
  exact h.2.1.1

theorem Sound.emitDue (s : State) : Sound s (Machine.emitDue s) :=
  (Sound.markSents _ s fun _ h => pending_of_mem_dueSources h).trans (Sound.foldl _ (fun _ _ => Sound.claimDirect _ _ _) _ _)

theorem Sound.withClaims (s : State) (cs : List OwnClaim) : Sound s { s with claims := cs } := Sound.of_tracked rfl

theorem Sound.holdDue (s : State) : Sound s (Machine.holdDue s) :=
  (Sound.withClaims s _).trans (Sound.markSents _ _ fun _ h => pending_of_mem_dueSources (s := s) h)

theorem Sound.emit (s : State) : Sound s (Machine.emit s) := (Sound.emitDue s).trans (Sound.emitDue _)

theorem Sound.endClaims (s : State) : Sound s (Machine.endClaims s) :=
  ((((Sound.withClaims s []).trans (Sound.takeClaims _ _ _)).trans
    (Sound.takeClaims _ _ _)).trans ((Sound.takeClaims _ _ _).trans (Sound.emit _))).trans
    ((Sound.takeClaims _ _ _).trans (Sound.emitDue _))

theorem PortWithin.offerNext {p : Port} {o : OutPort} (h : PortWithin p o) : PortWithin p o.offerNext := by
  unfold OutPort.offerNext
  split
  · split <;> exact h
  · exact h

theorem Sound.offerAll (s : State) : Sound s (Machine.offerAll s) where
  ports := fun k p => by rw [port_offerAll]; exact (k p).offerNext
  notices := id
  commit := id
  tables := id

theorem Sound.finish (s : State) : Sound s (Machine.finish s) := (Sound.endClaims s).trans (Sound.offerAll _)

end Sys2Proof.Machine
end

section
/-! SUPPORT. The operations of the blocks keep the invariants (`Sound`). -/

namespace Sys2Proof.Machine

/-! ## The topology database (04) -/

theorem Sound.noteChange (s : State) : Sound s (Machine.noteChange s) := Sound.withCmc s _ id

theorem Sound.checkPulls (o : NodeId) (s : State) : Sound s (Machine.checkPulls o s) := Sound.mapFlood _ _

theorem Sound.afterWrite (o : NodeId) (s : State) : Sound s (Machine.afterWrite o s) :=
  (Sound.noteChange s).trans (Sound.checkPulls _ _)

theorem Sound.refuseInsertion (o : NodeId) (m : Member) (s : State) : Sound s (Machine.refuseInsertion o m s) := by
  unfold Machine.refuseInsertion
  refine Sound.trans ?_ ((Sound.raise .tableFull [m] _).trans (Sound.mapFlood _ _))
  split
  · rename_i i r h
    exact Sound.withTdb s _ (fun k => k.tput_found h _) id
  · split
    · exact Sound.withTdb s _ id id
    · exact Sound.withTdb s _ id id

theorem Sound.writeNode (w : NodeWrite) (s : State) : Sound s (Machine.writeNode w s).1 := by
  unfold Machine.writeNode
  dsimp only
  split
  · rename_i i r h
    split
    · exact Sound.refl s
    · refine Sound.trans ?_ (Sound.afterWrite _ _)
      exact Sound.withTdb s _ (fun k => k.tput_found h _) id
  · split
    · exact Sound.refl s
    · split
      · exact Sound.refuseInsertion _ _ _
      · split
        · exact Sound.refuseInsertion _ _ _
        · rename_i i h
          refine Sound.trans ?_ (Sound.afterWrite _ _)
          exact Sound.withTdb s _ (fun k => k.tput_free h _) id

theorem Sound.writeLink (w : LinkWrite) (s : State) : Sound s (Machine.writeLink w s).1 := by
  unfold Machine.writeLink
  dsimp only
  split
  · rename_i i r h
    split
    · exact Sound.refl s
    · refine Sound.trans ?_ (Sound.afterWrite _ _)
      exact Sound.withTdb s _ id fun k => k.tput_found h _
  · split
    · exact Sound.refl s
    · split
      · exact Sound.refl s
      · split
        · exact Sound.refuseInsertion _ _ _
        · split
          · exact Sound.refuseInsertion _ _ _
          · rename_i i h
            refine Sound.trans ?_ (Sound.afterWrite _ _)
            exact Sound.withTdb s _ id fun k => k.tput_free h _

theorem Sound.removeRecord (k : RecordKey) (s : State) : Sound s (Machine.removeRecord k s) := by
  refine Sound.trans (t := { s with tdb := clearIncomplete (s.tdb.erase k) }) ?_ ((Sound.mapFlood _ _).trans (Sound.checkPulls _ _))
  cases k with
  | node n =>
    exact Sound.withTdb s _ (fun h => (h.filter fun e => e.2.id != n).tmap fun r => { r with incomplete := false }) id
  | link key => exact Sound.withTdb s _ (fun h => h.tmap fun r => { r with incomplete := false }) fun h => h.filter _

theorem Sound.updateRecord (k : RecordKey) (fn : Versions NodeContent → Versions NodeContent)
    (fl : Versions LinkContent → Versions LinkContent) (s : State) : Sound s { s with tdb := s.tdb.updateRecord fn fl k } := by
  cases k with
  | node n =>
    unfold Tdb.updateRecord
    dsimp only
    split
    · exact Sound.refl s
    · rename_i i r h
      exact Sound.withTdb s _ (fun k => k.tput_found h _) id
  | link key =>
    unfold Tdb.updateRecord
    dsimp only
    split
    · exact Sound.refl s
    · rename_i i r h
      exact Sound.withTdb s _ id fun k => k.tput_found h _

theorem Sound.expireAge (k : RecordKey) (s : State) : Sound s (Machine.expireAge k s) := by
  unfold Machine.expireAge
  split
  · exact (Sound.updateRecord _ _ _ s).trans (Sound.afterWrite _ _)
  · exact Sound.refl s

theorem Sound.expireLinger (k : RecordKey) (s : State) : Sound s (Machine.expireLinger k s) := by
  unfold Machine.expireLinger
  split
  · exact (Sound.removeRecord k s).trans (Sound.noteChange _)
  · exact Sound.refl s

theorem Sound.addExclusion (r : SlotRun) (o : ExclusionOrigin) (s : State) : Sound s (Machine.addExclusion r o s).1 := by
  unfold Machine.addExclusion
  dsimp only
  split
  · split <;> exact Sound.of_tracked rfl
  · split <;> exact Sound.of_tracked rfl

/-! ## Requests, lanes and the commit controller (06 to 08) -/

theorem Sound.returnRequest (r : Request) (s : State) : Sound s (Machine.returnRequest r s) := by
  unfold Machine.returnRequest
  split
  · exact Sound.of_tracked rfl
  · exact Sound.answerNow _ _ _ _ _

theorem Sound.startTree (s : State) : Sound s (Machine.startTree s) := by
  unfold Machine.startTree
  split
  · exact Sound.refl s
  · split
    · exact Sound.of_tracked rfl
    · exact Sound.refl s

theorem Sound.withRsv (s : State) (v : Rsv) : Sound s { s with rsv := v } := Sound.of_tracked rfl

theorem Sound.abort (s : State) : Sound s (Machine.abort s) :=
  (Sound.withRsv s _).trans (Sound.foldl _ (fun t r => Sound.returnRequest r t) _ _)

theorem not_freeze_of_not_frozen {c : Cmc} (h : ¬ c.frozen = true) : c.freeze = false := by
  simp only [Cmc.frozen, Bool.or_eq_true, not_or] at h
  simpa using h.1

theorem Sound.enterSettling (s : State) (h : s.cmc.freeze = false) : Sound s (Machine.enterSettling s) :=
  Sound.withCmc s _ fun _ => ⟨by simp, fun _ => h⟩

theorem Sound.enterDraining (m : DrainMode) (f : Bool) (s : State) : Sound s (Machine.enterDraining m f s) :=
  Sound.withCmc s _ fun _ => ⟨by simp, by simp⟩

theorem Sound.startUrgent (s : State) : Sound s (Machine.startUrgent s) := (Sound.enterDraining _ _ s).trans (Sound.abort _)

theorem Sound.upgradeUrgent (s : State) : Sound s (Machine.upgradeUrgent s) := by
  refine Sound.trans ?_ (Sound.abort _)
  exact Sound.withCmc s _ id

theorem Sound.normalRequest (s : State) : Sound s (Machine.normalRequest s) := by
  have h : Sound s { s with cmc := { s.cmc with normalReq := true } } := Sound.withCmc s _ id
  unfold Machine.normalRequest
  dsimp only
  split
  · split
    · exact h
    · rename_i k; exact h.trans (Sound.enterSettling _ (not_freeze_of_not_frozen k))
  · exact h
  · exact h

theorem Sound.urgentRequest (s : State) : Sound s (Machine.urgentRequest s) := by
  have h : Sound s { s with cmc := { s.cmc with urgentReq := true } } := Sound.withCmc s _ id
  unfold Machine.urgentRequest
  dsimp only
  split
  · split
    · exact h
    · exact h.trans (Sound.startUrgent _)
  · split
    · exact h
    · exact h.trans (Sound.startUrgent _)
  · split
    · exact h
    · exact h.trans (Sound.upgradeUrgent _)
  · exact h

/-- A quiet check in SETTLING, which restarts the check timer or enters DRAINING. -/
theorem Sound.quietCheck (s : State) (h : s.cmc.state = .settling) : Sound s (Machine.quietCheck s) := by
  have h' : ∀ n k : Nat, Sound s { s with cmc := { s.cmc with settle := n, checks := k, changed := false } } := fun _ _ =>
    Sound.withCmc s _ id
  unfold Machine.quietCheck
  extract_lets c settle checks s' count
  split
  · exact (h' _ _).trans (Sound.enterDraining _ _ _)
  · split
    · exact (h' _ _).trans (Sound.enterDraining _ _ _)
    · exact Sound.withCmc s _ fun k => ⟨iff_of_true rfl h, k.2⟩

/-! ## The flood engine (05) -/

theorem Sound.addKey (d : Degree) (k : RecordKey) (s : State) : Sound s (Machine.addKey d k s) := Sound.setFlood _ _ _

theorem Sound.addKeyUp (b : Option Degree) (k : RecordKey) (s : State) : Sound s (Machine.addKeyUp b k s) := Sound.mapFlood _ _

theorem Sound.takeSeq (s : State) : Sound s (Machine.takeSeq s) := Sound.of_tracked rfl

theorem Sound.originateNode (s : State) : Sound s (Machine.originateNode s) := by
  unfold Machine.originateNode
  dsimp only
  split
  · have h := (Sound.takeSeq s).trans (Sound.writeNode
      ⟨s.nodeId, 0, none, ⟨s.fle.seq, .active, ownNodeContent s⟩, Config.fullAge⟩ _)
    split
    · exact h.trans (Sound.addKeyUp _ _ _)
    · exact h
  · split
    · exact Sound.raise _ _ _
    · exact (Sound.raise _ _ _).trans (Sound.writeNode _ _)

theorem Sound.originateLink (d : Degree) (s : State) : Sound s (Machine.originateLink d s) := by
  have h : ∀ w, Sound s (Machine.writeLink w (Machine.takeSeq s)).1 := fun w => (Sound.takeSeq s).trans (Sound.writeLink w _)
  unfold Machine.originateLink
  extract_lets k truth w r s'
  split
  · split
    · exact (h _).trans (Sound.addKeyUp _ _ _)
    · exact h _
  · split
    · exact Sound.raise _ _ _
    · exact (Sound.raise _ _ _).trans (Sound.writeLink _ _)

theorem Sound.originateAll (s : State) : Sound s (Machine.originateAll s) :=
  (Sound.originateNode s).trans (Sound.foldl _ (fun t d => Sound.originateLink d t) _ _)

theorem Sound.writeRecord (w : RecordWrite) (s : State) : Sound s (Machine.writeRecord w s).1 := by
  cases w with
  | node w => exact Sound.writeNode w s
  | link w => exact Sound.writeLink w s

theorem Sound.takeOther (d : Degree) (w : RecordWrite) (s : State) : Sound s (Machine.takeOther d w s) := by
  have h := Sound.writeRecord w s
  unfold Machine.takeOther
  dsimp only
  split
  · split
    · exact h.trans (Sound.addKeyUp _ _ _)
    · exact h
  · split
    · split
      · split
        · exact (h.trans (Sound.addKeyUp _ _ _)).trans (Sound.urgentRequest _)
        · exact h.trans (Sound.addKeyUp _ _ _)
      · exact h
    · split
      · exact Sound.refl s
      · exact Sound.addKey _ _ _

theorem Sound.reoriginate (k : RecordKey) (s : State) : Sound s (Machine.reoriginate k s) := by
  unfold Machine.reoriginate
  split
  · exact Sound.originateNode s
  · split
    · exact Sound.originateLink _ s
    · exact Sound.refl s

theorem Sound.withFle (s : State) (f : Fle) : Sound s { s with fle := f } := Sound.of_tracked rfl

theorem Sound.jump (q : Nat) (s : State) : Sound s (Machine.jump q s) := (Sound.withFle s _).trans (Sound.raise _ _ _)

theorem Sound.takeOwn (d : Degree) (w : RecordWrite) (s : State) : Sound s (Machine.takeOwn d w s) := by
  unfold Machine.takeOwn
  dsimp only
  split
  · split
    · exact (Sound.jump _ s).trans (Sound.reoriginate _ _)
    · exact (Sound.jump _ s).trans (Sound.raise _ _ _)
  · split
    · exact Sound.reoriginate _ s
    · split
      · exact Sound.addKey _ _ _
      · split
        · exact Sound.refl s
        · exact Sound.reoriginate _ s

theorem Sound.takeRecord (d : Degree) (w : RecordWrite) (s : State) : Sound s (Machine.takeRecord d w s) := by
  unfold Machine.takeRecord
  split
  · exact Sound.takeOwn _ _ _
  · exact Sound.takeOther _ _ _

theorem Sound.startRound (d : Degree) (s : State) : Sound s (Machine.startRound d s) := Sound.setFlood _ _ _

theorem Sound.pushOrigin (d : Degree) (o : NodeId) (s : State) : Sound s (Machine.pushOrigin d o s) :=
  Sound.foldl _ (fun t k => Sound.addKey d k t) _ _

theorem Sound.pullOrigin (d : Degree) (e : TallyEntry) (s : State) : Sound s (Machine.pullOrigin d e s) := by
  unfold Machine.pullOrigin
  dsimp only
  split
  · exact Sound.setFlood _ _ _
  · split
    · exact Sound.setFlood _ _ _
    · exact Sound.refl s

theorem Sound.compareOrigin (d : Degree) (t : TallyBody) (o : NodeId) (s : State) : Sound s (Machine.compareOrigin d t o s) := by
  unfold Machine.compareOrigin
  extract_lets acts s'
  have h : Sound s s' := by
    simp only [s']
    split
    · split
      · exact Sound.refl s
      · exact Sound.pullOrigin _ _ _
    · exact Sound.refl s
  split
  · exact h.trans (Sound.pushOrigin _ _ _)
  · exact h

theorem Sound.takeTally (d : Degree) (t : TallyBody) (s : State) : Sound s (Machine.takeTally d t s) :=
  Sound.foldl _ (fun u o => Sound.compareOrigin d t o u) _ _

theorem Sound.takePull (d : Degree) (os : List NodeId) (s : State) : Sound s (Machine.takePull d os s) :=
  Sound.foldl _ (fun u o => Sound.pushOrigin d o u) _ _

/-! ## Results and holds (09) -/

theorem Sound.freeResult (i : Nat) (s : State) : Sound s (Machine.freeResult i s) :=
  Sound.withShu s _ (fun h => h.filter _) fun h => h.filter _

theorem TableOk.placeHolds {t : List (Nat × Hold)} (h : TableOk Config.holdSize t) (i : Nat) (runs : List HeldRun) :
    TableOk Config.holdSize (Machine.placeHolds i runs t) := by
  unfold Machine.placeHolds
  induction runs generalizing t with
  | nil => exact h
  | cons r runs ih =>
    refine ih ?_
    dsimp only
    split
    · rename_i j hj; exact h.tput_free hj _
    · exact h

theorem Sound.createResult {i : Nat} (r : Request) (g : Nat) (xs : List PathResult) (s : State)
    (h : lowestFree s.shu.results Config.resultSize = some i) : Sound s (Machine.createResult i r g xs s) :=
  Sound.withShu s _ (fun k => k.tput_free h _) fun k => k.placeHolds _ _

theorem Sound.takeFound (r : Request) (g : Nat) (xs : List PathResult) (s : State) : Sound s (Machine.takeFound r g xs s) := by
  unfold Machine.takeFound
  dsimp only
  split
  · exact Sound.answer _ _ _ _ _ _ _
  · split
    · exact Sound.returnRequest _ _
    · split
      · exact Sound.answer _ _ _ _ _ _ _
      · rename_i i h
        split
        · exact (Sound.createResult r g xs s h).trans (Sound.answer _ _ _ _ _ _ _)
        · exact Sound.answer _ _ _ _ _ _ _

/-- A result that a CLAIM or RELEASE meets stands in the table. -/
theorem found_of_meets {t : Shu} {who : NodeId} {tag i : Nat} {r : Result} (h : t.meets who tag = .result i r) :
    t.results.find? (fun e => e.2.requester == who && e.2.tag == tag) = some (i, r) := by
  unfold Shu.meets at h
  split at h
  · rename_i j q e
    cases h
    exact e
  · split at h
    · cases h
    · split at h <;> cases h

theorem Sound.unmatched (who : NodeId) (tag : Nat) (m : FrameMatch) (s : State) : Sound s (Machine.unmatched who tag m s) := by
  cases m with
  | result i r => exact Sound.refl s
  | expired =>
    refine Sound.trans ?_ (Sound.answerNow _ _ _ _ _)
    exact Sound.withShu s _ id id
  | notOwner => exact Sound.answerNow _ _ _ _ _
  | unknown => exact Sound.answerNow _ _ _ _ _

theorem Sound.takeClaim (who : NodeId) (tag : Nat) (s : State) : Sound s (Machine.takeClaim who tag s) := by
  unfold Machine.takeClaim
  split
  · rename_i i r h
    refine Sound.trans ?_ (Sound.answerNow _ _ _ _ _)
    exact Sound.withShu s _ (fun k => k.tput_found (found_of_meets h) _) id
  · exact Sound.unmatched _ _ _ _

theorem Sound.takeResultRelease (who : NodeId) (tag : Nat) (s : State) : Sound s (Machine.takeResultRelease who tag s) := by
  unfold Machine.takeResultRelease
  split
  · exact (Sound.freeResult _ s).trans (Sound.answerNow _ _ _ _ _)
  · exact Sound.unmatched _ _ _ _

theorem Sound.reach (t : Moment) (s : State) : Sound s (s.reach t) := Sound.of_tracked rfl

theorem Sound.expireHold (i : Nat) (s : State) : Sound s (Machine.expireHold i s) := by
  unfold Machine.expireHold
  split
  · exact Sound.refl s
  · split
    · exact ((Sound.reach _ s).trans (Sound.withShu _ _ (fun h => h.filter _) fun h => h.filter _)).trans
        (Sound.answerNow _ _ _ _ _)
    · exact Sound.refl s

theorem Sound.expireClaim (i : Nat) (s : State) : Sound s (Machine.expireClaim i s) := by
  unfold Machine.expireClaim
  split
  · exact Sound.refl s
  · split
    · exact ((Sound.reach _ s).trans (Sound.freeResult _ _)).trans (Sound.raise _ _ _)
    · exact Sound.refl s

theorem Sound.recheckResult (e : Nat × Result) (s : State) : Sound s (Machine.recheckResult e s) := by
  unfold Machine.recheckResult
  split
  · exact Sound.refl s
  · exact (Sound.freeResult _ s).trans (Sound.answerNow _ _ _ _ _)
  · exact Sound.freeResult _ s

theorem Sound.flushResults (s : State) : Sound s (Machine.flushResults s) :=
  (Sound.foldl _ (fun _ _ => Sound.answerNow _ _ _ _ _) _ _).trans
    (Sound.withShu _ _ (fun _ => TableOk.nil _) fun _ => TableOk.nil _)

/-! ## Dispatch, completion and the tree build (08) -/

theorem Sound.dispatchHead (s : State) : Sound s (Machine.dispatchHead s) := by
  unfold Machine.dispatchHead
  split
  · exact Sound.refl s
  · split
    · exact Sound.of_tracked rfl
    · exact Sound.refl s

theorem Sound.dispatchAll (s : State) : Sound s (Machine.dispatchAll s) := (Sound.dispatchHead s).trans (Sound.dispatchHead _)

theorem Sound.endWork (l : LaneId) (r : Request) (e : WorkEnd) (s : State) : Sound s (Machine.endWork l r e s) :=
  (Sound.withRsv s _).trans (Sound.startTree _)

theorem Sound.complete (l : LaneId) (s : State) : Sound s (Machine.complete l s) := by
  unfold Machine.complete
  split
  · exact Sound.refl s
  · exact Sound.refl s
  · split
    · exact (Sound.endWork _ _ _ s).trans (Sound.answer _ _ _ _ _ _ _)
    · split
      · exact (Sound.endWork _ _ _ s).trans (Sound.returnRequest _ _)
      · exact (Sound.endWork _ _ _ s).trans (Sound.takeFound _ _ _ _)

/-- A new forwarding table in order. -/
theorem Sound.withFwd (s : State) (f : List (Nat × FwdEntry)) (g : Nat)
    (h : TablesOk s → TableOk Config.nodeTableSize f) : Sound s { s with fsw := { s.fsw with fwd := f, fwdGen := g } } where
  ports := fun k p => by have := k p; cases p <;> exact this
  notices := id
  commit := id
  tables := fun k => ⟨k.1, k.2.1, h k, k.2.2.2⟩

theorem TableOk.forwardingTable {t : Tdb} (h : TableOk Config.nodeTableSize t.nodes) (self : NodeId) :
    TableOk Config.nodeTableSize (Machine.forwardingTable t self) := (h.filter _).map _ fun _ => rfl

theorem Sound.completeTree (s : State) : Sound s (Machine.completeTree s) := by
  unfold Machine.completeTree
  split
  · exact Sound.refl s
  · exact Sound.refl s
  · exact ((Sound.withFwd s _ _ fun k => k.1.forwardingTable _).trans (Sound.withRsv _ _)).trans (Sound.startTree _)

/-! ## The promotion and the flush (06) -/

theorem Sound.promoteTables (s : State) : Sound s (Machine.promoteTables s) :=
  (Sound.foldl _ (fun t k => Sound.removeRecord k t) _ s).trans (Sound.withTdb _ _
    (fun h => h.tmap fun r => { r with ver := r.ver.promote }) fun h => h.tmap fun r => { r with ver := r.ver.promote })

theorem Sound.raiseWatches (t : Tdb) (l : List LinkKey) (s : State) : Sound s (Machine.raiseWatches t l s) := by
  unfold Machine.raiseWatches
  split
  · exact Sound.refl s
  · exact Sound.raise _ _ _

theorem Sound.handTree (s : State) : Sound s (Machine.handTree s) := (Sound.withRsv s _).trans (Sound.startTree _)

theorem cmc_removeRecord (k : RecordKey) (s : State) : (removeRecord k s).cmc = s.cmc := rfl

theorem cmc_promoteTables (s : State) : (promoteTables s).cmc = s.cmc :=
  foldl_keeps State.cmc (fun t k => removeRecord k t) _ s fun t k => cmc_removeRecord k t

/-- The promotion of a drain, in which no check timer runs. -/
theorem Sound.promote (s : State) (h : s.cmc.state = .draining) : Sound s (Machine.promote s) := by
  have hc := cmc_promoteTables s
  unfold Machine.promote
  dsimp only
  refine (((((Sound.promoteTables s).trans (Sound.withCmc _ _ fun k => ?_)).trans (Sound.raiseCommit _ _ _)).trans
    (Sound.foldl _ (fun t e => Sound.recheckResult e t) _ _)).trans (Sound.raiseWatches _ _ _)).trans (Sound.handTree _)
  have : s.cmc.checkTimer.isSome = false := by
    rw [CommitOk, hc, h] at k
    simpa using k.1
  simp [CommitOk, Cmc.promoted, hc, this]

theorem state_of_promotionDue {s : State} (h : promotionDue s = true) : s.cmc.state = .draining := by
  simp only [promotionDue, Bool.and_eq_true, beq_iff_eq] at h
  exact h.1.1

theorem Sound.promoteDue (s : State) : Sound s (Machine.promoteDue s) := by
  unfold Machine.promoteDue
  split
  · rename_i h
    exact (Sound.promote s (state_of_promotionDue h)).trans (Sound.finish _)
  · exact Sound.refl s

theorem Sound.flushRequests (s : State) : Sound s (Machine.flushRequests s) :=
  Sound.trans (t := { s with rsv := { s.rsv.finishAll .aborted with treeJob := none }, rqu := { s.rqu with queue := [] } })
    (Sound.of_tracked rfl) (Sound.foldl _ (fun _ _ => Sound.answerNow _ _ _ _ _) _ _)

theorem Sound.flushTables (s : State) : Sound s (Machine.flushTables s) :=
  Sound.trans (t := { s with tdb := { s.tdb with nodes := [], links := [], incomplete := [] } })
    (Sound.withTdb s _ (fun _ => TableOk.nil _) fun _ => TableOk.nil _)
    ((Sound.withFwd _ [] 0 fun _ => TableOk.nil _).trans (Sound.withFle _ _))

theorem Sound.flushRestart (s : State) : Sound s (Machine.flushRestart s) :=
  (((Sound.originateAll s).trans (Sound.withFle _ _)).trans (Sound.foldl _ (fun t d => Sound.startRound d t) _ _)).trans
    (Sound.normalRequest _)

theorem Sound.flush (s : State) : Sound s (Machine.flush s) := by
  unfold Machine.flush
  dsimp only
  refine (((((((Sound.flushRequests s).trans (Sound.flushTables _)).trans (Sound.withCmc _ _ fun _ => ?_)).trans
    (Sound.raiseCommit _ _ _)).trans (Sound.flushResults _)).trans (Sound.raiseWatches _ _ _)).trans (Sound.handTree _)).trans
    (Sound.flushRestart _)
  simp [CommitOk, Cmc.flushed, Cmc.promoted]

/-! ## Own steps -/

theorem Sound.claimPort (p : Port) (s : State) : Sound s (Machine.claimPort p s) :=
  (Sound.fleClaimsAt p s).trans (Sound.repeatOn (Sound.claimBacklogHead p) _ _)

theorem Sound.claimAll (s : State) : Sound s (Machine.claimAll s) :=
  ((Sound.withClaims s []).trans (Sound.foldl _ (fun t p => Sound.claimPort p t) _ _)).trans (Sound.offerAll _)

theorem Sound.settle (s : State) : Sound s (Machine.settle s) :=
  ((Sound.claimAll s).trans (Sound.promoteDue _)).trans (Sound.dispatchAll _)

theorem Sound.settleBetween (s : State) : Sound s (Machine.settleBetween s) := by
  refine (Sound.holdDue s).trans (Sound.trans ?_ (Sound.dispatchAll _))
  split
  · rename_i h
    exact (Sound.promote _ (state_of_promotionDue h)).trans (Sound.holdDue _)
  · exact Sound.refl _

end Sys2Proof.Machine
end

section
/-! SUPPORT. Every command keeps the invariants (`Sound`), and so does every step. -/

namespace Sys2Proof.Machine

/-! ## The adjacency monitor (02) -/

theorem Sound.placeGreet (d : Degree) (s : State) : Sound s (Machine.placeGreet d s) :=
  (Sound.setPort s (.deg d) ((s.port (.deg d)).placeGreet (greetFrame s d)) id).trans (Sound.setAdjacency _ _ _)

theorem Sound.enterDetect (d : Degree) (g : GreetBody) (s : State) : Sound s (Machine.enterDetect d g s) :=
  (Sound.setAdjacency s d _).trans (Sound.placeGreet _ _)

theorem Sound.enterDown (d : Degree) (s : State) : Sound s (Machine.enterDown d s) :=
  (Sound.setAdjacency s d _).trans (Sound.placeGreet _ _)

theorem Sound.clearFlood (d : Degree) (s : State) : Sound s (Machine.clearFlood d s) := Sound.setFlood _ _ _

theorem Sound.enterUp (d : Degree) (s : State) : Sound s (Machine.enterUp d s) :=
  ((((Sound.setAdjacency s d _).trans (Sound.originateLink _ _)).trans (Sound.startRound _ _)).trans (Sound.raise _ _ _)).trans
    (Sound.normalRequest _)

/-- The own link record withdrawn, FLE's lists of the degree emptied, and ADJACENCY raised (R35, R103). -/
theorem Sound.withdrawDegree (d : Degree) (s : State) :
    Sound s (Machine.raise .adjacency [.degree d] (Machine.clearFlood d (Machine.originateLink d s))) :=
  ((Sound.originateLink d s).trans (Sound.clearFlood _ _)).trans (Sound.raise _ _ _)

theorem Sound.enterHold (d : Degree) (s : State) : Sound s (Machine.enterHold d s) :=
  (((Sound.setAdjacency s d _).trans (Sound.placeGreet _ _)).trans (Sound.withdrawDegree _ _)).trans (Sound.urgentRequest _)

theorem Sound.greetInDetect (d : Degree) (g : GreetBody) (n : Neighbour) (s : State) :
    Sound s (Machine.greetInDetect d g n s) := by
  unfold Machine.greetInDetect
  dsimp only
  split
  · split <;> exact Sound.setAdjacency _ _ _
  · exact Sound.enterDetect _ _ _

theorem Sound.greetInQualify (d : Degree) (g : GreetBody) (n : Neighbour) (s : State) :
    Sound s (Machine.greetInQualify d g n s) := by
  unfold Machine.greetInQualify
  dsimp only
  split
  · split
    · split
      · exact (Sound.setAdjacency _ _ _).trans (Sound.enterUp _ _)
      · exact Sound.setAdjacency _ _ _
    · exact Sound.setAdjacency _ _ _
  · exact Sound.enterDetect _ _ _

theorem Sound.greetInUp (d : Degree) (g : GreetBody) (n : Neighbour) (s : State) : Sound s (Machine.greetInUp d g n s) := by
  unfold Machine.greetInUp
  split
  · exact Sound.setAdjacency _ _ _
  · exact Sound.enterHold _ _

theorem Sound.greetInHold (d : Degree) (s : State) : Sound s (Machine.greetInHold d s) := by
  unfold Machine.greetInHold
  split
  · exact Sound.setAdjacency _ _ _
  · exact Sound.refl s

theorem Sound.takeGreet (d : Degree) (g : GreetBody) (s : State) : Sound s (Machine.takeGreet d g s) := by
  unfold Machine.takeGreet
  split
  · exact Sound.frameError _ _
  · dsimp only
    split
    · exact Sound.refl s
    · exact Sound.enterDetect _ _ _
    · exact Sound.greetInDetect _ _ _ _
    · exact Sound.greetInQualify _ _ _ _
    · exact Sound.greetInUp _ _ _ _
    · exact Sound.greetInHold _ _
    · exact Sound.enterDetect _ _ _
    · exact Sound.enterDetect _ _ _
    · exact Sound.enterHold _ _

theorem Sound.setEnable (d : Degree) (on : Bool) (s : State) : Sound s (Machine.setEnable d on s) := Sound.setAdjacency _ _ _

theorem Sound.enableDegree (d : Degree) (s : State) : Sound s (Machine.enableDegree d s) := by
  unfold Machine.enableDegree
  dsimp only
  split
  · exact (Sound.setEnable _ _ s).trans (Sound.enterDown _ _)
  · exact Sound.setEnable _ _ s

theorem PortWithin.nothing_queued {p : Port} {o : OutPort} (hq : o.queue = []) (hb : o.backlog = []) : PortWithin p o := by
  simp [PortWithin, OutPort.passing, hq, hb]

theorem Sound.discardPort (d : Degree) (s : State) : Sound s (Machine.discardPort d s) :=
  (Sound.withClaims s _).trans (Sound.setPort _ _ _ fun _ => PortWithin.nothing_queued rfl rfl)

theorem Sound.disableDegree (d : Degree) (s : State) : Sound s (Machine.disableDegree d s) := by
  have h := (Sound.setEnable d false s).trans (Sound.setAdjacency _ d ((Machine.setEnable d false s).adjacency d).disable)
  unfold Machine.disableDegree
  extract_lets s' s1 s2
  split
  · refine (Sound.trans ?_ (Sound.discardPort _ _)).trans (Sound.urgentRequest _)
    simp only [s2]
    split
    · exact h.trans (Sound.withdrawDegree _ _)
    · exact h
  · exact Sound.setEnable _ _ s

theorem Sound.renameDegree (d : Degree) (s : State) : Sound s (Machine.renameDegree d s) := by
  unfold Machine.renameDegree
  split
  · exact Sound.refl s
  · exact Sound.refl s
  · exact Sound.enterDown _ s
  · exact Sound.enterDown _ s
  · exact Sound.enterDown _ s
  · exact ((Sound.enterDown d s).trans (Sound.clearFlood _ _)).trans (Sound.raise _ _ _)

theorem Sound.expireGreet (d : Degree) (s : State) : Sound s (Machine.expireGreet d s) := by
  unfold Machine.expireGreet
  split
  · exact Sound.refl s
  · exact (Sound.reach _ s).trans (Sound.placeGreet _ _)

theorem Sound.expireDead (d : Degree) (s : State) : Sound s (Machine.expireDead d s) := by
  unfold Machine.expireDead
  split
  · exact Sound.refl s
  · dsimp only
    split
    · exact (Sound.reach _ s).trans (Sound.enterDown _ _)
    · exact (Sound.reach _ s).trans (Sound.enterDown _ _)
    · exact (Sound.reach _ s).trans (Sound.enterHold _ _)
    · exact Sound.refl s
    · exact Sound.refl s
    · exact Sound.refl s

theorem Sound.expireHoldAt (d : Degree) (t : Option Moment) (s : State) : Sound s (Machine.expireHoldAt d t s) := by
  unfold Machine.expireHoldAt
  split
  · exact (Sound.reach _ s).trans (Sound.setAdjacency _ _ _)
  · exact Sound.refl s

/-! ## DTU, TDB, FLE and CMC taking frames and expiries (03 to 06) -/

theorem Sound.setDomain (i : Nat) (e : DomainEntry) (s : State) : Sound s (Machine.setDomain i e s) := by
  unfold Machine.setDomain
  split <;> exact Sound.of_tracked rfl

theorem Sound.withdrawDomain (n : Nat) (s : State) : Sound s (Machine.withdrawDomain n s) := by
  unfold Machine.withdrawDomain
  dsimp only
  split
  · exact Sound.refl s
  · refine Sound.trans ?_ (Sound.foldl _ (fun t (e : Nat × LinkRec) => Sound.checkPulls e.2.key.origin t) _ _)
    refine Sound.trans ?_ (Sound.noteChange _)
    exact Sound.withTdb s _ id fun k => k.tmap fun r => if quarantines n r then { r with ver := r.ver.withdraw } else r

theorem Sound.takeFault (n : Nat) (e : DomainEntry) (k : FaultKind) (s : State) : Sound s (Machine.takeFault n e k s) := by
  have h := (Sound.setDomain n (e.countFault k) s).trans (Sound.raise .domainFault [.domain n] _)
  unfold Machine.takeFault
  dsimp only
  split
  · exact (h.trans (Sound.withdrawDomain _ _)).trans (Sound.urgentRequest _)
  · exact h

theorem Sound.takeWarning (n : Nat) (e : DomainEntry) (os : List Nat) (s : State) : Sound s (Machine.takeWarning n e os s) := by
  unfold Machine.takeWarning
  split
  · exact (Sound.setDomain _ _ s).trans (Sound.raise _ _ _)
  · exact Sound.refl s

theorem Sound.takeAdvert (d : Degree) (a : AdvertBody) (s : State) : Sound s (Machine.takeAdvert d a s) := by
  unfold Machine.takeAdvert
  split
  · exact Sound.takeRecord _ _ _
  · split
    · exact Sound.refl s
    · split
      · exact Sound.refl s
      · split
        · exact Sound.takeFault _ _ _ _
        · exact (Sound.takeWarning _ _ _ s).trans (Sound.takeRecord _ _ _)

theorem Sound.takeSlotmap (m : SlotmapBody) (s : State) : Sound s (Machine.takeSlotmap m s) := by
  unfold Machine.takeSlotmap
  split
  · exact Sound.refl s
  · dsimp only
    split
    · exact Sound.refl s
    · split
      · exact (Sound.withFle s _).trans (Sound.originateLink _ _)
      · exact Sound.withFle s _

theorem Sound.takeFaultrep (p : Port) (r : SlotRun) (s : State) : Sound s (Machine.takeFaultrep p r s) := by
  have h := Sound.addExclusion r .reported s
  unfold Machine.takeFaultrep
  dsimp only
  split
  · exact Sound.frameError _ _
  · split
    · exact h.trans (Sound.raise _ _ _)
    · exact h.trans (Sound.raise _ _ _)
    · exact h
    · exact h
    · exact h

theorem Sound.expireAgeClock (s : State) : Sound s (Machine.expireAgeClock s) :=
  (Sound.reach _ s).trans (Sound.withTdb _ _ (fun h => h.map _ fun _ => rfl) fun h => h.map _ fun _ => rfl)

theorem Sound.expireExclusion (r : SlotRun) (s : State) : Sound s (Machine.expireExclusion r s) := by
  unfold Machine.expireExclusion
  split
  · exact Sound.of_tracked rfl
  · exact Sound.refl s

theorem Sound.expireRefresh (s : State) : Sound s (Machine.expireRefresh s) := by
  unfold Machine.expireRefresh
  split
  · exact Sound.refl s
  · exact ((Sound.reach _ s).trans (Sound.originateAll _)).trans (Sound.withFle _ _)

theorem Sound.expireTally (d : Degree) (s : State) : Sound s (Machine.expireTally d s) := by
  unfold Machine.expireTally
  split
  · exact Sound.refl s
  · dsimp only
    split
    · exact (Sound.reach _ s).trans (Sound.startRound _ _)
    · exact (Sound.reach _ s).trans (Sound.setFlood _ _ _)

theorem Sound.expirePull (d : Degree) (o : NodeId) (s : State) : Sound s (Machine.expirePull d o s) := by
  unfold Machine.expirePull
  split
  · exact Sound.refl s
  · exact (Sound.reach _ s).trans (Sound.setFlood _ _ _)

theorem Sound.expireCheck (s : State) : Sound s (Machine.expireCheck s) := by
  unfold Machine.expireCheck
  split
  · rename_i t h _
    exact (Sound.reach _ s).trans (Sound.quietCheck _ h)
  · exact Sound.refl s

theorem Sound.expireAuto (s : State) : Sound s (Machine.expireAuto s) := by
  unfold Machine.expireAuto
  split
  · exact Sound.refl s
  · rename_i t _
    have h : Sound s { s.reach t with cmc := { (s.reach t).cmc with
        autoTimer := some ((s.reach t).now + (s.reach t).cfu.params.autoCommit * 1000) } } :=
      (Sound.reach t s).trans (Sound.withCmc _ _ id)
    dsimp only
    split
    · exact h.trans (Sound.normalRequest _)
    · exact h

/-! ## The request unit (07) -/

theorem Sound.fromSender (p : Port) (src : NodeId) {f : NodeId → State → State} (h : ∀ who s, Sound s (f who s)) (s : State) :
    Sound s (Machine.fromSender p src f s) := by
  unfold Machine.fromSender
  split
  · exact Sound.frameError _ _
  · exact h _ _

theorem Sound.setReferral (i : Fin 16) (e : Option Referral) (s : State) : Sound s (Machine.setReferral i e s) :=
  Sound.of_tracked rfl

theorem Sound.makeReferral (i : Fin 16) (who peer : NodeId) (q : RouteqBody) (s : State) :
    Sound s (Machine.makeReferral i who peer q s) := by
  unfold Machine.makeReferral
  refine Sound.trans ?_ (Sound.placeOwn _ _ _)
  exact Sound.of_tracked rfl

theorem Sound.refer (who peer : NodeId) (q : RouteqBody) (s : State) : Sound s (Machine.refer who peer q s) := by
  unfold Machine.refer
  split
  · exact (Sound.answerNow _ _ _ _ s).trans (Sound.raise _ _ _)
  · split
    · exact Sound.answerNow _ _ _ _ s
    · exact Sound.makeReferral _ _ _ _ _

theorem Sound.enqueueRequest (who : NodeId) (q : RouteqBody) (s : State) : Sound s (Machine.enqueueRequest who q s) :=
  Sound.of_tracked rfl

theorem Sound.takeRouteq (q : RouteqBody) (who : NodeId) (s : State) : Sound s (Machine.takeRouteq q who s) := by
  unfold Machine.takeRouteq
  split
  · exact Sound.answerNow _ _ _ _ s
  · split
    · exact Sound.answerNow _ _ _ _ s
    · split
      · exact Sound.answerNow _ _ _ _ s
      · split
        · exact Sound.refer _ _ _ _
        · split
          · exact Sound.enqueueRequest _ _ _
          · exact Sound.answerNow _ _ _ _ s

theorem Sound.takeRoutea (a : RouteaBody) (who : NodeId) (s : State) : Sound s (Machine.takeRoutea a who s) := by
  unfold Machine.takeRoutea
  split
  · exact (Sound.setReferral _ _ s).trans (Sound.placeOwn _ _ _)
  · exact Sound.raise _ _ _

theorem Sound.expireReferral (n : Nat) (s : State) : Sound s (Machine.expireReferral n s) := by
  unfold Machine.expireReferral
  split
  · split
    · exact Sound.refl s
    · exact ((Sound.reach _ s).trans (Sound.setReferral _ _ _)).trans (Sound.answerNow _ _ _ _ _)
  · exact Sound.refl s

theorem Sound.takeRelease (tag : Nat) (who : NodeId) (s : State) : Sound s (Machine.takeRelease tag who s) := by
  unfold Machine.takeRelease
  split
  · refine Sound.trans ?_ (Sound.answerNow _ _ _ _ _)
    exact Sound.of_tracked rfl
  · exact Sound.takeResultRelease _ _ _

/-! ## Management commands (11) -/

theorem Sound.manage (m : MgmtFrom) {f : State → Done} (h : ∀ s, Sound s (f s).1) (s : State) : Sound s (Machine.manage m f s) := by
  unfold Machine.manage
  split
  · exact Sound.frameError _ _
  · refine Sound.trans ?_ (Sound.answerMgmt _ _ _ _)
    split
    · exact Sound.refl s
    · split
      · exact Sound.refl s
      · exact h s

theorem Sound.manageFrom (m : MgmtFrom) {f : State → Done} (h : ∀ s, Sound s (f s).1) (s : State) :
    Sound s (Machine.manageFrom m f s) := by
  unfold Machine.manageFrom
  split
  · exact Sound.manage m h s
  · exact Sound.refl s

theorem Sound.startAuto (s : State) : Sound s (Machine.startAuto s) := Sound.withCmc s _ id

theorem Sound.withCfu (s : State) (c : Cfu) : Sound s { s with cfu := c } := Sound.of_tracked rfl

theorem Sound.enterRunning (s : State) : Sound s (Machine.enterRunning s) :=
  ((((Sound.withCfu s _).trans (Sound.foldl _ (fun t d => Sound.enterDown d t) _ _)).trans (Sound.originateNode _)).trans
    (Sound.withFle _ _)).trans (Sound.startAuto _)

/-- FSW rewritten with every port left without queue and backlog, and a forwarding table in order. -/
theorem Sound.withFsw (s : State) (f : Fsw) (hp : ∀ p, ({ s with fsw := f }.port p).queue = [] ∧ ({ s with fsw := f }.port p).backlog = [] ∨
    { s with fsw := f }.port p = s.port p) (hf : f.fwd = s.fsw.fwd ∨ f.fwd = []) : Sound s { s with fsw := f } where
  ports := fun k p => by
    rcases hp p with ⟨hq, hb⟩ | h
    · exact PortWithin.nothing_queued hq hb
    · rw [h]; exact k p
  notices := id
  commit := id
  tables := fun k => by
    refine ⟨k.1, k.2.1, ?_, k.2.2.2⟩
    rcases hf with h | h
    · show TableOk _ f.fwd
      rw [h]; exact k.2.2.1
    · show TableOk _ f.fwd
      rw [h]; exact TableOk.nil _

theorem Sound.clearFsw (s : State) : Sound s { s with fsw := s.fsw.clear } :=
  Sound.withFsw s _ (fun p => Or.inl (by cases p <;> simp [State.port, Fsw.clear, OutPort.empty])) (Or.inr rfl)

theorem Sound.enterIsolated (s : State) : Sound s (Machine.enterIsolated s) := by
  refine Sound.trans (t := { s with cfu := { s.cfu with start := .isolated }, adm := vec8 fun d => (s.adjacency d).disable })
    (Sound.of_tracked rfl) (Sound.withFsw _ _ (fun p => ?_) (Or.inl rfl))
  cases p with
  | deg d => left; simp [State.port, OutPort.discard]
  | np => right; rfl

theorem Sound.autoWritten (old : Nat) (s : State) : Sound s (Machine.autoWritten old s) := by
  unfold Machine.autoWritten
  split
  · exact Sound.withCmc s _ id
  · split
    · exact Sound.startAuto s
    · exact Sound.refl s

theorem Sound.paramWritten (p : ParamId) (sel : Option Nat) (old : Nat) (s : State) :
    Sound s (Machine.paramWritten p sel old s) := by
  have node (b : Bool) : Sound s (if b = true then Machine.originateNode s else s) := by
    split
    · exact Sound.originateNode s
    · exact Sound.refl s
  have link (o : Option Degree) :
      Sound s (match o with | some d => if s.isUp d then Machine.originateLink d s else s | none => s) := by
    split
    · split
      · exact Sound.originateLink _ s
      · exact Sound.refl s
    · exact Sound.refl s
  cases p with
  | nodeId =>
    simp only [Machine.paramWritten]
    split
    · exact (Sound.foldl _ (fun t d => Sound.renameDegree d t) _ s).trans (Sound.flush _)
    · exact Sound.enterRunning s
    · exact Sound.refl s
  | regenCount => exact node _
  | transitAllowed => exact node _
  | degreeCost => exact link _
  | degreeImpairment => exact link _
  | autoCommit => exact Sound.autoWritten _ s
  | managerEntry | noticeDest | greetInterval | deadCount | qualifyCount | adjHoldTime | retrigger | refreshInterval
  | tallyInterval | pullWait | settleCount | regenPenalty | resultHoldTime | claimTimeout | referralWait
  | reportedLifetime => exact Sound.refl s

theorem Sound.doReadParam (t : ParamTarget) (s : State) : Sound s (Machine.doReadParam t s).1 := by
  unfold Machine.doReadParam
  split
  · exact Sound.refl s
  · split <;> exact Sound.refl s

theorem Sound.doWriteParam (t : ParamTarget) (v : Nat) (s : State) : Sound s (Machine.doWriteParam t v s).1 := by
  unfold Machine.doWriteParam
  split
  · exact Sound.refl s
  · split
    · exact Sound.refl s
    · split
      · exact Sound.refl s
      · split
        · exact Sound.refl s
        · dsimp only
          split
          · exact Sound.refl s
          · exact (Sound.withCfu s _).trans (Sound.paramWritten _ _ _ _)

theorem Sound.doLockGroup (g : Option LockGroup) (s : State) : Sound s (Machine.doLockGroup g s).1 := by
  cases g with
  | none => exact Sound.refl s
  | some g => exact Sound.withCfu s _

theorem Sound.doDegreeEnable (n : Nat) (s : State) : Sound s (Machine.doDegreeEnable n s).1 := by
  unfold Machine.doDegreeEnable
  split
  · exact Sound.refl s
  · exact Sound.enableDegree _ s

theorem Sound.doDegreeDisable (n : Nat) (s : State) : Sound s (Machine.doDegreeDisable n s).1 := by
  unfold Machine.doDegreeDisable
  split
  · exact Sound.refl s
  · exact Sound.disableDegree _ s

theorem Sound.setPeer (n : Nat) (p : NodeId) (s : State) : Sound s (Machine.setPeer n p s) := by
  unfold Machine.setPeer
  split <;> exact Sound.of_tracked rfl

theorem Sound.writeDomain (n : Nat) (f : DomainFields) (s : State) : Sound s (Machine.writeDomain n f s) := by
  unfold Machine.writeDomain
  dsimp only
  split
  · exact Sound.setDomain _ _ s
  · exact (Sound.setDomain _ _ s).trans (Sound.setPeer _ _ _)

theorem Sound.doDomainWrite (n : Nat) (f : DomainFields) (s : State) : Sound s (Machine.doDomainWrite n f s).1 := by
  unfold Machine.doDomainWrite
  split
  · exact Sound.refl s
  · split
    · exact Sound.refl s
    · exact Sound.writeDomain _ _ s

theorem Sound.doDomainRelease (n : Nat) (s : State) : Sound s (Machine.doDomainRelease n s).1 := by
  unfold Machine.doDomainRelease
  split
  · exact Sound.refl s
  · split
    · exact Sound.refl s
    · exact Sound.setDomain _ _ s

theorem Sound.doDelegateWrite (n : Nat) (p : NodeId) (s : State) : Sound s (Machine.doDelegateWrite n p s).1 := by
  unfold Machine.doDelegateWrite
  split
  · exact Sound.refl s
  · split
    · exact Sound.refl s
    · exact Sound.setPeer _ _ s

theorem Sound.doExcludeAdd (r : SlotRun) (s : State) : Sound s (Machine.doExcludeAdd r s).1 := by
  have h := Sound.addExclusion r .loaded s
  unfold Machine.doExcludeAdd
  dsimp only
  split
  · exact Sound.refl s
  · split
    · exact Sound.refl s
    · split <;> exact h

theorem Sound.doExcludeRemove (r : SlotRun) (s : State) : Sound s (Machine.doExcludeRemove r s).1 := by
  unfold Machine.doExcludeRemove
  split
  · exact Sound.refl s
  · split
    · exact Sound.of_tracked rfl
    · exact Sound.refl s

theorem Sound.setWatch (w : WatchArgs) (s : State) : Sound s (Machine.setWatch w s) := by
  unfold Machine.setWatch
  split <;> exact Sound.of_tracked rfl

theorem Sound.doWatchWrite (w : WatchArgs) (s : State) : Sound s (Machine.doWatchWrite w s).1 := by
  unfold Machine.doWatchWrite
  split
  · exact Sound.refl s
  · exact Sound.setWatch _ s

/-- Every source rewritten in place, as one source after another. -/
theorem Sound.mapSources (f : NoticeId → NoticeSource → NoticeSource) (hf : ∀ i n, SourceOk n → SourceOk (f i n)) (s : State) :
    Sound s { s with ntu := s.ntu.mapSources f } := by
  have key : ∀ (l : List NoticeId) (s : State),
      Sound s { s with ntu := l.foldl (fun n i => n.setSource i (f i (n.source i))) s.ntu } := by
    intro l
    induction l with
    | nil => exact fun s => Sound.refl s
    | cons i l ih => exact fun s => (Sound.source s i _ (hf i _)).trans (ih _)
  exact key _ s

theorem Sound.setEnables (mask : BitVec 16) (s : State) : Sound s (Machine.setEnables mask s) :=
  Sound.mapSources (fun i n => { n with enable := mask.getLsbD i.number.val }) (fun _ _ h => h) s

theorem sourceOk_clear (n : NoticeSource) : SourceOk n.clear := fun _ => ⟨rfl, rfl, rfl, rfl⟩

theorem Sound.clearSources (mask : BitVec 16) (s : State) : Sound s (Machine.clearSources mask s) :=
  Sound.mapSources _ (fun i n h => by
    split
    · exact sourceOk_clear n
    · exact h) s

theorem Sound.doNoticeEnable (mask : BitVec 16) (s : State) : Sound s (Machine.doNoticeEnable mask s).1 :=
  (Sound.setEnables mask s).trans (Sound.holdDue _)

theorem Sound.doNoticeClear (mask : BitVec 16) (s : State) : Sound s (Machine.doNoticeClear mask s).1 := by
  unfold Machine.doNoticeClear
  dsimp only
  split
  · exact (Sound.clearSources mask s).trans (Sound.of_tracked rfl)
  · exact Sound.clearSources mask s

theorem Sound.doCommit (s : State) : Sound s (Machine.doCommit s).1 := by
  unfold Machine.doCommit
  split
  · exact Sound.normalRequest s
  · exact Sound.refl s

theorem Sound.freezeView (s : State) : Sound s (Machine.freezeView s) := by
  unfold Machine.freezeView
  split
  · exact Sound.refl s
  · split
    · rename_i h
      exact Sound.withCmc s _ fun k => ⟨k.1, fun e => by rw [h] at e; cases e⟩
    · exact Sound.withCmc s _ fun _ => ⟨by simp, by simp⟩
    · rename_i h
      exact Sound.withCmc s _ fun k => ⟨k.1, fun e => by rw [h] at e; cases e⟩

theorem Sound.thawView (s : State) : Sound s (Machine.thawView s) := by
  have h : Sound s { s with cmc := { s.cmc with freeze := false } } := Sound.withCmc s _ fun k => ⟨k.1, fun _ => rfl⟩
  unfold Machine.thawView
  dsimp only
  split
  · exact Sound.refl s
  · split
    · exact h
    · split
      · split
        · exact h.trans (Sound.startUrgent _)
        · split
          · exact h.trans (Sound.enterSettling _ rfl)
          · exact h
      · exact h
      · split
        · exact h.trans (Sound.upgradeUrgent _)
        · exact h
      · exact h

theorem Sound.doTableRead (t : Option TableId) (i n : Nat) (s : State) : Sound s (Machine.doTableRead t i n s).1 := by
  unfold Machine.doTableRead
  split
  · exact Sound.refl s
  · split
    · exact Sound.refl s
    · exact Sound.of_tracked rfl

theorem Sound.doFlush (s : State) : Sound s (Machine.doFlush s).1 := by
  by_cases h : (s.cfu.start == .running && s.cmc.gen != Config.lastGeneration) = true
  · simp only [Machine.doFlush, h, if_true]
    exact Sound.flush s
  · simp only [Machine.doFlush, h, Bool.false_eq_true, if_false, refuse]
    exact Sound.refl s

theorem Sound.softResetValues (s : State) : Sound s (Machine.softResetValues s) := by
  have h1 : Sound s { s with cmc := Cmc.reset } := Sound.withCmc s _ fun _ => ⟨by simp [Cmc.reset], by simp [Cmc.reset]⟩
  have h2 := Sound.withTdb { s with cmc := Cmc.reset }
    ⟨[], [], [], s.tdb.exclusions.filter (fun e => e.origin == .loaded), s.now + Config.ageClockPeriod⟩
    (fun _ => TableOk.nil _) fun _ => TableOk.nil _
  refine ((((h1.trans h2).trans (Sound.withShu _ Shu.reset (fun _ => TableOk.nil _) fun _ => TableOk.nil _)).trans
    (Sound.clearFsw _)).trans (Sound.mapSources _ (fun _ n _ => sourceOk_clear n) _)).trans ?_
  exact Sound.of_tracked rfl

theorem Sound.enterStart (s : State) : Sound s (Machine.enterStart s) := by
  unfold Machine.enterStart
  split
  · exact Sound.enterIsolated s
  · exact Sound.enterRunning s

theorem Sound.softReset (s : State) : Sound s (Machine.softReset s) := (Sound.softResetValues s).trans (Sound.enterStart _)

theorem Sound.doCommand (c : MgmtCmd) (s : State) : Sound s (Machine.doCommand c s).1 := by
  cases c with
  | readParam t => exact Sound.doReadParam t s
  | writeParam t v => exact Sound.doWriteParam t v s
  | lockGroup g => exact Sound.doLockGroup g s
  | degreeEnable d => exact Sound.doDegreeEnable d s
  | degreeDisable d => exact Sound.doDegreeDisable d s
  | domainWrite n f => exact Sound.doDomainWrite n f s
  | domainRelease n => exact Sound.doDomainRelease n s
  | delegateWrite n p => exact Sound.doDelegateWrite n p s
  | excludeAdd r => exact Sound.doExcludeAdd r s
  | excludeRemove r => exact Sound.doExcludeRemove r s
  | watchWrite w => exact Sound.doWatchWrite w s
  | noticeEnable m => exact Sound.doNoticeEnable m s
  | noticeClear m => exact Sound.doNoticeClear m s
  | commit => exact Sound.doCommit s
  | freeze => exact Sound.freezeView s
  | thaw => exact Sound.thawView s
  | status => exact Sound.refl s
  | tableRead t i n => exact Sound.doTableRead t i n s
  | flush => exact Sound.doFlush s
  | softReset => exact Sound.softReset s

theorem Sound.doRequest (r : MgmtRequest) (s : State) : Sound s (Machine.doRequest r s).1 := by
  cases r with
  | unknownCommand => exact Sound.refl s
  | badForm => exact Sound.refl s
  | command c => exact Sound.doCommand c s

/-! ## Reset and start (11) -/

theorem Sound.skipRecord (s : State) : Sound s (Machine.skipRecord s) := Sound.withCfu s _

theorem Sound.countClamped (s : State) : Sound s (Machine.countClamped s) := Sound.withCfu s _

theorem Sound.applyRecord (r : ImageRecord) (s : State) : Sound s (Machine.applyRecord s r) := by
  cases r with
  | parameter t v =>
    simp only [Machine.applyRecord, applyParameter]
    split
    · exact Sound.skipRecord s
    · split
      · exact Sound.skipRecord s
      · split
        · exact Sound.withCfu s _
        · exact (Sound.withCfu s _).trans (Sound.countClamped _)
  | degreeEnable ds => exact Sound.of_tracked rfl
  | domainEntry n f =>
    simp only [Machine.applyRecord]
    split
    · exact Sound.writeDomain _ _ s
    · exact Sound.skipRecord s
  | delegation n peer =>
    simp only [Machine.applyRecord]
    split
    · exact Sound.skipRecord s
    · split
      · exact Sound.setPeer _ _ s
      · exact (Sound.setPeer _ _ s).trans (Sound.countClamped _)
  | exclusion r =>
    simp only [Machine.applyRecord]
    split
    · exact Sound.skipRecord s
    · split
      · exact Sound.skipRecord s
      · exact Sound.addExclusion _ _ s
  | noticeEnable mask => exact Sound.setEnables _ s
  | watch w =>
    simp only [Machine.applyRecord]
    split
    · exact Sound.setWatch _ s
    · exact Sound.skipRecord s
  | locks gs => exact Sound.withCfu s _

theorem Sound.applyImage (rs : List ImageRecord) (s : State) : Sound s (Machine.applyImage rs s) :=
  Sound.foldl _ (fun t _ => Sound.foldl _ (fun u r => Sound.applyRecord r u) _ t) _ s

theorem Sound.takeLoad (m : MemoryRead) (s : State) : Sound s (Machine.takeLoad m s) := by
  unfold Machine.takeLoad
  split
  · exact (Sound.withCfu s _).trans (Sound.raise _ _ _)
  · exact (Sound.withCfu s _).trans (Sound.raise _ _ _)
  · exact (Sound.withCfu s _).trans (Sound.applyImage _ _)

theorem Sound.completeLoad (m : MemoryRead) (s : State) : Sound s (Machine.completeLoad m s) := by
  unfold Machine.completeLoad
  split
  · exact (Sound.takeLoad m s).trans (Sound.enterStart _)
  · exact Sound.refl s

/-! ## The frame switch (01) -/

theorem Sound.toFlood (d : Degree) {f : State → State} (h : ∀ s, Sound s (f s)) (s : State) : Sound s (Machine.toFlood d f s) := by
  unfold Machine.toFlood
  split
  · exact h s
  · exact Sound.refl s

theorem Sound.passFromDegree (d : Degree) (src : NodeId) (scope : Bool) (h : Handled) (s : State) :
    Sound s (Machine.passFromDegree d src scope h s) := by
  have ite {f : State → State} (hf : ∀ s, Sound s (f s)) : Sound s (if scope then f s else Machine.frameError (.deg d) s) := by
    split
    · exact hf s
    · exact Sound.frameError _ _
  cases h with
  | greet g => exact ite (Sound.takeGreet d g)
  | advert a => exact ite (Sound.toFlood d (Sound.takeAdvert d a))
  | tally t => exact ite (Sound.toFlood d (Sound.takeTally d t))
  | pull os => exact ite (Sound.toFlood d (Sound.takePull d os))
  | routeq q => exact Sound.fromSender _ _ (Sound.takeRouteq q) s
  | routea a => exact Sound.fromSender _ _ (Sound.takeRoutea a) s
  | claim tag => exact Sound.fromSender _ _ (fun who => Sound.takeClaim who tag) s
  | release tag => exact Sound.fromSender _ _ (Sound.takeRelease tag) s
  | faultrep r => exact Sound.takeFaultrep _ r s
  | slotmap m => exact Sound.frameError _ _
  | mgmtq tag r => exact Sound.manage _ (Sound.doRequest r) s
  | delivered => exact Sound.refl s

theorem Sound.passFromNode (src : NodeId) (h : Handled) (s : State) : Sound s (Machine.passFromNode src h s) := by
  cases h with
  | greet _ | advert _ | tally _ | pull _ | delivered => exact Sound.frameError _ _
  | routeq q => exact Sound.fromSender _ _ (Sound.takeRouteq q) s
  | routea a => exact Sound.fromSender _ _ (Sound.takeRoutea a) s
  | claim tag => exact Sound.fromSender _ _ (fun who => Sound.takeClaim who tag) s
  | release tag => exact Sound.fromSender _ _ (Sound.takeRelease tag) s
  | faultrep r => exact Sound.takeFaultrep _ r s
  | slotmap m => exact Sound.takeSlotmap m s
  | mgmtq tag r => exact Sound.manage _ (Sound.doRequest r) s

theorem Sound.passOn (p : Port) (src : NodeId) (scope : Bool) (h : Handled) (s : State) :
    Sound s (Machine.passOn p src scope h s) := by
  unfold Machine.passOn
  split
  · exact Sound.frameError _ _
  · split
    · exact Sound.passFromDegree _ _ _ _ _
    · exact Sound.passFromNode _ _ _

theorem Sound.handleFrame (p : Port) (f : RawFrame) (s : State) : Sound s (Machine.handleFrame p f s) := by
  unfold Machine.handleFrame
  split
  · exact Sound.frameError _ _
  · split
    · exact Sound.claimPassing _ _ _ _
    · exact Sound.frameError _ _
  · exact Sound.passOn _ _ _ _ _

theorem Sound.forward (p : Port) (f : RawFrame) (s : State) : Sound s (Machine.forward p f s) := by
  unfold Machine.forward
  split
  · exact Sound.claimPassing _ _ _ _
  · exact Sound.refl s
  · exact Sound.refl s

theorem Sound.dispatchFrame (p : Port) (f : RawFrame) (s : State) : Sound s (Machine.dispatchFrame p f s) := by
  unfold Machine.dispatchFrame
  split
  · exact Sound.handleFrame _ _ _
  · split
    · split
      · exact Sound.frameError _ _
      · exact Sound.handleFrame _ _ _
    · split
      · split
        · split
          · exact Sound.handleFrame _ _ _
          · exact Sound.frameError _ _
        · exact Sound.frameError _ _
      · exact Sound.forward _ _ _

theorem Sound.acceptFrame (p : Port) (f : RawFrame) (s : State) : Sound s (Machine.acceptFrame p f s) := by
  unfold Machine.acceptFrame
  split
  · exact Sound.dispatchFrame _ _ _
  · split
    · exact Sound.refl s
    · unfold notRunningFrame
      split
      · exact Sound.handleFrame _ _ _
      · exact Sound.refl s

theorem Sound.takeBytes (p : Port) (b : List Byte) (s : State) : Sound s (Machine.takeBytes p b s) := by
  unfold Machine.takeBytes
  split
  · exact Sound.acceptFrame _ _ _
  · split
    · exact Sound.frameError _ _
    · exact Sound.refl s

theorem Sound.takeRaw (p : Port) (f : RawFrame) (s : State) : Sound s (Machine.takeRaw p f s) := by
  unfold Machine.takeRaw
  split
  · exact Sound.acceptFrame _ _ _
  · split
    · exact Sound.frameError _ _
    · exact Sound.refl s

theorem Sound.takeEach (as : List Arrival) (s : State) : Sound s (Machine.takeEach as s).1 := by
  induction as generalizing s with
  | nil => exact Sound.refl s
  | cons a as ih =>
    unfold Machine.takeEach
    split
    · exact ih s
    · exact ((Sound.settleBetween s).trans (Sound.takeRaw _ _ _)).trans (ih _)

theorem Sound.claimTogether (cs : List PassingClaim) (s : State) (p : Port) : Sound s (Machine.claimTogether cs s p) :=
  Sound.foldl _ (fun _ _ => Sound.claimPassing _ _ _ _) _ s

theorem Sound.takeTogether (as : List Arrival) (s : State) : Sound s (Machine.takeTogether as s) := by
  unfold Machine.takeTogether
  refine Sound.trans ?_ (Sound.foldl _ (Sound.claimTogether _) _ _)
  exact ((Sound.takeEach as s).trans (Sound.foldl _ (fun t d => Sound.fleClaims d t) _ _)).trans (Sound.endClaims _)

theorem Sound.takeBody (p : Port) (src : NodeId) (scope : Bool) (h : Handled) (s : State) :
    Sound s (Machine.takeBody p src scope h s) := by
  unfold Machine.takeBody
  split
  · exact Sound.passOn _ _ _ _ _
  · exact Sound.refl s

theorem PortWithin.drop_head {p : Port} {o o' : OutPort} (h : PortWithin p o) (hq : o'.queue = o.queue.drop 1)
    (hb : o'.backlog = o.backlog) : PortWithin p o' := by
  obtain ⟨h1, h2, h3⟩ := h
  have hp : o'.passing ≤ o.passing := by
    rw [OutPort.passing, hq]
    exact ((List.drop_sublist 1 o.queue).filter _).length_le
  exact ⟨by rw [hq, List.length_drop]; omega, by omega, by rw [hb]; exact h3⟩

theorem PortWithin.sent {p : Port} {o : OutPort} (h : PortWithin p o) (again : Bool) : PortWithin p (o.sent again) := by
  unfold OutPort.sent
  split
  · exact h
  · exact h
  · exact h.drop_head rfl rfl

theorem Sound.frameSent (p : Port) (s : State) : Sound s (Machine.frameSent p s) := by
  unfold Machine.frameSent
  split
  · exact Sound.refl s
  · refine Sound.trans (t := { s with freeCount := s.freeCount + 1 }) (Sound.of_tracked rfl) (Sound.setPort _ _ _ fun h => ?_)
    cases p <;> exact PortWithin.sent h _

theorem Sound.transceiverReady (p : Port) (s : State) : Sound s (Machine.transceiverReady p s) := Sound.setPort _ _ _ id

/-! ## Commands and steps -/

/-- A command that is taken after the own steps that are due and ends with its event. -/
theorem Sound.event {f : State → State} (h : ∀ s, Sound s (f s)) {s t : State} (e : Machine.event f s = .next t) : Sound s t := by
  cases e
  exact ((Sound.settle s).trans (h _)).trans (Sound.finish _)

/-- The part after power-on or pin reset meets the invariants, whatever was there (R203). -/
theorem Sound.resetPart (s : State) : Sound s (Machine.resetPart s) where
  ports := fun _ p => PortWithin.nothing_queued
    (by cases p <;> simp [Machine.resetPart, State.port, Fsw.clear, OutPort.empty])
    (by cases p <;> simp [Machine.resetPart, State.port, Fsw.clear, OutPort.empty])
  notices := fun _ i => by
    have : (Machine.resetPart s).ntu.source i = NoticeSource.reset := vget_replicate _ _
    rw [this]
    exact fun _ => ⟨rfl, rfl, rfl, rfl⟩
  commit := fun _ => ⟨by simp [Machine.resetPart, State.reset, Cmc.reset], by simp [Machine.resetPart, State.reset, Cmc.reset]⟩
  tables := fun _ => ⟨TableOk.nil _, TableOk.nil _, TableOk.nil _, TableOk.nil _, TableOk.nil _⟩

theorem Sound.exec (i : Instr) {s t : State} (e : Machine.exec i s = .next t) : Sound s t := by
  cases i with
  | powerOnReset => cases e; exact Sound.resetPart s
  | pinReset => cases e; exact Sound.resetPart s
  | imageLoad m => exact Sound.event (Sound.completeLoad m) e
  | frameArrival p b => exact Sound.event (Sound.takeBytes p b) e
  | transitFrame as => cases e; exact ((Sound.settle s).trans (Sound.takeTogether _ _)).trans (Sound.offerAll _)
  | deliveredToNp a as => cases e; exact ((Sound.settle s).trans (Sound.takeTogether _ _)).trans (Sound.offerAll _)
  | greet d g => exact Sound.event (Sound.takeBody _ _ _ _) e
  | advert d a => exact Sound.event (Sound.takeBody _ _ _ _) e
  | tally d t => exact Sound.event (Sound.takeBody _ _ _ _) e
  | pull d os => exact Sound.event (Sound.takeBody _ _ _ _) e
  | routeq p src q => exact Sound.event (Sound.takeBody _ _ _ _) e
  | routea p src a => exact Sound.event (Sound.takeBody _ _ _ _) e
  | claim p src tag => exact Sound.event (Sound.takeBody _ _ _ _) e
  | release p src tag => exact Sound.event (Sound.takeBody _ _ _ _) e
  | faultrep p r => exact Sound.event (Sound.takeBody _ _ _ _) e
  | slotmap p m => exact Sound.event (Sound.takeBody _ _ _ _) e
  | readParam m t => exact Sound.event (Sound.manageFrom m (Sound.doReadParam t)) e
  | writeParam m t v => exact Sound.event (Sound.manageFrom m (Sound.doWriteParam t v)) e
  | lockGroup m g => exact Sound.event (Sound.manageFrom m (Sound.doLockGroup g)) e
  | degreeEnable m d => exact Sound.event (Sound.manageFrom m (Sound.doDegreeEnable d)) e
  | degreeDisable m d => exact Sound.event (Sound.manageFrom m (Sound.doDegreeDisable d)) e
  | domainWrite m n f => exact Sound.event (Sound.manageFrom m (Sound.doDomainWrite n f)) e
  | domainRelease m n => exact Sound.event (Sound.manageFrom m (Sound.doDomainRelease n)) e
  | delegateWrite m n p => exact Sound.event (Sound.manageFrom m (Sound.doDelegateWrite n p)) e
  | excludeAdd m r => exact Sound.event (Sound.manageFrom m (Sound.doExcludeAdd r)) e
  | excludeRemove m r => exact Sound.event (Sound.manageFrom m (Sound.doExcludeRemove r)) e
  | watchWrite m w => exact Sound.event (Sound.manageFrom m (Sound.doWatchWrite w)) e
  | noticeEnable m k => exact Sound.event (Sound.manageFrom m (Sound.doNoticeEnable k)) e
  | noticeClear m k => exact Sound.event (Sound.manageFrom m (Sound.doNoticeClear k)) e
  | commit m => exact Sound.event (Sound.manageFrom m Sound.doCommit) e
  | freeze m => exact Sound.event (Sound.manageFrom m Sound.freezeView) e
  | thaw m => exact Sound.event (Sound.manageFrom m Sound.thawView) e
  | status m => exact Sound.event (Sound.manageFrom m Sound.refl) e
  | tableRead m t i n => exact Sound.event (Sound.manageFrom m (Sound.doTableRead t i n)) e
  | flush m => exact Sound.event (Sound.manageFrom m Sound.doFlush) e
  | softReset m => exact Sound.event (Sound.manageFrom m Sound.softReset) e
  | frameSent p => exact Sound.event (Sound.frameSent p) e
  | backlogHeadClaim p => cases e; exact ((Sound.fleClaimsAt p s).trans (Sound.claimBacklogHead _ _)).trans (Sound.finish _)
  | fleFrameClaim d => cases e; exact (Sound.fleClaim d s).trans (Sound.finish _)
  | greetTimerExpiry d => exact Sound.event (Sound.expireGreet d) e
  | deadTimerExpiry d => exact Sound.event (Sound.expireDead d) e
  | holdTimerExpiry d => exact Sound.event (f := fun t => Machine.expireHoldAt d (t.adjacency d).holdTimer t) (fun t => Sound.expireHoldAt d _ t) e
  | holdLimitExpiry d => exact Sound.event (f := fun t => Machine.expireHoldAt d (t.adjacency d).holdLimit t) (fun t => Sound.expireHoldAt d _ t) e
  | ageClockExpiry => exact Sound.event Sound.expireAgeClock e
  | ageExpiry k => exact Sound.event (Sound.expireAge k) e
  | lingerExpiry k => exact Sound.event (Sound.expireLinger k) e
  | exclusionLifetimeExpiry r => exact Sound.event (Sound.expireExclusion r) e
  | refreshTimerExpiry => exact Sound.event Sound.expireRefresh e
  | tallyTimerExpiry d => exact Sound.event (Sound.expireTally d) e
  | pullDeadlineExpiry d o => exact Sound.event (Sound.expirePull d o) e
  | quietCheck => exact Sound.event Sound.expireCheck e
  | autoCommitTimerExpiry => exact Sound.event Sound.expireAuto e
  | promotion => obtain rfl := Host.Outcome.next.inj e; exact (Sound.claimAll s).trans (Sound.promoteDue _)
  | dispatch => obtain rfl := Host.Outcome.next.inj e; exact Sound.settle s
  | completion l => exact Sound.event (Sound.complete l) e
  | treeBuildCompletion => exact Sound.event Sound.completeTree e
  | referralDeadlineExpiry i => exact Sound.event (Sound.expireReferral i) e
  | holdDeadlineExpiry i => exact Sound.event (Sound.expireHold i) e
  | claimDeadlineExpiry i => exact Sound.event (Sound.expireClaim i) e
  | transceiverReady p => exact Sound.event (Sound.transceiverReady p) e

/-- What one step is: a command carried out, the own steps that are due, or one tick of the clock. -/
theorem step_cases {s t : State} (h : step s = .next t) :
    (∃ c rest, s.pending = c :: rest ∧ exec c { s with pending := rest } = .next t) ∨
    (∃ c, s.pending = [] ∧ exec c s = .next t) ∨ (s.pending = [] ∧ t = settle s) ∨ (s.pending = [] ∧ t = tick s) := by
  unfold step at h
  split at h
  · rename_i hp
    unfold idle at h
    split at h
    · exact Or.inr (Or.inr (Or.inl ⟨hp, (Host.Outcome.next.inj h).symm⟩))
    · split at h
      · exact Or.inr (Or.inl ⟨_, hp, h⟩)
      · exact Or.inr (Or.inr (Or.inr ⟨hp, (Host.Outcome.next.inj h).symm⟩))
  · rename_i c rest hp
    exact Or.inl ⟨c, rest, hp, h⟩

/-- Every step keeps the invariants. -/
theorem Sound.step {s t : State} (h : Machine.step s = .next t) : Sound s t := by
  rcases step_cases h with ⟨c, rest, -, e⟩ | ⟨c, -, e⟩ | ⟨-, e⟩ | ⟨-, e⟩
  · exact (Sound.of_tracked (s := s) (t := { s with pending := rest }) rfl).trans (Sound.exec c e)
  · exact Sound.exec c e
  · exact e ▸ Sound.settle s
  · exact e ▸ Sound.of_tracked rfl

end Sys2Proof.Machine

open Sys2Proof.Machine

/-- Settles O12: every step is `Sound`. -/
theorem queueLimitsKeptByEveryStep : Obligations.QueueLimitsKeptByEveryStep := fun _ _ hp h => (Sound.step h).ports hp

/-- Settles O60: every step is `Sound`. -/
theorem tablesKeptByEveryStep : Obligations.TablesKeptByEveryStep := fun _ _ ht h => (Sound.step h).tables ht

end

section
/-! SUPPORT. The notice sources at the end of an event: the emission marks the sources that are due, and the claims raise CONGESTION
alone (R193, R194). -/

namespace Sys2Proof.Machine

/-- Sources as claims of queue space leave them: CONGESTION alone may be raised, and when it is pending that draws nothing new. -/
structure Draws (s t : State) : Prop where
  others : ∀ i, i ≠ .congestion → t.ntu.source i = s.ntu.source i
  congestion : (s.ntu.source .congestion).pending = true →
    (t.ntu.source .congestion).pending = true ∧ (t.ntu.source .congestion).due = (s.ntu.source .congestion).due

theorem Draws.of_eq {s t : State} (h : t.ntu = s.ntu) : Draws s t :=
  ⟨fun _ _ => by rw [h], fun k => by rw [h]; exact ⟨k, rfl⟩⟩

theorem Draws.refl (s : State) : Draws s s := Draws.of_eq rfl

theorem Draws.trans {s t u : State} (h : Draws s t) (k : Draws t u) : Draws s u where
  others := fun i hi => (k.others i hi).trans (h.others i hi)
  congestion := fun hp =>
    have ht := h.congestion hp
    have hu := k.congestion ht.1
    ⟨hu.1, hu.2.trans ht.2⟩

theorem Draws.foldl {β : Type} (f : State → β → State) (h : ∀ s b, Draws s (f s b)) (l : List β) (s : State) :
    Draws s (l.foldl f s) := by
  induction l generalizing s with
  | nil => exact Draws.refl s
  | cons b l ih => exact (h s b).trans (ih _)

theorem Draws.raise (ms : List Member) (s : State) : Draws s (Machine.raise .congestion ms s) where
  others := fun _ hi => source_setSource_ne _ _ _ _ (Ne.symm hi)
  congestion := fun h => by simp [Machine.raise, NoticeSource.raise, NoticeSource.due, h]

theorem Draws.claimOwn (p : Port) (f : Frame) (s : State) : Draws s (Machine.claimOwn p f s) := by
  unfold Machine.claimOwn
  dsimp only
  split
  · exact Draws.of_eq (ntu_setPort _ _ _)
  · split
    · exact Draws.of_eq (ntu_setPort _ _ _)
    · exact Draws.raise _ _

theorem Draws.claimDirect (p : Port) (f : Frame) (s : State) : Draws s (Machine.claimDirect p f s) :=
  (Draws.of_eq (ntu_fleClaimsAt p s)).trans (Draws.claimOwn _ _ _)

theorem Draws.takeClaims (b : OwnBlock) (cs : List OwnClaim) (s : State) : Draws s (Machine.takeClaims b cs s) :=
  Draws.foldl _ (fun _ _ => Draws.claimDirect _ _ _) _ _

/-- Marking sources as sent, as an emission does. -/
theorem source_markSents (l : List NoticeId) (s : State) (i : NoticeId) : (l.foldl markSent s).ntu.source i =
    if i ∈ l then { s.ntu.source i with sent := true } else s.ntu.source i := by
  induction l generalizing s with
  | nil => simp
  | cons j l ih =>
    rw [List.foldl_cons, ih]
    by_cases e : j = i
    · subst e; simp [markSent]
    · have hs : (markSent s j).ntu.source i = s.ntu.source i := source_setSource_ne _ _ _ _ e
      simp [hs, Ne.symm e]

theorem mem_dueSources {s : State} {i : NoticeId} : i ∈ dueSources s ↔ (s.ntu.source i).due = true := by
  simp [dueSources, mem_noticeIds]

/-- A source as an emission originates its NOTICE, when one is due. -/
def NoticeSource.originated (n : NoticeSource) : NoticeSource := if n.due then { n with sent := true } else n

@[simp] theorem due_originated (n : NoticeSource) : n.originated.due = false := by
  unfold NoticeSource.originated
  split
  · simp [NoticeSource.due]
  · simpa using ‹¬n.due = true›

theorem source_markDue (s : State) (i : NoticeId) :
    ((dueSources s).foldl markSent s).ntu.source i = (s.ntu.source i).originated := by
  rw [source_markSents, NoticeSource.originated]
  simp only [mem_dueSources]

/-- An emission originates what is due, and its claims may raise CONGESTION. -/
theorem Draws.emitDue (s : State) : Draws ((dueSources s).foldl markSent s) (Machine.emitDue s) :=
  Draws.foldl _ (fun _ _ => Draws.claimDirect _ _ _) _ _

theorem source_emitDue {i : NoticeId} (hi : i ≠ .congestion) (s : State) :
    ((emitDue s).ntu.source i) = (s.ntu.source i).originated := by
  rw [(Draws.emitDue s).others i hi, source_markDue]

/-- No NOTICE but CONGESTION's waits to be originated. -/
def QuietButCongestion (s : State) : Prop := ∀ i, i ≠ .congestion → (s.ntu.source i).due = false

theorem QuietButCongestion.draws {s t : State} (h : QuietButCongestion s) (k : Draws s t) : QuietButCongestion t :=
  fun i hi => by rw [k.others i hi, h i hi]

theorem quietButCongestion_emitDue (s : State) : QuietButCongestion (emitDue s) :=
  fun i hi => by rw [source_emitDue hi, due_originated]

theorem emitDue_of_quiet {s : State} (h : Quiet s) : emitDue s = s := by
  have hd : dueSources s = [] := by simp [dueSources, h _]
  simp [emitDue, hd]

/-- Where CONGESTION alone can be due, one emission leaves nothing due: what it raises was pending already (R194). -/
theorem quiet_emitDue {s : State} (h : QuietButCongestion s) : Quiet (emitDue s) := by
  by_cases hc : (s.ntu.source .congestion).due = true
  · intro i
    by_cases hi : i = .congestion
    · subst hi
      have hp : ((s.ntu.source .congestion).originated).pending = true := by
        simp only [NoticeSource.due, Bool.and_eq_true] at hc
        simp [NoticeSource.originated, NoticeSource.due, hc]
      have hm := (Draws.emitDue s).congestion (by rw [source_markDue]; exact hp)
      rw [hm.2, source_markDue, due_originated]
    · exact quietButCongestion_emitDue s i hi
  · have hq : Quiet s := fun i => by
      by_cases hi : i = .congestion
      · subst hi; simpa using hc
      · exact h i hi
    rwa [emitDue_of_quiet hq]

theorem quiet_endClaims (s : State) : Quiet (endClaims s) :=
  quiet_emitDue (QuietButCongestion.draws (quietButCongestion_emitDue _) (Draws.takeClaims _ _ _))

/-- The end of an event leaves no NOTICE waiting to be originated (R193). -/
theorem quiet_finish (s : State) : Quiet (finish s) := quiet_endClaims s

theorem Quiet.of_ntu {s t : State} (h : Quiet s) (e : t.ntu = s.ntu) : Quiet t := fun i => by rw [e]; exact h i

/-! ## Own steps -/

theorem ntu_claimPassing (p q : Port) (f : Frame) (s : State) : (claimPassing p q f s).ntu = s.ntu := by
  unfold claimPassing; dsimp only; split <;> simp

theorem ntu_claimBacklogHead (p : Port) (s : State) : (claimBacklogHead p s).ntu = s.ntu := by
  unfold claimBacklogHead
  dsimp only
  split
  · rfl
  · split <;> simp

theorem ntu_claimPort (p : Port) (s : State) : (claimPort p s).ntu = s.ntu := by
  have key : ∀ (n : Nat) (t : State), (repeatOn (claimBacklogHead p) n t).ntu = t.ntu := by
    intro n
    induction n with
    | zero => exact fun _ => rfl
    | succ n ih => exact fun t => (ih _).trans (ntu_claimBacklogHead p t)
  rw [claimPort, key, ntu_fleClaimsAt]

theorem ntu_offerAll (s : State) : (offerAll s).ntu = s.ntu := rfl

theorem ntu_claimAll (s : State) : (claimAll s).ntu = s.ntu := by
  rw [claimAll, ntu_offerAll, foldl_keeps State.ntu _ allPorts _ fun t p => ntu_claimPort p t]

theorem ntu_dispatchHead (s : State) : (dispatchHead s).ntu = s.ntu := by
  unfold dispatchHead
  split
  · rfl
  · split <;> rfl

theorem Quiet.promoteDue {s : State} (h : Quiet s) : Quiet (Machine.promoteDue s) := by
  unfold Machine.promoteDue
  split
  · exact quiet_finish _
  · exact h

theorem Quiet.claimAll {s : State} (h : Quiet s) : Quiet (Machine.claimAll s) := h.of_ntu (ntu_claimAll s)

theorem Quiet.settle {s : State} (h : Quiet s) : Quiet (Machine.settle s) := by
  unfold Machine.settle dispatchAll
  exact h.claimAll.promoteDue.of_ntu ((ntu_dispatchHead _).trans (ntu_dispatchHead _))

/-! ## Commands and steps -/

/-- No NOTICE waits to be originated, and no claim of queue space waits. -/
def Rested (s : State) : Prop := Quiet s ∧ s.claims = []

theorem rested_finish (s : State) : Rested (finish s) := ⟨quiet_finish s, claims_finish s⟩

theorem rested_event {f : State → State} {s t : State} (e : event f s = .next t) : Rested t :=
  Host.Outcome.next.inj e ▸ rested_finish _

theorem Rested.claimTogether {s : State} (cs : List PassingClaim) (p : Port) (h : Rested s) :
    Rested (Machine.claimTogether cs s p) := by
  unfold Machine.claimTogether
  exact foldl_inv Rested _ _ _ (fun u c hu => ⟨hu.1.of_ntu (ntu_claimPassing _ _ _ _), by simpa using hu.2⟩) h

/-- The passing frames of one decision claim their space after the event's other claims (R20). -/
theorem rested_takeTogether (as : List Arrival) (s : State) : Rested (takeTogether as s) := by
  unfold takeTogether ownTogether
  exact foldl_inv Rested _ _ _ (fun u p => Rested.claimTogether _ p) ⟨quiet_endClaims _, claims_endClaims _⟩

theorem Rested.offerAll {s : State} (h : Rested s) : Rested (Machine.offerAll s) := h

theorem rested_resetPart (s : State) : Rested (resetPart s) :=
  ⟨fun i => by
    have : (resetPart s).ntu.source i = NoticeSource.reset := vget_replicate _ _
    rw [this]; rfl, rfl⟩

/-- Between two states: what was quiet stays so, and no claim of queue space is left waiting. -/
def Rests (s t : State) : Prop := (Quiet s → Quiet t) ∧ (s.claims = [] → t.claims = [])

theorem Rested.rests {s t : State} (h : Rested t) : Rests s t := ⟨fun _ => h.1, fun _ => h.2⟩

theorem Rests.settle (s : State) : Rests s (Machine.settle s) := ⟨Quiet.settle, fun _ => claims_settle s⟩

theorem Rests.promotion (s : State) : Rests s (promoteDue (claimAll s)) := by
  refine ⟨fun h => h.claimAll.promoteDue, fun _ => ?_⟩
  unfold promoteDue
  split
  · exact claims_finish _
  · exact claims_claimAll s

/-- A command ends with an event, after which nothing waits, but for the own steps promotion and dispatch. -/
theorem Rests.exec (i : Instr) {s t : State} (e : Machine.exec i s = .next t) : Rests s t := by
  cases i with
  | powerOnReset => exact Host.Outcome.next.inj e ▸ (rested_resetPart s).rests
  | pinReset => exact Host.Outcome.next.inj e ▸ (rested_resetPart s).rests
  | transitFrame as => exact Host.Outcome.next.inj e ▸ (rested_takeTogether as _).offerAll.rests
  | deliveredToNp a as => exact Host.Outcome.next.inj e ▸ (rested_takeTogether _ _).offerAll.rests
  | promotion => exact Host.Outcome.next.inj e ▸ Rests.promotion s
  | dispatch => exact Host.Outcome.next.inj e ▸ Rests.settle s
  | backlogHeadClaim p => exact Host.Outcome.next.inj e ▸ (rested_finish _).rests
  | fleFrameClaim d => exact Host.Outcome.next.inj e ▸ (rested_finish _).rests
  | holdTimerExpiry d => exact (rested_event (f := fun t => expireHoldAt d (t.adjacency d).holdTimer t) e).rests
  | holdLimitExpiry d => exact (rested_event (f := fun t => expireHoldAt d (t.adjacency d).holdLimit t) e).rests
  | _ => exact (rested_event e).rests

theorem Rests.step {s t : State} (h : Machine.step s = .next t) : Rests s t := by
  rcases step_cases h with ⟨c, rest, -, e⟩ | ⟨c, -, e⟩ | ⟨-, e⟩ | ⟨-, e⟩
  · have k := Rests.exec c e
    exact ⟨fun q => k.1 (q.of_ntu rfl), k.2⟩
  · exact Rests.exec c e
  · exact e ▸ Rests.settle s
  · exact e ▸ ⟨fun q => q.of_ntu rfl, id⟩

end Sys2Proof.Machine

open Sys2Proof.Machine

/-- Settles O58: every step is `Sound`, and leaves nothing waiting (`Rests`). -/
theorem noticesAndCommitKeptByEveryStep : Obligations.NoticesAndCommitKeptByEveryStep := fun _ _ h =>
  ⟨(Sound.step h).notices, (Sound.step h).commit, (Rests.step h).1, (Rests.step h).2⟩

end

section
/-! SUPPORT. Reset values, the dispatch of frames, and the claims and offers of the output ports (01). -/

namespace Sys2Proof.Machine

/-! ## Values of the reset (R23, R40, R56, R104, R200, R203) -/

@[simp] theorem port_reset (p : Port) : State.reset.port p = OutPort.empty false := by
  cases p <;> simp [State.reset, State.port, Fsw.reset]

@[simp] theorem source_reset (i : NoticeId) : State.reset.ntu.source i = NoticeSource.reset := vget_replicate _ _

@[simp] theorem adjacency_reset (d : Degree) : State.reset.adjacency d = Adjacency.reset := vget_replicate _ _

@[simp] theorem flood_reset (d : Degree) : State.reset.flood d = FleDegree.reset := vget_replicate _ _

theorem domain_reset {k : Fin 16} (h : k ≠ 0) : vget State.reset.dtu k = DomainEntry.reset := by
  have hk : k.val ≠ 0 := fun e => h (Fin.ext e)
  simp [State.reset, dtuReset, vget, Ne.symm hk]

@[simp] theorem port_resetPart (s : State) (p : Port) : (resetPart s).port p = OutPort.empty (s.port p).ready := by
  cases p <;> simp [resetPart, State.port, Fsw.clear]

@[simp] theorem source_resetPart (s : State) (i : NoticeId) : (resetPart s).ntu.source i = NoticeSource.reset := vget_replicate _ _

theorem portWithin_empty (p : Port) (ready : Bool) : PortWithin p (OutPort.empty ready) := PortWithin.nothing_queued rfl rfl

/-! ## Events at rest -/

/-- At rest, the end of an event offers frames and does nothing else. -/
theorem Rested.finish_eq {s : State} (h : Rested s) : finish s = Machine.offerAll s := by
  have h0 : ({ s with claims := [] } : State) = s := by rw [← h.2]
  have ht : ∀ (b : OwnBlock) (t : State), takeClaims b [] t = t := fun _ _ => rfl
  unfold finish endClaims emit
  simp only [h.2, h0, ht, emitDue_of_quiet h.1]

theorem event_eq {f : State → State} {s u : State} (h : u = settle s) : event f s = .next (finish (f u)) := by rw [h]; rfl

/-! ## Frames handled by their bodies (R7, R11) -/

/-- A body of a kind the part reads is passed on by its fields. -/
theorem handleFrame_of_parse {p : Port} {f : RawFrame} {h : Handled} (s : State) (hp : parseBody f.kind f.body = some h)
    (hd : h ≠ .delivered) : handleFrame p f s = passOn p f.src (f.dst == neighbourDst) h s := by
  unfold handleFrame
  rw [hp]
  cases h with
  | delivered => exact absurd rfl hd
  | _ => rfl

theorem dispatchFrame_own {p : Port} {f : RawFrame} {s : State} (h : f.dst = s.nodeId) : dispatchFrame p f s = handleFrame p f s := by
  simp [dispatchFrame, h]

/-- A body that is read without regard to the scope of its frame, as the bodies of ROUTEQ, CLAIM and RELEASE are. -/
def ScopeFree (h : Handled) : Prop := h ≠ .delivered ∧
  ∀ p src scope s, passOn p src scope h s = passOn p src false h s

theorem scopeFree_claim (tag : Nat) : ScopeFree (.claim tag) := ⟨by simp, fun p _ _ _ => by cases p <;> rfl⟩

theorem scopeFree_release (tag : Nat) : ScopeFree (.release tag) := ⟨by simp, fun p _ _ _ => by cases p <;> rfl⟩

theorem scopeFree_routeq (q : RouteqBody) : ScopeFree (.routeq q) := ⟨by simp, fun p _ _ _ => by cases p <;> rfl⟩

/-- The bytes of a frame for this node act as its body does. -/
theorem execFrameArrival_eq_takeBody {p : Port} {b : List Byte} {f : RawFrame} {s : State} {h : Handled}
    (ht : takesInput (settle s) p = true) (hf : parseFrame b = some f) (hd : f.dst = (settle s).nodeId)
    (hp : parseBody f.kind f.body = some h) (hs : ScopeFree h) :
    exec (.frameArrival p b) s = event (takeBody p f.src false h) s := by
  have hb : takeBytes p b (settle s) = takeBody p f.src false h (settle s) := by
    simp only [takeBytes, hf, acceptFrame, takeBody, ht, if_true]
    rw [dispatchFrame_own hd, handleFrame_of_parse _ hp hs.1, hs.2]
  show event (takeBytes p b) s = _
  unfold event
  rw [hb]

theorem parseBody_claim {b : List Byte} (h : b.length = 2) : parseBody kindClaim b = some (.claim (field b 0 2)) := by
  rw [show parseBody kindClaim b = if b.length == 2 then some (.claim (field b 0 2)) else none from rfl, if_pos (by simp [h])]

theorem parseBody_release {b : List Byte} (h : b.length = 2) : parseBody kindRelease b = some (.release (field b 0 2)) := by
  rw [show parseBody kindRelease b = if b.length == 2 then some (.release (field b 0 2)) else none from rfl, if_pos (by simp [h])]

theorem parseBody_routeq (b : List Byte) : parseBody kindRouteq b = (parseRouteq b).map .routeq := rfl

/-! ## Claims of own frames (R17, R18) -/

theorem claimOwn_queue {p : Port} {s : State} (f : Frame) (hb : (s.port p).backlog = [])
    (hq : (s.port p).queue.length < queueSize p) :
    claimOwn p f s = s.setPort p { s.port p with queue := (s.port p).queue ++ [⟨true, f⟩] } := by
  simp [claimOwn, OutPort.room, hb, hq]

theorem claimOwn_backlog {p : Port} {s : State} (f : Frame)
    (h : ¬ ((s.port p).backlog = [] ∧ (s.port p).queue.length < queueSize p)) (hb : (s.port p).backlog.length < 8) :
    claimOwn p f s = s.setPort p { s.port p with backlog := (s.port p).backlog ++ [f] } := by
  have h' : ((s.port p).backlog.isEmpty && (s.port p).room p) = false := by
    simpa [OutPort.room, List.isEmpty_iff, Bool.and_eq_false_iff, or_iff_not_imp_left] using h
  simp [claimOwn, h', Config.backlogSize, hb]

theorem claimOwn_full {p : Port} {s : State} (f : Frame)
    (h : ¬ ((s.port p).backlog = [] ∧ (s.port p).queue.length < queueSize p)) (hb : ¬ (s.port p).backlog.length < 8) :
    claimOwn p f s = raise .congestion [.queueFull] s := by
  have h' : ((s.port p).backlog.isEmpty && (s.port p).room p) = false := by
    simpa [OutPort.room, List.isEmpty_iff, Bool.and_eq_false_iff, or_iff_not_imp_left] using h
  simp [claimOwn, h', Config.backlogSize, hb]

theorem claimBacklogHead_room {p : Port} {s : State} {f : Frame} {rest : List Frame} (hb : (s.port p).backlog = f :: rest)
    (hq : (s.port p).queue.length < queueSize p) : claimBacklogHead p s =
      s.setPort p { s.port p with queue := (s.port p).queue ++ [⟨true, f⟩], backlog := rest } := by
  simp [claimBacklogHead, OutPort.room, hb, hq]

theorem backlogDue_eq_false {p : Port} {s : State}
    (h : (s.port p).backlog = [] ∨ ¬ (s.port p).queue.length < queueSize p) : backlogDue s p = false := by
  rcases h with h | h
  · simp [backlogDue, h]
  · simp only [not_lt] at h
    simp [backlogDue, OutPort.room, h]

/-! ## Transceivers (R21) -/

theorem frameSent_of_offer {p : Port} {s : State} {x : Offer} (h : (s.port p).offer = some x) :
    frameSent p s = { s with freeCount := s.freeCount + 1 }.setPort p ((s.port p).sent (Config.readyAfterSent s.freeCount)) := by
  simp [frameSent, h]

/-- A transceiver becomes ready at rest: the ready pin rises, and the port offers what it can. -/
theorem port_transceiverReady {s : State} (h : Rested s) (p : Port) :
    finish (transceiverReady p s) = offerAll (transceiverReady p s) ∧
    (finish (transceiverReady p s)).blocks = s.blocks ∧ Traffic [] [p] s (finish (transceiverReady p s)) ∧
    (finish (transceiverReady p s)).port p = ({ s.port p with ready := true } : OutPort).offerNext := by
  have e : finish (transceiverReady p s) = offerAll (transceiverReady p s) :=
    Rested.finish_eq ⟨h.1.of_ntu (ntu_setPort _ _ _), by rw [transceiverReady, claims_setPort]; exact h.2⟩
  refine ⟨e, ?_, ?_, ?_⟩
  · rw [e, blocks_offerAll, transceiverReady, blocks_setPort]
  · rw [e]
    exact (Traffic.setPort _ _ _ (Or.inl (by simp))).trans (Traffic.offerAll _)
  · rw [e, port_offerAll, transceiverReady, port_setPort_same]

theorem offerNext_of_offer {o : OutPort} {x : Offer} (h : o.offer = some x) : o.offerNext = o := by
  simp [OutPort.offerNext, h]

/-- What a ready port with nothing on offer offers next: the GREET of the greet slot, else the head of the queue. -/
def OutPort.nextOffer (o : OutPort) : Option Offer :=
  match o.greetSlot, o.queue with
  | some g, _ => some (.greet g true)
  | none, q :: _ => some (.queued q.frame)
  | none, [] => none

theorem offerNext_ready {o : OutPort} (hr : o.ready = true) (h : o.offer = none) :
    o.offerNext = { o with offer := o.nextOffer } := by
  obtain ⟨queue, backlog, greetSlot, offer, ready, lastServed⟩ := o
  obtain rfl : ready = true := hr
  obtain rfl : offer = none := h
  cases greetSlot with
  | some g => rfl
  | none => cases queue <;> rfl

end Sys2Proof.Machine

open Sys2Proof Sys2Proof.Machine

/-- Settles O3, each value of the reset read off. -/
theorem resetValuesMeetInvariants : Obligations.ResetValuesMeetInvariants := by
  refine ⟨rfl, rfl, fun g => by cases g <;> rfl, rfl, rfl, rfl, fun k hk => domain_reset hk, rfl,
    fun i => ⟨vget_replicate _ _, vget_replicate _ _⟩, fun i => vget_replicate _ _, rfl, rfl, rfl, rfl, rfl, rfl, rfl, rfl, rfl,
    fun d => ?_, fun p => ?_, rfl, rfl, rfl, rfl, rfl, rfl, rfl, rfl, rfl, rfl, rfl, rfl, rfl, source_reset, rfl, rfl,
    fun i => by rw [source_reset]; rfl, fun p => ?_, fun i => ?_, fun d => ?_, ?_, ?_⟩
  · simp only [adjacency_reset, flood_reset]
    exact ⟨rfl, rfl, rfl, rfl, rfl, rfl, rfl, rfl, vget_replicate _ _⟩
  · rw [port_reset]; exact ⟨rfl, rfl, rfl, rfl, rfl, rfl⟩
  · rw [port_reset]; exact portWithin_empty p false
  · rw [source_reset]; exact fun _ => ⟨rfl, rfl, rfl, rfl⟩
  · rw [adjacency_reset]; exact ⟨rfl, fun _ => rfl⟩
  · simp [CommitOk, State.reset, Cmc.reset]
  · exact ⟨TableOk.nil _, TableOk.nil _, TableOk.nil _, TableOk.nil _, TableOk.nil _⟩

/-- Settles O4: both commands are `resetPart`. -/
theorem powerOnAndPinResetActAlike : Obligations.PowerOnAndPinResetActAlike := by
  intro s
  refine ⟨resetPart s, rfl, rfl, rfl, fun p => ?_, source_resetPart s⟩
  rw [port_resetPart]
  exact ⟨rfl, rfl, rfl, rfl, rfl, rfl⟩

/-- Settles O7, by the branches of the dispatch. -/
theorem dispatchGoesByDestination : Obligations.DispatchGoesByDestination := by
  intro p f s
  have not_own (h : f.dst ≠ s.nodeId) : ¬ (f.dst == s.nodeId) = true := by simpa using h
  have to_neighbour (hn : f.dst = 65535) : (f.dst == 0) = false ∧ (f.dst == neighbourDst) = true := by
    rw [hn]; exact ⟨rfl, rfl⟩
  have scope : neighbourScope f.kind = decide (f.kind ∈ [0x01, 0x02, 0x03, 0x04]) := by
    rw [Bool.eq_iff_iff]
    simp only [neighbourScope, Bool.and_eq_true, decide_eq_true_eq, List.mem_cons, List.not_mem_nil, or_false]
    omega
  refine ⟨dispatchFrame_own, fun h h0 => ?_, fun h hn => ?_, fun h h0 hn => ?_⟩
  · unfold dispatchFrame; rw [if_neg (not_own h), if_pos (by simpa using h0)]
    exact ⟨fun d hd => by rw [hd], fun hp => by rw [hp]⟩
  · obtain ⟨h0, h1⟩ := to_neighbour hn
    unfold dispatchFrame; rw [if_neg (not_own h), h0, h1, scope]
    exact ⟨fun d hd hk => by simp [hd, hk], fun d hd hk => by simp [hd, hk], fun hp => by simp [hp]⟩
  · unfold dispatchFrame; rw [if_neg (not_own h), if_neg (by simpa using h0), if_neg (by simpa [neighbourDst] using hn)]

/-- Settles O8: the parsed body is passed on as the command's fields are. -/
theorem frameArrivalActsAsItsFields : Obligations.FrameArrivalActsAsItsFields := by
  intro p b f s ht hf hd
  have act {h : Handled} (hp : parseBody f.kind f.body = some h) (hs : ScopeFree h) :
      ∃ t, exec (.frameArrival p b) s = .next t ∧ event (takeBody p f.src false h) s = .next t :=
    ⟨_, execFrameArrival_eq_takeBody ht hf hd hp hs, rfl⟩
  refine ⟨fun hk hl => act ?_ (scopeFree_claim _), fun hk hl => act ?_ (scopeFree_release _),
    fun hk q hq => act ?_ (scopeFree_routeq _)⟩
  · rw [hk, parseBody_claim hl]
  · rw [hk, parseBody_release hl]
  · rw [hk, parseBody_routeq, hq, Option.map_some]

/-- Settles O11, by the branches of the claim. -/
theorem ownFrameClaimsQueueThenBacklog : Obligations.OwnFrameClaimsQueueThenBacklog := by
  intro p f s
  refine ⟨claimOwn_queue f, claimOwn_backlog f, fun h hb => ?_⟩
  rw [claimOwn_full f h hb]
  exact ⟨rfl, raised_raise (by simp) s⟩

/-- Settles O13, by what is on offer. -/
theorem transceiverEventsMoveTheOffer : Obligations.TransceiverEventsMoveTheOffer := by
  intro p s u hu left
  have rested (hq : Quiet u) : Rested u := ⟨hq, hu ▸ claims_settle s⟩
  have sent {x : Offer} (h : (u.port p).offer = some x) : exec (.frameSent p) s = .next (finish
      ({ u with freeCount := u.freeCount + 1 }.setPort p ((u.port p).sent (Config.readyAfterSent u.freeCount)))) := by
    rw [← frameSent_of_offer h]; exact event_eq hu
  have ready : exec (.transceiverReady p) s = .next (finish (transceiverReady p u)) := event_eq hu
  refine ⟨fun h => ?_, fun f h => ⟨Config.readyAfterSent u.freeCount, ?_⟩, fun f h => ⟨Config.readyAfterSent u.freeCount, ?_⟩,
    fun f h => ⟨Config.readyAfterSent u.freeCount, ?_⟩, fun hq h => ?_, fun hq x h => ?_⟩
  · have : frameSent p u = u := by simp [frameSent, h]
    rw [← this]; exact event_eq hu
  · rw [sent h, OutPort.sent, h]
  · rw [sent h, OutPort.sent, h]; rfl
  · rw [sent h, OutPort.sent, h]; rfl
  · obtain ⟨-, hb, ht, hp⟩ := port_transceiverReady (rested hq) p
    refine ⟨_, ready, hb, ht, ?_⟩
    rw [hp, offerNext_ready (o := { u.port p with ready := true }) rfl h]
    exact ⟨rfl, rfl, rfl, rfl, rfl⟩
  · obtain ⟨-, hb, ht, hp⟩ := port_transceiverReady (rested hq) p
    exact ⟨_, ready, hb, ht, hp.trans (offerNext_of_offer (o := { u.port p with ready := true }) h)⟩

/-- Settles O14: FLE's claims first, then the head of the backlog. -/
theorem backlogHeadMovesWhenRoom : Obligations.BacklogHeadMovesWhenRoom := by
  intro p s
  have e : exec (.backlogHeadClaim p) s = .next (finish (claimBacklogHead p (fleClaimsAt p s))) := rfl
  refine ⟨fun f rest hb hq => ?_, fun h => ?_⟩
  · rw [e, claimBacklogHead_room hb hq]
  · rw [e, claimBacklogHead_of_not_due _ _ (backlogDue_eq_false h)]

end

section
/-! SUPPORT. Frames that pass through: their claims at one queue, alone and in round-robin order (R11, R15, R20). -/

namespace Sys2Proof.Machine

theorem setPort_setPort (s : State) (p : Port) (a b : OutPort) : (s.setPort p a).setPort p b = s.setPort p b := by
  cases p <;> simp [State.setPort, vset, Vector.set_set]

/-! ## A claim of a passing frame (R17) -/

/-- A passing frame at the tail of a queue. -/
def OutPort.joined (o : OutPort) (input : Port) (f : Frame) : OutPort :=
  { o with queue := o.queue ++ [⟨false, f⟩], lastServed := input }

theorem passing_joined (o : OutPort) (input : Port) (f : Frame) : (o.joined input f).passing = o.passing + 1 := by
  simp [OutPort.passing, OutPort.joined, List.filter_append]

theorem claimPassing_eq (p input : Port) (f : Frame) (s : State) : claimPassing p input f s =
    if (s.port p).queue.length < queueSize p ∧ (s.port p).passing < passingLimit p then
      s.setPort p ((s.port p).joined input f) else s := by
  simp [claimPassing, OutPort.room, OutPort.joined]

/-- Two passing frames join a queue that has room for both. -/
theorem claimPassing_two {p : Port} {s : State} (i j : Port) (f g : Frame) (hq : (s.port p).queue.length + 1 < queueSize p)
    (hp : (s.port p).passing + 1 < passingLimit p) : claimPassing p j g (claimPassing p i f s) = s.setPort p { s.port p with
      queue := (s.port p).queue ++ [⟨false, f⟩, ⟨false, g⟩], lastServed := j } := by
  rw [claimPassing_eq p i f s, if_pos ⟨by omega, by omega⟩, claimPassing_eq, port_setPort_same, passing_joined,
    if_pos ⟨by simpa [OutPort.joined] using hq, hp⟩, setPort_setPort]
  simp [OutPort.joined]

/-! ## Claims taken queue by queue (R20) -/

theorem claimTogether_elsewhere {cs : List PassingClaim} {p q : Port} (h : ∀ c ∈ cs, c.out = q) (hpq : p ≠ q) (s : State) :
    claimTogether cs s p = s := by
  have hf : cs.filter (fun c => c.out == p) = [] := by
    rw [List.filter_eq_nil_iff]
    intro c hc
    simp [h c hc, Ne.symm hpq]
  rw [claimTogether, hf]
  rfl

theorem foldl_claimTogether_elsewhere {cs : List PassingClaim} {q : Port} (h : ∀ c ∈ cs, c.out = q) {l : List Port} (hl : q ∉ l)
    (s : State) : l.foldl (claimTogether cs) s = s := by
  induction l with
  | nil => rfl
  | cons p l ih =>
    simp only [List.mem_cons, not_or] at hl
    rw [List.foldl_cons, claimTogether_elsewhere h (Ne.symm hl.1), ih hl.2]

/-- Claims that all reach one queue are taken at that queue. -/
theorem claims_at_one_queue {cs : List PassingClaim} {q : Port} (h : ∀ c ∈ cs, c.out = q) (s : State) :
    allPorts.foldl (claimTogether cs) s = claimTogether cs s q := by
  obtain ⟨l, r, e⟩ := List.append_of_mem (mem_allPorts q)
  have hn : (l ++ q :: r).Nodup := by rw [← e]; decide
  have hl : q ∉ l := fun hq => (List.nodup_append.1 hn).2.2 q hq q (by simp) rfl
  have hr : q ∉ r := (List.nodup_cons.1 (List.nodup_append.1 hn).2.1).1
  rw [e, List.foldl_append, List.foldl_cons, foldl_claimTogether_elsewhere h hl, foldl_claimTogether_elsewhere h hr]

theorem claimTogether_none (p : Port) (s : State) : claimTogether [] s p = s := rfl

theorem claimTogether_one (c : PassingClaim) (s : State) :
    claimTogether [c] s c.out = claimPassing c.out c.input c.frame s := by
  simp [claimTogether, roundRobin, numbered, sortStable, insertStable]

/-- Two claims of different input ports at one queue, in either order given: the one whose turn comes first claims first. -/
theorem claimTogether_two {c d : PassingClaim} {s : State} (ho : d.out = c.out) (hi : c.input ≠ d.input)
    (ht : turn (s.port c.out).lastServed c.input < turn (s.port c.out).lastServed d.input) {cs : List PassingClaim}
    (hcs : cs ∈ [[c, d], [d, c]]) :
    claimTogether cs s c.out = claimPassing c.out d.input d.frame (claimPassing c.out c.input c.frame s) := by
  have h1 : ¬ turn (s.port c.out).lastServed d.input ≤ turn (s.port c.out).lastServed c.input := by omega
  simp only [List.mem_cons, List.not_mem_nil, or_false] at hcs
  rcases hcs with rfl | rfl
  · simp [claimTogether, roundRobin, numbered, sortStable, insertStable, ho, hi, le_of_lt ht, List.zipIdx]
  · simp [claimTogether, roundRobin, numbered, sortStable, insertStable, ho, Ne.symm hi, h1, List.zipIdx]

/-! ## Frames that pass through, in a part that has settled -/

/-- The claim of an arrival that passes through, in the part after the own claims of the event. -/
def claimOf (s : State) (a : Arrival) : Option PassingClaim :=
  passingClaim (endClaims (settle s)) ⟨a, isTransit (settle s) a.frame⟩

theorem takeTogether_passing {s : State} {as : List Arrival} (h : ∀ a ∈ as, isPassing (settle s) a = true) :
    takeTogether as (settle s) = allPorts.foldl (claimTogether (as.filterMap (claimOf s))) (endClaims (settle s)) := by
  have e : passingClaim (endClaims (settle s)) ∘ (fun a => ⟨a, isTransit (settle s) a.frame⟩) = claimOf s := rfl
  rw [takeTogether_of_passing as s h, List.filterMap_map, e]

/-- Frames whose claims all reach one queue claim space there, after the own claims of the event. -/
theorem takeTogether_at_one_queue {s : State} {as : List Arrival} {cs : List PassingClaim} {q : Port}
    (h : ∀ a ∈ as, isPassing (settle s) a = true) (hc : as.filterMap (claimOf s) = cs) (hq : ∀ c ∈ cs, c.out = q) :
    takeTogether as (settle s) = claimTogether cs (endClaims (settle s)) q := by
  rw [takeTogether_passing h, hc, claims_at_one_queue hq]

theorem takeTogether_none {s : State} {a : Arrival} (h : isPassing (settle s) a = true) (hc : claimOf s a = none) :
    takeTogether [a] (settle s) = endClaims (settle s) := by
  rw [takeTogether_at_one_queue (cs := []) (q := .np) (by simpa using h) (by simp [hc]) (by simp), claimTogether_none]

theorem takeTogether_one {s : State} {a : Arrival} {c : PassingClaim} (h : isPassing (settle s) a = true)
    (hc : claimOf s a = some c) :
    takeTogether [a] (settle s) = claimPassing c.out c.input c.frame (endClaims (settle s)) := by
  rw [takeTogether_at_one_queue (cs := [c]) (q := c.out) (by simpa using h) (by simp [hc]) (by simp), claimTogether_one]

/-- Two frames of different input ports reach one queue with room for both together: they join it in round-robin order. -/
theorem takeTogether_two {s : State} {a b : Arrival} {c d : PassingClaim} (ha : isPassing (settle s) a = true)
    (hb : isPassing (settle s) b = true) (hc : claimOf s a = some c) (hd : claimOf s b = some d) (ho : d.out = c.out)
    (hi : c.input ≠ d.input)
    (ht : turn ((endClaims (settle s)).port c.out).lastServed c.input < turn ((endClaims (settle s)).port c.out).lastServed d.input)
    (hq : ((endClaims (settle s)).port c.out).queue.length + 1 < queueSize c.out)
    (hp : ((endClaims (settle s)).port c.out).passing + 1 < passingLimit c.out) {as : List Arrival} (has : as ∈ [[a, b], [b, a]]) :
    takeTogether as (settle s) = (endClaims (settle s)).setPort c.out { (endClaims (settle s)).port c.out with
      queue := ((endClaims (settle s)).port c.out).queue ++ [⟨false, c.frame⟩, ⟨false, d.frame⟩], lastServed := d.input } := by
  have hcs : as.filterMap (claimOf s) ∈ [[c, d], [d, c]] := by
    simp only [List.mem_cons, List.not_mem_nil, or_false] at has
    rcases has with rfl | rfl <;> simp [hc, hd]
  have hout : ∀ x ∈ as.filterMap (claimOf s), x.out = c.out := by
    simp only [List.mem_cons, List.not_mem_nil, or_false] at hcs
    rcases hcs with e | e <;> simp [e, ho]
  have hpass : ∀ x ∈ as, isPassing (settle s) x = true := by
    simp only [List.mem_cons, List.not_mem_nil, or_false] at has
    rcases has with rfl | rfl <;> simp [ha, hb]
  rw [takeTogether_at_one_queue hpass rfl hout, claimTogether_two ho hi ht hcs, claimPassing_two _ _ _ _ hq hp]

theorem lookup_endClaims (s : State) (n : NodeId) : lookup (endClaims s) n = lookup s n := by
  have h := steady_endClaims s
  unfold lookup State.adjacency
  rw [adm_of_steady h, fwd_of_steady h]

theorem isPassing_transit {s : State} {p : Port} {f : RawFrame} (ht : takesInput s p = true) (hi : f.inputOk = true)
    (hf : isTransit s f = true) : isPassing s ⟨p, f⟩ = true := by simp [isPassing, ht, hi, hf]

theorem claimOf_hop_out {s : State} {p : Port} {f : RawFrame} (hf : isTransit (settle s) f = true) (hg : hopped p f = none) :
    claimOf s ⟨p, f⟩ = none := by simp [claimOf, passingClaim, hf, hg]

theorem claimOf_no_route {s : State} {p : Port} {f : RawFrame} {g : Frame} (hf : isTransit (settle s) f = true)
    (hg : hopped p f = some g) (hl : lookup (settle s) f.dst = none) : claimOf s ⟨p, f⟩ = none := by
  simp [claimOf, passingClaim, hf, hg, lookup_endClaims, hl]

theorem claimOf_transit {s : State} {p : Port} {f : RawFrame} {g : Frame} {d : Degree} (hf : isTransit (settle s) f = true)
    (hg : hopped p f = some g) (hl : lookup (settle s) f.dst = some d) : claimOf s ⟨p, f⟩ = some ⟨.deg d, p, g⟩ := by
  simp [claimOf, passingClaim, hf, hg, lookup_endClaims, hl]

/-- What a transit frame carries on: its hop limit taken down on a degree, kept on NP (R15). -/
theorem hopped_eq {p : Port} {f : RawFrame} {hop : Nat}
    (h : (∃ d, p = .deg d ∧ f.hop = hop + 1 ∧ hop ≠ 0) ∨ (p = .np ∧ f.hop = hop)) :
    hopped p f = some ⟨f.kind, hop, f.flags, f.src, f.dst, .raw f.body⟩ := by
  rcases h with ⟨d, rfl, hh, h0⟩ | ⟨rfl, rfl⟩
  · simp [hopped, passingFrame, hh, h0]
  · rfl

theorem isPassing_delivered {s : State} {d : Degree} {f : RawFrame} (ht : takesInput s (.deg d) = true) (hi : f.inputOk = true)
    (hd : f.dst = s.nodeId) (hp : parseBody f.kind f.body = some .delivered) : isPassing s ⟨.deg d, f⟩ = true := by
  simp [isPassing, isDelivered, ht, hi, hd, hp]

theorem claimOf_delivered {s : State} {d : Degree} {f : RawFrame} (hd : f.dst = (settle s).nodeId) :
    claimOf s ⟨.deg d, f⟩ = some ⟨.np, .deg d, passingFrame f⟩ := by
  simp [claimOf, passingClaim, isTransit, hd]

end Sys2Proof.Machine

open Sys2Proof Sys2Proof.Machine

/-- Settles O9: the claim of each transit frame, alone and with another. -/
theorem transitFrameForwarding : Obligations.TransitFrameForwarding := by
  intro p f s u v hu hv
  rw [hv, hu]
  intro ht hi hf
  have hpass := isPassing_transit ht hi hf
  have run (as : List Arrival) : exec (.transitFrame as) s = .next (offerAll (takeTogether as (settle s))) := rfl
  refine ⟨?_, fun hop hh => ⟨fun hl => ?_, fun e hl => ⟨?_, ?_⟩⟩⟩
  · rintro ⟨d, rfl, h1⟩
    rw [run, takeTogether_none hpass (claimOf_hop_out hf (by simp [hopped, h1]))]
  · rw [run, takeTogether_none hpass (claimOf_no_route hf (hopped_eq hh) hl)]
  · rw [run, takeTogether_one hpass (claimOf_transit hf (hopped_eq hh) hl), claimPassing_eq]
    rfl
  · intro q g other hqp hqt hgi hgt hgl hgh hq hp hturn as has
    rw [run, takeTogether_two hpass (isPassing_transit hqt hgi hgt) (claimOf_transit hf (hopped_eq hh) hl)
      (claimOf_transit hgt hgh hgl) rfl (Ne.symm hqp) hturn (Nat.succ_lt_succ hq) (Nat.succ_lt_succ hp) has]

/-- Settles O10: the claim of each delivered frame, alone and with another. -/
theorem deliveredFrameJoinsNodeQueue : Obligations.DeliveredFrameJoinsNodeQueue := by
  intro d f s u v hu hv
  rw [hv, hu]
  intro ht hi hd hp
  have hpass := isPassing_delivered ht hi hd hp
  have hc := claimOf_delivered (d := d) hd
  have run (a : Arrival) (as : List Arrival) :
      exec (.deliveredToNp a as) s = .next (offerAll (takeTogether (a :: as) (settle s))) := rfl
  refine ⟨?_, fun e g hed het hgi hgd hgp hq hpl hturn a b hab => ?_⟩
  · rw [run, takeTogether_one hpass hc, claimPassing_eq]
    rfl
  · have has : [a, b] ∈ [[(⟨.deg d, f⟩ : Arrival), ⟨.deg e, g⟩], [⟨.deg e, g⟩, ⟨.deg d, f⟩]] := by
      rcases hab with ⟨rfl, rfl⟩ | ⟨rfl, rfl⟩ <;> simp
    rw [run, takeTogether_two hpass (isPassing_delivered het hgi hgd hgp) hc (claimOf_delivered hgd) rfl
      (by simpa using Ne.symm hed) hturn (Nat.succ_lt_succ hq) (Nat.succ_lt_succ hpl) has]
    rfl

end

section
/-! SUPPORT. The input checks of a frame delivered whole, and the FRAME_ERROR of one that fails them (R8, R9, R193, R194). -/

namespace Sys2Proof.Machine

/-! ## Sources at the end of an event (R193) -/

theorem originated_of_not_due {n : NoticeSource} (h : n.due = false) : n.originated = n := by
  simp [NoticeSource.originated, h]

theorem originated_of_due {n : NoticeSource} (h : n.due = true) : n.originated = { n with sent := true } := by
  simp [NoticeSource.originated, h]

/-- The end of an event originates what is due, and changes no other source but CONGESTION. -/
theorem source_finish {i : NoticeId} (hi : i ≠ .congestion) (s : State) :
    (finish s).ntu.source i = (s.ntu.source i).originated := by
  have claims : ∀ (b : OwnBlock) (cs : List OwnClaim) (t : State), (takeClaims b cs t).ntu.source i = t.ntu.source i :=
    fun b cs t => (Draws.takeClaims b cs t).others i hi
  have again : ∀ n : NoticeSource, n.originated.originated = n.originated := fun n => originated_of_not_due (due_originated n)
  rw [finish, ntu_offerAll, endClaims, emit]
  simp only [source_emitDue hi, claims, again]

/-! ## The input checks (R8) -/

/-- A frame fails an input check: length, length field, CRC, version or hop limit. -/
def FailsChecks (b : List Byte) : Prop :=
  b.length < 14 ∨ 1014 < b.length ∨ field b 8 2 ≠ b.length - 14 ∨
    (crc32 (b.take (b.length - 4))).toNat ≠ field b (b.length - 4) 4 ∨ field b 1 1 ≠ 1 ∨ field b 2 1 = 0 ∨ 64 < field b 2 1

/-- The fields of a frame. -/
def rawFields (b : List Byte) : RawFrame :=
  ⟨field b 0 1, field b 2 1, b.getD 3 0, field b 4 2, field b 6 2, (b.drop 10).take (b.length - 14)⟩

theorem parseFrame_of_fails {b : List Byte} (h : FailsChecks b) : parseFrame b = none := by
  unfold FailsChecks at h
  simp only [parseFrame, Bool.or_eq_true, decide_eq_true_eq, bne_iff_ne, beq_iff_eq, ite_eq_left_iff]
  intro h1 h2 h3 h4 h5
  simp only [not_or, ne_eq, not_not] at h1 h2 h3 h4 h5
  omega

theorem parseFrame_of_passes {b : List Byte} (h : ¬ FailsChecks b) : parseFrame b = some (rawFields b) := by
  simp only [FailsChecks, not_or, not_not, ne_eq] at h
  obtain ⟨h1, h2, h3, h4, h5, h6, h7⟩ := h
  simp [parseFrame, rawFields, h1, h2, h3, h4, h5, h6, h7]

theorem takeBytes_of_fails {p : Port} {b : List Byte} {s : State} (h : FailsChecks b) :
    takeBytes p b s = if takesInput s p then frameError p s else s := by
  rw [takeBytes, parseFrame_of_fails h]

theorem takeBytes_of_passes {p : Port} {b : List Byte} {s : State} (h : ¬ FailsChecks b) :
    takeBytes p b s = acceptFrame p (rawFields b) s := by
  rw [takeBytes, parseFrame_of_passes h]

theorem acceptFrame_open {p : Port} {s : State} (f : RawFrame) (h : takesInput s p = true) :
    acceptFrame p f s = dispatchFrame p f s := by simp [acceptFrame, h]

theorem acceptFrame_np_closed {s : State} (f : RawFrame) (h : takesInput s .np = false) :
    acceptFrame .np f s = notRunningFrame f s := by simp [acceptFrame, h]

theorem takesInput_deg_eq_false {d : Degree} {s : State} (h : (s.adjacency d).enable = false ∨ s.cfu.start ≠ .running) :
    takesInput s (.deg d) = false := by
  rcases h with h | h <;> simp [takesInput, h]

/-- On a degree that takes no input nothing is checked or taken (R9). -/
theorem takeBytes_deg_closed {d : Degree} {s : State} (b : List Byte) (h : takesInput s (.deg d) = false) :
    takeBytes (.deg d) b s = s := by
  by_cases hf : FailsChecks b
  · simp [takeBytes_of_fails hf, h]
  · simp [takeBytes_of_passes hf, acceptFrame, h]

/-! ## FRAME_ERROR at the end of an event -/

theorem source_frameError (p : Port) (s : State) :
    (frameError p s).ntu.source .frameError = (s.ntu.source .frameError).raise [.port p] none := by
  simp [frameError, raise]

theorem due_raised (n : NoticeSource) (ms : List Member) (g : Option Nat) :
    (n.raise ms g).due = (n.enable && !n.sent) ∧ (n.raise ms g).sent = n.sent := by
  unfold NoticeSource.raise
  split
  · simp_all [NoticeSource.due]
  · simp [NoticeSource.due]

/-- A frame with FRAME_ERROR and nothing else: the event leaves the blocks, raises the source, and places its NOTICE when the source is
enabled and has sent none. -/
theorem frameError_event {s : State} (h : settle s = s) (p : Port) :
    (finish (frameError p s)).blocks = s.blocks ∧ Raised .frameError (.port p) (finish (frameError p s)) ∧
      Traffic [.frameError] [] s (finish (frameError p s)) ∧
      ((s.ntu.source .frameError).enable = true → (s.ntu.source .frameError).sent = false →
        NoticePlaced .frameError (finish (frameError p s)) ∧ ((finish (frameError p s)).ntu.source .frameError).sent = true) ∧
      (((s.ntu.source .frameError).enable = false ∨ (s.ntu.source .frameError).sent = true) →
        NoticeSilent .frameError s (finish (frameError p s)) ∧
          ((finish (frameError p s)).ntu.source .frameError).sent = (s.ntu.source .frameError).sent) := by
  have hf : FloodDone (frameError p s) := by
    have : FloodDone s := h ▸ floodDone_settle s
    exact this.shrinks (FloodShrinks.of_eq rfl rfl rfl)
  have hc : s.claims = [] := by rw [← h]; exact claims_settle s
  obtain ⟨hd, hs⟩ := due_raised (s.ntu.source .frameError) [.port p] none
  rw [← source_frameError] at hd hs
  have src := source_finish (i := .frameError) (by decide) (frameError p s)
  refine ⟨hf.blocks_finish.trans (blocks_frameError p s), (raised_raise (by simp) s).keeps (Keeps.finish _),
    (Traffic.frameError (by simp) p s).trans (Traffic.finish _), fun he hn => ?_, fun hn => ?_⟩
  · have due : ((frameError p s).ntu.source .frameError).due = true := by rw [hd, he, hn]; rfl
    exact ⟨noticePlaced_finish due, by rw [src, originated_of_due due]⟩
  · have due : ((frameError p s).ntu.source .frameError).due = false := by
      rw [hd]; rcases hn with e | e <;> simp [e]
    refine ⟨noticeSilent_finish (by decide) due ?_, by rw [src, originated_of_not_due due, hs]⟩
    simp [hc]

end Sys2Proof.Machine

open Sys2Proof Sys2Proof.Machine

/-- Settles O6, by where the frame arrives and whether it passes the checks. -/
theorem inputChecksDecideDispatch : Obligations.InputChecksDecideDispatch := by
  intro p b s hs fails f discarded
  have run : exec (.frameArrival p b) s = .next (finish (takeBytes p b s)) := event_eq hs.symm
  refine ⟨fun ht hf => ?_, fun ht hf => ?_, ?_, ?_⟩
  · refine ⟨_, ?_, frameError_event hs p⟩
    rw [run, takeBytes_of_fails hf, if_pos ht]
  · rw [run, takeBytes_of_passes hf, acceptFrame_open _ ht]
    rfl
  · rintro d rfl hd
    show exec (.frameArrival (.deg d) b) s = .next (finish s)
    rw [run, takeBytes_deg_closed b (takesInput_deg_eq_false hd)]
  · rintro rfl hr
    have ht : takesInput s .np = false := by simp [takesInput, hr]
    have accept (hf : ¬ fails) : takeBytes .np b s = notRunningFrame f s := by
      rw [takeBytes_of_passes hf, acceptFrame_np_closed _ ht]
      rfl
    refine ⟨fun h => ?_, fun hf hk => ?_⟩
    · show exec (.frameArrival .np b) s = .next (finish s)
      rw [run]
      by_cases hf : fails
      · rw [takeBytes_of_fails hf, ht]; rfl
      · have hk : ¬ (f.kind == kindMgmtq) = true := by simpa [kindMgmtq] using h.resolve_left hf
        rw [accept hf, notRunningFrame, if_neg hk]
    · rw [run, accept hf, notRunningFrame, if_pos (by simpa [kindMgmtq] using hk)]

end

section
/-! SUPPORT. Fields written to bytes and read back: numbers, slot maps, and lists of entries (R1, R4 to R7). -/

namespace Sys2Proof.Machine

/-! ## Numbers (R1) -/

@[simp] theorem length_valueBytes (n k : Nat) : (valueBytes n k).length = k := by
  induction k with
  | zero => rfl
  | succ k ih => simp [valueBytes, ih]

theorem foldl_valueBytes (n k acc : Nat) :
    (valueBytes n k).foldl (fun acc x => acc * 256 + x.toNat) acc = acc * 256 ^ k + n % 256 ^ k := by
  induction k generalizing acc with
  | zero => simp [valueBytes, Nat.mod_one]
  | succ k ih =>
    have hd : n % 256 ^ (k + 1) = n % 256 ^ k + 256 ^ k * (n / 256 ^ k % 256) := Nat.mod_pow_succ
    rw [valueBytes, List.foldl_cons, ih, BitVec.toNat_ofNat, hd]
    generalize n / 256 ^ k % 2 ^ 8 = x
    ring

theorem bytesValue_valueBytes {n k : Nat} (h : fits (8 * k) n = true) : bytesValue (valueBytes n k) = n := by
  have hn : n < 256 ^ k := by
    have : n < 2 ^ (8 * k) := by simpa [fits] using h
    rwa [Nat.pow_mul] at this
  rw [bytesValue, foldl_valueBytes, Nat.mod_eq_of_lt hn, Nat.zero_mul, Nat.zero_add]

/-! ## Fields of bytes put one after another -/

/-- A field behind a beginning is that field of the rest. -/
theorem field_append_skip {a b : List Byte} {off : Nat} (size : Nat) (h : a.length ≤ off) :
    field (a ++ b) off size = field b (off - a.length) size := by
  rw [field, field, List.drop_append, List.drop_eq_nil_of_le h, List.nil_append]

theorem field_cons_skip {x : Byte} {b : List Byte} {off : Nat} (size : Nat) (h : 1 ≤ off) :
    field (x :: b) off size = field b (off - 1) size := field_append_skip (a := [x]) size h

/-- The field at the front. -/
theorem field_front {n k : Nat} (b : List Byte) (h : fits (8 * k) n = true) : field (valueBytes n k ++ b) 0 k = n := by
  rw [field, List.drop_zero, List.take_append_of_le_length (by simp), List.take_of_length_le (by simp), bytesValue_valueBytes h]

theorem fits_toNat {w : Nat} (v : BitVec w) : fits w v.toNat = true := by simp [fits, v.isLt]

theorem field_whole {n k : Nat} (h : fits (8 * k) n = true) : field (valueBytes n k) 0 k = n := by
  have := field_front [] h
  rwa [List.append_nil] at this

/-! ## Slot maps (R4) -/

theorem bitsValue_succ (f : Nat → Bool) (k : Nat) : bitsValue f (k + 1) = 2 ^ k * (f k).toNat + bitsValue f k := by
  rw [bitsValue]
  cases f k <;> simp [Nat.add_comm]

theorem bitsValue_lt (f : Nat → Bool) (k : Nat) : bitsValue f k < 2 ^ k := by
  induction k with
  | zero => simp [bitsValue]
  | succ k ih =>
    have := (f k).toNat_le
    rw [bitsValue_succ, Nat.pow_succ]
    nlinarith

theorem testBit_bitsValue (f : Nat → Bool) (k n : Nat) (h : n < k) : (bitsValue f k).testBit n = f n := by
  induction k with
  | zero => omega
  | succ k ih =>
    rw [bitsValue_succ, Nat.testBit_two_pow_mul_add _ (bitsValue_lt f k)]
    split
    · exact ih ‹_›
    · obtain rfl : n = k := by omega
      rw [Nat.sub_self, Nat.testBit_zero]
      cases f n <;> rfl

theorem getLsbD_mapBits (f : Nat → Bool) {n : Nat} (h : n < 384) : (mapBits f).getLsbD n = f n := by
  rw [mapBits, BitVec.getLsbD_ofNat, testBit_bitsValue f 384 n h, decide_eq_true h, Bool.true_and]

/-- The bits of a byte from the highest down, as a number. -/
theorem testBit_highFirst (b : Nat → Bool) (k j : Nat) (h : j < k) :
    ((List.range k).foldl (fun acc j => acc * 2 + (if b j then 1 else 0)) 0).testBit (k - 1 - j) = b j := by
  induction k with
  | zero => omega
  | succ k ih =>
    rw [List.range_succ, List.foldl_append, List.foldl_cons, List.foldl_nil]
    by_cases hj : j = k
    · subst hj
      rw [Nat.add_sub_cancel, Nat.sub_self, Nat.testBit_zero]
      cases b j <;> simp
    · have hd : ∀ v : Nat, (v * 2 + (if b k then 1 else 0)) / 2 = v := fun v => by split <;> omega
      rw [show k + 1 - 1 - j = (k - 1 - j) + 1 by omega, Nat.testBit_succ, hd]
      exact ih (by omega)

@[simp] theorem length_mapBytes (m : BitVec 384) : (mapBytes m).length = 48 := by simp [mapBytes]

theorem mapField_append_skip {a b : List Byte} {off : Nat} (h : a.length ≤ off) :
    mapField (a ++ b) off = mapField b (off - a.length) := by
  unfold mapField
  congr 1
  funext n
  rw [List.getD_append_right _ _ _ _ (by omega), show off + n / 8 - a.length = off - a.length + n / 8 by omega]

theorem mapField_cons_skip {x : Byte} {b : List Byte} {off : Nat} (h : 1 ≤ off) :
    mapField (x :: b) off = mapField b (off - 1) := mapField_append_skip (a := [x]) h

/-- The map at the front, bit by bit. -/
theorem mapField_front (m : BitVec 384) (b : List Byte) : mapField (mapBytes m ++ b) 0 = m := by
  refine BitVec.eq_of_getLsbD_eq fun n hn => ?_
  have hi : n / 8 < (mapBytes m).length := by rw [length_mapBytes]; omega
  have hj : n % 8 < 8 := Nat.mod_lt _ (by omega)
  have hn8 : n / 8 * 8 + n % 8 = n := by omega
  rw [mapField, getLsbD_mapBits _ hn, Nat.zero_add, List.getD_append _ _ _ _ hi, List.getD_eq_getElem _ _ hi]
  simp only [mapBytes, List.getElem_map, List.getElem_range, BitVec.getLsbD_ofNat]
  rw [testBit_highFirst (fun j => m.getLsbD (n / 8 * 8 + j)) 8 (n % 8) hj, hn8]
  simp only [Bool.and_eq_right_iff_imp, decide_eq_true_eq]
  omega

theorem mapField_whole (m : BitVec 384) : mapField (mapBytes m) 0 = m := by
  have := mapField_front m []
  rwa [List.append_nil] at this

/-! ## Lists of entries (R6, R7) -/

theorem drop_append_skip {a b : List Byte} {n : Nat} (h : a.length ≤ n) : (a ++ b).drop n = b.drop (n - a.length) := by
  rw [List.drop_append, List.drop_eq_nil_of_le h, List.nil_append]

theorem parseTallyEntries_bytes (es : List TallyEntry) (h : es.all TallyEntry.wellFormed = true) :
    parseTallyEntries (es.flatMap (fun e => valueBytes e.origin 2 ++ valueBytes e.highest 4 ++ valueBytes e.count 2 ++
      valueBytes e.sum 4)) es.length = es := by
  induction es with
  | nil => rfl
  | cons e es ih =>
    simp only [List.all_cons, Bool.and_eq_true, TallyEntry.wellFormed] at h
    obtain ⟨⟨⟨⟨h1, h2⟩, h3⟩, h4⟩, hes⟩ := h
    have ih := ih hes
    simp only [List.append_assoc] at ih
    simp [parseTallyEntries, field_append_skip, field_front, drop_append_skip, h1, h2, h3, h4, ih]

theorem parseHops_bytes (hs : List HopField) (h : hs.all HopField.wellFormed = true) (b : List Byte) :
    parseHops ((hs.flatMap fun h => valueBytes h.key.origin 2 ++ valueBytes h.key.num 1 ++ valueBytes h.startField 2) ++ b)
      hs.length = hs := by
  induction hs with
  | nil => rfl
  | cons x hs ih =>
    simp only [List.all_cons, Bool.and_eq_true, HopField.wellFormed, LinkKey.wellFormed] at h
    obtain ⟨⟨⟨h1, h2⟩, h3⟩, hs'⟩ := h
    have ih := ih hs'
    simp only [List.append_assoc] at ih
    simp [parseHops, field_append_skip, field_front, drop_append_skip, h1, h2, h3, ih]

@[simp] theorem length_hopBytes (hs : List HopField) : (hs.flatMap fun h =>
    valueBytes h.key.origin 2 ++ valueBytes h.key.num 1 ++ valueBytes h.startField 2).length = 5 * hs.length := by
  simp [List.length_flatMap, Nat.mul_comm]

theorem length_pathBytes (p : PathBlock) : p.bytes.length = 5 + 5 * p.hops.length := by
  rw [PathBlock.bytes, List.length_append, length_hopBytes]
  simp

theorem parsePaths_bytes (ps : List PathBlock) (h : ps.all PathBlock.wellFormed = true)
    (hh : ∀ p ∈ ps, 1 ≤ p.hops.length ∧ p.hops.length ≤ 32) :
    parsePaths (ps.flatMap PathBlock.bytes) ps.length = some ps := by
  induction ps with
  | nil => rfl
  | cons p ps ih =>
    simp only [List.all_cons, Bool.and_eq_true, PathBlock.wellFormed] at h
    obtain ⟨⟨⟨h1, h2⟩, h3⟩, hps⟩ := h
    obtain ⟨hp1, hp2⟩ := hh p (by simp)
    have ih := ih hps fun x hx => hh x (by simp [hx])
    have hhops := parseHops_bytes p.hops h3
    have hl : field (p.bytes ++ ps.flatMap PathBlock.bytes) 4 1 = p.hops.length := by
      simp [PathBlock.bytes, field_append_skip, field_front, h2]
    have hc : field (p.bytes ++ ps.flatMap PathBlock.bytes) 0 4 = p.cost := by
      simp [PathBlock.bytes, field_front, h1]
    have hd : (p.bytes ++ ps.flatMap PathBlock.bytes).drop 5 = (p.hops.flatMap fun h =>
        valueBytes h.key.origin 2 ++ valueBytes h.key.num 1 ++ valueBytes h.startField 2) ++ ps.flatMap PathBlock.bytes := by
      simp [PathBlock.bytes, drop_append_skip]
    rw [List.flatMap_cons, List.length_cons, parsePaths]
    simp only [hl, hc, hd, hhops, drop_append_skip (length_pathBytes p).le, length_pathBytes, Nat.sub_self, List.drop_zero, ih]
    simp [hp1, hp2, length_pathBytes]

theorem pulledOrigins_bytes (os : List NodeId) (h : os.all (fits 16) = true) (b : List Byte) :
    ((List.range os.length).map fun i => field (b ++ os.flatMap fun o => valueBytes o 2) (b.length + 2 * i) 2) = os := by
  induction os generalizing b with
  | nil => rfl
  | cons o os ih =>
    simp only [List.all_cons, Bool.and_eq_true] at h
    have ih := ih h.2 (b ++ valueBytes o 2)
    rw [List.length_cons, List.range_succ_eq_map, List.map_cons, List.map_map]
    congr 1
    · simp [field_append_skip, field_front, h.1]
    · simp only [List.append_assoc, List.length_append, length_valueBytes] at ih
      calc _ = (List.range os.length).map fun i =>
            field (b ++ (valueBytes o 2 ++ os.flatMap fun o => valueBytes o 2)) (b.length + 2 + 2 * i) 2 :=
            List.map_congr_left fun i _ => by
              rw [Function.comp, show b.length + 2 * i.succ = b.length + 2 + 2 * i by omega]; rfl
        _ = os := ih

/-! ## Bodies (R4 to R7) -/

theorem parseTally_bytes {t : TallyBody} (h : t.wellFormed = true) (hl : t.entries.length ≤ 80) :
    parseTally (Body.tally t).bytes = some t := by
  simp only [TallyBody.wellFormed, Bool.and_eq_true] at h
  obtain ⟨⟨⟨h1, h2⟩, h3⟩, h4⟩ := h
  have he := parseTallyEntries_bytes t.entries h4
  simp only [List.append_assoc] at he
  have hn : ((t.entries.map fun _ => 12).sum = 12 * t.entries.length) := by simp [Nat.mul_comm]
  simp [parseTally, Body.bytes, field_append_skip, field_front, drop_append_skip, List.length_flatMap, h1, h2, h3, he, hl]
  omega

theorem parsePull_bytes {os : List NodeId} (h : pullWellFormed os = true) (h1 : 1 ≤ os.length) (h32 : os.length ≤ 32) :
    parsePull (Body.pull os).bytes = some os := by
  simp only [pullWellFormed, Bool.and_eq_true] at h
  have ho := pulledOrigins_bytes os h.2 (valueBytes os.length 1)
  rw [length_valueBytes] at ho
  have hn : field (valueBytes os.length 1 ++ os.flatMap fun o => valueBytes o 2) 0 1 = os.length := field_front _ h.1
  simp only [parsePull, Body.bytes, hn, ho]
  simp [h1, h32, List.length_flatMap, Nat.mul_comm]

theorem parseRouteq_bytes {q : RouteqBody} (h : q.wellFormed = true) : parseRouteq q.bytes = some q := by
  simp only [RouteqBody.wellFormed, Bool.and_eq_true] at h
  obtain ⟨⟨⟨⟨⟨⟨⟨⟨⟨⟨h1, h2⟩, h3⟩, h4⟩, h5⟩, h6⟩, h7⟩, h8⟩, h9⟩, h10⟩, h11⟩ := h
  simp [parseRouteq, RouteqBody.bytes, field_append_skip, field_cons_skip, field_front, field_whole, fits_toNat, *]

theorem parseRoutea_bytes {a : RouteaBody} (h : a.wellFormed = true) (hl : a.paths.length ≤ 2)
    (hh : ∀ p ∈ a.paths, 1 ≤ p.hops.length ∧ p.hops.length ≤ 32) : parseRoutea a.bytes = some a := by
  simp only [RouteaBody.wellFormed, Bool.and_eq_true] at h
  obtain ⟨⟨⟨⟨h1, h2⟩, h3⟩, h4⟩, h5⟩ := h
  simp [parseRoutea, RouteaBody.bytes, field_append_skip, field_front, drop_append_skip, parsePaths_bytes a.paths h5 hh, *]
  omega

/-- The native IDs that an ADVERT does not carry are 0 (R4). -/
theorem parseAdvert_bytes {a : AdvertBody} (h : a.wellFormed = true) : parseAdvert a.bytes = some a := by
  obtain ⟨domain, origin, seq, age, record, nativeOrigin, nativeFar⟩ := a
  simp only [AdvertBody.wellFormed, AdvertBody.nativeOk, Bool.and_eq_true] at h
  obtain ⟨⟨⟨⟨⟨⟨⟨h1, h2⟩, h3⟩, h4⟩, h5⟩, h6⟩, h7, h8⟩, h9⟩ := h
  have k0 : fits 8 0 = true := rfl
  have k1 : fits 8 1 = true := rfl
  have k2 : fits 8 2 = true := rfl
  cases record with
  | node regen transit =>
    simp only [AdvertRecord.wellFormed, Bool.and_eq_true] at h9
    obtain rfl : nativeFar = 0 := by simpa using h8
    by_cases hd : domain = 0
    · subst hd
      obtain rfl : nativeOrigin = 0 := by simpa using h7
      simp [parseAdvert, AdvertBody.bytes, field_append_skip, field_front, field_whole, *]
    · simp [parseAdvert, AdvertBody.bytes, field_append_skip, field_front, field_whole, *]
  | link num far farFlags farNum cost imp used blocked =>
    simp only [AdvertRecord.wellFormed, Bool.and_eq_true] at h9
    by_cases hd : domain = 0
    · subst hd
      obtain ⟨rfl, rfl⟩ : nativeOrigin = 0 ∧ nativeFar = 0 := by simpa using h7
      simp [parseAdvert, AdvertBody.bytes, field_append_skip, field_front, field_cons_skip, mapField_append_skip, mapField_cons_skip,
        mapField_front, mapField_whole, *]
    · simp [parseAdvert, AdvertBody.bytes, field_append_skip, field_front, field_whole, field_cons_skip, mapField_append_skip, mapField_cons_skip,
        mapField_front, *]

/-! ## Frames (R1, R2, R8) -/

theorem length_headed (f : Frame) : f.headed.length = 10 + f.body.bytes.length := by simp [Frame.headed]; omega

theorem length_wire (f : Frame) : f.wire.length = 14 + f.body.bytes.length := by
  rw [Frame.wire, List.length_append, length_headed, length_valueBytes]; omega

theorem take_wire (f : Frame) : f.wire.take (f.wire.length - 4) = f.headed := by
  rw [length_wire, Frame.wire, List.take_append_of_le_length (by rw [length_headed]; omega),
    List.take_of_length_le (by rw [length_headed]; omega)]

theorem field_wire_crc (f : Frame) : field f.wire (f.wire.length - 4) 4 = (crc32 f.headed).toNat := by
  rw [length_wire, Frame.wire, field_append_skip 4 (by rw [length_headed]; omega), length_headed,
    show 14 + f.body.bytes.length - 4 - (10 + f.body.bytes.length) = 0 by omega, field_whole (k := 4) (fits_toNat (crc32 f.headed))]

/-- The header of a frame that the part sends. -/
theorem header_wire {f : Frame} (hk : fits 8 f.kind = true) (hh : fits 8 f.hop = true) (hs : fits 16 f.src = true)
    (hd : fits 16 f.dst = true) (hl : fits 16 f.body.bytes.length = true) :
    field f.wire 0 1 = f.kind ∧ field f.wire 1 1 = 1 ∧ field f.wire 2 1 = f.hop ∧ f.wire.getD 3 0 = f.flags ∧
      field f.wire 4 2 = f.src ∧ field f.wire 6 2 = f.dst ∧ field f.wire 8 2 = f.body.bytes.length := by
  have k1 : fits 8 1 = true := rfl
  simp [Frame.wire, Frame.headed, field_append_skip, field_cons_skip, field_front, List.getElem?_append, *]

theorem body_wire (f : Frame) : (f.wire.drop 10).take (f.wire.length - 14) = f.body.bytes := by
  rw [length_wire]
  simp [Frame.wire, Frame.headed, drop_append_skip]

/-- The header and the body of a frame that the part sends pass the input checks (R8). -/
theorem parseFrame_wire {f : Frame} (hl : f.body.bytes.length ≤ 1000) (hk : fits 8 f.kind = true) (h1 : 1 ≤ f.hop)
    (h64 : f.hop ≤ 64) (hs : fits 16 f.src = true) (hd : fits 16 f.dst = true) :
    parseFrame f.wire = some ⟨f.kind, f.hop, f.flags, f.src, f.dst, f.body.bytes⟩ := by
  have hh : fits 8 f.hop = true := by simp [fits]; omega
  have hb : fits 16 f.body.bytes.length = true := by simp [fits]; omega
  obtain ⟨e0, e1, e2, e3, e4, e6, e8⟩ := header_wire hk hh hs hd hb
  have hp : ¬ FailsChecks f.wire := by
    rw [FailsChecks, take_wire, field_wire_crc, e1, e2, e8, length_wire]
    omega
  rw [parseFrame_of_passes hp, rawFields, e0, e2, e3, e4, e6, body_wire]

end Sys2Proof.Machine

open Sys2Proof Sys2Proof.Machine

/-- Settles O16: the wire form is read back field by field; the bodies of NOTICE and MGMTA have the lengths of R7. -/
theorem sentFramePassesInputChecks : Obligations.SentFramePassesInputChecks := by
  refine ⟨fun f hl hk h1 h64 hs hd => parseFrame_wire hl hk h1 h64 hs hd, fun n => ?_, fun tag code data => ?_, fun tag code => ?_⟩
  · simp [Body.bytes]
  · have hd : data.bytes.length ≤ 997 := by
      cases data with
      | none => simp [ResultData.bytes]
      | _ => simp [ResultData.bytes]
    simp [Body.bytes]
    omega
  · simp [Body.bytes, ResultData.bytes]

/-- Settles O18: the four forms of the body, field by field. -/
theorem sentAdvertsAreReadBack : Obligations.SentAdvertsAreReadBack := by
  intro a h
  show (parseAdvert a.bytes).map Handled.advert = _
  rw [parseAdvert_bytes h, Option.map_some]

/-- Settles O17, a body at a time. -/
theorem sentBodiesAreReadBack : Obligations.SentBodiesAreReadBack := by
  refine ⟨fun g h => ?_, fun os h h1 h32 => ?_, fun t h hl => ?_, fun q h => ?_, fun a h hl hh => ?_⟩
  · simp only [GreetBody.wellFormed, Bool.and_eq_true] at h
    obtain ⟨⟨⟨h1, h2⟩, h3⟩, h4⟩ := h
    simp [parseBody, Body.bytes, field_append_skip, field_front, field_whole, h1, h2, h3, h4]
  · show (parsePull _).map Handled.pull = _
    rw [parsePull_bytes h h1 h32, Option.map_some]
  · show (parseTally _).map Handled.tally = _
    rw [parseTally_bytes h hl, Option.map_some]
  · rw [parseBody_routeq]
    show (parseRouteq q.bytes).map Handled.routeq = _
    rw [parseRouteq_bytes h, Option.map_some]
  · show (parseRoutea a.bytes).map Handled.routea = _
    rw [parseRoutea_bytes h hl hh, Option.map_some]

end


section
/-! SUPPORT. Management frames that do not reach their owning rule (R9, R206). -/

namespace Sys2Proof.Machine

/-- Every command of the table of management rows is an event of its rule behind the access checks. -/
theorem exec_mgmtRow (m : MgmtFrom) (c : MgmtCmd) (s : State) :
    exec (mgmtRow m c) s = event (manageFrom m (doCommand c)) s := by cases c <;> rfl

theorem manageFrom_not_taken {m : MgmtFrom} {s : State} (f : State → Done) (h : takesMgmt s m.port = false) :
    manageFrom m f s = s := by simp [manageFrom, h]

theorem manageFrom_bad_sender {m : MgmtFrom} {s : State} (f : State → Done) (h : takesMgmt s m.port = true)
    (hb : badSender s m.port m.src = true) : manageFrom m f s = frameError m.port s := by simp [manageFrom, manage, h, hb]

theorem manageFrom_loading {m : MgmtFrom} {s : State} (f : State → Done) (h : takesMgmt s m.port = true)
    (hb : badSender s m.port m.src = false) (hl : s.cfu.start = .loading) :
    manageFrom m f s = answerMgmt (identity m.port m.src) m.tag ⟨.notReady, .none⟩ s := by
  simp [manageFrom, manage, h, hb, hl, refuse]

theorem manageFrom_no_manager {m : MgmtFrom} {s : State} (f : State → Done) (h : takesMgmt s m.port = true)
    (hb : badSender s m.port m.src = false) (hl : s.cfu.start ≠ .loading) (h0 : identity m.port m.src ≠ 0)
    (hm : identity m.port m.src ∉ s.cfu.params.managers.toList) :
    manageFrom m f s = answerMgmt (identity m.port m.src) m.tag ⟨.refusedAccess, .none⟩ s := by
  simp_all [manageFrom, manage, mayManage, refuse]

/-- Where FLE has nothing to place, an event that changes only what the traffic is made of leaves the blocks. -/
theorem blocks_finish_of_blocks {s t : State} (h : FloodDone s) (hb : t.blocks = s.blocks)
    (hq : ∀ p, (s.port p).queue.length ≤ (t.port p).queue.length) : (finish t).blocks = s.blocks := by
  have hd : FloodDone t := h.shrinks (FloodShrinks.of_queues (adm_of_blocks hb) (fle_of_blocks hb) fun d => hq _)
  rw [hd.blocks_finish, hb]

/-- A frame discarded with FRAME_ERROR and nothing else. -/
theorem discard_event {u : State} (hf : FloodDone u) (p : Port) : (finish (frameError p u)).blocks = u.blocks ∧
    Raised .frameError (.port p) (finish (frameError p u)) ∧ Traffic [.frameError] [] u (finish (frameError p u)) :=
  ⟨blocks_finish_of_blocks hf (blocks_frameError _ _) fun p => le_refl _, (raised_raise (by simp) u).keeps (Keeps.finish _),
    (Traffic.frameError (by simp) _ _).trans (Traffic.finish _)⟩

/-- An answer and nothing else: the blocks stay, and the MGMTA is placed. -/
theorem answer_event {u : State} (hf : FloodDone u) (m : MgmtFrom) (r : Reply) (hb : badSender u m.port m.src = false) :
    (finish (answerMgmt (identity m.port m.src) m.tag r u)).blocks = u.blocks ∧
      Answered m r.code r.data (finish (answerMgmt (identity m.port m.src) m.tag r u)) ∧
      Traffic [] [] u (finish (answerMgmt (identity m.port m.src) m.tag r u)) := by
  have ht : Traffic [] [] u (answerMgmt (identity m.port m.src) m.tag r u) := Traffic.answerMgmt _ _ _ _
  exact ⟨blocks_finish_of_blocks hf (blocks_answerMgmt _ _ _ _) (queue_le_of_traffic ht),
    answered_answerMgmt m r u (identity_ne m _ hb), ht.trans (Traffic.finish _)⟩

end Sys2Proof.Machine

open Sys2Proof Sys2Proof.Machine

/-- Settles O19, check by check. -/
theorem managementAccessChecks : Obligations.ManagementAccessChecks := by
  intro m c s u hu
  have run : exec (mgmtRow m c) s = .next (finish (manageFrom m (doCommand c) u)) := by
    rw [exec_mgmtRow]; exact event_eq hu
  have hf : FloodDone u := hu ▸ floodDone_settle s
  refine ⟨fun h => ?_, fun h hb => ?_, fun h hb => ⟨fun hl => ?_, fun hl h0 hm => ?_⟩⟩
  · rw [run, manageFrom_not_taken _ h]
  · rw [manageFrom_bad_sender _ h hb] at run
    exact ⟨_, run, discard_event hf _⟩
  · rw [manageFrom_loading _ h hb hl] at run
    exact ⟨_, run, answer_event hf m _ hb⟩
  · rw [manageFrom_no_manager _ h hb hl h0 hm] at run
    exact ⟨_, run, answer_event hf m _ hb⟩

end

section
/-! SUPPORT. The first element in an order, the order of forwarding paths, and the completion of the tree build (R166, R167). -/

namespace Sys2Proof.Machine

/-! ## The first element in an order -/

theorem mem_of_firstBy {α : Type} {lt : α → α → Bool} {l : List α} {b : α} (h : firstBy lt l = some b) : b ∈ l := by
  induction l generalizing b with
  | nil => cases h
  | cons x l ih =>
    rw [firstBy] at h
    split at h
    · cases h; simp
    · rename_i y hy
      split at h
      · cases h; exact List.mem_cons_of_mem _ (ih hy)
      · cases h; simp

/-- An element that comes before every other one is the first. -/
theorem firstBy_of_least {α : Type} {lt : α → α → Bool} (asymm : ∀ a b, lt a b = true → lt b a = false) {l : List α} {m : α}
    (hm : m ∈ l) (h : ∀ p ∈ l, p ≠ m → lt m p = true) : firstBy lt l = some m := by
  have irrefl : ∀ a, lt a a = false := fun a =>
    Bool.eq_false_iff.2 fun e => Bool.noConfusion (e.symm.trans (asymm a a e))
  induction l with
  | nil => cases hm
  | cons a t ih =>
    by_cases e : a = m
    · subst e
      rw [firstBy]
      split
      · rfl
      · rename_i b hb
        have hba : lt b a = false := by
          by_cases k : b = a
          · rw [k, irrefl]
          · exact asymm a b (h b (by simp [mem_of_firstBy hb]) k)
        rw [hba]
        rfl
    · have ht : m ∈ t := (List.mem_cons.1 hm).resolve_left fun k => e k.symm
      rw [firstBy, ih ht fun p hp => h p (by simp [hp])]
      simp [h a (by simp) e]

/-! ## The order of forwarding paths (R166) -/

theorem keyLt_asymm (a b : LinkKey) (h : keyLt a b = true) : keyLt b a = false := by
  simp only [keyLt, Bool.or_eq_true, Bool.and_eq_true, decide_eq_true_eq, beq_iff_eq, Bool.or_eq_false_iff,
    Bool.and_eq_false_iff, decide_eq_false_iff_not, beq_eq_false_iff_ne] at h ⊢
  rcases h with h | ⟨ho, hn⟩
  · exact ⟨lt_asymm h, Or.inl (ne_of_gt h)⟩
  · exact ⟨fun k => absurd ho (ne_of_gt k), Or.inr (lt_asymm hn)⟩

theorem lexLt_asymm {α : Type} {lt : α → α → Bool} (asymm : ∀ a b, lt a b = true → lt b a = false) (s t : List α)
    (h : lexLt lt s t = true) : lexLt lt t s = false := by
  induction s generalizing t with
  | nil =>
    cases t with
    | nil => rfl
    | cons b t => rfl
  | cons a s ih =>
    cases t with
    | nil => cases h
    | cons b t =>
      rw [lexLt] at h ⊢
      by_cases hab : lt a b = true
      · simp [hab, asymm a b hab]
      · by_cases hba : lt b a = true
        · simp [hab, hba] at h
        · simp only [hab, hba, Bool.false_eq_true, if_false] at h ⊢
          exact ih t h

theorem firstDiffers_natKey (a b : Nat) (x : List (Bool × Bool)) :
    firstDiffers (natKey a b :: x) = (decide (a < b) || (decide (a = b) && firstDiffers x)) := by
  rw [natKey, firstDiffers]
  rcases Nat.lt_trichotomy a b with h | h | h
  · simp [h]
  · simp [h]
  · simp [h, Nat.not_lt.2 h.le, Nat.ne_of_gt h]

theorem forwardingLt_asymm (a b : Path) (h : forwardingLt a b = true) : forwardingLt b a = false := by
  have lex (x y : Path) : firstDiffers [(lexLt keyLt (linkKeys x) (linkKeys y), lexLt keyLt (linkKeys y) (linkKeys x))] =
      lexLt keyLt (linkKeys x) (linkKeys y) := by
    rw [firstDiffers, firstDiffers]
    split
    · exact Eq.symm ‹_›
    · rename_i e; simp at e; simp [e]
  have keys := lexLt_asymm keyLt_asymm (linkKeys a) (linkKeys b)
  simp only [forwardingLt, firstDiffers_natKey, lex, Bool.or_eq_true, Bool.and_eq_true, decide_eq_true_eq,
    Bool.or_eq_false_iff, Bool.and_eq_false_iff, decide_eq_false_iff_not] at h ⊢
  rcases h with h | ⟨hc, h | ⟨hl, hk⟩⟩
  · omega
  · omega
  · exact ⟨by omega, Or.inr ⟨by omega, Or.inr (keys hk)⟩⟩

/-! ## The forwarding table (R167) -/

/-- The forwarding paths to a node, in the committed view. -/
def forwardingPaths (t : Tdb) (self n : NodeId) : List Path :=
  pathsFrom (t.edges (fun _ => true) [] []) t.transitNode n t.nodes.length self [self]

theorem firstDegree_of_none {t : Tdb} {self n : NodeId} (h : forwardingPaths t self n = []) : firstDegree t self n = none := by
  unfold firstDegree
  rw [show pathsFrom _ _ n t.nodes.length self [self] = [] from h]
  rfl

theorem firstDegree_of_least {t : Tdb} {self n : NodeId} {l : Edge} {rest : Path} (hm : l :: rest ∈ forwardingPaths t self n)
    (h : ∀ p ∈ forwardingPaths t self n, p ≠ l :: rest → forwardingLt (l :: rest) p = true) :
    firstDegree t self n = degree? l.key.num := by
  unfold firstDegree
  rw [show firstBy forwardingLt (pathsFrom _ _ n t.nodes.length self [self]) = some (l :: rest) from
    firstBy_of_least forwardingLt_asymm hm h]

theorem mem_forwardingTable {t : Tdb} {self : NodeId} {f : Nat × FwdEntry} : f ∈ forwardingTable t self ↔
    ∃ e ∈ t.nodes, e.2.ver.committedActive = true ∧
      (e.1, ⟨e.2.id, if e.2.id == self then none else firstDegree t self e.2.id⟩) = f := by
  simp [forwardingTable, and_assoc]

theorem degree_of_mem_forwardingTable {t : Tdb} {self : NodeId} {f : Nat × FwdEntry} (h : f ∈ forwardingTable t self) :
    f.2.degree = if f.2.node == self then none else firstDegree t self f.2.node := by
  obtain ⟨e, -, -, rfl⟩ := mem_forwardingTable.1 h
  rfl

/-- The completion of the tree build, with no build waiting. -/
theorem completeTree_of_tree {g : Nat} {s : State} (h : s.rsv.l0.work = .tree g) (hj : s.rsv.treeJob = none) :
    completeTree s = { s with
      rsv := { s.rsv with l0 := ⟨.idle, some ⟨.tree, g⟩, s.rsv.l0.current⟩ }
      fsw := { s.fsw with fwd := forwardingTable s.tdb s.nodeId, fwdGen := g } } := by
  simp [completeTree, h, startTree, hj, Lane.finish, Lane.isIdle, Work.gen]

theorem port_withFwd (s : State) (f : List (Nat × FwdEntry)) (g : Nat) (r : Rsv) (p : Port) :
    ({ s with rsv := r, fsw := { s.fsw with fwd := f, fwdGen := g } } : State).port p = s.port p := by cases p <;> rfl

end Sys2Proof.Machine

open Sys2Proof Sys2Proof.Machine

/-- Settles O55: the table is built of the committed nodes and the first of each one's paths. -/
theorem treeBuildReplacesForwardingTable : Obligations.TreeBuildReplacesForwardingTable := by
  intro g s u hu hw hj paths
  have run : exec .treeBuildCompletion s = .next (finish (completeTree u)) := event_eq hu
  have hf : FloodDone u := hu ▸ floodDone_settle s
  have hfwd : (finish (completeTree u)).fsw.fwd = forwardingTable u.tdb u.nodeId := by
    rw [fwd_finish, completeTree_of_tree hw hj]
  refine ⟨_, run, ?_, ?_, fun e he ha => ?_, fun f hf' => ?_⟩
  · refine Traffic.trans ⟨fun p _ => ?_, fun i _ _ => ?_⟩ (Traffic.finish _)
    · rw [completeTree_of_tree hw hj, port_withFwd]; exact PortGrows.refl _
    · rw [completeTree_of_tree hw hj]
  · have hd : FloodDone (completeTree u) := by
      rw [completeTree_of_tree hw hj]
      exact hf.shrinks (FloodShrinks.of_queues rfl rfl fun d => le_refl _)
    rw [hfwd, hd.blocks_finish, completeTree_of_tree hw hj]
  · rw [hfwd]
    exact ⟨_, mem_forwardingTable.2 ⟨e, he, ha, rfl⟩, rfl, rfl⟩
  · rw [hfwd] at hf'
    have hdeg := degree_of_mem_forwardingTable hf'
    obtain ⟨e, he, ha, hef⟩ := mem_forwardingTable.1 hf'
    refine ⟨⟨e, he, by rw [← hef], by rw [← hef], ha⟩, fun hs => ?_, fun hs hp => ?_, fun l rest hs hl hmin => ?_⟩
    · rw [hdeg, if_pos (by simpa using hs)]
    · rw [hdeg, if_neg (by simpa using hs), firstDegree_of_none hp]
    · rw [hdeg, if_neg (by simpa using hs), firstDegree_of_least hl hmin]

end

section
/-! SUPPORT. Own records: what an origination leaves of the state, and the own link record it writes (R83 to R86, R94). -/

namespace Sys2Proof.Machine

/-! ## Entries of tables -/

section
variable {α : Type} {t : List (Nat × α)} {i : Nat} {a : α} {p : Nat × α → Bool}

/-- The first entry that meets a test is the one written, when it meets the test and no other stands before it. -/
theorem find_tput_self (hp : p (i, a) = true) (h : ∀ e, t.find? p = some e → e.1 = i) : (tput t i a).find? p = some (i, a) := by
  induction t with
  | nil => simp [tput, hp]
  | cons b t ih =>
    obtain ⟨j, y⟩ := b
    rw [tput]
    split
    · simp [hp]
    · split
      · simp [hp]
      · rename_i hij
        have hb : p (j, y) = false := by
          by_contra k
          exact hij (h (j, y) (by simp [k])).symm
        rw [List.find?_cons, hb]
        exact ih fun e he => h e (by rw [List.find?_cons, hb]; exact he)

/-- A test that neither the entry written nor one at its index meets finds what it found before. -/
theorem find_tput_other (hp : p (i, a) = false) (h : ∀ e ∈ t, e.1 = i → p e = false) : (tput t i a).find? p = t.find? p := by
  induction t with
  | nil => simp [tput, hp]
  | cons b t ih =>
    obtain ⟨j, y⟩ := b
    rw [tput]
    split
    · simp [hp]
    · split
      · rename_i hij
        simp [hp, h (j, y) (by simp) hij.symm]
      · rw [List.find?_cons, List.find?_cons, ih fun e he => h e (by simp [he])]

theorem entry_unique (h : Table.rising t = true) {e f : Nat × α} (he : e ∈ t) (hf : f ∈ t) (hi : e.1 = f.1) : e = f := by
  have h1 := tget_eq_some_of_mem h (i := e.1) (a := e.2) he
  have h2 := tget_eq_some_of_mem h (i := f.1) (a := f.2) hf
  rw [hi, h2] at h1
  exact Prod.ext hi (Option.some.inj h1).symm

theorem lowestFreeFrom_le (t : List (Nat × α)) (n : Nat) : lowestFreeFrom t n ≤ n + t.length := by
  induction t generalizing n with
  | nil => simp [lowestFreeFrom]
  | cons b t ih =>
    rw [lowestFreeFrom, List.length_cons]
    split
    · have := ih (n + 1); omega
    · split
      · have := ih n; omega
      · omega

/-- A table with fewer entries than indices has a free one. -/
theorem lowestFree_of_room {cap : Nat} (h : t.length < cap) : lowestFree t cap = some (lowestFreeFrom t 0) := by
  have := lowestFreeFrom_le t 0
  simp only [lowestFree]
  rw [if_pos (by omega)]

end

/-! ## What an origination leaves alone -/

/-- The state without what an origination may change: the records, FLE's counter and lists, and the sources SEQUENCE and TABLE_FULL. -/
def State.besideRecords (s : State) : State :=
  { s with
    tdb := ⟨[], [], [], s.tdb.exclusions, s.tdb.ageClock⟩
    fle := ⟨0, Vector.replicate 8 FleDegree.reset, s.fle.slotMaps, s.fle.refreshTimer⟩
    cmc := { s.cmc with changed := false }
    ntu := (s.ntu.setSource .sequence NoticeSource.reset).setSource .tableFull NoticeSource.reset }

theorem setSource_setSource (n : Ntu) (i : NoticeId) (x y : NoticeSource) : (n.setSource i x).setSource i y = n.setSource i y := by
  simp [Ntu.setSource, vset]

theorem setSource_comm (n : Ntu) {i j : NoticeId} (h : i ≠ j) (x y : NoticeSource) :
    (n.setSource i x).setSource j y = (n.setSource j y).setSource i x := by
  have hv := number_ne h
  simp only [Ntu.setSource, vset]
  rw [Vector.set_comm]
  exact fun e => hv (Fin.ext e)

theorem beside_raise_sequence (ms : List Member) (s : State) : (raise .sequence ms s).besideRecords = s.besideRecords := by
  simp only [State.besideRecords, raise, setSource_setSource]

theorem beside_raise_tableFull (ms : List Member) (s : State) : (raise .tableFull ms s).besideRecords = s.besideRecords := by
  simp only [State.besideRecords, raise]
  rw [setSource_comm _ (by decide : NoticeId.tableFull ≠ .sequence), setSource_setSource]

theorem beside_mapFlood (f : Degree → FleDegree → FleDegree) (s : State) : (mapFlood f s).besideRecords = s.besideRecords := rfl

theorem beside_takeSeq (s : State) : (takeSeq s).besideRecords = s.besideRecords := rfl

theorem beside_refuseInsertion (o : NodeId) (m : Member) (s : State) : (refuseInsertion o m s).besideRecords = s.besideRecords := by
  unfold refuseInsertion dropPullsOf
  dsimp only
  rw [beside_mapFlood, beside_raise_tableFull]
  split
  · rfl
  · split <;> rfl

theorem beside_writeLink (w : LinkWrite) (s : State) : (writeLink w s).1.besideRecords = s.besideRecords := by
  unfold writeLink
  dsimp only
  split
  · split <;> rfl
  · split
    · rfl
    · split
      · rfl
      · split
        · exact beside_refuseInsertion _ _ _
        · split
          · exact beside_refuseInsertion _ _ _
          · rfl

theorem beside_writeNode (w : NodeWrite) (s : State) : (writeNode w s).1.besideRecords = s.besideRecords := by
  unfold writeNode
  dsimp only
  split
  · split <;> rfl
  · split
    · rfl
    · split
      · exact beside_refuseInsertion _ _ _
      · split
        · exact beside_refuseInsertion _ _ _
        · rfl

theorem beside_originateLink (d : Degree) (s : State) : (originateLink d s).besideRecords = s.besideRecords := by
  have h : ∀ w, (writeLink w (takeSeq s)).1.besideRecords = s.besideRecords := fun w => by
    rw [beside_writeLink, beside_takeSeq]
  unfold originateLink
  extract_lets k truth w r s'
  split
  · split
    · exact h w
    · exact h w
  · split
    · exact beside_raise_sequence _ _
    · exact (beside_writeLink _ _).trans (beside_raise_sequence _ _)

theorem beside_originateNode (s : State) : (originateNode s).besideRecords = s.besideRecords := by
  have h : ∀ w, (writeNode w (takeSeq s)).1.besideRecords = s.besideRecords := fun w => by
    rw [beside_writeNode, beside_takeSeq]
  unfold originateNode
  dsimp only
  split
  · split
    · exact h _
    · exact h _
  · split
    · exact beside_raise_sequence _ _
    · exact (beside_writeNode _ _).trans (beside_raise_sequence _ _)

/-- What equal states beside the records have in common. -/
theorem source_of_beside {s t : State} (h : t.besideRecords = s.besideRecords) {i : NoticeId} (h1 : i ≠ .sequence)
    (h2 : i ≠ .tableFull) : t.ntu.source i = s.ntu.source i := by
  have hi : ∀ u : State, u.besideRecords.ntu.source i = u.ntu.source i := fun u => by
    rw [State.besideRecords, source_setSource_ne _ _ _ _ (Ne.symm h2), source_setSource_ne _ _ _ _ (Ne.symm h1)]
  rw [← hi t, ← hi s, h]

theorem Traffic.of_beside {is : List NoticeId} {ps : List Port} {s t : State} (h : t.besideRecords = s.besideRecords)
    (h1 : NoticeId.sequence ∈ is) (h2 : NoticeId.tableFull ∈ is) : Traffic is ps s t := by
  have hw : t.fsw = s.fsw := show t.besideRecords.fsw = s.besideRecords.fsw by rw [h]
  refine ⟨fun p _ => ?_, fun i hi _ => ?_⟩
  · have : t.port p = s.port p := by cases p <;> simp [State.port, hw]
    rw [this]; exact PortGrows.refl _
  · rw [source_of_beside h (fun e => hi (by rw [e]; exact h1)) fun e => hi (by rw [e]; exact h2)]

/-! ## The own link record (R85, R86, R94) -/

/-- A link table with a native record under a key, written with a part and an age. -/
def LinkStored (k : LinkKey) (p : Part LinkContent) (age : Nat) (links : List (Nat × LinkRec)) : Prop :=
  ∃ i v, links.find? (fun e => e.2.key == k) = some (i, ⟨k, Versions.write p age none v⟩) ∧ v.domain = 0

/-- An own link record that fits is stored, and no other entry of a table in order changes. -/
theorem writeLink_own {d : Degree} {s : State} (p : Part LinkContent) (age : Nat) (hf : OwnLinkFits d s) : ∃ links,
    writeLink ⟨⟨s.nodeId, d.val⟩, 0, none, p, age⟩ s = (afterWrite s.nodeId { s with tdb := { s.tdb with links := links } }, true) ∧
    LinkStored ⟨s.nodeId, d.val⟩ p age links ∧
    (TablesOk s → ∀ k, k ≠ ⟨s.nodeId, d.val⟩ → links.find? (fun e => e.2.key == k) = s.tdb.findLink k) := by
  unfold writeLink
  unfold OwnLinkFits at hf
  dsimp only
  cases hk : s.tdb.findLink ⟨s.nodeId, d.val⟩ with
  | some e =>
    obtain ⟨i, r⟩ := e
    rw [hk] at hf
    have hrk : r.key = ⟨s.nodeId, d.val⟩ := by simpa [Tdb.findLink] using List.find?_some hk
    have hd : r.ver.domain = 0 := hf
    refine ⟨tput s.tdb.links i { r with ver := r.ver.write p age none }, by simp [hd], ⟨i, r.ver, ?_, hd⟩, fun ht k hne => ?_⟩
    · rw [find_tput_self (by simp [hrk]) fun e he => ?_, hrk]
      rw [show s.tdb.links.find? _ = some (i, r) from hk] at he
      exact (congrArg Prod.fst (Option.some.inj he)).symm
    · refine find_tput_other (by simpa [hrk] using Ne.symm hne) fun e he hi => ?_
      rw [entry_unique ht.2.1.1 he (List.mem_of_find?_eq_some hk) hi]
      simpa [hrk] using Ne.symm hne
  | none =>
    rw [hk] at hf
    obtain ⟨hn, hl⟩ := hf
    have hdom : ((s.tdb.findNode s.nodeId).any fun e => e.2.ver.domain != 0) = false := by
      cases e : s.tdb.findNode s.nodeId with
      | none => rfl
      | some x => simp [hn x e]
    have hroom : s.tdb.linkRoom s.nodeId ⟨s.nodeId, d.val⟩ = true := by
      have : d.val ≤ 7 := by omega
      simp [Tdb.linkRoom, isOwnKey, this, Config.linkTableSize, hl]
    have hnum : ¬ 7 < d.val := by omega
    have hfree := lowestFree_of_room (t := s.tdb.links) (cap := Config.linkTableSize) hl
    refine ⟨tput s.tdb.links (lowestFreeFrom s.tdb.links 0) ⟨⟨s.nodeId, d.val⟩, Versions.insert 0 p age none⟩,
      by simp [hnum, hdom, hroom, hfree], ⟨_, _, find_tput_self (by simp) fun e he => ?_, rfl⟩, fun ht k hne => ?_⟩
    · rw [show s.tdb.links.find? _ = none from hk] at he; cases he
    · refine find_tput_other (by simpa using Ne.symm hne) fun e he hi => ?_
      exact absurd hi ((lowestFreeFrom_spec ht.2.1.1 0).2.1 e he)

/-- The part an own link record is originated with, while the counter is live: the current truth, or a withdrawal (R85). -/
def ownLinkPart (d : Degree) (s : State) : Part LinkContent :=
  ((ownLinkContent s d).map fun c => ⟨s.fle.seq, .active, c⟩).getD
    ⟨s.fle.seq, .withdrawn, withdrawalContent s ⟨s.nodeId, d.val⟩⟩

/-- The age an own link record is originated with. -/
def ownLinkAge (d : Degree) (s : State) : Nat := if (ownLinkPart d s).isActive then 3600 else 0

theorem live_iff {f : Fle} : f.live = true ↔ f.seq ≤ 0xFFFFFFF0 := decide_eq_true_iff

theorem originateLink_live {d : Degree} {s : State} (h : s.fle.live = true) : originateLink d s =
    if (writeLink ⟨⟨s.nodeId, d.val⟩, 0, none, ownLinkPart d s, ownLinkAge d s⟩ (takeSeq s)).2 then
      addKeyUp none (.link ⟨s.nodeId, d.val⟩)
        (writeLink ⟨⟨s.nodeId, d.val⟩, 0, none, ownLinkPart d s, ownLinkAge d s⟩ (takeSeq s)).1
    else (writeLink ⟨⟨s.nodeId, d.val⟩, 0, none, ownLinkPart d s, ownLinkAge d s⟩ (takeSeq s)).1 := by
  unfold originateLink ownLinkAge ownLinkPart
  simp only [h, if_true]
  cases ownLinkContent s d <;> rfl

/-- An origination of an own link record that fits, while the counter is live (R83, R86, R94). -/
theorem originateLink_own {d : Degree} {s : State} (hl : s.fle.seq ≤ 0xFFFFFFF0) (hf : OwnLinkFits d s) : ∃ links,
    originateLink d s = addKeyUp none (.link ⟨s.nodeId, d.val⟩)
      (afterWrite s.nodeId { takeSeq s with tdb := { s.tdb with links := links } }) ∧
    LinkStored ⟨s.nodeId, d.val⟩ (ownLinkPart d s) (ownLinkAge d s) links ∧
    (TablesOk s → ∀ k, k ≠ ⟨s.nodeId, d.val⟩ → links.find? (fun e => e.2.key == k) = s.tdb.findLink k) := by
  obtain ⟨links, hw, hrest⟩ := writeLink_own (s := takeSeq s) (ownLinkPart d s) (ownLinkAge d s) hf
  have hw' : writeLink ⟨⟨s.nodeId, d.val⟩, 0, none, ownLinkPart d s, ownLinkAge d s⟩ (takeSeq s) =
    (afterWrite s.nodeId { takeSeq s with tdb := { s.tdb with links := links } }, true) := hw
  refine ⟨links, ?_, hrest⟩
  rw [originateLink_live (live_iff.2 hl), hw']
  rfl

/-- A link record stored is held with the part, the age and the linger of R62. -/
theorem LinkStored.held {d : Degree} {p : Part LinkContent} {t : State}
    (h : LinkStored ⟨t.nodeId, d.val⟩ p (if p.isActive then 3600 else 0) t.tdb.links) : OwnLinkHeld d p t := by
  obtain ⟨i, v, hf, -⟩ := h
  refine ⟨_, hf, rfl, fun ha => ?_, fun hw => ?_⟩
  · simp [Versions.write, Part.isActive, ha]
  · simp [Versions.write, Part.isActive, hw, Config.lingerSeconds]

/-- A native link record stored can be sent while the counter is live. -/
theorem LinkStored.advert {k : LinkKey} {p : Part LinkContent} {age : Nat} {t : State} (h : LinkStored k p age t.tdb.links)
    (hl : t.fle.seq ≤ 0xFFFFFFF0) : ∃ a, keyAdvert t (.link k) = some a := by
  obtain ⟨i, v, hf, hd⟩ := h
  have hf' : t.tdb.findLink k = some (i, ⟨k, Versions.write p age none v⟩) := hf
  refine ⟨_, by rw [keyAdvert, live_iff.2 hl]; simp [hf', linkAdvert, Versions.working, Versions.write, hd]; rfl⟩

theorem flood_mapFlood (f : Degree → FleDegree → FleDegree) (s : State) (e : Degree) :
    (mapFlood f s).flood e = f e (s.flood e) := by simp [mapFlood, State.flood]

theorem mem_sendList_addKey (k : RecordKey) (x : FleDegree) : k ∈ (x.addKey k).sendList := by
  unfold FleDegree.addKey
  split
  · simpa using ‹x.sendList.contains k = true›
  · simp

theorem mem_sendList_addKeyUp {s : State} {e : Degree} (h : s.isUp e = true) (k : RecordKey) :
    k ∈ ((addKeyUp none k s).flood e).sendList := by
  rw [addKeyUp, flood_mapFlood]
  simp [h, mem_sendList_addKey]

end Sys2Proof.Machine
end

section
/-! SUPPORT. A SLOTMAP taken from NP (R88). -/

namespace Sys2Proof.Machine

theorem degree?_val (d : Degree) : degree? d.val = some d := by simp [degree?]

/-- The state with the slot map of a degree written. -/
def State.withSlotMap (s : State) (d : Degree) (x : SlotMap) : State :=
  { s with fle := { s.fle with slotMaps := vset s.fle.slotMaps d x } }

theorem takeSlotmap_equal {m : SlotmapBody} {d : Degree} {s : State} (h : m.degree = d.val)
    (he : SlotMap.make m.used m.blocked = vget s.fle.slotMaps d) : takeSlotmap m s = s := by
  simp [takeSlotmap, h, degree?_val, he]

theorem takeSlotmap_not_up {m : SlotmapBody} {d : Degree} {s : State} (h : m.degree = d.val)
    (he : SlotMap.make m.used m.blocked ≠ vget s.fle.slotMaps d) (hu : s.isUp d = false) :
    takeSlotmap m s = s.withSlotMap d (SlotMap.make m.used m.blocked) := by
  simp [takeSlotmap, h, degree?_val, he, hu, State.withSlotMap]

theorem takeSlotmap_up {m : SlotmapBody} {d : Degree} {s : State} (h : m.degree = d.val)
    (he : SlotMap.make m.used m.blocked ≠ vget s.fle.slotMaps d) (hu : s.isUp d = true) :
    takeSlotmap m s = originateLink d (s.withSlotMap d (SlotMap.make m.used m.blocked)) := by
  simp [takeSlotmap, h, degree?_val, he, hu, State.withSlotMap]

theorem slotmapFormOk {m : SlotmapBody} {d : Degree} (h : m.degree = d.val) : (Handled.slotmap m).formOk = true := by
  have := d.isLt
  simp only [Handled.formOk, decide_eq_true_eq]
  omega

/-- A SLOTMAP is taken from NP, and discarded from a degree (R11, R88). -/
theorem takeBody_slotmap_np {m : SlotmapBody} {d : Degree} (h : m.degree = d.val) {s : State} (hp : takesInput s .np = true) :
    takeBody .np 0 false (.slotmap m) s = takeSlotmap m s := by
  simp only [takeBody, hp, if_true, passOn, slotmapFormOk h]
  rfl

theorem takeBody_slotmap_deg {m : SlotmapBody} {d e : Degree} (h : m.degree = d.val) {s : State}
    (hp : takesInput s (.deg e) = true) : takeBody (.deg e) 0 false (.slotmap m) s = frameError (.deg e) s := by
  simp only [takeBody, hp, if_true, passOn, slotmapFormOk h]
  rfl

theorem ownLinkContent_of_up {d : Degree} {s : State} {n : Neighbour} (hu : s.isUp d = true) (hn : (s.adjacency d).nbr = some n) :
    ownLinkContent s d = some ⟨n.node, if n.domain = 0 then some n.degree else none, vget s.cfu.params.degreeCost d,
      vget s.cfu.params.degreeImp d, vget s.fle.slotMaps d⟩ := by
  simp [ownLinkContent, hu, hn]

/-- What an origination of an own link record leaves, when its event has ended. -/
theorem originateLink_keeps (d : Degree) (s : State) : (finish (originateLink d s)).fle.slotMaps = s.fle.slotMaps ∧
    (finish (originateLink d s)).adm = s.adm ∧ (finish (originateLink d s)).rqu = s.rqu ∧
    (finish (originateLink d s)).rsv = s.rsv ∧ (finish (originateLink d s)).shu = s.shu ∧
    (finish (originateLink d s)).dtu = s.dtu ∧ (finish (originateLink d s)).cfu = s.cfu ∧
    Traffic [.sequence, .tableFull] [] s (finish (originateLink d s)) := by
  have hb := beside_originateLink d s
  have field {α : Type} (π : State → α) : π (originateLink d s).besideRecords = π s.besideRecords := congrArg π hb
  rw [slotMaps_finish, adm_finish, rqu_finish, rsv_finish, shu_finish, dtu_finish, cfu_finish]
  exact ⟨field fun x => x.fle.slotMaps, field State.adm, field State.rqu, field State.rsv, field State.shu, field State.dtu,
    field State.cfu, (Traffic.of_beside hb (by simp) (by simp)).trans (Traffic.finish _)⟩

/-- The own link record of an UP degree, originated with its slot map written before: what the part leaves when the event has
ended. -/
theorem originateLink_up {d : Degree} {s : State} {c : LinkContent} (hc : ownLinkContent s d = some c) (hl : s.fle.seq ≤ 0xFFFFFFF0)
    (hf : OwnLinkFits d s) : (finish (originateLink d s)).fle.seq = s.fle.seq + 1 ∧
      OwnLinkHeld d ⟨s.fle.seq, .active, c⟩ (finish (originateLink d s)) ∧
      (s.fle.seq < 0xFFFFFFF0 → ∀ e, s.isUp e = true → Floods e (.link ⟨s.nodeId, d.val⟩) (finish (originateLink d s))) := by
  obtain ⟨links, ho, hs, -⟩ := originateLink_own hl hf
  have hp : ownLinkPart d s = ⟨s.fle.seq, .active, c⟩ := by simp [ownLinkPart, hc]
  have hn : (finish (originateLink d s)).nodeId = s.nodeId := by rw [ho]; simp [State.nodeId]; rfl
  have hlinks : (originateLink d s).tdb.links = links := by rw [ho]; rfl
  have hseq : (originateLink d s).fle.seq = s.fle.seq + 1 := by rw [ho]; rfl
  refine ⟨by rw [seq_finish, hseq], ?_, fun hlt e he => ?_⟩
  · refine LinkStored.held ?_
    rw [hn, tdb_finish, hlinks, ← hp]
    exact hs
  · obtain ⟨a, ha⟩ := LinkStored.advert (t := originateLink d s) (by rw [hlinks]; exact hs) (by rw [hseq]; omega)
    refine floods_finish ha (Or.inl ?_)
    rw [ho]
    refine mem_sendList_addKeyUp ?_ _
    exact he

end Sys2Proof.Machine

open Sys2Proof Sys2Proof.Machine

/-- Settles O36, by where the SLOTMAP arrives and what it changes. -/
theorem slotmapIsStoredAndAdvertised : Obligations.SlotmapIsStoredAndAdvertised := by
  intro d m s u hu hr hm new
  have hf : FloodDone u := hu ▸ floodDone_settle s
  have hp : takesInput u .np = true := by simp [takesInput, hr]
  have run : exec (.slotmap .np m) s = .next (finish (takeSlotmap m u)) := by
    rw [← takeBody_slotmap_np hm hp]; exact event_eq hu
  refine ⟨fun e he => ?_, fun hnew => ?_, fun hnew hup => ?_, fun hnew hup => ?_⟩
  · have run : exec (.slotmap (.deg e) m) s = .next (finish (frameError (.deg e) u)) := by
      rw [← takeBody_slotmap_deg hm he]; exact event_eq hu
    exact ⟨_, run, discard_event hf _⟩
  · rw [takeSlotmap_equal hm hnew] at run
    exact ⟨_, run, hf.blocks_finish, Traffic.finish _⟩
  · rw [takeSlotmap_not_up hm hnew hup] at run
    have hf' : FloodDone (u.withSlotMap d new) := fun e => hf e
    exact ⟨_, run, (Traffic.of_eq rfl rfl).trans (Traffic.finish _), hf'.blocks_finish⟩
  · rw [takeSlotmap_up hm hnew hup] at run
    obtain ⟨hm, ha, hq, hv, hs, hdt, hc, ht⟩ := originateLink_keeps d (u.withSlotMap d new)
    refine ⟨_, run, hm, ha, hq, hv, hs, hdt, hc, (Traffic.of_eq rfl rfl).trans ht, fun n hn hl hfits => ?_⟩
    have hc : ownLinkContent (u.withSlotMap d new) d = some ⟨n.node, if n.domain = 0 then some n.degree else none,
        vget u.cfu.params.degreeCost d, vget u.cfu.params.degreeImp d, new⟩ := by
      rw [ownLinkContent_of_up (s := u.withSlotMap d new) hup hn]
      simp [State.withSlotMap]
    exact originateLink_up hc hl hfits

end

section
/-! SUPPORT. DEGREE_DISABLE: an urgent request step by step, a degree that nothing is routed to, and the effects of
leaving UP (R22, R35, R36, R103, R109). -/

namespace Sys2Proof.Machine

/-! ## An urgent request, step by step (R109, R112, R131) -/

/-- What commit controller, lanes and request queue may do, and what a placed answer may do, an urgent request may do. -/
theorem urgentRequest_inv (P : State → Prop) (hc : ∀ t c, P t → P { t with cmc := c }) (hv : ∀ t v, P t → P { t with rsv := v })
    (hq : ∀ t q, P t → P { t with rqu := q }) (hp : ∀ b f t, P t → P (placeOwn b f t)) {s : State} (h : P s) :
    P (urgentRequest s) := by
  have ha : ∀ t, P t → P (abort t) := fun t k => by
    unfold abort
    refine foldl_inv P _ _ _ (fun u r ku => ?_) (hv _ _ k)
    unfold returnRequest
    split
    · exact hq _ _ ku
    · exact hp _ _ _ ku
  unfold urgentRequest
  dsimp only
  split
  · split
    · exact hc _ _ h
    · exact ha _ (hc _ _ (hc s _ h))
  · split
    · exact hc _ _ h
    · exact ha _ (hc _ _ (hc s _ h))
  · split
    · exact hc _ _ h
    · exact ha _ (hc _ _ (hc s _ h))
  · exact hc _ _ h

theorem Keeps.urgentRequest (s : State) : Keeps s (Machine.urgentRequest s) :=
  urgentRequest_inv (Keeps s) (fun _ _ k => k.trans (Keeps.of_eq rfl)) (fun _ _ k => k.trans (Keeps.of_eq rfl))
    (fun _ _ k => k.trans (Keeps.of_eq rfl)) (fun _ _ _ k => k.trans (Keeps.placeOwn _ _ _)) (Keeps.refl s)

theorem normalReq_urgentRequest (s : State) : (urgentRequest s).cmc.normalReq = s.cmc.normalReq := by
  unfold urgentRequest startUrgent upgradeUrgent
  dsimp only
  split
  · split
    · rfl
    · rw [cmc_abort]; rfl
  · split
    · rfl
    · rw [cmc_abort]; rfl
  · split
    · rfl
    · rw [cmc_abort]
  · rfl

/-- What an urgent request leaves: all but commit controller, requests, lanes and traffic. -/
theorem urgentRequest_keeps (s : State) : (urgentRequest s).adm = s.adm ∧ (urgentRequest s).dtu = s.dtu ∧
    (urgentRequest s).tdb = s.tdb ∧ (urgentRequest s).fle = s.fle ∧ (urgentRequest s).shu = s.shu ∧ (urgentRequest s).cfu = s.cfu := by
  have hb := blocks_urgentRequest s
  exact ⟨(adm_of_blocks hb).trans rfl, (dtu_of_blocks hb).trans rfl, (tdb_of_blocks hb).trans rfl, (fle_of_blocks hb).trans rfl,
    (shu_of_blocks hb).trans rfl, (cfu_of_blocks hb).trans rfl⟩

/-- An urgent request is taken alike in states with the same lanes, requests, routes and, beside the mark of a change, commit state. -/
theorem UrgentTaken.congr {s v t : State} (h : UrgentTaken v t) (hr : v.rsv = s.rsv) (hq : v.rqu = s.rqu)
    (hc : { v.cmc with changed := false } = { s.cmc with changed := false }) (hf : v.fsw.fwd = s.fsw.fwd)
    (hg : v.fsw.fwdGen = s.fsw.fwdGen) : UrgentTaken s t := by
  have field {α : Type} (π : Cmc → α) : π { v.cmc with changed := false } = π { s.cmc with changed := false } := congrArg π hc
  have e1 : v.cmc.gen = s.cmc.gen := field Cmc.gen
  have e2 : v.cmc.freeze = s.cmc.freeze := field Cmc.freeze
  have e3 : v.cmc.state = s.cmc.state := field Cmc.state
  have e4 : v.cmc.mode = s.cmc.mode := field Cmc.mode
  have e5 : v.cmc.forced = s.cmc.forced := field Cmc.forced
  simpa only [UrgentTaken, AbortTaken, Returned, hr, hq, hf, hg, e1, e2, e3, e4, e5] using h

/-! ## A degree that nothing is routed to (R13, R16, R22) -/

theorem state_of_lookup {s : State} {n : NodeId} {e : Degree} (h : lookup s n = some e) : (s.adjacency e).state ≠ .disabled := by
  unfold lookup at h
  split at h
  · cases h
  · split at h
    · cases h
    · split at h
      · cases h
      · cases h; simpa using ‹¬((s.adjacency _).state == AdjState.disabled) = true›

/-- No lookup yields a degree, it is not UP, its output port is the one given, and no claim waits for it: nothing will join it. -/
structure ShutPort (d : Degree) (o : OutPort) (s : State) : Prop where
  route : ∀ n, lookup s n ≠ some d
  notUp : s.isUp d = false
  port : s.port (.deg d) = o
  claims : ∀ c ∈ s.claims, c.port ≠ .deg d

/-- A degree in DISABLED whose port no claim waits for. -/
theorem ShutPort.of_disabled {d : Degree} {s : State} (h : (s.adjacency d).state = .disabled)
    (hc : ∀ c ∈ s.claims, c.port ≠ .deg d) : ShutPort d (s.port (.deg d)) s :=
  ⟨fun _ hn => state_of_lookup hn h, by simp [State.isUp, h], rfl, hc⟩

section
variable {d : Degree} {o : OutPort} {s : State}

theorem ShutPort.of_eq (h : ShutPort d o s) {t : State} (ha : t.adm = s.adm) (hf : t.fsw.fwd = s.fsw.fwd)
    (hp : t.port (.deg d) = s.port (.deg d)) (hc : ∀ c ∈ t.claims, c ∈ s.claims ∨ c.port ≠ .deg d) : ShutPort d o t where
  route := fun n => by
    have hl : lookup t n = lookup s n := by
      unfold lookup State.adjacency
      rw [ha, hf]
    rw [hl]; exact h.route n
  notUp := by simpa only [State.isUp, State.adjacency, ha] using h.notUp
  port := hp.trans h.port
  claims := fun c k => (hc c k).elim (h.claims c) id

theorem ShutPort.lookup_ne (h : ShutPort d o s) {n : NodeId} {e : Degree} (he : lookup s n = some e) : e ≠ d := fun k =>
  h.route n (k ▸ he)

theorem ShutPort.placeOwn (h : ShutPort d o s) (b : OwnBlock) (f : Frame) : ShutPort d o (Machine.placeOwn b f s) := by
  unfold Machine.placeOwn
  split
  · rename_i p hp
    refine h.of_eq rfl rfl (by rfl) fun c hc => ?_
    rcases List.mem_append.1 hc with k | k
    · exact Or.inl k
    · right
      simp only [List.mem_singleton] at k
      subst k
      unfold routeOwn at hp
      split at hp
      · cases hp; simp
      · obtain ⟨e, he, rfl⟩ := Option.map_eq_some_iff.1 hp
        simpa using h.lookup_ne he
  · exact h.of_eq rfl rfl (by rfl) fun c hc => Or.inl hc

theorem ShutPort.urgentRequest (h : ShutPort d o s) : ShutPort d o (Machine.urgentRequest s) :=
  urgentRequest_inv (ShutPort d o) (fun _ _ k => k.of_eq rfl rfl (by rfl) fun _ => Or.inl) (fun _ _ k => k.of_eq rfl rfl (by rfl) fun _ => Or.inl)
    (fun _ _ k => k.of_eq rfl rfl (by rfl) fun _ => Or.inl) (fun b f _ k => k.placeOwn b f) h

theorem ShutPort.claimOwn (h : ShutPort d o s) {p : Port} (hp : p ≠ .deg d) (f : Frame) : ShutPort d o (Machine.claimOwn p f s) := by
  refine h.of_eq (by simp) (by simp) ?_ fun c hc => Or.inl (by simpa using hc)
  unfold Machine.claimOwn
  dsimp only
  split
  · exact port_setPort_ne _ _ _ _ hp
  · split
    · exact port_setPort_ne _ _ _ _ hp
    · rfl

theorem port_fleClaim_ne {e : Degree} (h : e ≠ d) (s : State) : (fleClaim e s).port (.deg d) = s.port (.deg d) := by
  have hq : ∀ f x, (enqueueOwn (.deg e) f (s.setFlood e x)).port (.deg d) = s.port (.deg d) := fun f x => by
    rw [enqueueOwn, port_setPort_ne _ _ _ _ (by simpa using h)]
    rfl
  unfold fleClaim
  dsimp only
  split
  · split
    · exact hq _ _
    · split
      · exact hq _ _
      · split
        · exact hq _ _
        · rfl
  · rfl

theorem ShutPort.fleClaim (h : ShutPort d o s) (e : Degree) : ShutPort d o (Machine.fleClaim e s) := by
  by_cases k : e = d
  · subst k
    have : fleDue s e = false := by simp [fleDue, h.notUp]
    rwa [fleClaim_of_not_due e s this]
  · exact h.of_eq (adm_of_steady (steady_fleClaim e s)) (fwd_of_steady (steady_fleClaim e s)) (port_fleClaim_ne k s) fun c hc =>
      Or.inl (by rwa [claims_fleClaim] at hc)

theorem ShutPort.fleClaimsAt (h : ShutPort d o s) (p : Port) : ShutPort d o (Machine.fleClaimsAt p s) := by
  have key : ∀ (e : Degree) (n : Nat) (t : State), ShutPort d o t → ShutPort d o (repeatOn (Machine.fleClaim e) n t) := by
    intro e n
    induction n with
    | zero => exact fun _ k => k
    | succ n ih => exact fun t k => ih _ (k.fleClaim e)
  cases p with
  | deg e => exact key e _ s h
  | np => exact h

theorem ShutPort.claimDirect (h : ShutPort d o s) {p : Port} (hp : p ≠ .deg d) (f : Frame) :
    ShutPort d o (Machine.claimDirect p f s) := (h.fleClaimsAt p).claimOwn hp f

theorem ShutPort.takeClaims (h : ShutPort d o s) (b : OwnBlock) {cs : List OwnClaim} (hc : ∀ c ∈ cs, c.port ≠ .deg d) :
    ShutPort d o (Machine.takeClaims b cs s) := by
  unfold Machine.takeClaims
  have hc' : ∀ c ∈ cs.filter (fun c => c.block == b), c.port ≠ .deg d := fun c k => hc c (List.mem_filter.1 k).1
  generalize cs.filter (fun c => c.block == b) = l at hc'
  induction l generalizing s with
  | nil => exact h
  | cons c l ih => exact ih (h.claimDirect (hc' c (by simp)) _) fun x hx => hc' x (by simp [hx])

theorem ShutPort.noticeRoute_ne (h : ShutPort d o s) : (noticeRoute s).1 ≠ .deg d := by
  unfold noticeRoute
  dsimp only
  split
  · simp
  · split
    · rename_i e he
      simpa using h.lookup_ne he
    · simp

theorem ShutPort.emitDue (h : ShutPort d o s) : ShutPort d o (Machine.emitDue s) := by
  unfold Machine.emitDue
  exact foldl_inv (ShutPort d o) _ _ _ (fun t f k => k.claimDirect h.noticeRoute_ne f)
    (foldl_inv (ShutPort d o) _ _ _ (fun t i k => k.of_eq rfl rfl (by rfl) fun _ => Or.inl) h)

/-- Nothing joins the port when the event ends; it offers what it can. -/
theorem ShutPort.finish (h : ShutPort d o s) : (Machine.finish s).port (.deg d) = o.offerNext := by
  have h0 : ShutPort d o { s with claims := [] } := h.of_eq rfl rfl (by rfl) fun c hc => absurd hc (by simp)
  have he : ShutPort d o (Machine.endClaims s) :=
    ((((((h0.takeClaims .rqu h.claims).takeClaims .shu h.claims).takeClaims .ntu h.claims).emitDue).emitDue).takeClaims .cfu
      h.claims).emitDue
  rw [Machine.finish, port_offerAll, he.port]

end

/-- FLE's lists of a degree that is not UP stay when the event ends. -/
theorem flood_finish_of_not_up {d : Degree} {s : State} (h : s.isUp d = false) : (finish s).flood d = s.flood d := by
  refine (finish_inv (fun t => t.isUp d = false ∧ t.flood d = s.flood d) (fun e t k => ?_) (fun t u hb _ k => ?_) ⟨h, rfl⟩).2
  · have hu : (fleClaim e t).isUp d = t.isUp d := by
      simp only [State.isUp, State.adjacency, adm_of_steady (steady_fleClaim e t)]
    refine ⟨hu.trans k.1, ?_⟩
    by_cases he : e = d
    · subst he
      rw [fleClaim_of_not_due e t (by simp [fleDue, k.1]), k.2]
    · rw [flood_fleClaim_ne e d he, k.2]
  · refine ⟨?_, ?_⟩
    · simpa only [State.isUp, State.adjacency, adm_of_blocks hb] using k.1
    · rw [State.flood, fle_of_blocks hb]; exact k.2

end Sys2Proof.Machine
end

section
/-! SUPPORT. DEGREE_DISABLE at a degree, and the effects of leaving UP (R35, R36, R103). -/

namespace Sys2Proof.Machine

/-- The state with the adjacency of a degree in DISABLED, its enable cleared. -/
def State.shut (s : State) (d : Degree) : State := s.setAdjacency d ⟨.disabled, false, none, none, none, none, none⟩

/-- A degree leaves for DISABLED: an UP one with the effects of leaving UP (R35, R103). -/
def leaveDegree (d : Degree) (s : State) : State :=
  if s.isUp d then raise .adjacency [.degree d] (clearFlood d (originateLink d (s.shut d))) else s.shut d

theorem setEnable_setAdjacency (s : State) (d : Degree) (on : Bool) (a : Adjacency) :
    (setEnable d on s).setAdjacency d a = s.setAdjacency d a := by
  simp [setEnable, State.setAdjacency, vset]

theorem disable_setEnable (s : State) (d : Degree) :
    ((setEnable d false s).adjacency d).disable = ⟨.disabled, false, none, none, none, none, none⟩ := by
  simp [setEnable, State.adjacency, State.setAdjacency, Adjacency.disable]

theorem disableDegree_open {d : Degree} {s : State} (hr : s.cfu.start = .running) (hd : (s.adjacency d).state ≠ .disabled) :
    disableDegree d s = urgentRequest (discardPort d (leaveDegree d s)) := by
  simp only [disableDegree, disable_setEnable, setEnable_setAdjacency, leaveDegree, State.shut]
  rw [if_pos (by simp [hr, hd])]

theorem disableDegree_closed {d : Degree} {s : State} (h : s.cfu.start ≠ .running ∨ (s.adjacency d).state = .disabled) :
    disableDegree d s = setEnable d false s := by
  rw [disableDegree]
  rcases h with h | h <;> simp [h]

theorem adjacency_shut (s : State) (d : Degree) : (s.shut d).adjacency d = ⟨.disabled, false, none, none, none, none, none⟩ := by
  simp [State.shut, State.adjacency, State.setAdjacency]

theorem isUp_shut (s : State) (d : Degree) : (s.shut d).isUp d = false := by rw [State.isUp, adjacency_shut]; rfl

theorem isUp_shut_ne (s : State) {d e : Degree} (h : d ≠ e) : (s.shut d).isUp e = s.isUp e := by
  simp [State.isUp, State.shut, State.adjacency, State.setAdjacency, vget_vset_ne _ _ _ _ h]

/-- What a degree's leaving leaves of the state. -/
structure LeaveKeeps (d : Degree) (s w : State) : Prop where
  adm : w.adm = (s.shut d).adm
  fsw : w.fsw = s.fsw
  claims : w.claims = s.claims
  rsv : w.rsv = s.rsv
  rqu : w.rqu = s.rqu
  cmc : { w.cmc with changed := false } = { s.cmc with changed := false }
  dtu : w.dtu = s.dtu
  shu : w.shu = s.shu
  cfu : w.cfu = s.cfu
  exclusions : w.tdb.exclusions = s.tdb.exclusions
  slotMaps : w.fle.slotMaps = s.fle.slotMaps

theorem leaveKeeps (d : Degree) (s : State) : LeaveKeeps d s (leaveDegree d s) := by
  unfold leaveDegree
  split
  · have field {α : Type} (π : State → α) : π (originateLink d (s.shut d)).besideRecords = π (s.shut d).besideRecords :=
      congrArg π (beside_originateLink d (s.shut d))
    exact ⟨field State.adm, field State.fsw, field State.claims, field State.rsv, field State.rqu, field State.cmc,
      field State.dtu, field State.shu, field State.cfu, field fun x => x.tdb.exclusions, field fun x => x.fle.slotMaps⟩
  · exact ⟨rfl, rfl, rfl, rfl, rfl, rfl, rfl, rfl, rfl, rfl, rfl⟩

/-- The state in which the event of a DEGREE_DISABLE that enters DISABLED ends. -/
def disabledState (m : MgmtFrom) (d : Degree) (s : State) : State :=
  answerMgmt (identity m.port m.src) m.tag ⟨.ok, .none⟩ (urgentRequest (discardPort d (leaveDegree d s)))

theorem port_discardPort (d : Degree) (s : State) : (discardPort d s).port (.deg d) = (s.port (.deg d)).discard := by
  rw [discardPort, port_setPort_same]

theorem mem_claims_discardPort {d : Degree} {s : State} {c : OwnClaim} (h : c ∈ (discardPort d s).claims) : c.port ≠ .deg d := by
  rw [discardPort, claims_setPort] at h
  simpa using (List.mem_filter.1 h).2

theorem blocks_discardPort (d : Degree) (s : State) : (discardPort d s).blocks = s.blocks := by rw [discardPort, blocks_setPort]; rfl

theorem Traffic.discardPort {is : List NoticeId} {ps : List Port} (d : Degree) (s : State) (h : .deg d ∈ ps) :
    Traffic is ps s (Machine.discardPort d s) :=
  Traffic.trans (t := { s with claims := s.claims.filter fun c => c.port != Port.deg d }) (Traffic.of_eq rfl rfl)
    (Traffic.setPort _ _ _ (Or.inl h))

section
variable (m : MgmtFrom) (d : Degree) (s : State)

/-- The event of a DEGREE_DISABLE ends with the fields of the state in which the degree has left. -/
theorem disabledState_keeps : (disabledState m d s).adm = (s.shut d).adm ∧ (disabledState m d s).dtu = s.dtu ∧
    (disabledState m d s).tdb = (leaveDegree d s).tdb ∧ (disabledState m d s).fle = (leaveDegree d s).fle ∧
    (disabledState m d s).shu = s.shu ∧ (disabledState m d s).cfu = s.cfu := by
  obtain ⟨ha, hd, ht, hf, hs, hc⟩ := urgentRequest_keeps (discardPort d (leaveDegree d s))
  have hb := blocks_discardPort d (leaveDegree d s)
  have k := leaveKeeps d s
  refine ⟨?_, ?_, ?_, ?_, ?_, ?_⟩
  · rw [disabledState, adm_answerMgmt, ha, adm_of_blocks hb, k.adm]
  · rw [disabledState, dtu_answerMgmt, hd, dtu_of_blocks hb, k.dtu]
  · rw [disabledState, tdb_answerMgmt, ht, tdb_of_blocks hb]
  · rw [disabledState, fle_answerMgmt, hf, fle_of_blocks hb]
  · rw [disabledState, shu_answerMgmt, hs, shu_of_blocks hb, k.shu]
  · rw [disabledState, cfu_answerMgmt, hc, cfu_of_blocks hb, k.cfu]

theorem urgentTaken_disabledState : UrgentTaken s (finish (disabledState m d s)) := by
  have k := leaveKeeps d s
  have hb := blocks_discardPort d (leaveDegree d s)
  refine (urgentTaken_of_ends (ends_answerMgmt _ _ _ _)).congr ?_ ?_ ?_ ?_ ?_
  · rw [rsv_of_blocks hb, k.rsv]
  · rw [rqu_of_blocks hb, k.rqu]
  · rw [cmc_of_blocks hb, k.cmc]
  · rw [fwd_of_blocks hb, k.fsw]
  · rw [fwdGen_of_blocks hb, k.fsw]

theorem normalReq_disabledState : (finish (disabledState m d s)).cmc.normalReq = s.cmc.normalReq := by
  have hc : (leaveDegree d s).cmc.normalReq = s.cmc.normalReq := by
    have := congrArg Cmc.normalReq (leaveKeeps d s).cmc
    exact this
  rw [cmc_finish, disabledState, cmc_answerMgmt, normalReq_urgentRequest, cmc_of_blocks (blocks_discardPort d _), hc]

/-- The degree's output side is left empty (R22, R36). -/
theorem port_disabledState : (finish (disabledState m d s)).port (.deg d) =
    ⟨[], [], none, none, (s.port (.deg d)).ready, (s.port (.deg d)).lastServed⟩ := by
  have k := leaveKeeps d s
  have hp : (leaveDegree d s).port (.deg d) = s.port (.deg d) := by rw [State.port, State.port, k.fsw]
  have hs : ShutPort d (s.port (.deg d)).discard (discardPort d (leaveDegree d s)) := by
    have hd : ((discardPort d (leaveDegree d s)).adjacency d).state = .disabled := by
      rw [State.adjacency, adm_of_blocks (blocks_discardPort d _), k.adm]
      exact congrArg Adjacency.state (adjacency_shut s d)
    have := ShutPort.of_disabled hd fun c => mem_claims_discardPort
    rwa [port_discardPort, hp] at this
  rw [disabledState, answerMgmt, (hs.urgentRequest.placeOwn _ _).finish]
  simp [OutPort.discard, OutPort.offerNext]

theorem traffic_leave_on {is : List NoticeId} : Traffic is [.deg d] (leaveDegree d s) (finish (disabledState m d s)) :=
  (((Traffic.discardPort d _ (by simp)).trans (Traffic.urgentRequest _)).trans (Traffic.answerMgmt _ _ _ _)).trans (Traffic.finish _)

theorem keeps_leave_on : Keeps (leaveDegree d s) (finish (disabledState m d s)) := by
  have h : Keeps (leaveDegree d s) (discardPort d (leaveDegree d s)) := Keeps.of_eq (by rw [discardPort, ntu_setPort])
  exact ((h.trans (Keeps.urgentRequest _)).trans (Keeps.placeOwn _ _ _)).trans (Keeps.finish _)

end

/-- FLE has nothing to place where it had nothing before, with the same lists, no degree come UP and no queue grown shorter at an UP
degree. -/
theorem FloodDone.of_fewer_up {s t : State} (h : FloodDone s) (hu : ∀ e, t.isUp e = true → s.isUp e = true) (hf : t.fle = s.fle)
    (hq : ∀ e, t.isUp e = true → (s.port (.deg e)).queue.length ≤ (t.port (.deg e)).queue.length) : FloodDone t := by
  intro e
  have hs := h e
  have hfl : t.flood e = s.flood e := by rw [State.flood, hf]; rfl
  by_contra k
  simp only [Bool.not_eq_false, fleDue, hfl, Bool.and_eq_true] at k
  obtain ⟨⟨hup, hroom⟩, hready⟩ := k
  have hr : (s.port (.deg e)).room (.deg e) = true := by
    simp only [OutPort.room, decide_eq_true_eq] at hroom ⊢
    exact lt_of_le_of_lt (hq e hup) hroom
  rw [fleDue, hu e hup, hr, hready] at hs
  cases hs

theorem isUp_setEnable (s : State) (d e : Degree) (on : Bool) : (setEnable d on s).isUp e = s.isUp e := by
  by_cases h : d = e
  · subst h; simp [State.isUp, setEnable, State.adjacency, State.setAdjacency]
  · simp [State.isUp, setEnable, State.adjacency, State.setAdjacency, vget_vset_ne _ _ _ _ h]

/-- A degree that was not UP leaves TDB and FLE alone (R36). -/
theorem disabledState_not_up {d : Degree} {s : State} (m : MgmtFrom) (hf : FloodDone s) (hu : s.isUp d = false) :
    Traffic [] [.deg d] s (finish (disabledState m d s)) ∧ (finish (disabledState m d s)).tdb = s.tdb ∧
      (finish (disabledState m d s)).fle = s.fle := by
  obtain ⟨ha, -, ht, hfl, -, -⟩ := disabledState_keeps m d s
  have hw : leaveDegree d s = s.shut d := by simp [leaveDegree, hu]
  have tr : Traffic [] [.deg d] s (disabledState m d s) := by
    rw [disabledState, hw]
    exact (((Traffic.of_eq (t := s.shut d) rfl rfl).trans (Traffic.discardPort d _ (by simp))).trans
      (Traffic.urgentRequest _)).trans (Traffic.answerMgmt _ _ _ _)
  have hd : FloodDone (disabledState m d s) := by
    have up : ∀ e, (disabledState m d s).isUp e = true → e ≠ d ∧ s.isUp e = true := fun e he => by
      have he' : (s.shut d).isUp e = true := by simpa only [State.isUp, State.adjacency, ha] using he
      have hne : e ≠ d := by rintro rfl; rw [isUp_shut] at he'; cases he'
      exact ⟨hne, by rwa [isUp_shut_ne s (Ne.symm hne)] at he'⟩
    refine hf.of_fewer_up (fun e he => (up e he).2) (by rw [hfl, hw]; rfl) fun e he => ?_
    obtain ⟨⟨_, _, hq, _⟩, _⟩ := tr.1 (.deg e) (by simpa using (up e he).1)
    rw [hq, List.length_append]; omega
  exact ⟨tr.trans (Traffic.finish _), by rw [tdb_finish, ht, hw]; rfl, by rw [hd.fle_finish, hfl, hw]; rfl⟩

theorem seq_writeLink (w : LinkWrite) (s : State) : (writeLink w s).1.fle.seq = s.fle.seq := by
  unfold writeLink
  dsimp only
  split
  · split <;> rfl
  · split
    · rfl
    · split
      · rfl
      · split
        · rfl
        · split <;> rfl

theorem seq_originateLink {d : Degree} {s : State} (h : s.fle.seq ≤ 0xFFFFFFF0) :
    (originateLink d s).fle.seq = s.fle.seq + 1 := by
  have e : ∀ w, (writeLink w (takeSeq s)).1.fle.seq = s.fle.seq + 1 := fun w => seq_writeLink w _
  rw [originateLink_live (live_iff.2 h)]
  split
  · exact e _
  · exact e _

theorem withdrawalContent_held {s : State} {k : LinkKey} {e : Nat × LinkRec} {q : Part LinkContent} (he : s.tdb.findLink k = some e)
    (hq : e.2.ver.working = some q) : withdrawalContent s k = q.content := by simp [withdrawalContent, he, hq]

theorem withdrawalContent_none {s : State} {k : LinkKey} (h : s.tdb.findLink k = none) :
    withdrawalContent s k = ⟨s.nodeId, none, 1, 0, SlotMap.allFree⟩ := by simp [withdrawalContent, h]

/-- The own link record of a degree that left UP: withdrawn, and on its way to every degree still UP (R35, R85, R86, R94). -/
theorem disabledState_record {d : Degree} {s : State} (m : MgmtFrom) (hu : s.isUp d = true) (hl : s.fle.seq ≤ 0xFFFFFFF0)
    (hf : OwnLinkFits d s) : (finish (disabledState m d s)).tdb.nodes = s.tdb.nodes ∧
      (TablesOk s → ∀ k, k ≠ ⟨s.nodeId, d.val⟩ → (finish (disabledState m d s)).tdb.findLink k = s.tdb.findLink k) ∧
      OwnLinkWithdrawn d s.fle.seq s (finish (disabledState m d s)) ∧
      (s.fle.seq < 0xFFFFFFF0 → ∀ e, (finish (disabledState m d s)).isUp e = true →
        Floods e (.link ⟨s.nodeId, d.val⟩) (finish (disabledState m d s))) := by
  obtain ⟨ha, -, ht, hfl, -, hc⟩ := disabledState_keeps m d s
  have hw : leaveDegree d s = raise .adjacency [.degree d] (clearFlood d (originateLink d (s.shut d))) := by simp [leaveDegree, hu]
  obtain ⟨links, ho, hs, hother⟩ := originateLink_own (s := s.shut d) hl hf
  have htdb : (disabledState m d s).tdb = { s.tdb with links := links } := by rw [ht, hw]; exact (congrArg State.tdb ho).trans rfl
  have hn : (disabledState m d s).nodeId = s.nodeId := by rw [State.nodeId, hc]; rfl
  have hp : ownLinkPart d (s.shut d) = ⟨s.fle.seq, .withdrawn, withdrawalContent s ⟨s.nodeId, d.val⟩⟩ := by
    have : ownLinkContent (s.shut d) d = none := by simp [ownLinkContent, isUp_shut]
    rw [ownLinkPart, this]
    rfl
  refine ⟨by rw [tdb_finish, htdb], fun k j hj => ?_, ⟨withdrawalContent s ⟨s.nodeId, d.val⟩, ?_, fun e q he hq =>
    withdrawalContent_held he hq, withdrawalContent_none⟩, fun hlt e he => ?_⟩
  · rw [tdb_finish, htdb]; exact hother k j hj
  · refine LinkStored.held ?_
    rw [show (finish (disabledState m d s)).nodeId = s.nodeId by rw [State.nodeId, cfu_finish]; exact hn, tdb_finish, htdb, ← hp]
    exact hs
  · have hseq : (disabledState m d s).fle.seq = s.fle.seq + 1 := by
      rw [hfl, hw]; exact seq_originateLink (s := s.shut d) hl
    have hup : (s.shut d).isUp e = true := by
      rw [State.isUp, State.adjacency, adm_finish, ha] at he; exact he
    have hne : d ≠ e := by rintro rfl; rw [isUp_shut] at hup; cases hup
    obtain ⟨a, hadv⟩ := LinkStored.advert (t := disabledState m d s) (by rw [htdb]; exact hs) (by rw [hseq]; omega)
    refine floods_finish hadv (Or.inl ?_)
    have hfe : (disabledState m d s).flood e = (originateLink d (s.shut d)).flood e := by
      rw [State.flood, hfl, hw]
      exact vget_vset_ne _ _ _ _ hne
    rw [hfe, ho]
    refine mem_sendList_addKeyUp ?_ _
    exact hup

/-- A degree that was UP leaves UP (R35, R103). -/
theorem disabledState_up {d : Degree} {s : State} (m : MgmtFrom) (hu : s.isUp d = true) : LeftUp d s (finish (disabledState m d s)) := by
  obtain ⟨ha, hdtu, ht, hfl, hshu, hcfu⟩ := disabledState_keeps m d s
  have k := leaveKeeps d s
  have hw : leaveDegree d s = raise .adjacency [.degree d] (clearFlood d (originateLink d (s.shut d))) := by simp [leaveDegree, hu]
  have hnot : (disabledState m d s).isUp d = false := by
    simpa only [State.isUp, State.adjacency, ha] using isUp_shut s d
  have tr : Traffic [.adjacency, .sequence, .tableFull] [.deg d] s (leaveDegree d s) := by
    rw [hw]
    refine Traffic.trans ?_ (Traffic.raise (Or.inl (by simp)) _ _)
    exact ((Traffic.of_eq (t := s.shut d) rfl rfl).trans
      (Traffic.of_beside (beside_originateLink _ _) (by simp) (by simp))).trans (Traffic.of_eq rfl rfl)
  refine ⟨?_, ?_, urgentTaken_disabledState m d s, tr.trans (traffic_leave_on m d s), ?_, ?_, ?_, ?_, ?_,
    normalReq_disabledState m d s, fun hl => ?_⟩
  · rw [flood_finish_of_not_up hnot, State.flood, hfl, hw]
    simp [clearFlood, State.setFlood, FleDegree.reset]
  · have hr : Raised .adjacency (.degree d) (leaveDegree d s) := by rw [hw]; exact raised_raise (by simp) _
    exact hr.keeps (keeps_leave_on m d s)
  · rw [dtu_finish, hdtu]
  · rw [shu_finish, hshu]
  · rw [cfu_finish, hcfu]
  · rw [tdb_finish, ht, k.exclusions]
  · rw [slotMaps_finish, hfl, k.slotMaps]
  · refine ⟨?_, disabledState_record m hu hl⟩
    rw [seq_finish, hfl, hw]
    exact seq_originateLink (s := s.shut d) hl

end Sys2Proof.Machine

open Sys2Proof Sys2Proof.Machine

/-- Settles O31, by whether the degree enters DISABLED and whether it was UP. -/
theorem degreeDisableEntersDisabled : Obligations.DegreeDisableEntersDisabled := by
  intro m d s u hu hm
  have hf : FloodDone u := hu ▸ floodDone_settle s
  have run : exec (.degreeDisable m d.val) s =
      .next (finish (answerMgmt (identity m.port m.src) m.tag ⟨.ok, .none⟩ (disableDegree d u))) := by
    have e : manageFrom m (doDegreeDisable d.val) u =
        answerMgmt (identity m.port m.src) m.tag ⟨.ok, .none⟩ (disableDegree d u) := by
      rw [manageFrom_commanded m _ u hm, doDegreeDisable, degree?_val]
    rw [← e]; exact event_eq hu
  refine ⟨fun hr hd => ?_, fun h => ?_⟩
  · rw [disableDegree_open hr hd] at run
    refine ⟨_, run, answered_answerMgmt m _ _ (identity_ne m _ hm.2.1), urgentTaken_disabledState m d u, ?_,
      port_disabledState m d u, fun hup => disabledState_up m (by simp [State.isUp, hup]), fun hup =>
      disabledState_not_up m hf (by simpa [State.isUp] using hup)⟩
    exact (adm_finish _).trans (disabledState_keeps m d u).1
  · rw [disableDegree_closed h] at run
    have hf' : FloodDone (setEnable d false u) :=
      hf.of_fewer_up (fun e he => by rwa [isUp_setEnable] at he) rfl fun e _ => le_refl _
    obtain ⟨hb, ha, ht⟩ := answer_event hf' m ⟨.ok, .none⟩ hm.2.1
    exact ⟨_, run, ha, (Traffic.of_eq rfl rfl).trans ht, hb⟩

end

section
/-! SUPPORT. SOFT_RESET: the sources at their soft-reset values, the degrees that enter DOWN, the first record of empty
tables, and what an entry to RUNNING or ISOLATED leaves (R23, R40, R86, R205, R214). -/

namespace Sys2Proof.Machine

/-! ## Every source rewritten in place -/

theorem source_foldl_setSource (f : NoticeId → NoticeSource → NoticeSource) (i : NoticeId) {l : List NoticeId} (hl : l.Nodup)
    (n : Ntu) : (l.foldl (fun n i => n.setSource i (f i (n.source i))) n).source i =
      if i ∈ l then f i (n.source i) else n.source i := by
  induction l generalizing n with
  | nil => simp
  | cons j l ih =>
    obtain ⟨hj, hl⟩ := List.nodup_cons.1 hl
    rw [List.foldl_cons, ih hl]
    by_cases h : j = i
    · subst h; simp [hj]
    · simp [source_setSource_ne _ _ _ _ h, Ne.symm h]

theorem source_mapSources (f : NoticeId → NoticeSource → NoticeSource) (n : Ntu) (i : NoticeId) :
    (n.mapSources f).source i = f i (n.source i) := by
  rw [Ntu.mapSources, source_foldl_setSource f i (by decide), if_pos (mem_noticeIds i)]

theorem vget_map {α β : Type} {n : Nat} (f : α → β) (v : Vector α n) (i : Fin n) : vget (v.map f) i = f (vget v i) := by
  simp [vget]

/-! ## Degrees that enter DOWN (R30, R40) -/

/-- The state without adjacencies and without the output ports of the degrees. -/
def State.withoutDegrees (s : State) : State :=
  { s with adm := Vector.replicate 8 Adjacency.reset, fsw := { s.fsw with degrees := Vector.replicate 8 (OutPort.empty false) } }

theorem withoutDegrees_enterDown (d : Degree) (s : State) : (enterDown d s).withoutDegrees = s.withoutDegrees := rfl

/-- The degrees of a list enter DOWN. -/
def enterDowns (l : List Degree) (s : State) : State := l.foldl (fun t d => enterDown d t) s

theorem withoutDegrees_enterDowns (l : List Degree) (s : State) : (enterDowns l s).withoutDegrees = s.withoutDegrees :=
  foldl_keeps State.withoutDegrees _ _ _ fun t d => withoutDegrees_enterDown d t

theorem adjacency_enterDown (d e : Degree) (s : State) : ((enterDown d s).adjacency e).enable = (s.adjacency e).enable ∧
    ((enterDown d s).adjacency e).nbr = (if d = e then none else (s.adjacency e).nbr) ∧
    ((enterDown d s).adjacency e).state = if d = e then .down else (s.adjacency e).state := by
  by_cases h : d = e
  · subst h; simp [enterDown, placeGreet, State.adjacency, State.setAdjacency, State.setPort]
  · simp [enterDown, placeGreet, State.adjacency, State.setAdjacency, State.setPort, vget_vset_ne _ _ _ _ h, h]

theorem enable_enterDowns (l : List Degree) (s : State) (e : Degree) :
    ((enterDowns l s).adjacency e).enable = (s.adjacency e).enable :=
  foldl_keeps (fun t : State => (t.adjacency e).enable) _ _ _ fun t d => (adjacency_enterDown d e t).1

theorem nbr_enterDowns {e : Degree} (l : List Degree) {s : State} (h : (s.adjacency e).nbr = none) :
    ((enterDowns l s).adjacency e).nbr = none := by
  refine foldl_inv (fun t => (t.adjacency e).nbr = none) _ _ _ (fun t d k => ?_) h
  rw [(adjacency_enterDown d e t).2.1, k, ite_self]

theorem state_enterDowns (l : List Degree) (s : State) (e : Degree) :
    ((enterDowns l s).adjacency e).state = if e ∈ l then .down else (s.adjacency e).state := by
  induction l generalizing s with
  | nil => simp [enterDowns]
  | cons d l ih =>
    have h : ((enterDowns l (enterDown d s)).adjacency e).state = _ := ih (enterDown d s)
    rw [(adjacency_enterDown d e s).2.2] at h
    refine Eq.trans h ?_
    by_cases hl : e ∈ l
    · simp [hl]
    · by_cases hd : d = e
      · simp [hd]
      · simp [hl, hd, Ne.symm hd]

/-- Nothing waits at the output port of a degree, which served NP last. -/
def OutPort.Fresh (o : OutPort) : Prop := o.queue = [] ∧ o.backlog = [] ∧ o.lastServed = .np

theorem OutPort.Fresh.offerNext {o : OutPort} (h : o.Fresh) : o.offerNext.Fresh := by
  obtain ⟨hq, hb, hl⟩ := h
  unfold OutPort.offerNext
  split
  · split
    · exact ⟨hq, hb, hl⟩
    · exact ⟨hq, hb, hl⟩
    · exact ⟨hq, hb, hl⟩
  · exact ⟨hq, hb, hl⟩

theorem port_setAdjacency (s : State) (d : Degree) (a : Adjacency) (p : Port) : (s.setAdjacency d a).port p = s.port p := by
  cases p <;> rfl

theorem fresh_enterDowns {e : Degree} (l : List Degree) {s : State} (h : (s.port (.deg e)).Fresh) :
    ((enterDowns l s).port (.deg e)).Fresh := by
  refine foldl_inv (fun t => (t.port (.deg e)).Fresh) _ _ _ (fun t d k => ?_) h
  rw [enterDown, placeGreet, port_setAdjacency, port_setPort, port_setAdjacency, port_setAdjacency]
  split
  · rename_i hde; rw [hde]; exact k
  · exact k

/-! ## The own node record in empty tables (R61, R84 to R86) -/

/-- Empty tables with the own node record inserted. -/
def State.firstNode (s : State) (p : Part NodeContent) : State :=
  afterWrite s.nodeId { s with tdb := { s.tdb with
    nodes := [(0, ⟨s.nodeId, Versions.insert 0 p Config.fullAge none, false⟩)], incomplete := [] } }

/-- Nothing in the tables of TDB. -/
structure NoRecords (s : State) : Prop where
  nodes : s.tdb.nodes = []
  links : s.tdb.links = []
  incomplete : s.tdb.incomplete = []

theorem writeNode_first {s : State} (h : NoRecords s) (p : Part NodeContent) :
    writeNode ⟨s.nodeId, 0, none, p, Config.fullAge⟩ s = (s.firstNode p, true) := by
  obtain ⟨hn, hl, hi⟩ := h
  have hf : s.tdb.findNode s.nodeId = none := by simp [Tdb.findNode, hn]
  have hr : s.tdb.nodeRoom s.nodeId s.nodeId = true := by simp [Tdb.nodeRoom, hn, Config.nodeTableSize]
  have hw : lowestFree ([] : List (Nat × NodeRec)) Config.nodeTableSize = some 0 := rfl
  simp [writeNode, State.firstNode, hf, hl, hr, hw, hn, hi, tput]

theorem originateNode_first_live {s : State} (h : NoRecords s) (hl : s.fle.seq ≤ 0xFFFFFFF0) :
    originateNode s = addKeyUp none (.node s.nodeId) ((takeSeq s).firstNode ⟨s.fle.seq, .active, ownNodeContent s⟩) := by
  have hw := writeNode_first (s := takeSeq s) ⟨h.1, h.2, h.3⟩ ⟨s.fle.seq, .active, ownNodeContent s⟩
  rw [originateNode]
  simp only [live_iff.2 hl, if_true]
  rw [show s.nodeId = (takeSeq s).nodeId from rfl, hw]
  rfl

theorem originateNode_first_exhausted {s : State} (h : NoRecords s) (hl : ¬ s.fle.seq ≤ 0xFFFFFFF0) :
    originateNode s = (raise .sequence [.exhausted] s).firstNode ⟨Config.lastSequence, .active, ownNodeContent s⟩ := by
  have hw := writeNode_first (s := raise .sequence [.exhausted] s) ⟨h.1, h.2, h.3⟩
    ⟨Config.lastSequence, .active, ownNodeContent s⟩
  have hf : s.tdb.findNode s.nodeId = none := by simp [Tdb.findNode, h.1]
  rw [originateNode]
  simp only [mt live_iff.1 hl, hf, exhaustedPart]
  rw [show s.nodeId = (raise .sequence [.exhausted] s).nodeId from rfl]
  simpa using congrArg Prod.fst hw

/-- What the first origination of the own node record leaves, in empty tables and with nothing to send. -/
structure FirstNode (z s : State) : Prop where
  beside : s.besideRecords = z.besideRecords
  nodes : ∃ p, s.tdb.nodes = [(0, ⟨z.nodeId, Versions.insert 0 p Config.fullAge none, false⟩)] ∧
    (z.fle.seq ≤ 0xFFFFFFF0 → p = ⟨z.fle.seq, .active, ownNodeContent z⟩)
  links : s.tdb.links = []
  incomplete : s.tdb.incomplete = []
  seq : z.fle.seq ≤ 0xFFFFFFF0 → s.fle.seq = z.fle.seq + 1
  flood : ∀ d, s.flood d = FleDegree.reset
  source : ∀ i, (s.ntu.source i).enable = (z.ntu.source i).enable ∧ (i ≠ .sequence → s.ntu.source i = z.ntu.source i)

theorem flood_firstNode {s : State} {d : Degree} (p : Part NodeContent) (h : s.flood d = FleDegree.reset) :
    (s.firstNode p).flood d = FleDegree.reset := by
  rw [State.firstNode, afterWrite, checkPulls, flood_mapFlood]
  show FleDegree.dropPulls _ _ (s.flood d) = _
  rw [h]
  rfl

theorem originateNode_first {z : State} (h : NoRecords z) (hu : ∀ d, z.isUp d = false) (hf : ∀ d, z.flood d = FleDegree.reset) :
    FirstNode z (originateNode z) := by
  by_cases hl : z.fle.seq ≤ 0xFFFFFFF0
  · have e := originateNode_first_live h hl
    refine ⟨beside_originateNode z, ⟨⟨z.fle.seq, .active, ownNodeContent z⟩, by rw [e]; rfl, fun _ => rfl⟩, by rw [e]; exact h.links,
      by rw [e]; rfl, fun _ => by rw [e]; rfl, fun d => ?_, fun i => by rw [e]; exact ⟨rfl, fun _ => rfl⟩⟩
    have hd : ((takeSeq z).firstNode ⟨z.fle.seq, .active, ownNodeContent z⟩).isUp d = false := hu d
    rw [e, addKeyUp, flood_mapFlood, hd]
    exact flood_firstNode _ (hf d)
  · have e := originateNode_first_exhausted h hl
    refine ⟨beside_originateNode z, ⟨⟨Config.lastSequence, .active, ownNodeContent z⟩, by rw [e]; rfl, fun k => absurd k hl⟩,
      by rw [e]; exact h.links, by rw [e]; rfl, fun k => absurd k hl, fun d => ?_, fun i => ⟨?_, fun hi => ?_⟩⟩
    · rw [e]; exact flood_firstNode _ (hf d)
    · rw [e]
      show ((z.ntu.setSource .sequence _).source i).enable = _
      rw [source_setSource]
      split
      · rename_i hi; subst hi; unfold NoticeSource.raise; split <;> rfl
      · rfl
    · rw [e]
      exact source_setSource_ne _ _ _ _ (Ne.symm hi)

/-! ## The soft reset -/

/-- The start state a soft reset enters (R205, R214). -/
def State.startAfterReset (s : State) : StartState := if s.nodeId = 0 then .isolated else .running

/-- What a soft reset leaves of a state, before its answer (R214). -/
structure SoftReset (u w : State) : Prop where
  cfu : w.cfu = { u.cfu with start := u.startAfterReset }
  degree : ∀ d, (w.adjacency d).enable = (u.adjacency d).enable ∧ (w.adjacency d).nbr = none ∧
    (w.adjacency d).state = if u.nodeId ≠ 0 ∧ (u.adjacency d).enable = true then .down else .disabled
  dtu : w.dtu = u.dtu.map fun e => ⟨e.fields, .clean, false, .none⟩
  links : w.tdb.links = []
  incomplete : w.tdb.incomplete = []
  exclusions : w.tdb.exclusions = u.tdb.exclusions.filter fun e => e.origin = .loaded
  isolated : u.nodeId = 0 → w.tdb.nodes = [] ∧ w.fle.seq = u.fle.seq ∧ w.fle.refreshTimer = none ∧ w.cmc.autoTimer = none
  running : u.nodeId ≠ 0 → (∀ e ∈ w.tdb.nodes, e.2.id = u.nodeId) ∧
    (u.fle.seq ≤ 0xFFFFFFF0 → w.fle.seq = u.fle.seq + 1 ∧ OwnNodeHeld u.fle.seq w) ∧
    w.fle.refreshTimer = some (u.now + u.cfu.params.refreshInterval * 1000) ∧
    w.cmc.autoTimer = if u.cfu.params.autoCommit = 0 then none else some (u.now + u.cfu.params.autoCommit * 1000)
  flood : ∀ d, w.flood d = FleDegree.reset
  slotMaps : w.fle.slotMaps = Fle.reset.slotMaps
  cmc : { w.cmc with changed := false, autoTimer := none } = Cmc.reset
  rqu : w.rqu = { Rqu.reset with delegation := u.rqu.delegation, admitted := u.rqu.admitted }
  rsv : w.rsv = Rsv.reset
  shu : w.shu = Shu.reset
  fwd : w.fsw.fwd = []
  claims : w.claims = []
  port : ∀ d, (w.port (.deg d)).Fresh
  np : (w.port .np).lastServed = .np
  watches : w.ntu.watches = u.ntu.watches
  source : ∀ i, (w.ntu.source i).enable = (u.ntu.source i).enable ∧
    (i ≠ .sequence → w.ntu.source i = (u.ntu.source i).clear)

theorem ntu_softResetValues (s : State) : (softResetValues s).ntu = s.ntu.mapSources fun _ n => n.clear := rfl

theorem source_softResetValues (s : State) (i : NoticeId) : (softResetValues s).ntu.source i = (s.ntu.source i).clear := by
  rw [ntu_softResetValues, source_mapSources]

theorem adjacency_softResetValues (s : State) (d : Degree) : (softResetValues s).adjacency d = (s.adjacency d).disable :=
  vget_vec8 _ _

theorem fresh_softResetValues (s : State) (d : Degree) : ((softResetValues s).port (.deg d)).Fresh := by
  simp [softResetValues, State.port, Fsw.clear, OutPort.Fresh, OutPort.empty]

theorem exclusions_softResetValues (s : State) : (softResetValues s).tdb.exclusions =
    s.tdb.exclusions.filter fun e => e.origin = .loaded :=
  List.filter_congr fun e _ => by simp [beq_eq_decide]

theorem flood_softResetValues (s : State) (d : Degree) : (softResetValues s).flood d = FleDegree.reset := vget_replicate _ _

theorem softReset_isolated {u : State} (h : u.nodeId = 0) : SoftReset u (softReset u) := by
  have e : softReset u = enterIsolated (softResetValues u) := by
    have : (softResetValues u).nodeId = 0 := h
    simp [softReset, enterStart, this]
  rw [e]
  exact
  { cfu := by rw [State.startAfterReset, if_pos h]; rfl
    degree := fun d => by
      have : (enterIsolated (softResetValues u)).adjacency d = ((u.adjacency d).disable).disable := by
        rw [← adjacency_softResetValues]; exact vget_vec8 _ _
      rw [this]
      exact ⟨rfl, rfl, by simp [h, Adjacency.disable]⟩
    dtu := rfl
    links := rfl
    incomplete := rfl
    exclusions := exclusions_softResetValues u
    isolated := fun _ => ⟨rfl, rfl, rfl, rfl⟩
    running := fun k => absurd h k
    flood := flood_softResetValues u
    slotMaps := rfl
    cmc := rfl
    rqu := rfl
    rsv := rfl
    shu := rfl
    fwd := rfl
    claims := rfl
    port := fun d => by
      obtain ⟨-, -, hs⟩ := fresh_softResetValues u d
      have : (enterIsolated (softResetValues u)).port (.deg d) = ((softResetValues u).port (.deg d)).discard := vget_vec8 _ _
      rw [this]
      exact ⟨rfl, rfl, hs⟩
    np := rfl
    watches := rfl
    source := fun i => by
      have : (enterIsolated (softResetValues u)).ntu.source i = (u.ntu.source i).clear := source_softResetValues u i
      rw [this]
      exact ⟨rfl, fun _ => rfl⟩ }

/-- The enabled degrees in DOWN, in RUNNING (R40, R205). -/
def State.inDown (s : State) : State :=
  enterDowns (allDegrees.filter fun d => (s.adjacency d).enable) { s with cfu := { s.cfu with start := .running } }

/-- The refresh timer and the auto-commit timer started (R87, R107). -/
def State.timed (s : State) : State :=
  startAuto { s with fle := { s.fle with refreshTimer := some (s.now + s.cfu.params.refreshInterval * 1000) } }

theorem enterRunning_eq (s : State) : enterRunning s = (originateNode s.inDown).timed := rfl

theorem withoutDegrees_inDown (s : State) : s.inDown.withoutDegrees =
    { s with cfu := { s.cfu with start := .running } }.withoutDegrees := withoutDegrees_enterDowns _ _

/-- The degrees of a part with its soft-reset values, the enabled ones in DOWN. -/
theorem adjacency_inDown (u : State) (d : Degree) :
    ((softResetValues u).inDown.adjacency d).enable = (u.adjacency d).enable ∧
    ((softResetValues u).inDown.adjacency d).nbr = none ∧
    ((softResetValues u).inDown.adjacency d).state = if (u.adjacency d).enable = true then .down else .disabled := by
  have hv : ∀ e, ((softResetValues u).adjacency e).enable = (u.adjacency e).enable := fun e => by
    rw [adjacency_softResetValues]; rfl
  have ha := adjacency_softResetValues u d
  refine ⟨?_, ?_, ?_⟩
  · exact (enable_enterDowns _ _ d).trans (hv d)
  · exact nbr_enterDowns _ (congrArg Adjacency.nbr ha)
  · refine (state_enterDowns _ _ d).trans ?_
    have hs : ((softResetValues u).adjacency d).state = .disabled := congrArg Adjacency.state ha
    have hm : (d ∈ allDegrees.filter fun e => ((softResetValues u).adjacency e).enable) ↔ (u.adjacency d).enable = true := by
      simp [mem_allDegrees, hv]
    simp only [hm]
    congr 1

theorem firstNode_softReset (u : State) : FirstNode (softResetValues u).inDown (originateNode (softResetValues u).inDown) := by
  have field {α : Type} (π : State → α) : π (softResetValues u).inDown.withoutDegrees =
    π { softResetValues u with cfu := { u.cfu with start := .running } }.withoutDegrees := congrArg π (withoutDegrees_inDown _)
  refine originateNode_first ⟨field fun x => x.tdb.nodes, field fun x => x.tdb.links, field fun x => x.tdb.incomplete⟩
    (fun d => ?_) fun d => ?_
  · rw [State.isUp, (adjacency_inDown u d).2.2]
    split <;> rfl
  · exact (field fun x => x.flood d).trans (flood_softResetValues u d)

/-- The own record and the timers of a part that has entered RUNNING with empty tables. -/
theorem FirstNode.timed {u z s : State} (f : FirstNode z s) (hcfu : z.cfu = { u.cfu with start := .running })
    (hseq : z.fle.seq = u.fle.seq) (hnow : z.now = u.now) : (∀ e ∈ s.timed.tdb.nodes, e.2.id = u.nodeId) ∧
      (u.fle.seq ≤ 0xFFFFFFF0 → s.timed.fle.seq = u.fle.seq + 1 ∧ OwnNodeHeld u.fle.seq s.timed) ∧
      s.timed.fle.refreshTimer = some (u.now + u.cfu.params.refreshInterval * 1000) ∧
      s.timed.cmc.autoTimer =
        if u.cfu.params.autoCommit = 0 then none else some (u.now + u.cfu.params.autoCommit * 1000) := by
  have field {α : Type} (π : State → α) : π s.besideRecords = π z.besideRecords := congrArg π f.beside
  have hc : s.cfu = { u.cfu with start := .running } := (field State.cfu).trans hcfu
  have hn : s.now = u.now := (field State.now).trans hnow
  have hid : z.nodeId = u.nodeId := by rw [State.nodeId, hcfu]; rfl
  have hid' : s.nodeId = u.nodeId := by rw [State.nodeId, hc]; rfl
  obtain ⟨p, hnodes, hpart⟩ := f.nodes
  rw [hid] at hnodes
  refine ⟨fun e he => ?_, fun hl => ⟨?_, ?_⟩, ?_, ?_⟩
  · have he' : e ∈ s.tdb.nodes := he
    rw [hnodes, List.mem_singleton] at he'
    rw [he']
  · exact (f.seq (by rw [hseq]; exact hl)).trans (by rw [hseq])
  · have hp : p = ⟨u.fle.seq, .active, ownNodeContent s⟩ := by
      rw [hpart (by rw [hseq]; exact hl), hseq, ownNodeContent, ownNodeContent, hc, hcfu]
    refine ⟨(0, ⟨u.nodeId, Versions.insert 0 p Config.fullAge none, false⟩), ?_, rfl, ?_, ?_⟩
    · show s.tdb.nodes.find? (fun e => e.2.id == s.nodeId) = _
      rw [hnodes, hid']
      simp
    · rw [hp]; rfl
    · rw [hp]; rfl
  · show some (s.now + s.cfu.params.refreshInterval * 1000) = _
    rw [hn, hc]
  · show (if s.cfu.params.autoCommit == 0 then none else some (s.now + s.cfu.params.autoCommit * 1000)) = _
    rw [hn, hc]
    simp

theorem softReset_running {u : State} (h : u.nodeId ≠ 0) : SoftReset u (softReset u) := by
  have e : softReset u = (originateNode (softResetValues u).inDown).timed := by
    have : (softResetValues u).nodeId ≠ 0 := h
    rw [softReset, enterStart, ← enterRunning_eq]
    simp [this]
  have down {α : Type} (π : State → α) : π (softResetValues u).inDown.withoutDegrees =
    π { softResetValues u with cfu := { u.cfu with start := .running } }.withoutDegrees := congrArg π (withoutDegrees_inDown _)
  have f := firstNode_softReset u
  have hcfu : (softResetValues u).inDown.cfu = { u.cfu with start := .running } := down State.cfu
  have hseq : (softResetValues u).inDown.fle.seq = u.fle.seq := down fun x => x.fle.seq
  generalize hz : (softResetValues u).inDown = z at *
  generalize hs : originateNode z = s at *
  have field {α : Type} (π : State → α) : π s.besideRecords = π z.besideRecords := congrArg π f.beside
  have hadm : s.adm = z.adm := field State.adm
  rw [e]
  exact
  { cfu := by rw [State.startAfterReset, if_neg h]; exact (field State.cfu).trans hcfu
    degree := fun d => by
      have : s.timed.adjacency d = z.adjacency d := by rw [State.adjacency, State.adjacency, ← hadm]; rfl
      rw [this, ← hz]
      simpa [h] using adjacency_inDown u d
    dtu := (field State.dtu).trans (down State.dtu)
    links := f.links
    incomplete := f.incomplete
    exclusions := ((field fun x => x.tdb.exclusions).trans (down fun x => x.tdb.exclusions)).trans (exclusions_softResetValues u)
    isolated := fun k => absurd k h
    running := fun _ => f.timed hcfu hseq (down State.now)
    flood := f.flood
    slotMaps := (field fun x => x.fle.slotMaps).trans (down fun x => x.fle.slotMaps)
    cmc := (congrArg (fun c : Cmc => { c with autoTimer := none }) (field State.cmc)).trans
      (congrArg (fun c : Cmc => { c with changed := false, autoTimer := none }) (down State.cmc))
    rqu := (field State.rqu).trans (down State.rqu)
    rsv := (field State.rsv).trans (down State.rsv)
    shu := (field State.shu).trans (down State.shu)
    fwd := (field fun x => x.fsw.fwd).trans (down fun x => x.fsw.fwd)
    claims := (field State.claims).trans (down State.claims)
    port := fun d => by
      have hp : s.port (.deg d) = z.port (.deg d) := field fun x => x.port (.deg d)
      show (s.port (.deg d)).Fresh
      rw [hp, ← hz]
      exact fresh_enterDowns _ (fresh_softResetValues u d)
    np := (field fun x => x.fsw.np.lastServed).trans (down fun x => x.fsw.np.lastServed)
    watches := (field fun x => x.ntu.watches).trans (down fun x => x.ntu.watches)
    source := fun i => by
      obtain ⟨he, hne⟩ := f.source i
      have hu : z.ntu.source i = (u.ntu.source i).clear := (down fun x => x.ntu.source i).trans (source_softResetValues u i)
      rw [hu] at he hne
      exact ⟨he, hne⟩ }

theorem softReset_softReset (u : State) : SoftReset u (softReset u) := by
  by_cases h : u.nodeId = 0
  · exact softReset_isolated h
  · exact softReset_running h

/-- After a soft reset no degree is UP, so FLE has nothing to place. -/
theorem SoftReset.isUp {u w : State} (h : SoftReset u w) (d : Degree) : w.isUp d = false := by
  rw [State.isUp, (h.degree d).2.2]
  split <;> rfl

theorem SoftReset.floodDone {u w : State} (h : SoftReset u w) : FloodDone w := fun d => by simp [fleDue, h.isUp d]

/-- After a soft reset nothing is routed to a degree. -/
theorem SoftReset.shutPort {u w : State} (h : SoftReset u w) (d : Degree) : ShutPort d (w.port (.deg d)) w where
  route := fun n => by simp [lookup, h.fwd]
  notUp := h.isUp d
  port := rfl
  claims := fun c hc => absurd hc (by simp [h.claims])

/-- The state in which the event of a SOFT_RESET ends. -/
def resetState (m : MgmtFrom) (s : State) : State :=
  finish (answerMgmt (identity m.port m.src) m.tag (doSoftReset s).2 (softReset s))

theorem blocks_resetState (m : MgmtFrom) (s : State) : (resetState m s).blocks = (softReset s).blocks :=
  blocks_finish_of_blocks (softReset_softReset s).floodDone (blocks_answerMgmt _ _ _ _)
    (queue_le_of_traffic (Traffic.answerMgmt _ _ _ _))

theorem traffic_resetState (m : MgmtFrom) (s : State) : Traffic [] [] (softReset s) (resetState m s) :=
  (Traffic.answerMgmt _ _ _ _).trans (Traffic.finish _)

theorem fresh_resetState (m : MgmtFrom) (s : State) (d : Degree) : ((resetState m s).port (.deg d)).Fresh := by
  have h := softReset_softReset s
  rw [resetState, answerMgmt, ((h.shutPort d).placeOwn _ _).finish]
  exact (h.port d).offerNext

/-- A source at its soft-reset values tells of no episode when the event has ended. -/
theorem source_resetState (m : MgmtFrom) (s : State) (i : NoticeId) :
    ((resetState m s).ntu.source i).enable = (s.ntu.source i).enable ∧
    (i ≠ .congestion → i ≠ .sequence →
      ((resetState m s).ntu.source i).pending = false ∧ ((resetState m s).ntu.source i).detail = []) := by
  obtain ⟨he, hc⟩ := (softReset_softReset s).source i
  refine ⟨(enable_of_steady (steady_of_blocks (blocks_resetState m s)) i).trans he, fun h1 h2 => ?_⟩
  have ht := (traffic_resetState m s).2 i (by simp) h1
  rw [hc h2] at ht
  have field {α : Type} (π : NoticeSource → α) : π { (resetState m s).ntu.source i with sent := false } =
    π { (s.ntu.source i).clear with sent := false } := congrArg π ht
  exact ⟨field NoticeSource.pending, field NoticeSource.detail⟩

end Sys2Proof.Machine

open Sys2Proof Sys2Proof.Machine

/-- Settles O46: the values stand before the answer (`SoftReset`), and the answer leaves the blocks. -/
theorem softResetValuesAndEntry : Obligations.SoftResetValuesAndEntry := by
  intro m s u hu hm
  have h := softReset_softReset u
  have hb := blocks_resetState m u
  have hcfu := cfu_of_blocks hb
  have htdb := tdb_of_blocks hb
  have hfle := fle_of_blocks hb
  have hcmc := cmc_of_blocks hb
  have hrqu := (rqu_of_blocks hb).trans h.rqu
  have hadj : ∀ d, (resetState m u).adjacency d = (softReset u).adjacency d := fun d => by
    rw [State.adjacency, adm_of_blocks hb]; rfl
  have run : exec (.softReset m) s = .next (resetState m u) := by
    have e : manageFrom m doSoftReset u = answerMgmt (identity m.port m.src) m.tag (doSoftReset u).2 (softReset u) :=
      manageFrom_commanded m _ u hm
    rw [resetState, ← e]; exact event_eq hu
  have ctrl {α : Type} (π : Cmc → α) : π { (softReset u).cmc with changed := false, autoTimer := none } = π Cmc.reset :=
    congrArg π h.cmc
  have answered : Answered m .ok (.started u.startAfterReset 0) (resetState m u) := by
    have k := answered_answerMgmt m (doSoftReset u).2 (softReset u) (identity_ne m _ hm.2.1)
    have hs : (softReset u).cfu.start = u.startAfterReset := by rw [h.cfu]
    have hg : (softReset u).cmc.gen = 0 := ctrl Cmc.gen
    have hr : (doSoftReset u).2 = ⟨.ok, .started u.startAfterReset 0⟩ := by rw [← hs, ← hg]; rfl
    rw [resetState, hr]
    rwa [hr] at k
  refine ⟨_, run, hcfu.trans h.cfu, answered, fun d => ?_, fun k => ?_, ?_, ?_, ?_, fun h0 => ?_, fun h0 => ?_, fun d => ?_, ?_, ?_,
    ?_, ?_, ?_, ?_, ?_, ?_, ?_, fun i => ?_, ?_, ?_, ?_, ?_, fun d => fresh_resetState m u d, ?_, ?_, source_resetState m u⟩
  · rw [hadj]; exact h.degree d
  · rw [dtu_of_blocks hb, h.dtu, vget_map]
  · rw [htdb, h.links]
  · rw [htdb, h.incomplete]
  · rw [htdb, h.exclusions]
  · rw [htdb, hfle, hcmc]; exact h.isolated h0
  · obtain ⟨hn, hl, hr, ha⟩ := h.running h0
    refine ⟨by rw [htdb]; exact hn, fun k => ⟨by rw [hfle]; exact (hl k).1, ?_⟩, by rw [hfle, hr], by rw [hcmc, ha]⟩
    have hheld := (hl k).2
    rwa [OwnNodeHeld, State.nodeId, ← hcfu, ← htdb] at hheld
  · rw [State.flood, hfle]
    refine ⟨h.flood d, ?_⟩
    rw [h.slotMaps]
    exact vget_replicate _ _
  · rw [hcmc]; exact ctrl Cmc.gen
  · rw [hcmc]; exact ctrl Cmc.state
  · rw [hcmc]; exact ctrl Cmc.freeze
  · rw [hcmc]; exact ctrl Cmc.normalReq
  · rw [hcmc]; exact ctrl Cmc.urgentReq
  · rw [hcmc]; exact ctrl Cmc.changedLinks
  · rw [hcmc]; exact ctrl Cmc.checkTimer
  · rw [hrqu]; rfl
  · rw [hrqu]; rfl
  · rw [hrqu]; exact vget_replicate _ _
  · rw [hrqu]
  · rw [rsv_of_blocks hb, h.rsv]; rfl
  · rw [shu_of_blocks hb, h.shu]; rfl
  · rw [fwd_of_blocks hb, h.fwd]
  · obtain ⟨-, hl, -⟩ := (traffic_resetState m u).1 .np (by simp)
    rw [hl, h.np]
  · rw [watches_of_blocks hb, h.watches]

end

section
/-! SUPPORT. ADM and CFU (the setup of the part): what every operation of the other blocks leaves of them, and the induction over commands for an
invariant that speaks of them alone. -/

namespace Sys2Proof.Machine

/-- The adjacencies and CFU's state. -/
def State.setup (s : State) : Vector Adjacency 8 × Cfu := (s.adm, s.cfu)

theorem setup_of_steady {s t : State} (h : t.steady = s.steady) : t.setup = s.setup := by
  simp only [State.setup, adm_of_steady h, cfu_of_steady h]

theorem setup_of_blocks {s t : State} (h : t.blocks = s.blocks) : t.setup = s.setup := setup_of_steady (steady_of_blocks h)

theorem setup_of_standing {s t : State} (h : t.standing = s.standing) : t.setup = s.setup :=
  congrArg (fun x : List Instr × Moment × Nat × Vector Adjacency 8 × Vector DomainEntry 16 × Cfu => (x.2.2.2.1, x.2.2.2.2.2)) h

theorem setup_of_beside {s t : State} (h : t.besideRecords = s.besideRecords) : t.setup = s.setup :=
  show t.besideRecords.setup = s.besideRecords.setup by rw [h]

/-! ## Frames, notices, claims and own steps -/

theorem setup_frameError (p : Port) (s : State) : (frameError p s).setup = s.setup := rfl

theorem setup_setPort (s : State) (p : Port) (o : OutPort) : (s.setPort p o).setup = s.setup := by cases p <;> rfl

theorem setup_claimPassing (p q : Port) (f : Frame) (s : State) : (claimPassing p q f s).setup = s.setup :=
  setup_of_blocks (blocks_claimPassing _ _ _ _)

theorem setup_placeOwn (b : OwnBlock) (f : Frame) (s : State) : (placeOwn b f s).setup = s.setup :=
  setup_of_blocks (blocks_placeOwn _ _ _)

theorem setup_answer (b : OwnBlock) (dest : NodeId) (tag : Nat) (o : RouteOutcome) (g : Nat) (xs : List PathResult) (s : State) :
    (answer b dest tag o g xs s).setup = s.setup := setup_placeOwn _ _ _

theorem setup_answerNow (b : OwnBlock) (dest : NodeId) (tag : Nat) (o : RouteOutcome) (s : State) :
    (answerNow b dest tag o s).setup = s.setup := setup_placeOwn _ _ _

theorem setup_answerMgmt (who : NodeId) (tag : Nat) (r : Reply) (s : State) : (answerMgmt who tag r s).setup = s.setup :=
  setup_placeOwn _ _ _

theorem setup_fleClaim (d : Degree) (s : State) : (fleClaim d s).setup = s.setup := setup_of_steady (steady_fleClaim d s)

theorem setup_fleClaimsAt (p : Port) (s : State) : (fleClaimsAt p s).setup = s.setup := setup_of_steady (steady_fleClaimsAt p s)

theorem setup_claimBacklogHead (p : Port) (s : State) : (claimBacklogHead p s).setup = s.setup :=
  setup_of_blocks (blocks_claimBacklogHead p s)

theorem setup_holdDue (s : State) : (holdDue s).setup = s.setup := setup_of_blocks (blocks_holdDue s)

theorem setup_endClaims (s : State) : (endClaims s).setup = s.setup := setup_of_steady (steady_endClaims s)

theorem setup_finish (s : State) : (finish s).setup = s.setup := setup_of_steady (steady_finish s)

theorem setup_claimAll (s : State) : (claimAll s).setup = s.setup := setup_of_steady (steady_claimAll s)

theorem setup_promoteDue (s : State) : (promoteDue s).setup = s.setup := setup_of_standing (standing_promoteDue s)

theorem setup_dispatchAll (s : State) : (dispatchAll s).setup = s.setup :=
  setup_of_standing ((standing_dispatchHead _).trans (standing_dispatchHead s))

theorem setup_settle (s : State) : (settle s).setup = s.setup := setup_of_standing (standing_settle s)

theorem setup_settleBetween (s : State) : (settleBetween s).setup = s.setup := by
  unfold settleBetween
  dsimp only
  rw [setup_dispatchAll]
  split
  · rw [setup_holdDue, setup_of_standing (standing_promote _), setup_holdDue]
  · exact setup_holdDue s

/-! ## The database and the commit controller (04, 06) -/

theorem setup_writeRecord (w : RecordWrite) (s : State) : (writeRecord w s).1.setup = s.setup := by
  cases w with
  | node w => exact setup_of_beside (beside_writeNode w s)
  | link w => exact setup_of_beside (beside_writeLink w s)

theorem setup_expireAge (k : RecordKey) (s : State) : (expireAge k s).setup = s.setup := by unfold expireAge; split <;> rfl

theorem setup_expireLinger (k : RecordKey) (s : State) : (expireLinger k s).setup = s.setup := by unfold expireLinger; split <;> rfl

theorem setup_addExclusion (r : SlotRun) (o : ExclusionOrigin) (s : State) : (addExclusion r o s).1.setup = s.setup := by
  unfold addExclusion
  dsimp only
  split
  · split <;> rfl
  · split <;> rfl

theorem setup_abort (s : State) : (abort s).setup = s.setup := (setup_of_blocks (blocks_abort s)).trans rfl

theorem setup_returnRequest (r : Request) (s : State) : (returnRequest r s).setup = s.setup :=
  (setup_of_blocks (blocks_returnRequest r s)).trans rfl

theorem setup_normalRequest (s : State) : (normalRequest s).setup = s.setup := by rw [normalRequest_eq]; rfl

theorem setup_urgentRequest (s : State) : (urgentRequest s).setup = s.setup := (setup_of_blocks (blocks_urgentRequest s)).trans rfl

theorem setup_freezeView (s : State) : (freezeView s).setup = s.setup := by
  unfold freezeView
  split
  · rfl
  · split <;> rfl

theorem setup_thawView (s : State) : (thawView s).setup = s.setup := by
  unfold thawView
  dsimp only
  split
  · rfl
  · split
    · rfl
    · split
      · split
        · exact setup_abort _
        · split <;> rfl
      · rfl
      · split
        · exact setup_abort _
        · rfl
      · rfl

theorem setup_expireCheck (s : State) : (expireCheck s).setup = s.setup := by
  have hq : ∀ t, (quietCheck t).setup = t.setup := fun t => by
    unfold quietCheck
    extract_lets c settle checks s' count
    split
    · rfl
    · split <;> rfl
  unfold expireCheck
  split
  · exact hq _
  · rfl

theorem setup_expireAuto (s : State) : (expireAuto s).setup = s.setup := by
  unfold expireAuto
  split
  · rfl
  · dsimp only
    split
    · exact setup_normalRequest _
    · rfl

/-! ## Flooding (05) -/

theorem setup_originateNode (s : State) : (originateNode s).setup = s.setup := setup_of_beside (beside_originateNode s)

theorem setup_originateLink (d : Degree) (s : State) : (originateLink d s).setup = s.setup :=
  setup_of_beside (beside_originateLink d s)

theorem setup_originateAll (s : State) : (originateAll s).setup = s.setup :=
  (foldl_keeps State.setup _ _ _ fun t d => setup_originateLink d t).trans (setup_originateNode s)

theorem setup_reoriginate (k : RecordKey) (s : State) : (reoriginate k s).setup = s.setup := by
  unfold reoriginate
  split
  · exact setup_originateNode s
  · split
    · exact setup_originateLink _ s
    · rfl

theorem setup_takeOther (d : Degree) (w : RecordWrite) (s : State) : (takeOther d w s).setup = s.setup := by
  have h := setup_writeRecord w s
  unfold takeOther
  dsimp only
  split
  · split <;> exact h
  · split
    · split
      · split
        · exact (setup_urgentRequest _).trans h
        · exact h
      · exact h
    · split <;> rfl

theorem setup_takeOwn (d : Degree) (w : RecordWrite) (s : State) : (takeOwn d w s).setup = s.setup := by
  unfold takeOwn
  dsimp only
  split
  · split
    · exact setup_reoriginate _ _
    · rfl
  · split
    · exact setup_reoriginate _ s
    · split
      · rfl
      · split
        · rfl
        · exact setup_reoriginate _ s

theorem setup_takeRecord (d : Degree) (w : RecordWrite) (s : State) : (takeRecord d w s).setup = s.setup := by
  unfold takeRecord
  split
  · exact setup_takeOwn _ _ _
  · exact setup_takeOther _ _ _

theorem setup_pushOrigin (d : Degree) (o : NodeId) (s : State) : (pushOrigin d o s).setup = s.setup :=
  foldl_keeps State.setup _ _ _ fun _ _ => rfl

theorem setup_compareOrigin (d : Degree) (t : TallyBody) (o : NodeId) (s : State) : (compareOrigin d t o s).setup = s.setup := by
  have hp : ∀ e, (pullOrigin d e s).setup = s.setup := fun e => by
    unfold pullOrigin
    dsimp only
    split
    · rfl
    · split <;> rfl
  unfold compareOrigin
  extract_lets acts s'
  have h : s'.setup = s.setup := by
    simp only [s']
    split
    · split
      · rfl
      · exact hp _
    · rfl
  split
  · exact (setup_pushOrigin _ _ _).trans h
  · exact h

theorem setup_takeTally (d : Degree) (t : TallyBody) (s : State) : (takeTally d t s).setup = s.setup :=
  foldl_keeps State.setup _ _ _ fun u o => setup_compareOrigin d t o u

theorem setup_takePull (d : Degree) (os : List NodeId) (s : State) : (takePull d os s).setup = s.setup :=
  foldl_keeps State.setup _ _ _ fun u o => setup_pushOrigin d o u

theorem setup_expireRefresh (s : State) : (expireRefresh s).setup = s.setup := by
  unfold expireRefresh
  split
  · rfl
  · exact setup_originateAll _

theorem setup_expireTally (d : Degree) (s : State) : (expireTally d s).setup = s.setup := by
  unfold expireTally
  split
  · rfl
  · dsimp only
    split <;> rfl

theorem setup_expirePull (d : Degree) (o : NodeId) (s : State) : (expirePull d o s).setup = s.setup := by
  unfold expirePull
  split <;> rfl

/-! ## Translation, SLOTMAP and FAULTREP (03, 04, 05) -/

theorem setup_setDomain (i : Nat) (e : DomainEntry) (s : State) : (setDomain i e s).setup = s.setup := by
  unfold setDomain; split <;> rfl

theorem setup_withdrawDomain (n : Nat) (s : State) : (withdrawDomain n s).setup = s.setup := by
  unfold withdrawDomain
  dsimp only
  split
  · rfl
  · exact foldl_keeps State.setup _ _ _ fun _ _ => rfl

theorem setup_takeFault (n : Nat) (e : DomainEntry) (k : FaultKind) (s : State) : (takeFault n e k s).setup = s.setup := by
  have h := setup_setDomain n (e.countFault k) s
  unfold takeFault
  dsimp only
  split
  · exact (setup_urgentRequest _).trans ((setup_withdrawDomain _ _).trans h)
  · exact h

theorem setup_takeWarning (n : Nat) (e : DomainEntry) (os : List Nat) (s : State) : (takeWarning n e os s).setup = s.setup := by
  unfold takeWarning
  split
  · exact setup_setDomain _ _ s
  · rfl

theorem setup_takeAdvert (d : Degree) (a : AdvertBody) (s : State) : (takeAdvert d a s).setup = s.setup := by
  unfold takeAdvert
  split
  · exact setup_takeRecord _ _ _
  · split
    · rfl
    · split
      · rfl
      · split
        · exact setup_takeFault _ _ _ _
        · exact (setup_takeRecord _ _ _).trans (setup_takeWarning _ _ _ s)

theorem setup_takeSlotmap (m : SlotmapBody) (s : State) : (takeSlotmap m s).setup = s.setup := by
  unfold takeSlotmap
  split
  · rfl
  · dsimp only
    split
    · rfl
    · split
      · exact setup_originateLink _ _
      · rfl

theorem setup_takeFaultrep (p : Port) (r : SlotRun) (s : State) : (takeFaultrep p r s).setup = s.setup := by
  have h := setup_addExclusion r .reported s
  unfold takeFaultrep
  dsimp only
  split
  · rfl
  · split <;> exact h

theorem setup_expireExclusion (r : SlotRun) (s : State) : (expireExclusion r s).setup = s.setup := by
  unfold expireExclusion; split <;> rfl

/-! ## Requests, lanes and results (07, 08, 09) -/

theorem setup_fromSender (p : Port) (src : NodeId) {f : NodeId → State → State} (h : ∀ who s, (f who s).setup = s.setup) (s : State) :
    (fromSender p src f s).setup = s.setup := by
  unfold fromSender
  split
  · rfl
  · exact h _ _

theorem setup_takeRouteq (q : RouteqBody) (who : NodeId) (s : State) : (takeRouteq q who s).setup = s.setup := by
  have hr : ∀ peer, (refer who peer q s).setup = s.setup := fun peer => by
    unfold refer
    split
    · exact setup_answerNow _ _ _ _ _
    · split
      · exact setup_answerNow _ _ _ _ _
      · exact setup_placeOwn _ _ _
  unfold takeRouteq
  split
  · exact setup_answerNow _ _ _ _ _
  · split
    · exact setup_answerNow _ _ _ _ _
    · split
      · exact setup_answerNow _ _ _ _ _
      · split
        · exact hr _
        · split
          · rfl
          · exact setup_answerNow _ _ _ _ _

theorem setup_takeRoutea (a : RouteaBody) (who : NodeId) (s : State) : (takeRoutea a who s).setup = s.setup := by
  unfold takeRoutea
  split
  · exact setup_placeOwn _ _ _
  · rfl

theorem setup_expireReferral (n : Nat) (s : State) : (expireReferral n s).setup = s.setup := by
  unfold expireReferral
  split
  · split
    · rfl
    · exact setup_answerNow _ _ _ _ _
  · rfl

theorem setup_unmatched (who : NodeId) (tag : Nat) (m : FrameMatch) (s : State) : (unmatched who tag m s).setup = s.setup := by
  cases m with
  | result i r => rfl
  | expired => exact setup_answerNow _ _ _ _ _
  | notOwner => exact setup_answerNow _ _ _ _ _
  | unknown => exact setup_answerNow _ _ _ _ _

theorem setup_takeClaim (who : NodeId) (tag : Nat) (s : State) : (takeClaim who tag s).setup = s.setup := by
  unfold takeClaim
  split
  · exact setup_answerNow _ _ _ _ _
  · exact setup_unmatched _ _ _ _

theorem setup_takeRelease (tag : Nat) (who : NodeId) (s : State) : (takeRelease tag who s).setup = s.setup := by
  unfold takeRelease
  split
  · exact setup_answerNow _ _ _ _ _
  · unfold takeResultRelease
    split
    · exact setup_answerNow _ _ _ _ _
    · exact setup_unmatched _ _ _ _

theorem setup_expireHold (i : Nat) (s : State) : (expireHold i s).setup = s.setup := by
  unfold expireHold
  split
  · rfl
  · split
    · exact setup_answerNow _ _ _ _ _
    · rfl

theorem setup_expireClaim (i : Nat) (s : State) : (expireClaim i s).setup = s.setup := by
  unfold expireClaim
  split
  · rfl
  · split <;> rfl

theorem setup_startTree (s : State) : (startTree s).setup = s.setup := setup_of_standing (standing_startTree s)

theorem setup_takeFound (r : Request) (g : Nat) (xs : List PathResult) (s : State) : (takeFound r g xs s).setup = s.setup := by
  unfold takeFound
  dsimp only
  split
  · exact setup_answer _ _ _ _ _ _ _
  · split
    · exact setup_returnRequest _ _
    · split
      · exact setup_answer _ _ _ _ _ _ _
      · split <;> exact setup_answer _ _ _ _ _ _ _

theorem setup_complete (l : LaneId) (s : State) : (complete l s).setup = s.setup := by
  have he : ∀ r e, (endWork l r e s).setup = s.setup := fun _ _ => setup_startTree _
  unfold complete
  split
  · rfl
  · rfl
  · split
    · exact (setup_answer _ _ _ _ _ _ _).trans (he _ _)
    · split
      · exact (setup_returnRequest _ _).trans (he _ _)
      · exact (setup_takeFound _ _ _ _).trans (he _ _)

theorem setup_completeTree (s : State) : (completeTree s).setup = s.setup := by
  unfold completeTree
  split
  · rfl
  · rfl
  · exact setup_startTree _

/-! ## The flush (06) -/

theorem setup_flushResults (s : State) : (flushResults s).setup = s.setup :=
  foldl_keeps State.setup _ _ s fun _ _ => setup_answerNow _ _ _ _ _

theorem setup_raiseWatches (t : Tdb) (l : List LinkKey) (s : State) : (raiseWatches t l s).setup = s.setup :=
  setup_of_standing (standing_raiseWatches t l s)

theorem setup_flushRequests (s : State) : (flushRequests s).setup = s.setup :=
  (foldl_keeps State.setup _ _ _ fun _ _ => setup_answerNow _ _ _ _ _).trans rfl

theorem setup_flushRestart (s : State) : (flushRestart s).setup = s.setup := by
  rw [flushRestart, setup_normalRequest, foldl_keeps State.setup (fun t d => startRound d t) _ _ fun _ _ => rfl]
  exact setup_originateAll s

theorem setup_flush (s : State) : (flush s).setup = s.setup := by
  unfold flush handTree
  dsimp only
  rw [setup_flushRestart, setup_startTree]
  refine (setup_raiseWatches _ _ _).trans ((setup_flushResults _).trans ?_)
  exact setup_flushRequests s

/-! ## Management commands that leave ADM and CFU alone (11) -/

theorem setup_setPeer (n : Nat) (p : NodeId) (s : State) : (setPeer n p s).setup = s.setup := by
  unfold setPeer; split <;> rfl

theorem setup_writeDomain (n : Nat) (f : DomainFields) (s : State) : (writeDomain n f s).setup = s.setup := by
  unfold writeDomain
  dsimp only
  split
  · exact setup_setDomain _ _ s
  · exact (setup_setPeer _ _ _).trans (setup_setDomain _ _ s)

theorem setup_setWatch (w : WatchArgs) (s : State) : (setWatch w s).setup = s.setup := by unfold setWatch; split <;> rfl

theorem setup_doExcludeAdd (r : SlotRun) (s : State) : (doExcludeAdd r s).1.setup = s.setup := by
  have h := setup_addExclusion r .loaded s
  unfold doExcludeAdd
  dsimp only
  split
  · rfl
  · split
    · rfl
    · split <;> exact h

theorem setup_doFlush (s : State) : (doFlush s).1.setup = s.setup := by
  by_cases h : (s.cfu.start == .running && s.cmc.gen != Config.lastGeneration) = true
  · simp only [doFlush, h, if_true]
    exact setup_flush s
  · simp only [doFlush, h, Bool.false_eq_true, if_false, refuse]

end Sys2Proof.Machine
end

section
/-! SUPPORT. The induction over commands and steps for an invariant of ADM and CFU. -/

namespace Sys2Proof.Machine

/-- An invariant of ADM and CFU: it speaks of nothing else, and each operation that writes one of the two keeps it. -/
structure SetupInv (P : State → Prop) : Prop where
  same : ∀ {s t : State}, P s → t.setup = s.setup → P t
  greet : ∀ d g {s}, P s → P (takeGreet d g s)
  enable : ∀ d {s}, P s → P (enableDegree d s)
  disable : ∀ d {s}, P s → P (disableDegree d s)
  greetTimer : ∀ d {s}, P s → P (expireGreet d s)
  deadTimer : ∀ d {s}, P s → P (expireDead d s)
  holdTimer : ∀ d x {s}, P s → P (expireHoldAt d x s)
  writeParam : ∀ t v {s}, P s → P (doWriteParam t v s).1
  lockGroup : ∀ g {s}, P s → P (doLockGroup g s).1
  softReset : ∀ {s}, P s → P (softReset s)
  load : ∀ m {s}, P s → P (completeLoad m s)

section
variable {P : State → Prop} (h : SetupInv P)
include h

/-! ## Management commands (11) -/

theorem SetupInv.doCommand (c : MgmtCmd) {s : State} (hs : P s) : P (Machine.doCommand c s).1 := by
  cases c with
  | readParam t =>
    refine h.same hs ?_
    simp only [Machine.doCommand, doReadParam]
    split
    · rfl
    · split <;> rfl
  | writeParam t v => exact h.writeParam t v hs
  | lockGroup g => exact h.lockGroup g hs
  | degreeEnable n =>
    simp only [Machine.doCommand, doDegreeEnable]
    split
    · exact hs
    · exact h.enable _ hs
  | degreeDisable n =>
    simp only [Machine.doCommand, doDegreeDisable]
    split
    · exact hs
    · exact h.disable _ hs
  | domainWrite n f =>
    simp only [Machine.doCommand, doDomainWrite]
    split
    · exact hs
    · split
      · exact hs
      · exact h.same hs (setup_writeDomain _ _ s)
  | domainRelease n =>
    simp only [Machine.doCommand, doDomainRelease]
    split
    · exact hs
    · split
      · exact hs
      · exact h.same hs (setup_setDomain _ _ s)
  | delegateWrite n p =>
    simp only [Machine.doCommand, doDelegateWrite]
    split
    · exact hs
    · split
      · exact hs
      · exact h.same hs (setup_setPeer _ _ s)
  | excludeAdd r => exact h.same hs (setup_doExcludeAdd r s)
  | excludeRemove r =>
    simp only [Machine.doCommand, doExcludeRemove]
    split
    · exact hs
    · split
      · exact h.same hs rfl
      · exact hs
  | watchWrite w =>
    simp only [Machine.doCommand, doWatchWrite]
    split
    · exact hs
    · exact h.same hs (setup_setWatch w s)
  | noticeEnable k => exact h.same hs (setup_holdDue (setEnables k s))
  | noticeClear k =>
    change P (doNoticeClear k s).1
    have hc : P (clearSources k s) := h.same hs rfl
    have ho : ∀ u, P u → P (clearOutstanding u) := fun u hu => h.same hu rfl
    unfold doNoticeClear
    dsimp only
    split
    · exact ho _ hc
    · exact hc
  | commit =>
    simp only [Machine.doCommand, doCommit]
    split
    · exact h.same hs (setup_normalRequest s)
    · exact hs
  | freeze => exact h.same hs (setup_freezeView s)
  | thaw => exact h.same hs (setup_thawView s)
  | status => exact hs
  | tableRead t i n =>
    simp only [Machine.doCommand, doTableRead]
    split
    · exact hs
    · split
      · exact hs
      · exact h.same hs rfl
  | flush => exact h.same hs (setup_doFlush s)
  | softReset => exact h.softReset hs

theorem SetupInv.manage (m : MgmtFrom) {f : State → Done} (hf : ∀ s, P s → P (f s).1) {s : State} (hs : P s) :
    P (Machine.manage m f s) := by
  unfold Machine.manage
  split
  · exact h.same hs (setup_frameError _ _)
  · refine h.same ?_ (setup_answerMgmt _ _ _ _)
    split
    · exact hs
    · split
      · exact hs
      · exact hf s hs

theorem SetupInv.manageFrom (m : MgmtFrom) {f : State → Done} (hf : ∀ s, P s → P (f s).1) {s : State} (hs : P s) :
    P (Machine.manageFrom m f s) := by
  unfold Machine.manageFrom
  split
  · exact h.manage m hf hs
  · exact hs

theorem SetupInv.doRequest (r : MgmtRequest) {s : State} (hs : P s) : P (Machine.doRequest r s).1 := by
  cases r with
  | unknownCommand => exact hs
  | badForm => exact hs
  | command c => exact h.doCommand c hs

/-! ## The frame switch (01) -/

theorem SetupInv.passFromDegree (d : Degree) (src : NodeId) (scope : Bool) (b : Handled) {s : State} (hs : P s) :
    P (Machine.passFromDegree d src scope b s) := by
  have fe : P (frameError (.deg d) s) := h.same hs (setup_frameError _ _)
  have ite {f : State → State} (hf : (f s).setup = s.setup) : P (if scope then toFlood d f s else frameError (.deg d) s) := by
    split
    · unfold toFlood
      split
      · exact h.same hs hf
      · exact hs
    · exact fe
  cases b with
  | greet g =>
    simp only [Machine.passFromDegree]
    split
    · exact h.greet d g hs
    · exact fe
  | advert a => exact ite (setup_takeAdvert d a s)
  | tally t => exact ite (setup_takeTally d t s)
  | pull os => exact ite (setup_takePull d os s)
  | routeq q => exact h.same hs (setup_fromSender _ _ (setup_takeRouteq q) s)
  | routea a => exact h.same hs (setup_fromSender _ _ (setup_takeRoutea a) s)
  | claim tag => exact h.same hs (setup_fromSender _ _ (fun who => setup_takeClaim who tag) s)
  | release tag => exact h.same hs (setup_fromSender _ _ (setup_takeRelease tag) s)
  | faultrep r => exact h.same hs (setup_takeFaultrep _ r s)
  | slotmap m => exact fe
  | mgmtq tag r => exact h.manage _ (fun _ => h.doRequest r) hs
  | delivered => exact hs

theorem SetupInv.passFromNode (src : NodeId) (b : Handled) {s : State} (hs : P s) : P (Machine.passFromNode src b s) := by
  cases b with
  | greet _ | advert _ | tally _ | pull _ | delivered => exact h.same hs (setup_frameError _ _)
  | routeq q => exact h.same hs (setup_fromSender _ _ (setup_takeRouteq q) s)
  | routea a => exact h.same hs (setup_fromSender _ _ (setup_takeRoutea a) s)
  | claim tag => exact h.same hs (setup_fromSender _ _ (fun who => setup_takeClaim who tag) s)
  | release tag => exact h.same hs (setup_fromSender _ _ (setup_takeRelease tag) s)
  | faultrep r => exact h.same hs (setup_takeFaultrep _ r s)
  | slotmap m => exact h.same hs (setup_takeSlotmap m s)
  | mgmtq tag r => exact h.manage _ (fun _ => h.doRequest r) hs

theorem SetupInv.passOn (p : Port) (src : NodeId) (scope : Bool) (b : Handled) {s : State} (hs : P s) :
    P (Machine.passOn p src scope b s) := by
  unfold Machine.passOn
  split
  · exact h.same hs (setup_frameError _ _)
  · split
    · exact h.passFromDegree _ _ _ _ hs
    · exact h.passFromNode _ _ hs

theorem SetupInv.takeBody (p : Port) (src : NodeId) (scope : Bool) (b : Handled) {s : State} (hs : P s) :
    P (Machine.takeBody p src scope b s) := by
  unfold Machine.takeBody
  split
  · exact h.passOn _ _ _ _ hs
  · exact hs

theorem SetupInv.handleFrame (p : Port) (f : RawFrame) {s : State} (hs : P s) : P (Machine.handleFrame p f s) := by
  unfold Machine.handleFrame
  split
  · exact h.same hs (setup_frameError _ _)
  · split
    · exact h.same hs (setup_claimPassing _ _ _ _)
    · exact h.same hs (setup_frameError _ _)
  · exact h.passOn _ _ _ _ hs

theorem SetupInv.acceptFrame (p : Port) (f : RawFrame) {s : State} (hs : P s) : P (Machine.acceptFrame p f s) := by
  have fe : P (frameError p s) := h.same hs (setup_frameError _ _)
  have hh : P (Machine.handleFrame p f s) := h.handleFrame p f hs
  unfold Machine.acceptFrame
  split
  · unfold dispatchFrame
    split
    · exact hh
    · split
      · split
        · exact fe
        · exact hh
      · split
        · split
          · split
            · exact hh
            · exact fe
          · exact fe
        · exact h.same hs (setup_of_blocks (blocks_forward p f s))
  · split
    · exact hs
    · unfold notRunningFrame
      split
      · exact hh
      · exact hs

theorem SetupInv.takeBytes (p : Port) (b : List Byte) {s : State} (hs : P s) : P (Machine.takeBytes p b s) := by
  unfold Machine.takeBytes
  split
  · exact h.acceptFrame _ _ hs
  · split
    · exact h.same hs (setup_frameError _ _)
    · exact hs

theorem SetupInv.takeRaw (p : Port) (f : RawFrame) {s : State} (hs : P s) : P (Machine.takeRaw p f s) := by
  unfold Machine.takeRaw
  split
  · exact h.acceptFrame _ _ hs
  · split
    · exact h.same hs (setup_frameError _ _)
    · exact hs

theorem SetupInv.takeEach (as : List Arrival) {s : State} (hs : P s) : P (Machine.takeEach as s).1 := by
  induction as generalizing s with
  | nil => exact hs
  | cons a as ih =>
    unfold Machine.takeEach
    split
    · exact ih hs
    · exact ih (h.takeRaw _ _ (h.same hs (setup_settleBetween s)))

theorem SetupInv.takeTogether (as : List Arrival) {s : State} (hs : P s) : P (Machine.takeTogether as s) := by
  unfold Machine.takeTogether ownTogether fleClaimsAll
  refine h.same ?_ (foldl_keeps State.setup (claimTogether _) _ _ fun t p =>
    foldl_keeps State.setup _ _ t fun u c => setup_claimPassing p c.input c.frame u)
  refine h.same ?_ ((setup_endClaims _).trans (foldl_keeps State.setup _ _ _ fun t d => setup_fleClaimsAt (.deg d) t))
  exact h.takeEach as hs

/-! ## Commands and steps -/

theorem SetupInv.event {f : State → State} (hf : ∀ s, P s → P (f s)) {s t : State} (hs : P s) (e : Machine.event f s = .next t) :
    P t := by
  cases e
  exact h.same (hf _ (h.same hs (setup_settle s))) (setup_finish _)

/-- A command whose meaning leaves ADM and CFU alone. -/
theorem SetupInv.event_same {f : State → State} (hf : ∀ s, (f s).setup = s.setup) {s t : State} (hs : P s)
    (e : Machine.event f s = .next t) : P t := h.event (fun u hu => h.same hu (hf u)) hs e

theorem SetupInv.exec {i : Instr} (hp : i ≠ .powerOnReset) (hq : i ≠ .pinReset) {s t : State} (hs : P s)
    (e : Machine.exec i s = .next t) : P t := by
  have mgmt (m : MgmtFrom) (c : MgmtCmd) (e : Machine.event (Machine.manageFrom m (Machine.doCommand c)) s = .next t) : P t :=
    h.event (fun _ => h.manageFrom m fun _ => h.doCommand c) hs e
  have body (p : Port) (src : NodeId) (scope : Bool) (b : Handled)
      (e : Machine.event (Machine.takeBody p src scope b) s = .next t) : P t := h.event (fun _ => h.takeBody p src scope b) hs e
  cases i with
  | powerOnReset => exact absurd rfl hp
  | pinReset => exact absurd rfl hq
  | imageLoad m => exact h.event (fun _ => h.load m) hs e
  | frameArrival p b => exact h.event (fun _ => h.takeBytes p b) hs e
  | transitFrame as => cases e; exact h.same (h.takeTogether as (h.same hs (setup_settle s))) rfl
  | deliveredToNp a as => cases e; exact h.same (h.takeTogether (a :: as) (h.same hs (setup_settle s))) rfl
  | greet d g => exact body _ _ _ _ e
  | advert d a => exact body _ _ _ _ e
  | tally d t => exact body _ _ _ _ e
  | pull d os => exact body _ _ _ _ e
  | routeq p src q => exact body _ _ _ _ e
  | routea p src a => exact body _ _ _ _ e
  | claim p src tag => exact body _ _ _ _ e
  | release p src tag => exact body _ _ _ _ e
  | faultrep p r => exact body _ _ _ _ e
  | slotmap p m => exact body _ _ _ _ e
  | readParam m t => exact mgmt m (.readParam t) e
  | writeParam m t v => exact mgmt m (.writeParam t v) e
  | lockGroup m g => exact mgmt m (.lockGroup g) e
  | degreeEnable m d => exact mgmt m (.degreeEnable d) e
  | degreeDisable m d => exact mgmt m (.degreeDisable d) e
  | domainWrite m n f => exact mgmt m (.domainWrite n f) e
  | domainRelease m n => exact mgmt m (.domainRelease n) e
  | delegateWrite m n p => exact mgmt m (.delegateWrite n p) e
  | excludeAdd m r => exact mgmt m (.excludeAdd r) e
  | excludeRemove m r => exact mgmt m (.excludeRemove r) e
  | watchWrite m w => exact mgmt m (.watchWrite w) e
  | noticeEnable m k => exact mgmt m (.noticeEnable k) e
  | noticeClear m k => exact mgmt m (.noticeClear k) e
  | commit m => exact mgmt m .commit e
  | freeze m => exact mgmt m .freeze e
  | thaw m => exact mgmt m .thaw e
  | status m => exact mgmt m .status e
  | tableRead m t i n => exact mgmt m (.tableRead t i n) e
  | flush m => exact mgmt m .flush e
  | softReset m => exact mgmt m .softReset e
  | frameSent p =>
    refine h.event_same (fun u => ?_) hs e
    unfold frameSent
    split
    · rfl
    · exact setup_setPort _ _ _
  | backlogHeadClaim p =>
    cases e
    exact h.same hs ((setup_finish _).trans ((setup_claimBacklogHead _ _).trans (setup_fleClaimsAt p s)))
  | fleFrameClaim d => cases e; exact h.same hs ((setup_finish _).trans (setup_fleClaim d s))
  | greetTimerExpiry d => exact h.event (fun _ => h.greetTimer d) hs e
  | deadTimerExpiry d => exact h.event (fun _ => h.deadTimer d) hs e
  | holdTimerExpiry d => exact h.event (f := fun t => expireHoldAt d (t.adjacency d).holdTimer t) (fun _ => h.holdTimer d _) hs e
  | holdLimitExpiry d => exact h.event (f := fun t => expireHoldAt d (t.adjacency d).holdLimit t) (fun _ => h.holdTimer d _) hs e
  | ageClockExpiry => exact h.event_same (f := expireAgeClock) (fun _ => rfl) hs e
  | ageExpiry k => exact h.event_same (setup_expireAge k) hs e
  | lingerExpiry k => exact h.event_same (setup_expireLinger k) hs e
  | exclusionLifetimeExpiry r => exact h.event_same (setup_expireExclusion r) hs e
  | refreshTimerExpiry => exact h.event_same setup_expireRefresh hs e
  | tallyTimerExpiry d => exact h.event_same (setup_expireTally d) hs e
  | pullDeadlineExpiry d o => exact h.event_same (setup_expirePull d o) hs e
  | quietCheck => exact h.event_same setup_expireCheck hs e
  | autoCommitTimerExpiry => exact h.event_same setup_expireAuto hs e
  | promotion =>
    obtain rfl := Host.Outcome.next.inj e
    exact h.same hs ((setup_promoteDue _).trans (setup_claimAll s))
  | dispatch => obtain rfl := Host.Outcome.next.inj e; exact h.same hs (setup_settle s)
  | completion l => exact h.event_same (setup_complete l) hs e
  | treeBuildCompletion => exact h.event_same setup_completeTree hs e
  | referralDeadlineExpiry i => exact h.event_same (setup_expireReferral i) hs e
  | holdDeadlineExpiry i => exact h.event_same (setup_expireHold i) hs e
  | claimDeadlineExpiry i => exact h.event_same (setup_expireClaim i) hs e
  | transceiverReady p => exact h.event_same (f := transceiverReady p) (fun u => setup_setPort u p _) hs e

/-- Every step keeps an invariant of ADM and CFU that the part meets after reset. -/
theorem SetupInv.step (hr : ∀ s, P (resetPart s)) {s t : State} (hs : P s) (e : Machine.step s = .next t) : P t := by
  have run : ∀ {i : Instr} {u : State}, P u → Machine.exec i u = .next t → P t := fun {i u} hu e => by
    by_cases hp : i = .powerOnReset
    · subst hp; cases e; exact hr u
    · by_cases hq : i = .pinReset
      · subst hq; cases e; exact hr u
      · exact h.exec hp hq hu e
  rcases step_cases e with ⟨c, rest, -, e⟩ | ⟨c, -, e⟩ | ⟨-, e⟩ | ⟨-, e⟩
  · exact run (u := { s with pending := rest }) (h.same hs rfl) e
  · exact run hs e
  · exact e ▸ h.same hs (setup_settle s)
  · exact e ▸ h.same hs rfl

end

end Sys2Proof.Machine
end

section
/-! SUPPORT. What each move of a degree makes of the state (R26, R27, R29 to R39), and that every step keeps each adjacency as its state
gives it (R24, R25, R40). -/

namespace Sys2Proof.Machine

/-! ## Greeting (R26, R27) -/

theorem setAdjacency_setAdjacency (s : State) (d : Degree) (a b : Adjacency) :
    (s.setAdjacency d a).setAdjacency d b = s.setAdjacency d b := by simp [State.setAdjacency, vset]

/-- The part with an adjacency written, its GREET placed and its greet timer restarted (R26, R27). -/
def State.greeting (s : State) (d : Degree) (a : Adjacency) : State :=
  (s.setPort (.deg d) ((s.port (.deg d)).placeGreet
    ⟨0x01, 1, 0, s.nodeId, 65535, .greet ⟨s.nodeId, d.val, 0, a.seen⟩⟩)).setAdjacency d
    { a with greetTimer := some (s.now + s.cfu.params.greetInterval) }

theorem placeGreet_setAdjacency (s : State) (d : Degree) (a : Adjacency) : placeGreet d (s.setAdjacency d a) = s.greeting d a := by
  have hf : greetFrame (s.setAdjacency d a) d = ⟨0x01, 1, 0, s.nodeId, 65535, .greet ⟨s.nodeId, d.val, 0, a.seen⟩⟩ := by
    simp [greetFrame, ownFrame, State.nodeId, kindGreet, neighbourDst]
  have ha : ∀ o, (s.setAdjacency d a).setPort (.deg d) o = (s.setPort (.deg d) o).setAdjacency d a := fun _ => rfl
  rw [placeGreet, hf, ha, setAdjacency_setAdjacency, State.greeting]
  simp [port_setAdjacency]

theorem placeGreet_eq (s : State) (d : Degree) : placeGreet d s = s.greeting d (s.adjacency d) := by
  have : s.setAdjacency d (s.adjacency d) = s := by simp [State.setAdjacency, State.adjacency]
  rw [← placeGreet_setAdjacency, this]

theorem setup_greeting (s : State) (d : Degree) (a : Adjacency) : (s.greeting d a).setup =
    (s.setAdjacency d { a with greetTimer := some (s.now + s.cfu.params.greetInterval) }).setup := rfl

/-! ## Moves of a degree (R29 to R35) -/

/-- An adjacency that opens DETECT with the sender of a GREET (R29, R30). -/
def Adjacency.detected (s : State) (g : GreetBody) (a : Adjacency) : Adjacency :=
  { a with state := .detect, nbr := some (openRecord g), deadTimer := some (s.now + s.cfu.params.deadInterval) }

/-- An adjacency in DOWN (R30). -/
def Adjacency.down (a : Adjacency) : Adjacency :=
  { a with state := .down, nbr := none, deadTimer := none, holdTimer := none, holdLimit := none }

/-- An adjacency in HOLD (R33, R35). -/
def Adjacency.held (s : State) (a : Adjacency) : Adjacency :=
  { a with
    state := .hold
    deadTimer := none
    holdTimer := some (s.now + s.cfu.params.adjHoldTime * 1000)
    holdLimit := some (s.now + 6 * (s.cfu.params.adjHoldTime * 1000)) }

theorem enterDetect_eq (d : Degree) (g : GreetBody) (s : State) :
    enterDetect d g s = s.greeting d ((s.adjacency d).detected s g) := placeGreet_setAdjacency _ _ _

theorem enterDown_eq (d : Degree) (s : State) : enterDown d s = s.greeting d (s.adjacency d).down := placeGreet_setAdjacency _ _ _

theorem enterHold_eq (d : Degree) (s : State) : enterHold d s = urgentRequest (raise .adjacency [.degree d]
    (clearFlood d (originateLink d (s.greeting d ((s.adjacency d).held s))))) := by
  rw [← placeGreet_setAdjacency]; rfl

theorem setup_enterUp (d : Degree) (s : State) :
    (enterUp d s).setup = (s.setAdjacency d { s.adjacency d with state := .up }).setup :=
  (setup_normalRequest _).trans (setup_originateLink d _)

theorem setup_enterHold (d : Degree) (s : State) : (enterHold d s).setup = (s.greeting d ((s.adjacency d).held s)).setup := by
  rw [enterHold_eq, setup_urgentRequest]
  exact setup_originateLink d _

/-! ## Adjacencies in order (R24, R25, R40) -/

theorem AdjacenciesOk.of_start {s t : State} (h : AdjacenciesOk s) (ha : t.adm = s.adm) (hs : t.cfu.start = s.cfu.start) :
    AdjacenciesOk t := by
  simpa only [AdjacenciesOk, State.adjacency, ha, hs] using h

theorem AdjacenciesOk.of_setup {s t : State} (h : AdjacenciesOk s) (e : t.setup = s.setup) : AdjacenciesOk t :=
  h.of_start (congrArg Prod.fst e) (congrArg (fun x => x.2.start) e)

section
variable {s : State} {d : Degree} (h : AdjacenciesOk s)
include h

/-- A degree that is not DISABLED stands in a RUNNING part. -/
theorem AdjacenciesOk.running (hd : (s.adjacency d).state ≠ .disabled) : s.cfu.start = .running := by
  by_contra k
  exact hd ((h d).2 k)

/-- An adjacency in order is written, not DISABLED in a RUNNING part alone. -/
theorem AdjacenciesOk.set {a : Adjacency} (ha : AdjacencyOk a) (hs : s.cfu.start ≠ .running → a.state = .disabled) :
    AdjacenciesOk (s.setAdjacency d a) := fun e => by
  rw [adjacency_setAdjacency]
  split
  · exact ⟨ha, hs⟩
  · exact h e

/-- A degree that is not DISABLED moves to another state in order. -/
theorem AdjacenciesOk.move {a : Adjacency} (hd : (s.adjacency d).state ≠ .disabled) (ha : AdjacencyOk a) :
    AdjacenciesOk (s.setAdjacency d a) := h.set ha fun k => absurd (h.running hd) k

theorem AdjacenciesOk.greeting {a : Adjacency} (hr : s.cfu.start = .running)
    (ha : AdjacencyOk { a with greetTimer := some (s.now + s.cfu.params.greetInterval) }) : AdjacenciesOk (s.greeting d a) :=
  (h.set ha fun k => absurd hr k).of_setup (setup_greeting s d a)

end

theorem adjacencyOk_enable {a : Adjacency} (h : AdjacencyOk a) (on : Bool) : AdjacencyOk { a with enable := on } := h

section
variable {s : State} (h : AdjacenciesOk s) (d : Degree)
include h

theorem AdjacenciesOk.enterDown (hr : s.cfu.start = .running) : AdjacenciesOk (Machine.enterDown d s) := by
  rw [enterDown_eq]; exact h.greeting hr rfl

/-- A degree enters DETECT from DOWN, DETECT or QUALIFY. -/
theorem AdjacenciesOk.enterDetect (g : GreetBody) (hd : (s.adjacency d).state ∈ [.down, .detect, .qualify]) :
    AdjacenciesOk (Machine.enterDetect d g s) := by
  have ha := (h d).1
  rw [enterDetect_eq]
  refine h.greeting (h.running (d := d) fun k => by simp [k] at hd) ?_
  simp only [List.mem_cons, List.not_mem_nil, or_false] at hd
  rcases hd with hd | hd | hd <;> simp_all [AdjacencyOk, Adjacency.detected]

theorem AdjacenciesOk.enterHold (hd : (s.adjacency d).state = .up) : AdjacenciesOk (Machine.enterHold d s) := by
  have ha := (h d).1
  refine AdjacenciesOk.of_setup (h.greeting (h.running (d := d) (by simp [hd])) ?_) (setup_enterHold d s)
  simp_all [AdjacencyOk, Adjacency.held]

theorem AdjacenciesOk.enterUp (hd : (s.adjacency d).state = .qualify) : AdjacenciesOk (Machine.enterUp d s) := by
  have ha := (h d).1
  refine AdjacenciesOk.of_setup (h.move (a := { s.adjacency d with state := .up }) (by simp [hd]) ?_) (setup_enterUp d s)
  simp_all [AdjacencyOk]

/-! ## GREET, enable, disable and timers (R28 to R37) -/

theorem AdjacenciesOk.takeGreet (g : GreetBody) : AdjacenciesOk (Machine.takeGreet d g s) := by
  have ha := (h d).1
  unfold Machine.takeGreet
  split
  · exact h.of_setup (setup_frameError _ _)
  · dsimp only
    split
    · exact h
    · rename_i hd; exact h.enterDetect d g (by simp [hd])
    · rename_i n hd hn
      unfold greetInDetect
      dsimp only
      split
      · split
        · exact h.move (by simp [hd]) (by simp_all [AdjacencyOk, Adjacency.startDead])
        · exact h.move (by simp [hd]) (by simp_all [AdjacencyOk, Adjacency.startDead])
      · exact h.enterDetect d g (by simp [hd])
    · rename_i n hd hn
      have next : ∀ m, AdjacenciesOk (s.setAdjacency d (Adjacency.startDead s { s.adjacency d with nbr := some m })) :=
        fun m => h.move (by simp [hd]) (by simp_all [AdjacencyOk, Adjacency.startDead])
      unfold greetInQualify
      dsimp only
      split
      · split
        · split
          · exact (next _).enterUp d (by simp [Adjacency.startDead, hd])
          · exact next _
        · exact h.move (by simp [hd]) (by simp_all [AdjacencyOk, Adjacency.startDead])
      · exact h.enterDetect d g (by simp [hd])
    · rename_i n hd hn
      unfold greetInUp
      split
      · exact h.move (by simp [hd]) (by simp_all [AdjacencyOk, Adjacency.startDead])
      · exact h.enterHold d hd
    · rename_i hd
      unfold greetInHold
      split
      · exact h.move (by simp [hd]) (by simp_all [AdjacencyOk])
      · exact h
    · rename_i hd _; exact h.enterDetect d g (by simp [hd])
    · rename_i hd _; exact h.enterDetect d g (by simp [hd])
    · rename_i hd _; exact h.enterHold d hd

theorem AdjacenciesOk.setEnable (on : Bool) : AdjacenciesOk (Machine.setEnable d on s) :=
  h.set (adjacencyOk_enable (h d).1 on) (h d).2

theorem AdjacenciesOk.enableDegree : AdjacenciesOk (Machine.enableDegree d s) := by
  unfold Machine.enableDegree
  dsimp only
  split
  · rename_i k
    simp only [Bool.and_eq_true, beq_iff_eq] at k
    exact (h.setEnable d true).enterDown d k.1
  · exact h.setEnable d true

theorem AdjacenciesOk.disableDegree : AdjacenciesOk (Machine.disableDegree d s) := by
  by_cases k : s.cfu.start ≠ .running ∨ (s.adjacency d).state = .disabled
  · rw [disableDegree_closed k]; exact h.setEnable d false
  · obtain ⟨hr, hd⟩ := not_or.1 k
    rw [disableDegree_open (not_not.1 hr) hd]
    have hl := leaveKeeps d s
    have hs : AdjacenciesOk (s.shut d) := h.set rfl fun _ => rfl
    refine (hs.of_start (t := leaveDegree d s) hl.adm (congrArg Cfu.start hl.cfu)).of_setup ?_
    exact (setup_urgentRequest _).trans (setup_of_blocks (blocks_discardPort d _))

theorem AdjacenciesOk.reach (t : Moment) : AdjacenciesOk (s.reach t) := h

theorem AdjacenciesOk.expireGreet : AdjacenciesOk (Machine.expireGreet d s) := by
  unfold Machine.expireGreet
  split
  · exact h
  · rename_i t ht
    have ha := (h d).1
    have hd : (s.adjacency d).state ≠ .disabled := fun k => by simp [AdjacencyOk, k, ht] at ha
    rw [placeGreet_eq]
    refine (h.reach t).greeting (h.running hd) ?_
    show AdjacencyOk { s.adjacency d with greetTimer := _ }
    simpa [AdjacencyOk, ht] using ha

theorem AdjacenciesOk.expireDead : AdjacenciesOk (Machine.expireDead d s) := by
  unfold Machine.expireDead
  split
  · exact h
  · rename_i t _
    have run : (s.adjacency d).state ≠ .disabled → (s.reach t).cfu.start = .running := h.running
    dsimp only
    split
    · rename_i hd; exact (h.reach t).enterDown d (run (by simp [hd]))
    · rename_i hd; exact (h.reach t).enterDown d (run (by simp [hd]))
    · rename_i hd; exact (h.reach t).enterHold d hd
    · exact h
    · exact h
    · exact h

theorem AdjacenciesOk.expireHoldAt (x : Option Moment) : AdjacenciesOk (Machine.expireHoldAt d x s) := by
  have ha := (h d).1
  unfold Machine.expireHoldAt
  split
  · rename_i t hd
    have hn : ((s.reach t).adjacency d).state ≠ .disabled := by
      show (s.adjacency d).state ≠ .disabled
      simp [hd]
    refine (h.reach t).move hn ?_
    show AdjacencyOk { s.adjacency d with state := .down, nbr := none, holdTimer := none, holdLimit := none }
    simp_all [AdjacencyOk]
  · exact h

theorem AdjacenciesOk.renameDegree (hr : s.cfu.start = .running) : AdjacenciesOk (Machine.renameDegree d s) := by
  have hd := h.enterDown d hr
  unfold Machine.renameDegree
  split
  · exact h
  · exact h
  · exact hd
  · exact hd
  · exact hd
  · exact hd.of_setup rfl

end

/-! ## Start, reset and parameters (R39, R40, R203 to R205) -/

theorem start_renameDegree (d : Degree) (s : State) : (renameDegree d s).cfu.start = s.cfu.start := by
  unfold renameDegree
  split <;> rfl

/-- Every degree is at rest in DISABLED. -/
theorem adjacenciesOk_of_disable {s t : State} (h : ∀ d, t.adjacency d = (s.adjacency d).disable) : AdjacenciesOk t := fun d => by
  rw [h]; exact ⟨rfl, fun _ => rfl⟩

theorem adjacenciesOk_resetPart (s : State) : AdjacenciesOk (resetPart s) := fun d => by
  have : (resetPart s).adjacency d = Adjacency.reset := adjacency_reset d
  rw [this]; exact ⟨rfl, fun _ => rfl⟩

theorem AdjacenciesOk.enterRunning {s : State} (h : AdjacenciesOk s) : AdjacenciesOk (Machine.enterRunning s) := by
  have h1 : AdjacenciesOk { s with cfu := { s.cfu with start := .running } } := fun d => ⟨(h d).1, fun k => absurd rfl k⟩
  have h2 := foldl_inv (fun t => t.cfu.start = .running ∧ AdjacenciesOk t) (fun t d => Machine.enterDown d t)
    (allDegrees.filter fun d => (s.adjacency d).enable) _ (fun t d k => ⟨k.1, k.2.enterDown d k.1⟩) ⟨rfl, h1⟩
  exact h2.2.of_setup (setup_originateNode _)

theorem AdjacenciesOk.enterStart {s : State} (h : AdjacenciesOk s) : AdjacenciesOk (Machine.enterStart s) := by
  unfold Machine.enterStart
  split
  · exact adjacenciesOk_of_disable (s := s) fun d => vget_vec8 _ d
  · exact h.enterRunning

theorem adjacenciesOk_softReset (s : State) : AdjacenciesOk (softReset s) :=
  (adjacenciesOk_of_disable (adjacency_softResetValues s)).enterStart

theorem AdjacenciesOk.paramWritten {s : State} (h : AdjacenciesOk s) (p : ParamId) (sel : Option Nat) (old : Nat) :
    AdjacenciesOk (Machine.paramWritten p sel old s) := by
  have node (b : Bool) : AdjacenciesOk (if b = true then originateNode s else s) := by
    split
    · exact h.of_setup (setup_originateNode s)
    · exact h
  have link (o : Option Degree) :
      AdjacenciesOk (match o with | some d => if s.isUp d then originateLink d s else s | none => s) := by
    split
    · split
      · exact h.of_setup (setup_originateLink _ s)
      · exact h
    · exact h
  cases p with
  | nodeId =>
    simp only [Machine.paramWritten]
    split
    · rename_i hr
      refine AdjacenciesOk.of_setup ?_ (setup_flush _)
      exact (foldl_inv (fun t => t.cfu.start = .running ∧ AdjacenciesOk t) (fun t d => Machine.renameDegree d t) allDegrees s
        (fun t d k => ⟨(start_renameDegree d t).trans k.1, k.2.renameDegree d k.1⟩) ⟨hr, h⟩).2
    · exact h.enterRunning
    · exact h
  | regenCount => exact node _
  | transitAllowed => exact node _
  | degreeCost => exact link _
  | degreeImpairment => exact link _
  | autoCommit =>
    refine h.of_setup ?_
    simp only [Machine.paramWritten, autoWritten]
    split
    · rfl
    · split <;> rfl
  | managerEntry | noticeDest | greetInterval | deadCount | qualifyCount | adjHoldTime | retrigger | refreshInterval
  | tallyInterval | pullWait | settleCount | regenPenalty | resultHoldTime | claimTimeout | referralWait
  | reportedLifetime => exact h

theorem AdjacenciesOk.doWriteParam {s : State} (h : AdjacenciesOk s) (t : ParamTarget) (v : Nat) :
    AdjacenciesOk (Machine.doWriteParam t v s).1 := by
  unfold Machine.doWriteParam
  split
  · exact h
  · split
    · exact h
    · split
      · exact h
      · split
        · exact h
        · dsimp only
          split
          · exact h
          · refine AdjacenciesOk.paramWritten ?_ _ _ _
            exact h.of_start rfl rfl

theorem AdjacenciesOk.applyRecord {s : State} (h : AdjacenciesOk s) (r : ImageRecord) : AdjacenciesOk (Machine.applyRecord s r) := by
  have skip : AdjacenciesOk (skipRecord s) := h.of_start rfl rfl
  cases r with
  | parameter t v =>
    simp only [Machine.applyRecord, applyParameter]
    split
    · exact skip
    · split
      · exact skip
      · split <;> exact h.of_start rfl rfl
  | degreeEnable ds =>
    intro d
    have : (Machine.applyRecord s (.degreeEnable ds)).adjacency d = { s.adjacency d with enable := ds.contains d } := vget_vec8 _ d
    rw [this]
    exact ⟨adjacencyOk_enable (h d).1 _, (h d).2⟩
  | domainEntry n f =>
    simp only [Machine.applyRecord]
    split
    · exact h.of_setup (setup_writeDomain _ _ s)
    · exact skip
  | delegation n peer =>
    have hp : AdjacenciesOk (setPeer n (peerInForce s n peer) s) := h.of_setup (setup_setPeer _ _ s)
    simp only [Machine.applyRecord]
    split
    · exact skip
    · split
      · exact hp
      · exact hp.of_start rfl rfl
  | exclusion r =>
    simp only [Machine.applyRecord]
    split
    · exact skip
    · split
      · exact skip
      · exact h.of_setup (setup_addExclusion _ _ s)
  | noticeEnable mask => exact h.of_start rfl rfl
  | watch w =>
    simp only [Machine.applyRecord]
    split
    · exact h.of_setup (setup_setWatch _ s)
    · exact skip
  | locks gs => exact h.of_start rfl rfl

theorem AdjacenciesOk.completeLoad {s : State} (h : AdjacenciesOk s) (m : MemoryRead) : AdjacenciesOk (Machine.completeLoad m s) := by
  have hl : AdjacenciesOk (takeLoad m s) := by
    unfold takeLoad
    split
    · exact h.of_start rfl rfl
    · exact h.of_start rfl rfl
    · exact foldl_inv AdjacenciesOk _ _ _ (fun t k => foldl_inv AdjacenciesOk _ _ t fun u r hu => hu.applyRecord r) (h.of_start rfl rfl)
  unfold Machine.completeLoad
  split
  · exact hl.enterStart
  · exact h

/-- Adjacencies in order are an invariant of ADM and CFU. -/
theorem setupInv_adjacenciesOk : SetupInv AdjacenciesOk where
  same h e := h.of_setup e
  greet d g _ h := h.takeGreet d g
  enable d _ h := h.enableDegree d
  disable d _ h := h.disableDegree d
  greetTimer d _ h := h.expireGreet d
  deadTimer d _ h := h.expireDead d
  holdTimer d x _ h := h.expireHoldAt d x
  writeParam t v _ h := h.doWriteParam t v
  lockGroup g s h := by cases g <;> exact h.of_start rfl rfl
  softReset {s} _ := adjacenciesOk_softReset s
  load m _ h := h.completeLoad m

end Sys2Proof.Machine

open Sys2Proof.Machine

/-- Settles O59: adjacencies in order are an invariant of ADM and CFU that every reset meets. -/
theorem adjacenciesKeptByEveryStep : Obligations.AdjacenciesKeptByEveryStep := fun _ _ h e =>
  setupInv_adjacenciesOk.step adjacenciesOk_resetPart h e

end

section
/-! SUPPORT. The events of a degree that move no degree into or out of UP: the GREETs, the timers and DEGREE_ENABLE (R26 to R33, R37). -/

namespace Sys2Proof.Machine

/-! ## An adjacency written, and a GREET placed -/

theorem isUp_setAdjacency (s : State) (d e : Degree) (a : Adjacency) :
    (s.setAdjacency d a).isUp e = if d = e then a.state == .up else s.isUp e := by
  rw [State.isUp, adjacency_setAdjacency]
  split <;> rfl

section
variable {s : State} {d : Degree} {a : Adjacency}

/-- FLE has nothing more to place when a degree does not come UP. -/
theorem FloodDone.setAdjacency (h : FloodDone s) (ha : a.state = .up → s.isUp d = true) : FloodDone (s.setAdjacency d a) := by
  refine h.of_fewer_up (fun e he => ?_) rfl fun e _ => by rw [port_setAdjacency]
  rw [isUp_setAdjacency] at he
  split at he
  · rename_i k; exact k ▸ ha (by simpa using he)
  · exact he

/-- Placing a GREET leaves queue and backlog of its port alone. -/
theorem port_greeting_same (s : State) (d : Degree) (a : Adjacency) : ((s.greeting d a).port (.deg d)) =
    (s.port (.deg d)).placeGreet ⟨0x01, 1, 0, s.nodeId, 65535, .greet ⟨s.nodeId, d.val, 0, a.seen⟩⟩ := by
  rw [State.greeting, port_setAdjacency, port_setPort_same]

theorem port_greeting_ne (s : State) (a : Adjacency) {p : Port} (h : .deg d ≠ p) : (s.greeting d a).port p = s.port p := by
  rw [State.greeting, port_setAdjacency, port_setPort_ne _ _ _ _ h]

theorem queue_greeting (s : State) (d : Degree) (a : Adjacency) (p : Port) : ((s.greeting d a).port p).queue = (s.port p).queue := by
  by_cases h : .deg d = p
  · subst h; rw [port_greeting_same]; rfl
  · rw [port_greeting_ne s a h]

theorem FloodDone.greeting (h : FloodDone s) (ha : a.state = .up → s.isUp d = true) : FloodDone (s.greeting d a) := by
  refine (h.setAdjacency (d := d) (a := { a with greetTimer := some (s.now + s.cfu.params.greetInterval) }) ha).of_fewer_up
    (fun e he => he) rfl fun e _ => ?_
  rw [queue_greeting, port_setAdjacency]

theorem Traffic.greeting {is : List NoticeId} {ps : List Port} (h : .deg d ∈ ps) : Traffic is ps s (s.greeting d a) :=
  (Traffic.setPort s _ _ (Or.inl h)).trans (Traffic.of_eq rfl rfl)

/-- A GREET placed stays in its slot while the ports only grow. -/
theorem greetPlaced_of_greeting {is : List NoticeId} {t : State} (h : Traffic is [] (s.greeting d a) t) (hn : t.nodeId = s.nodeId) :
    GreetPlaced d a.seen s t := by
  obtain ⟨⟨more, late, hq, -, hb⟩, -, -, hg, -⟩ := h.1 (.deg d) (by simp)
  rw [port_greeting_same] at hq hb hg
  exact ⟨by rw [hg, hn]; rfl, ⟨more, hq.symm⟩, ⟨late, hb.symm⟩⟩

/-- An event that writes an adjacency. -/
theorem move_event (h : FloodDone s) (ha : a.state = .up → s.isUp d = true) :
    Traffic [] [] s (finish (s.setAdjacency d a)) ∧ (finish (s.setAdjacency d a)).blocks = (s.setAdjacency d a).blocks :=
  ⟨(Traffic.of_eq rfl rfl).trans (Traffic.finish _), (h.setAdjacency ha).blocks_finish⟩

/-- An event that writes an adjacency and places its GREET. -/
theorem greeting_event (h : FloodDone s) (ha : a.state = .up → s.isUp d = true) :
    GreetPlaced d a.seen s (finish (s.greeting d a)) ∧ Traffic [] [.deg d] s (finish (s.greeting d a)) ∧
      (finish (s.greeting d a)).blocks =
        (s.setAdjacency d { a with greetTimer := some (s.now + s.cfu.params.greetInterval) }).blocks :=
  ⟨greetPlaced_of_greeting (Traffic.finish (is := []) _) (by rw [State.nodeId, cfu_finish]; rfl),
    (Traffic.greeting (by simp)).trans (Traffic.finish _), (h.greeting ha).blocks_finish⟩

end

/-! ## A GREET taken (R28 to R33) -/

theorem exec_greet {d : Degree} {g : GreetBody} {s u : State} (hu : u = settle s) (ht : takesInput u (.deg d) = true)
    (hg : g.formOk = true) : exec (.greet d g) s = .next (finish (takeGreet d g u)) := by
  have : takeBody (.deg d) 0 true (.greet g) u = takeGreet d g u := by
    simp [takeBody, ht, passOn, Handled.formOk, hg, passFromDegree]
  rw [← this]; exact event_eq hu

theorem takeGreet_own {d : Degree} {g : GreetBody} {s : State} (h : g.senderNode = s.nodeId) :
    takeGreet d g s = frameError (.deg d) s := by simp [takeGreet, h]

section
variable {d : Degree} {g : GreetBody} {s : State} (h : g.senderNode ≠ s.nodeId)
include h

theorem takeGreet_down (hd : (s.adjacency d).state = .down) : takeGreet d g s = enterDetect d g s := by simp [takeGreet, h, hd]

theorem takeGreet_hold (hd : (s.adjacency d).state = .hold) : takeGreet d g s = greetInHold d s := by simp [takeGreet, h, hd]

variable {n : Neighbour} (hn : (s.adjacency d).nbr = some n)
include hn

theorem takeGreet_detect (hd : (s.adjacency d).state = .detect) : takeGreet d g s = greetInDetect d g n s := by
  simp [takeGreet, h, hd, hn]

theorem takeGreet_qualify (hd : (s.adjacency d).state = .qualify) : takeGreet d g s = greetInQualify d g n s := by
  simp [takeGreet, h, hd, hn]

theorem takeGreet_up (hd : (s.adjacency d).state = .up) : takeGreet d g s = greetInUp d g n s := by simp [takeGreet, h, hd, hn]

end

theorem sameAs_iff {n : Neighbour} {g : GreetBody} :
    n.sameAs g = true ↔ n.node = g.senderNode ∧ n.degree = g.senderDegree ∧ n.domain = g.senderDomain := by
  simp [Neighbour.sameAs, and_assoc]

/-- The qualify counter after a valid GREET, by the gap since the last one (R31). -/
theorem nextCounter_eq {s : State} {n : Neighbour} {c : Nat} {dead : Nat} (hd : dead = s.cfu.params.deadInterval)
    (h : ((∃ l, n.lastGreet = some l ∧ s.now - l ≤ dead) ∧ c = n.counter + 1) ∨
      ((∃ l, n.lastGreet = some l ∧ dead < s.now - l) ∧ c = 1)) : nextCounter s n = c := by
  subst hd
  rcases h with ⟨⟨l, hl, hle⟩, rfl⟩ | ⟨⟨l, hl, hlt⟩, rfl⟩
  · rw [nextCounter, hl, if_pos (by simpa using hle)]
  · rw [nextCounter, hl, if_neg (by simpa [Nat.lt_sub_iff_add_lt] using hlt)]

/-! ## Expiries (R27, R30 to R33) -/

theorem FloodDone.reach {s : State} (h : FloodDone s) (m : Moment) : FloodDone (s.reach m) := h

theorem expireGreet_some {d : Degree} {s : State} {m : Moment} (h : (s.adjacency d).greetTimer = some m) :
    expireGreet d s = (s.reach m).greeting d (s.adjacency d) := by
  rw [expireGreet, h]
  exact placeGreet_eq _ _

theorem expireGreet_none {d : Degree} {s : State} (h : (s.adjacency d).greetTimer = none) : expireGreet d s = s := by
  rw [expireGreet, h]

/-- The hold timer or the hold limit ends HOLD (R33). -/
theorem expireHoldAt_hold {d : Degree} {s : State} {x : Option Moment} {m : Moment} (hd : (s.adjacency d).state = .hold)
    (hx : x = some m) : expireHoldAt d x s = (s.reach m).setAdjacency d { s.adjacency d with
      state := .down, nbr := none, holdTimer := none, holdLimit := none } := by
  simp [expireHoldAt, hd, hx, endHold]
  rfl

theorem expireDead_waiting {d : Degree} {s : State} {m : Moment} (h : (s.adjacency d).deadTimer = some m)
    (hd : (s.adjacency d).state = .detect ∨ (s.adjacency d).state = .qualify) :
    expireDead d s = (s.reach m).greeting d (s.adjacency d).down := by
  have e : expireDead d s = enterDown d (s.reach m) := by rcases hd with hd | hd <;> simp [expireDead, h, hd]
  rw [e, enterDown_eq]; rfl

theorem seen_eq {a : Adjacency} {n : Neighbour} (hs : a.state ∈ [.detect, .qualify, .up]) (hn : a.nbr = some n) :
    a.seen = n.node := by
  simp only [List.mem_cons, List.not_mem_nil, or_false] at hs
  rcases hs with h | h | h <;> simp [Adjacency.seen, h, hn]

theorem seen_zero {a : Adjacency} (hs : a.state ∈ [.down, .hold]) : a.seen = 0 := by
  simp only [List.mem_cons, List.not_mem_nil, or_false] at hs
  rcases hs with h | h <;> simp [Adjacency.seen, h]

end Sys2Proof.Machine

open Sys2Proof Sys2Proof.Machine

/-- Settles O24, by whose GREET it is. -/
theorem greetInDownOpensDetect : Obligations.GreetInDownOpensDetect := by
  intro d g s u hu ht hg
  have hf : FloodDone u := hu ▸ floodDone_settle s
  have run := exec_greet hu ht hg
  refine ⟨fun ho => ?_, fun ho hd => ?_⟩
  · rw [takeGreet_own ho] at run
    exact ⟨_, run, discard_event hf _⟩
  · rw [takeGreet_down ho hd, enterDetect_eq] at run
    obtain ⟨hp, htr, hb⟩ := greeting_event (d := d) (a := (u.adjacency d).detected u g) hf (by simp [Adjacency.detected])
    exact ⟨_, run, hb, hp, htr⟩

/-- Settles O25, by the sender of the GREET, its seen value and the state of the degree. -/
theorem greetInDetectAndQualify : Obligations.GreetInDetectAndQualify := by
  intro d g n s u hu ht hg ho hn hd dead same
  have hf : FloodDone u := hu ▸ floodDone_settle s
  have run := exec_greet hu ht hg
  have take : takeGreet d g u = greetInDetect d g n u ∧ (u.adjacency d).state = .detect ∨
      takeGreet d g u = greetInQualify d g n u ∧ (u.adjacency d).state = .qualify :=
    hd.imp (fun k => ⟨takeGreet_detect ho hn k, k⟩) fun k => ⟨takeGreet_qualify ho hn k, k⟩
  have notUp : (u.adjacency d).state = .up → u.isUp d = true := fun k => by simp [State.isUp, k]
  refine ⟨fun hs hseen hq => ?_, fun hs hseen hq c hc hlt => ?_, fun hs hseen => ?_, fun hs => ?_⟩
  · rw [takeGreet_detect ho hn hq, greetInDetect, if_pos (sameAs_iff.2 hs), if_pos (by simpa using hseen)] at run
    exact ⟨_, run, move_event hf (by simp [Adjacency.startDead])⟩
  · rw [takeGreet_qualify ho hn hq, greetInQualify, if_pos (sameAs_iff.2 hs), if_pos (by simpa using hseen),
      nextCounter_eq rfl hc, if_neg (by omega)] at run
    exact ⟨_, run, move_event hf notUp⟩
  · have e : takeGreet d g u = u.setAdjacency d (Adjacency.startDead u (u.adjacency d)) := by
      rcases take with ⟨k, -⟩ | ⟨k, -⟩
      · rw [k, greetInDetect, if_pos (sameAs_iff.2 hs), if_neg (by simpa using hseen)]
      · rw [k, greetInQualify, if_pos (sameAs_iff.2 hs), if_neg (by simpa using hseen)]
    rw [e] at run
    exact ⟨_, run, move_event hf notUp⟩
  · have e : takeGreet d g u = u.greeting d ((u.adjacency d).detected u g) := by
      rw [← enterDetect_eq]
      rcases take with ⟨k, -⟩ | ⟨k, -⟩
      · rw [k, greetInDetect, if_neg (mt sameAs_iff.1 hs)]
      · rw [k, greetInQualify, if_neg (mt sameAs_iff.1 hs)]
    rw [e] at run
    exact ⟨_, run, greeting_event hf (by simp [Adjacency.detected])⟩

/-- Settles O28, timer by timer. -/
theorem greetAndHoldTimerExpiries : Obligations.GreetAndHoldTimerExpiries := by
  intro d s u hu
  have hf : FloodDone u := hu ▸ floodDone_settle s
  have ended (m : Moment) := move_event (d := d) (a := { u.adjacency d with
    state := .down, nbr := none, holdTimer := none, holdLimit := none }) (hf.reach m) (by simp)
  refine ⟨fun m hm => ?_, fun hm => ?_, fun m hd => ?_⟩
  · have run : exec (.greetTimerExpiry d) s = .next (finish (expireGreet d u)) := event_eq hu
    rw [expireGreet_some hm] at run
    obtain ⟨hp, htr, hb⟩ := greeting_event (d := d) (a := u.adjacency d) (hf.reach m) fun k => by
      show ((u.adjacency d).state == .up) = true
      simp [k]
    exact ⟨_, run, htr, hb, fun hs => by rw [← seen_zero hs]; exact hp, fun hs n hn => by rw [← seen_eq hs hn]; exact hp⟩
  · have run : exec (.greetTimerExpiry d) s = .next (finish (expireGreet d u)) := event_eq hu
    rwa [expireGreet_none hm] at run
  · intro down
    refine ⟨fun hm => ?_, fun hm => ?_⟩
    · have run : exec (.holdTimerExpiry d) s = .next (finish (expireHoldAt d (u.adjacency d).holdTimer u)) :=
        event_eq (f := fun t => expireHoldAt d (t.adjacency d).holdTimer t) hu
      rw [expireHoldAt_hold hd hm] at run
      obtain ⟨ht, hb⟩ := ended m
      exact ⟨_, run, ht, hb⟩
    · have run : exec (.holdLimitExpiry d) s = .next (finish (expireHoldAt d (u.adjacency d).holdLimit u)) :=
        event_eq (f := fun t => expireHoldAt d (t.adjacency d).holdLimit t) hu
      rw [expireHoldAt_hold hd hm] at run
      obtain ⟨ht, hb⟩ := ended m
      exact ⟨_, run, ht, hb⟩

/-- Settles O30, by whether the degree enters DOWN. -/
theorem degreeEnableEntersDown : Obligations.DegreeEnableEntersDown := by
  intro m d s u hu hm
  have hf : FloodDone u := hu ▸ floodDone_settle s
  have run : exec (.degreeEnable m d.val) s =
      .next (finish (answerMgmt (identity m.port m.src) m.tag ⟨.ok, .none⟩ (enableDegree d u))) := by
    have e : manageFrom m (doDegreeEnable d.val) u =
        answerMgmt (identity m.port m.src) m.tag ⟨.ok, .none⟩ (enableDegree d u) := by
      rw [manageFrom_commanded m _ u hm, doDegreeEnable, degree?_val]
    rw [← e]; exact event_eq hu
  refine ⟨fun hr hd => ?_, fun h => ?_⟩
  · have e : enableDegree d u = u.greeting d ⟨.down, true, none, (u.adjacency d).greetTimer, none, none, none⟩ := by
      rw [enableDegree, if_pos (by simp [hr, hd]), ← placeGreet_setAdjacency]
      simp [enterDown, setEnable, setAdjacency_setAdjacency]
    rw [e] at run
    obtain ⟨hb, ha, ht⟩ := answer_event (hf.greeting (d := d)
      (a := ⟨.down, true, none, (u.adjacency d).greetTimer, none, none, none⟩) (by simp)) m ⟨.ok, .none⟩ hm.2.1
    exact ⟨_, run, greetPlaced_of_greeting ht (by rw [State.nodeId, cfu_of_blocks hb]; rfl), ha,
      (Traffic.greeting (by simp)).trans (ht.mono (by simp) (by simp)), hb⟩
  · have e : enableDegree d u = setEnable d true u := by
      rw [enableDegree, if_neg (by rcases h with h | h <;> simp [h])]
    rw [e] at run
    obtain ⟨hb, ha, ht⟩ := answer_event (u := setEnable d true u)
      (hf.setAdjacency fun k => by simpa [State.isUp] using k) m ⟨.ok, .none⟩ hm.2.1
    exact ⟨_, run, ha, (Traffic.of_eq rfl rfl).trans ht, hb⟩

end

section
/-! SUPPORT. A degree's leaving UP for HOLD: a GREET that is not valid, and the dead timer (R32, R35, R103). -/

namespace Sys2Proof.Machine

/-- The own link record originated for a degree that is not UP, FLE's lists of the degree emptied, and ADJACENCY raised (R35, R103). -/
def withdrawLink (d : Degree) (s : State) : State := raise .adjacency [.degree d] (clearFlood d (originateLink d s))

/-- An own link record originated is in the send list of every degree in UP (R94). -/
theorem mem_sendList_originateLink {d e : Degree} {s : State} (hl : s.fle.seq ≤ 0xFFFFFFF0) (hf : OwnLinkFits d s)
    (he : s.isUp e = true) : .link ⟨s.nodeId, d.val⟩ ∈ ((originateLink d s).flood e).sendList := by
  obtain ⟨links, ho, -⟩ := originateLink_own hl hf
  rw [ho]
  refine mem_sendList_addKeyUp ?_ _
  exact he

/-- What a degree's leaving UP leaves of the part beside the records. -/
theorem withdrawLink_field {α : Type} (π : State → α) (d : Degree) (s : State)
    (h : ∀ u : State, π (raise .adjacency [.degree d] (clearFlood d u)) = π u.besideRecords) :
    π (withdrawLink d s) = π s.besideRecords := by
  rw [withdrawLink, h, beside_originateLink]

theorem seq_withdrawLink {d : Degree} {s : State} (h : s.fle.seq ≤ 0xFFFFFFF0) : (withdrawLink d s).fle.seq = s.fle.seq + 1 :=
  seq_originateLink h

theorem flood_withdrawLink (d : Degree) (s : State) : (withdrawLink d s).flood d = ⟨[], [], [], none, none⟩ := by
  simp [withdrawLink, clearFlood, State.flood, State.setFlood, FleDegree.reset]

/-- The state in which the event of a degree's leaving UP for HOLD ends. -/
def heldState (d : Degree) (a : Adjacency) (s : State) : State := finish (urgentRequest (withdrawLink d (s.greeting d a)))

theorem finish_enterHold (d : Degree) (s : State) : finish (enterHold d s) = heldState d ((s.adjacency d).held s) s := by
  rw [enterHold_eq]; rfl

section
variable (d : Degree) (a : Adjacency) (s : State)

theorem heldState_keeps : (heldState d a s).adm = (s.greeting d a).adm ∧ (heldState d a s).now = s.now ∧
    (heldState d a s).dtu = s.dtu ∧ (heldState d a s).tdb = (originateLink d (s.greeting d a)).tdb ∧
    (heldState d a s).fle.seq = (withdrawLink d (s.greeting d a)).fle.seq ∧
    (heldState d a s).fle.slotMaps = s.fle.slotMaps ∧ (heldState d a s).shu = s.shu ∧ (heldState d a s).cfu = s.cfu ∧
    (heldState d a s).cmc.normalReq = s.cmc.normalReq := by
  obtain ⟨ha, hd, ht, hf, hs, hc⟩ := urgentRequest_keeps (withdrawLink d (s.greeting d a))
  have hn := now_of_blocks (blocks_urgentRequest (withdrawLink d (s.greeting d a)))
  refine ⟨(adm_finish _).trans ?_, (now_finish _).trans ?_, (dtu_finish _).trans ?_, (tdb_finish _).trans ht,
    (seq_finish _).trans (congrArg Fle.seq hf), (slotMaps_finish _).trans ?_, (shu_finish _).trans ?_,
    (cfu_finish _).trans ?_, ?_⟩
  · exact ha.trans (withdrawLink_field State.adm d _ fun _ => rfl)
  · exact hn.trans (withdrawLink_field State.now d _ fun _ => rfl)
  · exact hd.trans (withdrawLink_field State.dtu d _ fun _ => rfl)
  · rw [hf]; exact withdrawLink_field (fun x => x.fle.slotMaps) d _ fun _ => rfl
  · exact hs.trans (withdrawLink_field State.shu d _ fun _ => rfl)
  · exact hc.trans (withdrawLink_field State.cfu d _ fun _ => rfl)
  · rw [heldState, cmc_finish, normalReq_urgentRequest]
    exact withdrawLink_field (fun x => x.cmc.normalReq) d _ fun _ => rfl

/-- After its GREET is placed, the ports only grow. -/
theorem traffic_heldState : Traffic [.adjacency, .sequence, .tableFull] [] (s.greeting d a) (heldState d a s) := by
  have hw : Traffic [.adjacency, .sequence, .tableFull] [] (s.greeting d a) (withdrawLink d (s.greeting d a)) :=
    ((Traffic.of_beside (beside_originateLink d _) (by simp) (by simp)).trans (Traffic.of_eq rfl rfl)).trans
      (Traffic.raise (Or.inl (by simp)) _ _)
  exact (hw.trans (Traffic.urgentRequest _)).trans (Traffic.finish _)

theorem greetPlaced_heldState : GreetPlaced d a.seen s (heldState d a s) := by
  obtain ⟨-, -, -, -, -, -, -, hc, -⟩ := heldState_keeps d a s
  exact greetPlaced_of_greeting (traffic_heldState d a s) (by rw [State.nodeId, hc]; rfl)

theorem urgentTaken_heldState : UrgentTaken s (heldState d a s) := by
  refine (urgentTaken_of_ends (ends_finish _)).congr ?_ ?_ ?_ ?_ ?_
  · exact withdrawLink_field State.rsv d _ fun _ => rfl
  · exact withdrawLink_field State.rqu d _ fun _ => rfl
  · exact withdrawLink_field (fun x => { x.cmc with changed := false }) d _ fun _ => rfl
  · exact withdrawLink_field (fun x => x.fsw.fwd) d _ fun _ => rfl
  · exact withdrawLink_field (fun x => x.fsw.fwdGen) d _ fun _ => rfl

end

section
variable {d : Degree} {a : Adjacency} {s : State} (ha : a.state ≠ .up)
include ha

theorem isUp_heldState : (heldState d a s).isUp d = false := by
  obtain ⟨hadm, -⟩ := heldState_keeps d a s
  have hu : (heldState d a s).isUp d = (s.greeting d a).isUp d := by rw [State.isUp, State.adjacency, hadm]; rfl
  rw [hu, State.greeting, isUp_setAdjacency, if_pos rfl]
  simpa using ha

/-- The own link record of a degree in HOLD: withdrawn, and on its way to every degree still UP (R35, R85, R86, R94). -/
theorem heldState_record (hl : s.fle.seq ≤ 0xFFFFFFF0) (hf : OwnLinkFits d s) :
    (heldState d a s).tdb.nodes = s.tdb.nodes ∧
      (TablesOk s → ∀ k, k ≠ ⟨s.nodeId, d.val⟩ → (heldState d a s).tdb.findLink k = s.tdb.findLink k) ∧
      OwnLinkWithdrawn d s.fle.seq s (heldState d a s) ∧
      (s.fle.seq < 0xFFFFFFF0 → ∀ e, (heldState d a s).isUp e = true →
        Floods e (.link ⟨s.nodeId, d.val⟩) (heldState d a s)) := by
  obtain ⟨hadm, -, -, ht, hseq, -, -, hc, -⟩ := heldState_keeps d a s
  have hn : (heldState d a s).nodeId = s.nodeId := by rw [State.nodeId, hc]; rfl
  have hnot := isUp_heldState (d := d) (s := s) ha
  have hup : ∀ e, (heldState d a s).isUp e = (s.greeting d a).isUp e := fun e => by rw [State.isUp, State.adjacency, hadm]; rfl
  obtain ⟨links, ho, hs, hother⟩ := originateLink_own (d := d) (s := s.greeting d a) hl hf
  have hlinks : (heldState d a s).tdb = { s.tdb with links := links } := by rw [ht, ho]; rfl
  have hp : ownLinkPart d (s.greeting d a) = ⟨s.fle.seq, .withdrawn, withdrawalContent s ⟨s.nodeId, d.val⟩⟩ := by
    have : ownLinkContent (s.greeting d a) d = none := by simp [ownLinkContent, ← hup, hnot]
    rw [ownLinkPart, this]
    rfl
  refine ⟨by rw [hlinks], fun k j hj => ?_, ⟨withdrawalContent s ⟨s.nodeId, d.val⟩, ?_, fun e q he hq => withdrawalContent_held he hq,
    withdrawalContent_none⟩, fun hlt e he => ?_⟩
  · rw [hlinks]; exact hother k j hj
  · refine LinkStored.held ?_
    rw [hn, hlinks, ← hp]
    exact hs
  · have hne : d ≠ e := by rintro rfl; rw [hnot] at he; cases he
    obtain ⟨x, hx⟩ := LinkStored.advert (t := urgentRequest (withdrawLink d (s.greeting d a)))
      (by rw [← tdb_finish]; show LinkStored _ _ _ (heldState d a s).tdb.links; rw [hlinks]; exact hs) (by
        have : (urgentRequest (withdrawLink d (s.greeting d a))).fle.seq = s.fle.seq + 1 := by
          rw [← seq_finish]; exact hseq.trans (seq_withdrawLink (s := s.greeting d a) hl)
        omega)
    refine floods_finish hx (Or.inl ?_)
    have hfe : (urgentRequest (withdrawLink d (s.greeting d a))).flood e = (originateLink d (s.greeting d a)).flood e := by
      obtain ⟨-, -, -, hfl, -⟩ := urgentRequest_keeps (withdrawLink d (s.greeting d a))
      rw [State.flood, hfl]
      exact vget_vset_ne _ _ _ _ hne
    rw [hfe]
    exact mem_sendList_originateLink (s := s.greeting d a) hl hf ((hup e).symm.trans he)

theorem leftUp_heldState : LeftUp d s (heldState d a s) := by
  obtain ⟨hadm, -, hdtu, -, hseq, hm, hshu, hc, hnr⟩ := heldState_keeps d a s
  have hfl : (heldState d a s).flood d = (urgentRequest (withdrawLink d (s.greeting d a))).flood d := by
    refine flood_finish_of_not_up ?_
    have := isUp_heldState (d := d) (s := s) ha
    rwa [heldState, State.isUp, State.adjacency, adm_finish] at this
  refine ⟨?_, ?_, urgentTaken_heldState d a s, ?_, hdtu, hshu, hc, ?_, hm, hnr, fun hl =>
    ⟨hseq.trans (seq_withdrawLink (s := s.greeting d a) hl), heldState_record ha hl⟩⟩
  · obtain ⟨-, -, -, hf, -⟩ := urgentRequest_keeps (withdrawLink d (s.greeting d a))
    rw [hfl, State.flood, hf]
    exact flood_withdrawLink d _
  · exact (raised_raise (List.mem_singleton.2 rfl) (clearFlood d (originateLink d (s.greeting d a)))).keeps
      ((Keeps.urgentRequest _).trans (Keeps.finish _))
  · exact (Traffic.greeting (by simp)).trans ((traffic_heldState d a s).mono (fun _ => id) (by simp))
  · obtain ⟨-, -, ht, -⟩ := urgentRequest_keeps (withdrawLink d (s.greeting d a))
    rw [heldState, tdb_finish, ht]
    exact withdrawLink_field (fun x => x.tdb.exclusions) d _ fun _ => rfl

end

theorem expireDead_up {d : Degree} {s : State} {m : Moment} (h : (s.adjacency d).deadTimer = some m)
    (hd : (s.adjacency d).state = .up) : expireDead d s = enterHold d (s.reach m) := by simp [expireDead, h, hd]

end Sys2Proof.Machine

open Sys2Proof Sys2Proof.Machine

/-- Settles O27, by the state of the degree and whether the GREET is valid. -/
theorem greetInUpAndHold : Obligations.GreetInUpAndHold := by
  intro d g n s u hu ht hg ho hn valid hold
  have hf : FloodDone u := hu ▸ floodDone_settle s
  have run := exec_greet hu ht hg
  have isValid : (n.sameAs g && g.seen == u.nodeId) = true ↔ valid := by
    rw [Bool.and_eq_true, sameAs_iff, beq_iff_eq]
    simp [valid, and_assoc]
  refine ⟨fun hd hv => ?_, fun hd hv => ?_, fun hd hr => ?_, fun hd hr => ?_⟩
  · rw [takeGreet_up ho hn hd, greetInUp, if_pos (isValid.2 hv)] at run
    exact ⟨_, run, move_event hf fun k => by simp [State.isUp, hd]⟩
  · rw [takeGreet_up ho hn hd, greetInUp, if_neg (mt isValid.1 hv), finish_enterHold] at run
    obtain ⟨hadm, -⟩ := heldState_keeps d ((u.adjacency d).held u) u
    exact ⟨_, run, greetPlaced_heldState d ((u.adjacency d).held u) u, leftUp_heldState (by simp [Adjacency.held]), hadm⟩
  · rw [takeGreet_hold ho hd, greetInHold, if_pos (by simp [hr])] at run
    exact ⟨_, run, move_event hf fun k => by simp [hd] at k⟩
  · rw [takeGreet_hold ho hd, greetInHold, if_neg (by simp [hr])] at run
    exact ⟨_, run, Traffic.finish _, hf.blocks_finish⟩

/-- Settles O29, by the state of the degree. -/
theorem deadTimerExpiry : Obligations.DeadTimerExpiry := by
  intro d m s u hu hm n hold
  have hf : FloodDone u := hu ▸ floodDone_settle s
  have run : exec (.deadTimerExpiry d) s = .next (finish (expireDead d u)) := event_eq hu
  refine ⟨fun hd => ?_, fun hd => ?_⟩
  · rw [expireDead_waiting hm hd] at run
    exact ⟨_, run, greeting_event (d := d) (a := (u.adjacency d).down) (hf.reach m) (by simp [Adjacency.down])⟩
  · rw [expireDead_up hm hd, finish_enterHold] at run
    obtain ⟨hadm, hnow, -⟩ := heldState_keeps d (((u.reach m).adjacency d).held (u.reach m)) (u.reach m)
    exact ⟨_, run, hnow, greetPlaced_heldState d (((u.reach m).adjacency d).held (u.reach m)) (u.reach m),
      leftUp_heldState (s := u.reach m) (by simp [Adjacency.held]), hadm⟩

end

section
/-! SUPPORT. A degree's coming UP: the valid GREET that completes QUALIFY (R31, R34, R96). -/

namespace Sys2Proof.Machine

/-! ## A tally round opened stays opened (R95, R96) -/

theorem tallyTimer_fleClaim (d e : Degree) (s : State) : ((fleClaim d s).flood e).tallyTimer = (s.flood e).tallyTimer := by
  by_cases hd : d = e
  · subst hd
    unfold fleClaim
    dsimp only
    split
    · split
      · simp [flood_enqueueOwn]
      · split
        · simp [flood_enqueueOwn]
        · split <;> simp [flood_enqueueOwn]
    · rfl
  · rw [flood_fleClaim_ne d e hd]

theorem tallyTimer_finish (s : State) (e : Degree) : ((finish s).flood e).tallyTimer = (s.flood e).tallyTimer :=
  finish_inv (fun t => (t.flood e).tallyTimer = (s.flood e).tallyTimer) (fun d t h => (tallyTimer_fleClaim d e t).trans h)
    (fun t u hb _ h => by rw [State.flood, fle_of_blocks hb]; exact h) rfl

/-- The first TALLY of a round stays at its port while the ports grow. -/
theorem roundStarted_of_queued {d : Degree} {is : List NoticeId} {s t : State} (ht : Traffic is [] s t) (hs : t.steady = s.steady)
    (h : ⟨true, ⟨0x03, 1, 0, s.nodeId, 65535, .tally (nextTally s.tdb 1).1⟩⟩ ∈ (s.port (.deg d)).queue) : RoundStarted d t := by
  obtain ⟨⟨m, _, hq, _⟩, _⟩ := ht.1 (.deg d) (by simp)
  right
  rw [hq, State.nodeId, cfu_of_steady hs, tdb_of_steady hs]
  exact List.mem_append_left _ h

theorem roundStarted_fleClaim {d : Degree} (e : Degree) (s : State) (h : RoundStarted d s) : RoundStarted d (fleClaim e s) := by
  rcases h with h | h
  · by_cases he : e = d
    · subst he
      unfold RoundStarted
      rw [State.nodeId, cfu_of_steady (steady_fleClaim e s), tdb_of_steady (steady_fleClaim e s)]
      unfold fleClaim
      dsimp only
      split
      · split
        · left; simpa [flood_enqueueOwn] using h
        · right
          simp [h, enqueueOwn, ownFrame, kindTally, neighbourDst, State.nodeId]
      · left; exact h
    · left; rw [flood_fleClaim_ne e d he]; exact h
  · exact roundStarted_of_queued (is := []) (Traffic.fleClaim e s) (steady_fleClaim e s) h

theorem roundStarted_finish {d : Degree} {s : State} (h : RoundStarted d s) : RoundStarted d (finish s) :=
  finish_inv (RoundStarted d) (fun e t k => roundStarted_fleClaim e t k) (fun t u hb ht k => by
    rcases k with k | k
    · left; rw [State.flood, fle_of_blocks hb]; exact k
    · exact roundStarted_of_queued ht (steady_of_blocks hb) k) h

/-! ## A degree that comes UP (R34) -/

/-- The own link record of a degree in UP originated, a tally round and its timer started, and ADJACENCY raised (R34). -/
def comeUp (d : Degree) (s : State) : State := raise .adjacency [.degree d] (startRound d (originateLink d s))

theorem enterUp_eq (d : Degree) (s : State) :
    enterUp d s = normalRequest (comeUp d (s.setAdjacency d { s.adjacency d with state := .up })) := rfl

theorem now_of_beside {s t : State} (h : t.besideRecords = s.besideRecords) : t.now = s.now :=
  show t.besideRecords.now = s.besideRecords.now by rw [h]

theorem cfu_of_beside {s t : State} (h : t.besideRecords = s.besideRecords) : t.cfu = s.cfu :=
  show t.besideRecords.cfu = s.besideRecords.cfu by rw [h]

theorem Traffic.normalRequest {is : List NoticeId} {ps : List Port} (s : State) : Traffic is ps s (Machine.normalRequest s) :=
  Traffic.of_eq (by rw [normalRequest_eq]) (by rw [normalRequest_eq])

theorem Keeps.normalRequest (s : State) : Keeps s (Machine.normalRequest s) :=
  Keeps.of_eq (by rw [normalRequest_eq])

theorem flood_normalRequest (s : State) (e : Degree) : (normalRequest s).flood e = s.flood e := by
  rw [normalRequest_eq]; rfl

/-- An idle CMC that is not frozen answers a normal request with SETTLING (R109). -/
theorem normalRequest_idle {s : State} (hi : s.cmc.state = .idle) (hf : s.cmc.frozen = false) :
    normalRequest s = enterSettling { s with cmc := { s.cmc with normalReq := true } } := by
  simp only [normalRequest, hi]
  exact if_neg (by simpa [Cmc.frozen] using hf)

/-- What a degree's coming UP leaves of the part beside the records. -/
theorem comeUp_field {α : Type} (π : State → α) (d : Degree) (s : State)
    (h : ∀ u : State, π (raise .adjacency [.degree d] (startRound d u)) = π u.besideRecords) :
    π (comeUp d s) = π s.besideRecords := by
  rw [comeUp, h, beside_originateLink]

/-- The state in which the event of a degree's coming UP ends. -/
def upState (d : Degree) (s : State) : State := finish (normalRequest (comeUp d s))

section
variable (d : Degree) (s : State)

theorem upState_keeps : (upState d s).adm = s.adm ∧ (upState d s).tdb = (originateLink d s).tdb ∧
    (upState d s).fle.seq = (originateLink d s).fle.seq ∧ (upState d s).fle.slotMaps = s.fle.slotMaps ∧
    (upState d s).rqu = s.rqu ∧ (upState d s).rsv = s.rsv ∧ (upState d s).shu = s.shu ∧ (upState d s).dtu = s.dtu ∧
    (upState d s).cfu = s.cfu ∧ (upState d s).cmc = (normalRequest (comeUp d s)).cmc := by
  rw [upState, normalRequest_eq]
  refine ⟨(adm_finish _).trans ?_, tdb_finish _, seq_finish _, (slotMaps_finish _).trans ?_, (rqu_finish _).trans ?_,
    (rsv_finish _).trans ?_, (shu_finish _).trans ?_, (dtu_finish _).trans ?_, (cfu_finish _).trans ?_, cmc_finish _⟩
  · exact comeUp_field State.adm d _ fun _ => rfl
  · exact comeUp_field (fun x => x.fle.slotMaps) d _ fun _ => rfl
  · exact comeUp_field State.rqu d _ fun _ => rfl
  · exact comeUp_field State.rsv d _ fun _ => rfl
  · exact comeUp_field State.shu d _ fun _ => rfl
  · exact comeUp_field State.dtu d _ fun _ => rfl
  · exact comeUp_field State.cfu d _ fun _ => rfl

theorem traffic_upState : Traffic [.adjacency, .sequence, .tableFull] [] s (upState d s) := by
  have hc : Traffic [.adjacency, .sequence, .tableFull] [] s (comeUp d s) :=
    ((Traffic.of_beside (beside_originateLink d s) (by simp) (by simp)).trans (Traffic.of_eq rfl rfl)).trans
      (Traffic.raise (Or.inl (by simp)) _ _)
  exact (hc.trans (Traffic.normalRequest _)).trans (Traffic.finish _)

theorem raised_upState : Raised .adjacency (.degree d) (upState d s) :=
  (raised_raise (List.mem_singleton.2 rfl) (startRound d (originateLink d s))).keeps
    ((Keeps.normalRequest (comeUp d s)).trans (Keeps.finish _))

theorem flood_comeUp : ((comeUp d s).flood d) = { (originateLink d s).flood d with
    round := some 1, tallyTimer := some (s.now + s.cfu.params.tallyInterval * 1000) } := by
  rw [← now_of_beside (beside_originateLink d s), ← cfu_of_beside (beside_originateLink d s)]
  exact vget_vset_same _ _ _

theorem roundStarted_upState : RoundStarted d (upState d s) := by
  refine roundStarted_finish (Or.inl ?_)
  rw [flood_normalRequest, flood_comeUp]

theorem tallyTimer_upState : ((upState d s).flood d).tallyTimer = some (s.now + s.cfu.params.tallyInterval * 1000) := by
  rw [upState, tallyTimer_finish, flood_normalRequest, flood_comeUp]

/-- The commit that a degree's coming UP asks for: SETTLING opens from an idle CMC that is not frozen (R108, R109). -/
theorem commit_upState : (upState d s).cmc.normalReq = true ∧
    (s.cmc.state = .idle → s.cmc.freeze = false → s.cmc.gen ≠ 0xFFFFFFFF → (upState d s).cmc.state = .settling ∧
      (upState d s).cmc.settle = 0 ∧ (upState d s).cmc.checks = 0 ∧ (upState d s).cmc.checkTimer = some (s.now + 100)) := by
  obtain ⟨-, -, -, -, -, -, -, -, -, hc⟩ := upState_keeps d s
  have hstate : (comeUp d s).cmc.state = s.cmc.state := comeUp_field (fun x => x.cmc.state) d s fun _ => rfl
  have hfrozen : (comeUp d s).cmc.frozen = s.cmc.frozen := comeUp_field (fun x => x.cmc.frozen) d s fun _ => rfl
  have hnow : (comeUp d s).now = s.now := comeUp_field State.now d s fun _ => rfl
  rw [hc]
  refine ⟨normalReq_normalRequest _, fun hi hf hg => ?_⟩
  have hn : s.cmc.frozen = false := by simp [Cmc.frozen, hf, Config.lastGeneration, hg]
  rw [normalRequest_idle (hstate.trans hi) (hfrozen.trans hn), ← hnow]
  exact ⟨rfl, rfl, rfl, rfl⟩

end

/-- An own link record originated for a degree in UP, as `OwnLinkHeld` reads it in a later state with its records and CFU's
state. -/
theorem ownLinkHeld_of_originate {d : Degree} {c : LinkContent} {s t : State} (hc : ownLinkContent s d = some c)
    (hl : s.fle.seq ≤ 0xFFFFFFF0) (hf : OwnLinkFits d s) (ht : t.tdb = (originateLink d s).tdb) (hcfu : t.cfu = s.cfu) :
    OwnLinkHeld d ⟨s.fle.seq, .active, c⟩ t := by
  obtain ⟨links, ho, hs, -⟩ := originateLink_own hl hf
  have hlinks : t.tdb.links = links := by rw [ht, ho]; rfl
  refine LinkStored.held ?_
  have hid : t.nodeId = s.nodeId := by rw [State.nodeId, hcfu]; rfl
  rw [hlinks, hid]
  simpa [ownLinkPart, ownLinkAge, hc] using hs

/-- An own link record originated can be sent. -/
theorem originateLink_sendable {d : Degree} {s : State} (hl : s.fle.seq < 0xFFFFFFF0) (hf : OwnLinkFits d s) :
    ∃ a, keyAdvert (originateLink d s) (.link ⟨s.nodeId, d.val⟩) = some a := by
  obtain ⟨links, ho, hs, -⟩ := originateLink_own (Nat.le_of_lt hl) hf
  refine LinkStored.advert (p := ownLinkPart d s) (age := ownLinkAge d s) ?_ ?_
  · rw [ho]; exact hs
  · rw [seq_originateLink (Nat.le_of_lt hl)]; omega

/-- The own link record of a degree that comes UP: active, and on its way to every degree in UP (R34, R86, R94). -/
theorem upState_record {d : Degree} {n : Neighbour} {s : State} (hu : s.isUp d = true) (hn : (s.adjacency d).nbr = some n)
    (hl : s.fle.seq ≤ 0xFFFFFFF0) (hf : OwnLinkFits d s) :
    OwnLinkHeld d ⟨s.fle.seq, .active, ⟨n.node, if n.domain = 0 then some n.degree else none,
        vget s.cfu.params.degreeCost d, vget s.cfu.params.degreeImp d, vget s.fle.slotMaps d⟩⟩ (upState d s) ∧
      (s.fle.seq < 0xFFFFFFF0 → ∀ e, s.isUp e = true → Floods e (.link ⟨s.nodeId, d.val⟩) (upState d s)) := by
  obtain ⟨-, ht, -, -, -, -, -, -, hc, -⟩ := upState_keeps d s
  have hcont := ownLinkContent_of_up hu hn
  refine ⟨ownLinkHeld_of_originate hcont hl hf ht hc, fun hlt e he => ?_⟩
  obtain ⟨a, ha⟩ := originateLink_sendable hlt hf
  have hkey : keyAdvert (normalRequest (comeUp d s)) (.link ⟨s.nodeId, d.val⟩) = some a := by rw [normalRequest_eq, ← ha]; rfl
  refine floods_finish hkey (Or.inl ?_)
  have hlist : ((comeUp d s).flood e).sendList = ((originateLink d s).flood e).sendList := by
    by_cases h : d = e
    · subst h; rw [flood_comeUp]
    · exact congrArg FleDegree.sendList (vget_vset_ne _ _ _ _ h)
  rw [flood_normalRequest, hlist]
  exact mem_sendList_originateLink hl hf he

end Sys2Proof.Machine

open Sys2Proof Sys2Proof.Machine

/-- Settles O26: the GREET is valid and completes QUALIFY, so the event is that of the degree's coming UP. -/
theorem greetCompletesQualify : Obligations.GreetCompletesQualify := by
  intro d g n l s u hu ht hg ho hd hn hnode hdeg hdom hseen hlast hgap hcount
  have hc : nextCounter u n = n.counter + 1 := nextCounter_eq rfl (Or.inl ⟨⟨l, hlast, hgap⟩, rfl⟩)
  let a : Adjacency := { u.adjacency d with
    state := .up, nbr := some { n with counter := n.counter + 1, lastGreet := some u.now }
    deadTimer := some (u.now + u.cfu.params.deadCount * u.cfu.params.greetInterval) }
  have run := exec_greet hu ht hg
  have take : takeGreet d g u = normalRequest (comeUp d (u.setAdjacency d a)) := by
    rw [takeGreet_qualify ho hn hd, greetInQualify, if_pos (sameAs_iff.2 ⟨hnode, hdeg, hdom⟩), if_pos (by simpa using hseen), hc,
      if_pos hcount, enterUp_eq, setAdjacency_setAdjacency]
    simp [a, Adjacency.startDead, Neighbour.valid, Params.deadInterval]
  rw [take] at run
  have up : (u.setAdjacency d a).isUp d = true := by rw [isUp_setAdjacency, if_pos rfl]; rfl
  have nbr : ((u.setAdjacency d a).adjacency d).nbr = some { n with counter := n.counter + 1, lastGreet := some u.now } := by
    simp [a]
  obtain ⟨hadm, -, hseq, -, hrqu, hrsv, hshu, hdtu, hcfu, -⟩ := upState_keeps d (u.setAdjacency d a)
  obtain ⟨hnr, hcommit⟩ := commit_upState d (u.setAdjacency d a)
  refine ⟨_, run, hadm, roundStarted_upState d _, tallyTimer_upState d _, hnr, hcommit, raised_upState d _,
    traffic_upState d (u.setAdjacency d a), fun hl => ⟨hseq.trans (seq_originateLink (s := u.setAdjacency d a) hl), fun hfits => ?_⟩,
    hrqu, hrsv, hshu, hdtu, hcfu⟩
  obtain ⟨hheld, hfloods⟩ := upState_record up nbr hl hfits
  refine ⟨hheld, fun hlt e he => hfloods hlt e ?_⟩
  rw [State.isUp, State.adjacency, ← hadm]
  exact beq_iff_eq.2 he

end

section
/-! SUPPORT. The own node record: what its origination writes, and that it is flooded (R61 to R63, R83 to R86, R94). -/

namespace Sys2Proof.Machine

/-- A node table with a native record under an identifier, written with a pending part and the full age. -/
def NodeStored (id : NodeId) (p : Part NodeContent) (nodes : List (Nat × NodeRec)) : Prop :=
  ∃ i v b, nodes.find? (fun e => e.2.id == id) = some (i, ⟨id, Versions.write p 3600 none v, b⟩) ∧ v.domain = 0

/-- The own node record, when it fits, is stored. -/
theorem writeNode_own {s : State} (p : Part NodeContent) (hf : OwnNodeFits s) : ∃ nodes inc,
    writeNode ⟨s.nodeId, 0, none, p, Config.fullAge⟩ s =
      (afterWrite s.nodeId { s with tdb := { s.tdb with nodes := nodes, incomplete := inc } }, true) ∧
    NodeStored s.nodeId p nodes := by
  unfold writeNode
  unfold OwnNodeFits at hf
  dsimp only
  cases hk : s.tdb.findNode s.nodeId with
  | some e =>
    obtain ⟨i, r⟩ := e
    rw [hk] at hf
    have hid : r.id = s.nodeId := by simpa [Tdb.findNode] using List.find?_some hk
    have hd : r.ver.domain = 0 := hf
    refine ⟨tput s.tdb.nodes i { r with ver := r.ver.write p Config.fullAge none }, s.tdb.incomplete, by simp [hd],
      i, r.ver, r.incomplete, ?_, hd⟩
    rw [find_tput_self (by simp [hid]) fun e he => ?_, hid]
    · rfl
    · rw [show s.tdb.nodes.find? _ = some (i, r) from hk] at he
      exact (congrArg Prod.fst (Option.some.inj he)).symm
  | none =>
    rw [hk] at hf
    obtain ⟨hlinks, hl⟩ := hf
    have hdom : (s.tdb.links.any fun e => e.2.key.origin == s.nodeId && e.2.ver.domain != 0) = false := by
      simp only [List.any_eq_false, Bool.and_eq_true, beq_iff_eq, bne_iff_ne, not_and, not_not]
      exact hlinks
    have hroom : s.tdb.nodeRoom s.nodeId s.nodeId = true := by simp [Tdb.nodeRoom, Config.nodeTableSize, hl]
    have hfree := lowestFree_of_room (t := s.tdb.nodes) (cap := Config.nodeTableSize) hl
    refine ⟨tput s.tdb.nodes (lowestFreeFrom s.tdb.nodes 0)
        ⟨s.nodeId, Versions.insert 0 p Config.fullAge none, s.tdb.incomplete.contains s.nodeId⟩,
      s.tdb.incomplete.filter (· != s.nodeId), by simp [hdom, hroom, hfree], _, ⟨0, none, none, none, 0, none⟩, _,
      find_tput_self (by simp) fun e he => ?_, rfl⟩
    rw [show s.tdb.nodes.find? _ = none from hk] at he; cases he

theorem seq_writeNode (w : NodeWrite) (s : State) : (writeNode w s).1.fle.seq = s.fle.seq := by
  unfold writeNode
  dsimp only
  split
  · split <;> rfl
  · split
    · rfl
    · split
      · rfl
      · split <;> rfl

/-- The part the own node record is originated with, while the counter is live (R85). -/
def ownNodePart (s : State) : Part NodeContent := ⟨s.fle.seq, .active, ownNodeContent s⟩

theorem originateNode_live {s : State} (h : s.fle.live = true) : originateNode s =
    if (writeNode ⟨s.nodeId, 0, none, ownNodePart s, Config.fullAge⟩ (takeSeq s)).2 then
      addKeyUp none (.node s.nodeId) (writeNode ⟨s.nodeId, 0, none, ownNodePart s, Config.fullAge⟩ (takeSeq s)).1
    else (writeNode ⟨s.nodeId, 0, none, ownNodePart s, Config.fullAge⟩ (takeSeq s)).1 := by
  unfold originateNode ownNodePart
  simp only [h, if_true]

theorem seq_originateNode {s : State} (h : s.fle.seq ≤ 0xFFFFFFF0) : (originateNode s).fle.seq = s.fle.seq + 1 := by
  have e : ∀ w, (writeNode w (takeSeq s)).1.fle.seq = s.fle.seq + 1 := fun w => seq_writeNode w _
  rw [originateNode_live (live_iff.2 h)]
  split
  · exact e _
  · exact e _

/-- An origination of the own node record that fits, while the counter is live (R83, R86, R94). -/
theorem originateNode_own {s : State} (hl : s.fle.seq ≤ 0xFFFFFFF0) (hf : OwnNodeFits s) : ∃ nodes inc,
    originateNode s = addKeyUp none (.node s.nodeId)
      (afterWrite s.nodeId { takeSeq s with tdb := { s.tdb with nodes := nodes, incomplete := inc } }) ∧
    NodeStored s.nodeId (ownNodePart s) nodes := by
  obtain ⟨nodes, inc, hw, hs⟩ := writeNode_own (s := takeSeq s) (ownNodePart s) hf
  have hw' : writeNode ⟨s.nodeId, 0, none, ownNodePart s, Config.fullAge⟩ (takeSeq s) =
    (afterWrite s.nodeId { takeSeq s with tdb := { s.tdb with nodes := nodes, incomplete := inc } }, true) := hw
  refine ⟨nodes, inc, ?_, hs⟩
  rw [originateNode_live (live_iff.2 hl), hw']
  rfl

/-- A native node record stored can be sent while the counter is live. -/
theorem NodeStored.advert {id : NodeId} {p : Part NodeContent} {t : State} (h : NodeStored id p t.tdb.nodes)
    (hl : t.fle.seq ≤ 0xFFFFFFF0) : ∃ a, keyAdvert t (.node id) = some a := by
  obtain ⟨i, v, b, hf, hd⟩ := h
  have hf' : t.tdb.findNode id = some (i, ⟨id, Versions.write p 3600 none v, b⟩) := hf
  refine ⟨_, by rw [keyAdvert, live_iff.2 hl]; simp [hf', nodeAdvert, Versions.working, Versions.write, hd]; rfl⟩

/-- An own node record originated, as `OwnNodeHeld` reads it in a later state with its records and CFU's state. -/
theorem ownNodeHeld_of_originate {s t : State} (hl : s.fle.seq ≤ 0xFFFFFFF0) (hf : OwnNodeFits s)
    (ht : t.tdb = (originateNode s).tdb) (hc : t.cfu = s.cfu) : OwnNodeHeld s.fle.seq t := by
  obtain ⟨nodes, inc, ho, i, v, b, hs, -⟩ := originateNode_own hl hf
  have hn : t.tdb.nodes = nodes := by rw [ht, ho]; rfl
  refine ⟨_, by rw [Tdb.findNode, hn, State.nodeId, hc]; exact hs, rfl, rfl, ?_⟩
  rw [hc]; rfl

/-- The key of an own node record originated is in the send list of every degree in UP, and can be sent (R94). -/
theorem originateNode_sendable {s : State} (hl : s.fle.seq < 0xFFFFFFF0) (hf : OwnNodeFits s) :
    (∃ a, keyAdvert (originateNode s) (.node s.nodeId) = some a) ∧
      ∀ e, s.isUp e = true → .node s.nodeId ∈ ((originateNode s).flood e).sendList := by
  obtain ⟨nodes, inc, ho, hs⟩ := originateNode_own (Nat.le_of_lt hl) hf
  refine ⟨NodeStored.advert (p := ownNodePart s) ?_ ?_, fun e he => ?_⟩
  · rw [ho]; exact hs
  · rw [seq_originateNode (Nat.le_of_lt hl)]; omega
  · rw [ho]
    refine mem_sendList_addKeyUp ?_ _
    exact he

end Sys2Proof.Machine
end

section
/-! SUPPORT. WRITE_PARAM: the value written, and what a changed parameter does at once (R38, R87, R107, R208 to R210). -/

namespace Sys2Proof.Machine

/-! ## The table of parameters -/

theorem vget?_lt {α : Type} {n i : Nat} (v : Vector α n) (h : i < n) : vget? v i = some (vget v ⟨i, h⟩) := dif_pos h

/-- A selected entry written with its own value changes nothing. -/
theorem select_selected {n : Nat} (v : Vector Nat n) (sel : Option Nat) : select v sel (selected v sel) = v := by
  cases sel with
  | none => rfl
  | some i =>
    unfold select
    dsimp only
    split
    · rename_i h
      have e : selected v (some i) = vget v ⟨i, h⟩ := by simp [selected, vget?_lt v h]
      rw [e]
      simp [vset, vget]
    · rfl

theorem setParam_getParam (ps : Params) (p : ParamId) (sel : Option Nat) : setParam ps p sel (getParam ps p sel) = ps := by
  cases p <;> simp [setParam, getParam, select_selected]

theorem nodeId_setParam {p : ParamId} (h : p ≠ .nodeId) (ps : Params) (sel : Option Nat) (v : Nat) :
    (setParam ps p sel v).nodeId = ps.nodeId := by
  cases p with
  | nodeId => exact absurd rfl h
  | _ => rfl

/-- An enumerated parameter has step 0; the bounds of any other are multiples of its step (R208). -/
theorem paramRange_cases (p : ParamId) :
    (p ∈ [ParamId.retrigger, .transitAllowed] ∧ (paramRange p).step = 0 ∧ (paramRange p).high = 1) ∨
      (p ∉ [ParamId.retrigger, .transitAllowed] ∧ 0 < (paramRange p).step ∧ (paramRange p).low ≤ (paramRange p).high ∧
        (paramRange p).step ∣ (paramRange p).low ∧ (paramRange p).step ∣ (paramRange p).high) := by
  cases p <;> decide

theorem clampParam_enumerated {p : ParamId} (h : p ∈ [ParamId.retrigger, .transitAllowed]) (old v : Nat) :
    clampParam p old v = if v ≤ 1 then v else old := by
  rcases paramRange_cases p with ⟨-, hs, hh⟩ | ⟨hn, -⟩
  · simp [clampParam, hs, hh]
  · exact absurd h hn

/-- A value clamped to its range and rounded down to its step, in either order (R209). -/
theorem clampParam_ranged {p : ParamId} (h : p ∉ [ParamId.retrigger, .transitAllowed]) (old v : Nat) : clampParam p old v =
    max (paramRange p).low (min v (paramRange p).high / (paramRange p).step * (paramRange p).step) := by
  rcases paramRange_cases p with ⟨hm, -⟩ | ⟨-, hs, hle, hlow, hhigh⟩
  · exact absurd hm h
  · unfold clampParam
    dsimp only
    rw [if_neg (by simpa using Nat.ne_of_gt hs)]
    split
    · rename_i hlt
      have : min v (paramRange p).high / (paramRange p).step * (paramRange p).step ≤ min v (paramRange p).high := Nat.div_mul_le_self _ _
      omega
    · split
      · rename_i hgt
        rw [Nat.min_eq_right (Nat.le_of_lt hgt), Nat.div_mul_cancel hhigh, Nat.max_eq_right hle]
      · rename_i hge hle'
        have hfloor : (paramRange p).low / (paramRange p).step * (paramRange p).step ≤ v / (paramRange p).step * (paramRange p).step :=
          Nat.mul_le_mul_right _ (Nat.div_le_div_right (Nat.le_of_not_lt hge))
        rw [Nat.div_mul_cancel hlow] at hfloor
        rw [Nat.min_eq_left (Nat.le_of_not_lt hle'), Nat.max_eq_right hfloor]

theorem paramLocked_iff {s : State} {p : ParamId} :
    paramLocked s p = true ↔ ∃ g, paramGroup p = some g ∧ s.cfu.locks.has g = true := by
  simp [paramLocked, Option.any_eq_true]

/-- The degree that the parameters of a degree are written with. -/
theorem degree_of_targetOk {p : ParamId} {sel : Option Nat} (h : targetOk ⟨some p, sel⟩ = true)
    (hp : p ∈ [ParamId.degreeCost, .degreeImpairment]) : ∃ d : Degree, sel = some d.val := by
  simp only [List.mem_cons, List.not_mem_nil, or_false] at hp
  cases sel with
  | none => rcases hp with rfl | rfl <;> cases h
  | some n =>
    have hn : n ≤ 7 := by rcases hp with rfl | rfl <;> exact of_decide_eq_true h
    exact ⟨⟨n, by omega⟩, rfl⟩

/-! ## What a changed parameter does at once -/

theorem paramWritten_node {p : ParamId} (h : p ∈ [ParamId.regenCount, .transitAllowed]) (sel : Option Nat) (old : Nat) (s : State) :
    paramWritten p sel old s = if s.cfu.start == .running then originateNode s else s := by
  simp only [List.mem_cons, List.not_mem_nil, or_false] at h
  rcases h with rfl | rfl <;> rfl

theorem paramWritten_link {p : ParamId} (h : p ∈ [ParamId.degreeCost, .degreeImpairment]) (d : Degree) (old : Nat) (s : State) :
    paramWritten p (some d.val) old s = if s.isUp d then originateLink d s else s := by
  simp only [List.mem_cons, List.not_mem_nil, or_false] at h
  rcases h with rfl | rfl <;> simp [paramWritten, degree?_val]

theorem paramWritten_other {p : ParamId}
    (h : p ∉ [ParamId.nodeId, .regenCount, .transitAllowed, .degreeCost, .degreeImpairment, .autoCommit])
    (sel : Option Nat) (old : Nat) (s : State) : paramWritten p sel old s = s := by
  cases p with
  | nodeId | regenCount | transitAllowed | degreeCost | degreeImpairment | autoCommit => exact absurd (by decide) h
  | _ => rfl

/-- A written value is announced: it is new, and it is a value of the own node record in RUNNING or of the own link record of a
degree in UP (R87). -/
def Announced (p : ParamId) (sel : Option Nat) (w : Nat) (u : State) : Prop :=
  w ≠ getParam u.cfu.params p sel ∧ ((p ∈ [.regenCount, .transitAllowed] ∧ u.cfu.start = .running) ∨
    (p ∈ [.degreeCost, .degreeImpairment] ∧ ∃ d : Degree, sel = some d.val ∧ u.isUp d = true))

/-- A part that has taken WRITE_PARAM with an effective value. -/
def State.written (u : State) (p : ParamId) (sel : Option Nat) (w : Nat) : State :=
  if w = getParam u.cfu.params p sel then u else paramWritten p sel (getParam u.cfu.params p sel) (writeParams p sel w u)

theorem writeParams_old {u : State} {p : ParamId} {sel : Option Nat} {w : Nat} (h : w = getParam u.cfu.params p sel) :
    writeParams p sel w u = u := by rw [writeParams, h, setParam_getParam]

/-- The branches of a parameter's write: its own node record or its own link record is originated, the auto-commit timer is set, or
nothing more is done. -/
theorem written_cases {p : ParamId} {sel : Option Nat} (hp : p ≠ .nodeId) (ht : targetOk ⟨some p, sel⟩ = true) (w : Nat) (u : State) :
    (p ∈ [ParamId.regenCount, .transitAllowed] ∧ Announced p sel w u ∧
        u.written p sel w = originateNode (writeParams p sel w u)) ∨
      (∃ d : Degree, sel = some d.val ∧ u.isUp d = true ∧ p ∈ [ParamId.degreeCost, .degreeImpairment] ∧ Announced p sel w u ∧
        u.written p sel w = originateLink d (writeParams p sel w u)) ∨
      (p = .autoCommit ∧ w ≠ getParam u.cfu.params p sel ∧ ¬ Announced p sel w u ∧
        u.written p sel w = autoWritten (getParam u.cfu.params p sel) (writeParams p sel w u)) ∨
      (¬ Announced p sel w u ∧ (p = .autoCommit → w = getParam u.cfu.params p sel) ∧
        u.written p sel w = writeParams p sel w u) := by
  by_cases hw : w = getParam u.cfu.params p sel
  · exact Or.inr (Or.inr (Or.inr ⟨fun h => h.1 hw, fun _ => hw, by rw [State.written, if_pos hw, writeParams_old hw]⟩))
  have e : u.written p sel w = paramWritten p sel (getParam u.cfu.params p sel) (writeParams p sel w u) := if_neg hw
  have onlyNode (hm : p ∈ [ParamId.regenCount, .transitAllowed]) : p ∉ [ParamId.degreeCost, .degreeImpairment] ∧ p ≠ .autoCommit := by
    simp only [List.mem_cons, List.not_mem_nil, or_false] at hm
    rcases hm with rfl | rfl <;> decide
  have onlyLink (hm : p ∈ [ParamId.degreeCost, .degreeImpairment]) : p ∉ [ParamId.regenCount, .transitAllowed] ∧ p ≠ .autoCommit := by
    simp only [List.mem_cons, List.not_mem_nil, or_false] at hm
    rcases hm with rfl | rfl <;> decide
  by_cases hn : p ∈ [ParamId.regenCount, .transitAllowed]
  · obtain ⟨notLink, notAuto⟩ := onlyNode hn
    rw [paramWritten_node hn] at e
    by_cases hr : u.cfu.start = .running
    · exact Or.inl ⟨hn, ⟨hw, Or.inl ⟨hn, hr⟩⟩, e.trans (if_pos (by simpa [writeParams] using hr))⟩
    · refine Or.inr (Or.inr (Or.inr ⟨fun h => ?_, fun k => absurd k notAuto, e.trans (if_neg (by simpa [writeParams] using hr))⟩))
      rcases h.2 with ⟨-, k⟩ | ⟨k, -⟩
      · exact hr k
      · exact notLink k
  by_cases hl : p ∈ [ParamId.degreeCost, .degreeImpairment]
  · obtain ⟨notNode, notAuto⟩ := onlyLink hl
    obtain ⟨d, rfl⟩ := degree_of_targetOk ht hl
    rw [paramWritten_link hl] at e
    by_cases hu : u.isUp d = true
    · exact Or.inr (Or.inl ⟨d, rfl, hu, hl, ⟨hw, Or.inr ⟨hl, d, rfl, hu⟩⟩, e.trans (if_pos hu)⟩)
    · refine Or.inr (Or.inr (Or.inr ⟨fun h => ?_, fun k => absurd k notAuto, e.trans (if_neg hu)⟩))
      rcases h.2 with ⟨k, -⟩ | ⟨-, d', k, hd'⟩
      · exact notNode k
      · obtain rfl : d = d' := Fin.ext (Option.some.inj k)
        exact hu hd'
  have quiet : ¬ Announced p sel w u := fun h => h.2.elim (fun k => hn k.1) fun k => hl k.1
  by_cases ha : p = .autoCommit
  · subst ha; exact Or.inr (Or.inr (Or.inl ⟨rfl, hw, quiet, e⟩))
  · refine Or.inr (Or.inr (Or.inr ⟨quiet, fun k => absurd k ha, e.trans (paramWritten_other (fun hm => ?_) _ _ _)⟩))
    simp only [List.mem_cons, List.not_mem_nil, or_false] at hm hn hl
    tauto

/-- The command where its group is open: the value is clamped, written and answered (R209). -/
theorem doWriteParam_open {p : ParamId} {sel : Option Nat} {v w : Nat} {s : State} (hp : p ≠ .nodeId)
    (ht : targetOk ⟨some p, sel⟩ = true) (hl : paramLocked s p = false) (hw : clampParam p (getParam s.cfu.params p sel) v = w) :
    doWriteParam ⟨some p, sel⟩ v s = (s.written p sel w, ⟨if w = v then .ok else .adjusted, .param ⟨some p, sel⟩ w⟩) := by
  have hb : (p == ParamId.nodeId) = false := by simpa using hp
  simp [doWriteParam, ht, hl, nodeIdRefused, effective, hb, hw, State.written]

theorem doWriteParam_locked {p : ParamId} {sel : Option Nat} {v : Nat} {s : State} (ht : targetOk ⟨some p, sel⟩ = true)
    (hl : paramLocked s p = true) : doWriteParam ⟨some p, sel⟩ v s = (s, ⟨.locked, .none⟩) := by
  simp [doWriteParam, ht, hl, refuse]

end Sys2Proof.Machine
end

section
/-! SUPPORT. WRITE_PARAM of every parameter but the node ID: what the write leaves unchanged, and its own records (R87, R94, R107). -/

namespace Sys2Proof.Machine

/-- The parts that no parameter's write but that of the node ID touches, CFU's state among them. -/
def State.aside (s : State) : Vector Adjacency 8 × Vector DomainEntry 16 × Rqu × Rsv × Shu × List (Nat × FwdEntry) × Vector (Option Watch) 8 × Cfu :=
  (s.adm, s.dtu, s.rqu, s.rsv, s.shu, s.fsw.fwd, s.ntu.watches, s.cfu)

theorem aside_of_beside {s t : State} (h : t.besideRecords = s.besideRecords) : t.aside = s.aside :=
  show t.besideRecords.aside = s.besideRecords.aside by rw [h]

theorem aside_of_steady {s t : State} (h : t.steady = s.steady) : t.aside = s.aside :=
  show t.steady.aside = s.steady.aside by rw [h]

theorem slotMaps_of_beside {s t : State} (h : t.besideRecords = s.besideRecords) : t.fle.slotMaps = s.fle.slotMaps :=
  show t.besideRecords.fle.slotMaps = s.besideRecords.fle.slotMaps by rw [h]

theorem autoWritten_eq (old : Nat) (s : State) : autoWritten old s = { s with cmc := { s.cmc with autoTimer :=
    (if s.cfu.params.autoCommit = 0 then none
    else if old = 0 ∧ s.cfu.start = .running then some (s.now + s.cfu.params.autoCommit * 1000) else s.cmc.autoTimer) } } := by
  unfold autoWritten startAuto
  by_cases h0 : s.cfu.params.autoCommit = 0
  · simp [h0]
  · by_cases h1 : old = 0 ∧ s.cfu.start = .running
    · simp [h0, h1]
    · rw [if_neg (by simpa using h0), if_neg (by simpa using h1), if_neg h0, if_neg h1]

section
variable {p : ParamId} {sel : Option Nat} {w : Nat} {u : State}

theorem nodeId_writeParams (hp : p ≠ .nodeId) : (writeParams p sel w u).nodeId = u.nodeId := nodeId_setParam hp _ _ _

theorem FloodDone.writeParams (hf : FloodDone u) : FloodDone (Machine.writeParams p sel w u) :=
  hf.of_fewer_up (fun _ h => h) rfl fun _ _ => le_refl _

theorem ownNodeFits_writeParams (hp : p ≠ .nodeId) : OwnNodeFits (writeParams p sel w u) ↔ OwnNodeFits u := by
  unfold OwnNodeFits
  rw [nodeId_writeParams hp]
  rfl

theorem ownLinkFits_writeParams (hp : p ≠ .nodeId) (d : Degree) : OwnLinkFits d (writeParams p sel w u) ↔ OwnLinkFits d u := by
  unfold OwnLinkFits
  rw [nodeId_writeParams hp]
  rfl

section
variable (hp : p ≠ .nodeId) (ht : targetOk ⟨some p, sel⟩ = true)
include hp ht

theorem aside_written : (u.written p sel w).aside = (writeParams p sel w u).aside := by
  rcases written_cases hp ht w u with ⟨-, -, e⟩ | ⟨d, -, -, -, -, e⟩ | ⟨-, -, -, e⟩ | ⟨-, -, e⟩ <;> rw [e]
  · exact aside_of_beside (beside_originateNode _)
  · exact aside_of_beside (beside_originateLink _ _)
  · rw [autoWritten_eq]; rfl

theorem written_other (h : p ∉ [ParamId.regenCount, .transitAllowed, .degreeCost, .degreeImpairment, .autoCommit]) :
    u.written p sel w = writeParams p sel w u := by
  simp only [List.mem_cons, List.not_mem_nil, or_false, not_or] at h
  obtain ⟨hregen, htransit, hcost, himp, hauto⟩ := h
  rcases written_cases hp ht w u with ⟨k, -⟩ | ⟨d, -, -, k, -⟩ | ⟨k, -⟩ | ⟨-, -, e⟩
  · simp [hregen, htransit] at k
  · simp [hcost, himp] at k
  · exact absurd k hauto
  · exact e

theorem traffic_written : Traffic [.sequence, .tableFull] [] u (u.written p sel w) := by
  have hx : Traffic [.sequence, .tableFull] [] u (writeParams p sel w u) := Traffic.of_eq rfl rfl
  rcases written_cases hp ht w u with ⟨-, -, e⟩ | ⟨d, -, -, -, -, e⟩ | ⟨-, -, -, e⟩ | ⟨-, -, e⟩ <;> rw [e]
  · exact hx.trans (Traffic.of_beside (beside_originateNode _) (by simp) (by simp))
  · exact hx.trans (Traffic.of_beside (beside_originateLink _ _) (by simp) (by simp))
  · rw [autoWritten_eq]; exact Traffic.of_eq rfl rfl
  · exact hx

/-- A write that is not announced leaves records and FLE alone. -/
theorem written_quiet (h : ¬ Announced p sel w u) :
    (u.written p sel w).tdb = u.tdb ∧ (u.written p sel w).fle = u.fle ∧ (u.written p sel w).fsw = u.fsw := by
  rcases written_cases hp ht w u with ⟨-, k, -⟩ | ⟨d, -, -, -, k, -⟩ | ⟨-, -, -, e⟩ | ⟨-, -, e⟩
  · exact absurd k h
  · exact absurd k h
  · rw [e, autoWritten_eq]; exact ⟨rfl, rfl, rfl⟩
  · rw [e]; exact ⟨rfl, rfl, rfl⟩

theorem floodDone_written (hf : FloodDone u) (h : ¬ Announced p sel w u) : FloodDone (u.written p sel w) := by
  obtain ⟨-, hfle, hfsw⟩ := written_quiet hp ht h
  have hadm : (u.written p sel w).adm = u.adm := congrArg Prod.fst (aside_written (u := u) (w := w) hp ht)
  refine hf.of_fewer_up (fun e he => ?_) hfle fun e _ => by simp [State.port, hfsw]
  rwa [State.isUp, State.adjacency, hadm] at he

theorem seq_written (h : Announced p sel w u) (hl : u.fle.seq ≤ 0xFFFFFFF0) : (u.written p sel w).fle.seq = u.fle.seq + 1 := by
  rcases written_cases hp ht w u with ⟨-, -, e⟩ | ⟨d, -, -, -, -, e⟩ | ⟨-, -, k, -⟩ | ⟨k, -⟩
  · rw [e]; exact seq_originateNode (s := writeParams p sel w u) hl
  · rw [e]; exact seq_originateLink (s := writeParams p sel w u) hl
  · exact absurd h k
  · exact absurd h k

theorem written_node (h : Announced p sel w u) (hm : p ∈ [ParamId.regenCount, .transitAllowed]) :
    u.written p sel w = originateNode (writeParams p sel w u) := by
  rcases written_cases hp ht w u with ⟨-, -, e⟩ | ⟨d, -, -, hl, -⟩ | ⟨ha, -⟩ | ⟨k, -⟩
  · exact e
  · simp only [List.mem_cons, List.not_mem_nil, or_false] at hm hl
    rcases hm with rfl | rfl <;> simp at hl
  · subst ha; simp at hm
  · exact absurd h k

theorem written_link (h : Announced p sel w u) (hm : p ∈ [ParamId.degreeCost, .degreeImpairment]) {d : Degree} (hd : sel = some d.val) :
    u.isUp d = true ∧ u.written p sel w = originateLink d (writeParams p sel w u) := by
  rcases written_cases hp ht w u with ⟨hn, -⟩ | ⟨d', hs, hu, -, -, e⟩ | ⟨ha, -⟩ | ⟨k, -⟩
  · simp only [List.mem_cons, List.not_mem_nil, or_false] at hm hn
    rcases hm with rfl | rfl <;> simp at hn
  · obtain rfl : d' = d := Fin.ext (Option.some.inj (hs.symm.trans hd))
    exact ⟨hu, e⟩
  · subst ha; simp at hm
  · exact absurd h k

end

theorem written_auto (hw : w ≠ getParam u.cfu.params .autoCommit sel) : (u.written .autoCommit sel w).cmc =
    { u.cmc with autoTimer := (if w = 0 then none
      else if getParam u.cfu.params .autoCommit sel = 0 ∧ u.cfu.start = .running then some (u.now + w * 1000)
      else u.cmc.autoTimer) } := by
  rw [State.written, if_neg hw]
  exact congrArg State.cmc (autoWritten_eq _ _)

end

/-! ## The answer to a command that originates -/

/-- A key that FLE can send is on its way once the command is answered and the event has ended. -/
theorem floods_answered {e : Degree} {k : RecordKey} {a : AdvertBody} {s : State} (who : NodeId) (tag : Nat) (r : Reply)
    (ha : keyAdvert s k = some a) (h : k ∈ (s.flood e).sendList) : Floods e k (finish (answerMgmt who tag r s)) := by
  refine floods_finish ((keyAdvert_of_steady (steady_of_blocks (blocks_answerMgmt who tag r s)) k).trans ha) (Or.inl ?_)
  rwa [State.flood, fle_answerMgmt]

theorem blocks_answered (who : NodeId) (tag : Nat) (r : Reply) {s : State} (h : FloodDone s) :
    (finish (answerMgmt who tag r s)).blocks = s.blocks :=
  blocks_finish_of_blocks h (blocks_answerMgmt who tag r s) (queue_le_of_traffic (Traffic.answerMgmt (is := []) (ps := []) who tag r s))

theorem traffic_answered (who : NodeId) (tag : Nat) (r : Reply) (s : State) : Traffic [] [] s (finish (answerMgmt who tag r s)) :=
  (Traffic.answerMgmt _ _ _ _).trans (Traffic.finish _)

theorem steady_answered (who : NodeId) (tag : Nat) (r : Reply) (s : State) :
    (finish (answerMgmt who tag r s)).steady = s.steady := by
  rw [steady_finish, steady_of_blocks (blocks_answerMgmt who tag r s)]

/-- The state in which the event of a parameter's write ends. -/
def writeEnd (who : NodeId) (tag : Nat) (r : Reply) (p : ParamId) (sel : Option Nat) (w : Nat) (u : State) : State :=
  finish (answerMgmt who tag r (u.written p sel w))

section
variable {who : NodeId} {tag : Nat} {r : Reply} {p : ParamId} {sel : Option Nat} {w : Nat} {u : State}

theorem steady_writeEnd : (writeEnd who tag r p sel w u).steady = (u.written p sel w).steady := steady_answered _ _ _ _

variable (hp : p ≠ .nodeId) (ht : targetOk ⟨some p, sel⟩ = true)
include hp ht

theorem writeEnd_keeps : (writeEnd who tag r p sel w u).cfu = { u.cfu with params := setParam u.cfu.params p sel w } ∧
    (writeEnd who tag r p sel w u).adm = u.adm ∧ (writeEnd who tag r p sel w u).dtu = u.dtu ∧
    (writeEnd who tag r p sel w u).rqu = u.rqu ∧ (writeEnd who tag r p sel w u).rsv = u.rsv ∧
    (writeEnd who tag r p sel w u).shu = u.shu ∧ (writeEnd who tag r p sel w u).fsw.fwd = u.fsw.fwd ∧
    (writeEnd who tag r p sel w u).ntu.watches = u.ntu.watches := by
  have hx := (aside_of_steady (steady_writeEnd (who := who) (tag := tag) (r := r))).trans (aside_written (u := u) (w := w) hp ht)
  simp only [State.aside, Prod.mk.injEq] at hx
  obtain ⟨hadm, hdtu, hrqu, hrsv, hshu, hfwd, hwatch, hcfu⟩ := hx
  exact ⟨hcfu, hadm, hdtu, hrqu, hrsv, hshu, hfwd, hwatch⟩

theorem traffic_writeEnd : Traffic [.sequence, .tableFull] [] u (writeEnd who tag r p sel w u) :=
  (traffic_written hp ht).trans ((traffic_answered _ _ _ _).mono (by simp) (by simp))

/-- A parameter that only acts at its next use. -/
theorem writeEnd_other (hf : FloodDone u)
    (h : p ∉ [ParamId.regenCount, .transitAllowed, .degreeCost, .degreeImpairment, .autoCommit]) :
    Traffic [] [] u (writeEnd who tag r p sel w u) ∧
      (writeEnd who tag r p sel w u).blocks = (writeParams p sel w u).blocks := by
  rw [writeEnd, written_other hp ht h]
  exact ⟨Traffic.trans (Traffic.of_eq rfl rfl) (traffic_answered who tag r (writeParams p sel w u)),
    blocks_answered who tag r hf.writeParams⟩

/-- A write that is not announced leaves records and FLE alone. -/
theorem writeEnd_quiet (hf : FloodDone u) (h : ¬ Announced p sel w u) :
    (writeEnd who tag r p sel w u).tdb = u.tdb ∧ (writeEnd who tag r p sel w u).fle = u.fle := by
  obtain ⟨htdb, hfle, -⟩ := written_quiet hp ht h
  exact ⟨(tdb_of_steady steady_writeEnd).trans htdb, (fle_of_blocks (blocks_answered _ _ _ (floodDone_written hp ht hf h))).trans hfle⟩

section
variable (ho : Announced p sel w u) (hl : u.fle.seq ≤ 0xFFFFFFF0)
include ho hl

theorem seq_writeEnd : (writeEnd who tag r p sel w u).fle.seq = u.fle.seq + 1 :=
  (seq_of_steady steady_writeEnd).trans (seq_written hp ht ho hl)

/-- A new regen count or transit allowed: the own node record with the values then in force, on its way to every UP degree. -/
theorem writeEnd_node (hm : p ∈ [ParamId.regenCount, .transitAllowed]) (hfits : OwnNodeFits u) :
    OwnNodeHeld u.fle.seq (writeEnd who tag r p sel w u) ∧ (u.fle.seq < 0xFFFFFFF0 → ∀ e, u.isUp e = true →
      Floods e (.node u.nodeId) (writeEnd who tag r p sel w u)) := by
  have e := written_node hp ht ho hm
  have hfits' := (ownNodeFits_writeParams (w := w) (sel := sel) hp).2 hfits
  obtain ⟨hcfu, -⟩ := writeEnd_keeps (who := who) (tag := tag) (r := r) (u := u) (w := w) hp ht
  refine ⟨ownNodeHeld_of_originate (s := writeParams p sel w u) hl hfits' (by rw [tdb_of_steady steady_writeEnd, e]) hcfu,
    fun hlt d hd => ?_⟩
  obtain ⟨⟨a, ha⟩, hmem⟩ := originateNode_sendable (s := writeParams p sel w u) hlt hfits'
  rw [nodeId_writeParams hp] at ha hmem
  rw [writeEnd, e]
  exact floods_answered _ _ _ ha (hmem d hd)

/-- A new cost or impairment of a degree in UP: its own link record with the values then in force, on its way to every UP degree. -/
theorem writeEnd_link (hm : p ∈ [ParamId.degreeCost, .degreeImpairment]) {d : Degree} {n : Neighbour} (hd : sel = some d.val)
    (hn : (u.adjacency d).nbr = some n) (hfits : OwnLinkFits d u) :
    OwnLinkHeld d ⟨u.fle.seq, .active, upContent d n (writeEnd who tag r p sel w u)⟩ (writeEnd who tag r p sel w u) ∧
      (u.fle.seq < 0xFFFFFFF0 → ∀ e, u.isUp e = true →
        Floods e (.link ⟨u.nodeId, d.val⟩) (writeEnd who tag r p sel w u)) := by
  obtain ⟨hup, e⟩ := written_link hp ht ho hm hd
  have hfits' := (ownLinkFits_writeParams (w := w) (sel := sel) hp d).2 hfits
  obtain ⟨hcfu, -⟩ := writeEnd_keeps (who := who) (tag := tag) (r := r) (u := u) (w := w) hp ht
  have hslots : (writeEnd who tag r p sel w u).fle.slotMaps = u.fle.slotMaps := by
    rw [slotMaps_of_steady steady_writeEnd, e, slotMaps_of_beside (beside_originateLink d _)]
    rfl
  refine ⟨?_, fun hlt j hj => ?_⟩
  · rw [upContent, hslots, hcfu]
    exact ownLinkHeld_of_originate (s := writeParams p sel w u) (ownLinkContent_of_up (s := writeParams p sel w u) hup hn) hl hfits'
      (by rw [tdb_of_steady steady_writeEnd, e]) hcfu
  · obtain ⟨a, ha⟩ := originateLink_sendable (s := writeParams p sel w u) hlt hfits'
    have hmem := mem_sendList_originateLink (s := writeParams p sel w u) hl hfits' (e := j) hj
    rw [nodeId_writeParams hp] at ha hmem
    rw [writeEnd, e]
    exact floods_answered _ _ _ ha hmem

end
end

end Sys2Proof.Machine

open Sys2Proof Sys2Proof.Machine

/-- Settles O21, by the lock and by what the written value does at once. -/
theorem writeParamClampsAndWrites : Obligations.WriteParamClampsAndWrites := by
  intro m p sel v s u hu hm hp ht
  have hf : FloodDone u := hu ▸ floodDone_settle s
  have run : exec (.writeParam m ⟨some p, sel⟩ v) s = .next (finish (answerMgmt (identity m.port m.src) m.tag
      (doWriteParam ⟨some p, sel⟩ v u).2 (doWriteParam ⟨some p, sel⟩ v u).1)) := by
    rw [← manageFrom_commanded m _ u hm]; exact event_eq hu
  refine ⟨fun hlock => ?_, fun hopen => ?_⟩
  · rw [doWriteParam_locked ht (paramLocked_iff.2 hlock)] at run
    obtain ⟨hb, ha, htr⟩ := answer_event hf m ⟨.locked, .none⟩ hm.2.1
    exact ⟨_, run, hb, ha, htr⟩
  intro old w hw originates
  have open' : paramLocked u p = false := by
    rw [Bool.eq_false_iff, ne_eq, paramLocked_iff]
    rintro ⟨g, hg, hh⟩
    rw [hopen g hg] at hh; cases hh
  have clamp : clampParam p old v = w := by
    rcases hw with ⟨hm, rfl⟩ | ⟨hm, rfl⟩
    · exact clampParam_enumerated hm _ _
    · exact clampParam_ranged hm _ _
  rw [doWriteParam_open hp ht open' clamp] at run
  exact ⟨writeEnd _ _ _ p sel w u, run, answered_answerMgmt m _ _ (identity_ne m _ hm.2.1),
    (writeEnd_keeps hp ht).1, writeEnd_other hp ht hf,
    fun ho hl => ⟨seq_writeEnd hp ht ho hl, writeEnd_node hp ht ho hl, fun _ _ hlink => writeEnd_link hp ht ho hl hlink⟩,
    writeEnd_quiet hp ht hf, fun ha hne => by subst ha; exact (cmc_of_steady steady_writeEnd).trans (written_auto hne),
    traffic_writeEnd hp ht, (writeEnd_keeps hp ht).2⟩

end

section
/-! SUPPORT. A flush of a part without an UP degree, and what its answers are placed by (R39, R80, R89, R120, R140, R188). -/

namespace Sys2Proof.Machine

/-! ## Degrees at a change of the node ID (R39) -/

/-- The part without its traffic, the lists of FLE's degrees and the adjacencies. -/
def State.core (s : State) : State := s.steady.withoutDegrees

theorem core_of_steady {s t : State} (h : t.steady = s.steady) : t.core = s.core := congrArg State.withoutDegrees h

theorem core_enterDown (d : Degree) (s : State) : (enterDown d s).core = s.core := rfl

theorem core_renameDegree (d : Degree) (s : State) : (renameDegree d s).core = s.core := by
  unfold renameDegree
  split
  · rfl
  · rfl
  · exact core_enterDown d s
  · exact core_enterDown d s
  · exact core_enterDown d s
  · exact (core_of_steady (steady_of_blocks (blocks_raise _ _ _))).trans (core_enterDown d s)

/-- The state a degree is in after a change of the node ID. -/
def AdjState.renamed (a : AdjState) : AdjState := if a = .disabled then .disabled else .down

theorem AdjState.renamed_renamed (a : AdjState) : a.renamed.renamed = a.renamed := by cases a <;> rfl

theorem adjacency_renameDegree (d e : Degree) (s : State) : ((renameDegree d s).adjacency e).enable = (s.adjacency e).enable ∧
    ((renameDegree d s).adjacency e).state = if d = e then (s.adjacency e).state.renamed else (s.adjacency e).state := by
  have down : ((enterDown d s).adjacency e).enable = (s.adjacency e).enable ∧ ((s.adjacency d).state ≠ .disabled →
      ((enterDown d s).adjacency e).state = if d = e then (s.adjacency e).state.renamed else (s.adjacency e).state) := by
    obtain ⟨he, -, hs⟩ := adjacency_enterDown d e s
    refine ⟨he, fun h => ?_⟩
    rw [hs]
    split
    · rename_i k; rw [AdjState.renamed, if_neg (k ▸ h)]
    · rfl
  unfold renameDegree
  split
  case h_1 h | h_2 h =>
    refine ⟨rfl, ?_⟩
    split
    · rename_i k; rw [← k, h]; rfl
    · rfl
  case h_3 h | h_4 h | h_5 h => exact ⟨down.1, down.2 (by simp [h])⟩
  case h_6 h => exact ⟨down.1, down.2 (by simp [h])⟩

/-- Every degree at a change of the node ID. -/
def State.renamed (s : State) : State := allDegrees.foldl (fun t d => renameDegree d t) s

theorem core_renamed (s : State) : s.renamed.core = s.core := foldl_keeps State.core _ _ _ fun t d => core_renameDegree d t

theorem adjacency_renamed (s : State) (e : Degree) : (s.renamed.adjacency e).enable = (s.adjacency e).enable ∧
    (s.renamed.adjacency e).state = (s.adjacency e).state.renamed := by
  refine ⟨foldl_keeps (fun t : State => (t.adjacency e).enable) _ _ _ fun t d => (adjacency_renameDegree d e t).1, ?_⟩
  have key : ∀ (l : List Degree) (t : State), ((l.foldl (fun t d => renameDegree d t) t).adjacency e).state =
      if e ∈ l then (t.adjacency e).state.renamed else (t.adjacency e).state := by
    intro l
    induction l with
    | nil => exact fun t => rfl
    | cons d l ih =>
      intro t
      rw [List.foldl_cons, ih, (adjacency_renameDegree d e t).2]
      by_cases hl : e ∈ l
      · by_cases hd : d = e
        · simp [hl, hd, AdjState.renamed_renamed]
        · simp [hl, hd]
      · by_cases hd : d = e
        · simp [hl, hd]
        · simp [hl, hd, Ne.symm hd]
  exact (key allDegrees s).trans (if_pos (mem_allDegrees e))

theorem isUp_renamed (s : State) (d : Degree) : s.renamed.isUp d = false := by
  rw [State.isUp, (adjacency_renamed s d).2, AdjState.renamed]
  split <;> rfl

/-! ## Frames placed in the course of an event (R16, R20) -/

/-- Own steps of RQU, SHU and CFU are routed by the own node ID, the forwarding table and the degrees that are DISABLED. -/
theorem routeOwn_congr {s t : State} (hn : t.nodeId = s.nodeId) (hf : t.fsw.fwd = s.fsw.fwd)
    (hd : ∀ d, (t.adjacency d).state = .disabled ↔ (s.adjacency d).state = .disabled) (n : NodeId) : routeOwn t n = routeOwn s n := by
  have hl : lookup t n = lookup s n := by
    unfold lookup
    rw [hf]
    split
    · rfl
    · split
      · rfl
      · rename_i d _
        simp only [beq_iff_eq, hd d]
  rw [routeOwn, routeOwn, hn, hl]

/-- A frame routed by one state is among the direct claims of another, or it had no route and CONGESTION is pending. -/
def ClaimedBy (r : State) (f : Frame) (s : State) : Prop :=
  (∀ p, routeOwn r f.dst = some p → ∃ b, ⟨b, p, f⟩ ∈ s.claims) ∧
  (routeOwn r f.dst = none → (s.ntu.source .congestion).pending = true)

/-- The direct claims and a pending CONGESTION stay. -/
def ClaimsGrow (s t : State) : Prop :=
  (∀ c ∈ s.claims, c ∈ t.claims) ∧ ((s.ntu.source .congestion).pending = true → (t.ntu.source .congestion).pending = true)

theorem ClaimsGrow.of_eq {s t : State} (h : t.claims = s.claims) (k : t.ntu = s.ntu) : ClaimsGrow s t := by
  rw [ClaimsGrow, h, k]; exact ⟨fun _ => id, id⟩

theorem ClaimsGrow.refl (s : State) : ClaimsGrow s s := ClaimsGrow.of_eq rfl rfl

theorem ClaimsGrow.trans {s t u : State} (h : ClaimsGrow s t) (k : ClaimsGrow t u) : ClaimsGrow s u :=
  ⟨fun c hc => k.1 c (h.1 c hc), fun hp => k.2 (h.2 hp)⟩

theorem ClaimsGrow.of_keeps {s t : State} (h : t.claims = s.claims) (k : Keeps s t) : ClaimsGrow s t :=
  ⟨fun _ hc => h ▸ hc, fun hp => (k .congestion hp).1⟩

theorem ClaimsGrow.of_beside {s t : State} (h : t.besideRecords = s.besideRecords) : ClaimsGrow s t := by
  have hc : t.claims = s.claims := show t.besideRecords.claims = s.besideRecords.claims by rw [h]
  exact ⟨fun c hm => hc ▸ hm, fun hp => by rwa [source_of_beside h (by decide) (by decide)]⟩

theorem ClaimsGrow.placeOwn (b : OwnBlock) (f : Frame) (s : State) : ClaimsGrow s (Machine.placeOwn b f s) := by
  refine ⟨fun c hc => ?_, fun hp => (Keeps.placeOwn b f s .congestion hp).1⟩
  unfold Machine.placeOwn
  split
  · exact List.mem_append_left _ hc
  · exact hc

theorem ClaimsGrow.foldl {β : Type} (f : State → β → State) (h : ∀ s x, ClaimsGrow s (f s x)) (l : List β) (s : State) :
    ClaimsGrow s (l.foldl f s) := foldl_inv (ClaimsGrow s) f l s (fun t x k => k.trans (h t x)) (ClaimsGrow.refl s)

theorem ClaimedBy.grows {r : State} {f : Frame} {s t : State} (h : ClaimedBy r f s) (k : ClaimsGrow s t) : ClaimedBy r f t :=
  ⟨fun p hp => (h.1 p hp).imp fun _ hb => k.1 _ hb, fun hn => k.2 (h.2 hn)⟩

theorem ClaimedBy.routed {r r' : State} {f : Frame} {s : State} (h : ClaimedBy r f s) (k : ∀ n, routeOwn r' n = routeOwn r n) :
    ClaimedBy r' f s := ⟨fun p hp => h.1 p (k _ ▸ hp), fun hn => h.2 (k _ ▸ hn)⟩

theorem ClaimedBy.finish {r : State} {f : Frame} {s : State} (h : ClaimedBy r f s) : PlacedBy r f (Machine.finish s) := by
  refine ⟨fun p hp => ?_, fun hp => (Keeps.finish s _ (h.2 hp)).1⟩
  obtain ⟨b, hb⟩ := h.1 p hp
  exact standsAt_finish hb

/-- Answers placed one after another are all routed as the first is. -/
theorem claimedBy_answers {α : Type} (b : OwnBlock) (dest : α → NodeId) (tag : α → Nat) (o : RouteOutcome) (l : List α) (s : State) :
    ∀ a ∈ l, ClaimedBy s (routeaFrame s (dest a) (tag a) o s.cmc.gen [])
      (l.foldl (fun t a => answerNow b (dest a) (tag a) o t) s) := by
  induction l generalizing s with
  | nil => simp
  | cons x l ih =>
    intro a ha
    have hs : (answerNow b (dest x) (tag x) o s).steady = s.steady := steady_of_blocks (blocks_answerNow _ _ _ _ _)
    rw [List.foldl_cons]
    rcases List.mem_cons.1 ha with rfl | ha
    · have placed : ClaimedBy s (routeaFrame s (dest a) (tag a) o s.cmc.gen []) (answerNow b (dest a) (tag a) o s) :=
        ClaimedBy.routed (claimed_placeOwn b (routeaFrame s (dest a) (tag a) o s.cmc.gen []) s)
          fun n => (routeOwn_of_steady hs n).symm
      exact placed.grows (ClaimsGrow.foldl _ (fun t y => ClaimsGrow.placeOwn _ _ t) _ _)
    · have later := (ih (answerNow b (dest x) (tag x) o s) a ha).routed (r' := s) fun n => (routeOwn_of_steady hs n).symm
      have hf : routeaFrame (answerNow b (dest x) (tag x) o s) (dest a) (tag a) o (answerNow b (dest x) (tag x) o s).cmc.gen [] =
          routeaFrame s (dest a) (tag a) o s.cmc.gen [] := by
        rw [routeaFrame_eq, routeaFrame_eq, cmc_of_steady hs, State.nodeId, cfu_of_steady hs]; rfl
      rwa [hf] at later

end Sys2Proof.Machine
end

section
/-! SUPPORT. The flush, step by step, and what it leaves of a part without an UP degree (R80, R104, R120, R121, R188). -/

namespace Sys2Proof.Machine

/-! ## The steps of a flush -/

/-- A flush after its forced promotion: requests answered, tables emptied, the generation incremented (R120). -/
def State.emptied (s : State) : State :=
  { flushTables (flushRequests s) with cmc := (flushTables (flushRequests s)).cmc.flushed (flushedLinks s.tdb) }

/-- A flush with COMMIT raised. -/
def State.forced (s : State) : State := raiseCommit [.forced] s.emptied.cmc.gen s.emptied

/-- A flush with its tree build handed over. -/
def State.handed (s : State) : State := handTree (raiseWatches s.tdb (flushedLinks s.tdb) (flushResults s.forced))

theorem flush_eq (s : State) : flush s = flushRestart s.handed := rfl

/-- The blocks of a part that a flush has emptied, but for the tree build. -/
def State.cleared (s : State) : State :=
  { s with
    rsv := { s.rsv.finishAll .aborted with treeJob := none }
    rqu := { s.rqu with queue := [] }
    tdb := { s.tdb with nodes := [], links := [], incomplete := [] }
    fle := { s.fle with degrees := Vector.replicate 8 FleDegree.reset }
    fsw := { s.fsw with fwd := [], fwdGen := 0 }
    cmc := s.cmc.flushed (flushedLinks s.tdb) }

theorem blocks_flushRequests (s : State) : (flushRequests s).blocks =
    { s with rsv := { s.rsv.finishAll .aborted with treeJob := none }, rqu := { s.rqu with queue := [] } }.blocks :=
  foldl_keeps State.blocks _ _ _ fun _ _ => blocks_answerNow _ _ _ _ _

theorem blocks_emptied (s : State) : s.emptied.blocks = s.cleared.blocks :=
  congrArg (fun b : State => { b with
    tdb := { b.tdb with nodes := [], links := [], incomplete := [] }
    fle := { b.fle with degrees := Vector.replicate 8 FleDegree.reset }
    fsw := { b.fsw with fwd := [], fwdGen := 0 }
    cmc := b.cmc.flushed (flushedLinks s.tdb) }) (blocks_flushRequests s)

theorem blocks_forced (s : State) : s.forced.blocks = s.cleared.blocks := (blocks_raiseCommit _ _ _).trans (blocks_emptied s)

theorem blocks_flushResults (s : State) : (flushResults s).blocks = { s with shu := Shu.reset }.blocks :=
  congrArg (fun b : State => { b with shu := Shu.reset })
    (foldl_keeps State.blocks (fun t e => answerNow .shu e.2.requester e.2.tag .stale t) s.shu.results s
      fun _ _ => blocks_answerNow _ _ _ _ _)

theorem blocks_raiseWatches (t : Tdb) (l : List LinkKey) (s : State) : (raiseWatches t l s).blocks = s.blocks := by
  unfold raiseWatches
  split
  · rfl
  · exact blocks_raise _ _ _

/-- The tree build starts at once where L0 is IDLE (R144, R165). -/
theorem handTree_idle {s : State} (h : s.rsv.l0.work = .idle) : handTree s =
    { s with rsv := { s.rsv with l0 := { s.rsv.l0 with work := .tree s.cmc.gen }, treeJob := none } } := by
  simp [handTree, startTree, Lane.isIdle, h]

/-- The blocks of a part that a flush has emptied, with the tree build at work. -/
def State.rebuilding (s : State) : State :=
  { s.cleared with
    shu := Shu.reset
    rsv := ⟨{ s.rsv.l0.finish .aborted with work := .tree (s.cmc.gen + 1) }, s.rsv.l1.finish .aborted, none⟩ }

theorem blocks_handed (s : State) : s.handed.blocks = s.rebuilding.blocks := by
  have hb : (raiseWatches s.tdb (flushedLinks s.tdb) (flushResults s.forced)).blocks = { s.cleared with shu := Shu.reset }.blocks := by
    rw [blocks_raiseWatches, blocks_flushResults]
    exact congrArg (fun b : State => { b with shu := Shu.reset }) (blocks_forced s)
  have hr := rsv_of_blocks hb
  have hg : (raiseWatches s.tdb (flushedLinks s.tdb) (flushResults s.forced)).cmc.gen = s.cmc.gen + 1 :=
    congrArg Cmc.gen (cmc_of_blocks hb)
  rw [State.handed, handTree_idle (by rw [hr]; exact work_finish _ _), hr, hg]
  exact congrArg (fun b : State => { b with rsv :=
    ⟨{ s.rsv.l0.finish .aborted with work := .tree (s.cmc.gen + 1) }, s.rsv.l1.finish .aborted, none⟩ }) hb

/-! ## The answers of a flush -/

theorem claimsGrow_flushResults (s : State) : ClaimsGrow s (flushResults s) :=
  (ClaimsGrow.foldl (fun t e => answerNow .shu e.2.requester e.2.tag .stale t) (fun t _ => ClaimsGrow.placeOwn _ _ t) s.shu.results
    s).trans (ClaimsGrow.of_eq rfl rfl)

theorem claimsGrow_handed (s : State) : ClaimsGrow (flushResults s.forced) s.handed := by
  have watches : ClaimsGrow (flushResults s.forced) (raiseWatches s.tdb (flushedLinks s.tdb) (flushResults s.forced)) := by
    unfold raiseWatches
    split
    · exact ClaimsGrow.refl _
    · exact ClaimsGrow.of_keeps rfl (Keeps.raise _ _ _)
  refine watches.trans ?_
  unfold State.handed handTree startTree
  dsimp only
  split
  · exact ClaimsGrow.of_eq rfl rfl
  · exact ClaimsGrow.of_eq rfl rfl

theorem claimsGrow_emptied (s : State) : ClaimsGrow (flushRequests s) s.handed := by
  have h1 : ClaimsGrow (flushRequests s) s.emptied := ClaimsGrow.of_eq rfl rfl
  have h2 : ClaimsGrow s.emptied s.forced := ClaimsGrow.of_keeps rfl (Keeps.raiseCommit _ _ _)
  exact ((h1.trans h2).trans (claimsGrow_flushResults _)).trans (claimsGrow_handed s)

/-- The requests of the lanes and of the queue are answered by the routes before the flush (R140, R168). -/
theorem claimedBy_requests (s : State) : ∀ q ∈ s.rsv.requests ++ s.rqu.queue,
    ClaimedBy s (routeaFrame s q.requester q.body.tag .aborted s.cmc.gen []) s.handed := by
  intro q hq
  have h := claimedBy_answers .rqu Request.requester (fun r => r.body.tag) .aborted (s.rsv.requests ++ s.rqu.queue)
    { s with rsv := { s.rsv.finishAll .aborted with treeJob := none }, rqu := { s.rqu with queue := [] } } q hq
  exact (ClaimedBy.routed (r' := s) h fun n => rfl).grows (claimsGrow_emptied s)

/-- The results are answered by the routes of the flushed part (R188). -/
theorem claimedBy_results (s : State) : ∀ e ∈ s.shu.results,
    ClaimedBy s.cleared (routeaFrame s e.2.requester e.2.tag .stale (s.cmc.gen + 1) []) s.handed := by
  intro e he
  have hst := steady_of_blocks (blocks_forced s)
  have hres : e ∈ s.forced.shu.results := by rw [shu_of_steady hst]; exact he
  have h := (claimedBy_answers .shu (fun e => e.2.requester) (fun e => e.2.tag) .stale s.forced.shu.results s.forced e hres).routed
    (r' := s.cleared) fun n => (routeOwn_of_steady hst n).symm
  have hf : routeaFrame s.forced e.2.requester e.2.tag .stale s.forced.cmc.gen [] =
      routeaFrame s e.2.requester e.2.tag .stale (s.cmc.gen + 1) [] := by
    rw [routeaFrame_eq, routeaFrame_eq, cmc_of_steady hst, State.nodeId, cfu_of_steady hst]; rfl
  rw [hf] at h
  exact (h.grows (ClaimsGrow.of_eq rfl rfl : ClaimsGrow _ (flushResults s.forced))).grows (claimsGrow_handed s)

/-! ## The restart of a part without an UP degree (R104, R107, R120) -/

theorem gen_normalRequest (s : State) : (normalRequest s).cmc.gen = s.cmc.gen := by
  unfold normalRequest
  dsimp only
  split
  · split <;> rfl
  · rfl
  · rfl

/-- The refresh timer restarted. -/
def State.refreshed (s : State) : State :=
  { s with fle := { s.fle with refreshTimer := some (s.now + s.cfu.params.refreshInterval * 1000) } }

theorem upDegrees_of_none {s : State} (h : ∀ d, s.isUp d = false) : s.upDegrees = [] := by
  simp [State.upDegrees, List.filter_eq_nil_iff, h]

theorem flushRestart_eq {s : State} (h : ∀ d, s.isUp d = false) :
    flushRestart s = normalRequest (originateNode s).refreshed := by
  have hadm : (originateNode s).adm = s.adm :=
    show (originateNode s).besideRecords.adm = s.besideRecords.adm by rw [beside_originateNode]
  have hup : ∀ d, (originateNode s).refreshed.isUp d = false := fun d => by
    have e : (originateNode s).refreshed.isUp d = s.isUp d := by rw [State.isUp, State.adjacency, State.refreshed, hadm]; rfl
    rw [e, h d]
  rw [flushRestart, originateAll, upDegrees_of_none h]
  show normalRequest ((originateNode s).refreshed.upDegrees.foldl (fun t d => startRound d t) (originateNode s).refreshed) = _
  rw [upDegrees_of_none hup]
  rfl

/-- What a flush leaves of a part without an UP degree. -/
structure Flushed (s t : State) : Prop where
  adm : t.adm = s.adm
  cfu : t.cfu = s.cfu
  dtu : t.dtu = s.dtu
  exclusions : t.tdb.exclusions = s.tdb.exclusions
  watches : t.ntu.watches = s.ntu.watches
  nodes : ∀ e ∈ t.tdb.nodes, e.2.id = s.nodeId ∧ e.2.ver.committed = none
  links : t.tdb.links = []
  own : s.fle.seq ≤ 0xFFFFFFF0 → t.fle.seq = s.fle.seq + 1 ∧ OwnNodeHeld s.fle.seq t
  gen : t.cmc.gen = s.cmc.gen + 1
  normalReq : t.cmc.normalReq = true
  rqu : t.rqu = { s.rqu with queue := [] }
  rsv : t.rsv = ⟨{ s.rsv.l0.finish .aborted with work := .tree (s.cmc.gen + 1) }, s.rsv.l1.finish .aborted, none⟩
  shu : t.shu = Shu.reset
  fwd : t.fsw.fwd = []
  aborted : ∀ q ∈ s.rsv.requests ++ s.rqu.queue, ClaimedBy s (routeaFrame s q.requester q.body.tag .aborted s.cmc.gen []) t
  stale : ∀ e ∈ s.shu.results, ClaimedBy s.cleared (routeaFrame s e.2.requester e.2.tag .stale (s.cmc.gen + 1) []) t

theorem ownNodeFits_of_noRecords {s : State} (h : NoRecords s) : OwnNodeFits s := by
  have hf : s.tdb.findNode s.nodeId = none := by simp [Tdb.findNode, h.nodes]
  rw [OwnNodeFits, hf]
  simp [h.nodes, h.links]

/-- A part that a flush has emptied, as far as its restart reads it. -/
theorem handed_keeps (s : State) : s.handed.adm = s.adm ∧ s.handed.cfu = s.cfu ∧ s.handed.dtu = s.dtu ∧
    s.handed.tdb = { s.tdb with nodes := [], links := [], incomplete := [] } ∧ s.handed.ntu.watches = s.ntu.watches ∧
    s.handed.fle = { s.fle with degrees := Vector.replicate 8 FleDegree.reset } ∧ s.handed.cmc.gen = s.cmc.gen + 1 ∧
    s.handed.rqu = { s.rqu with queue := [] } ∧ s.handed.shu = Shu.reset ∧ s.handed.fsw.fwd = [] ∧
    s.handed.rsv = ⟨{ s.rsv.l0.finish .aborted with work := .tree (s.cmc.gen + 1) }, s.rsv.l1.finish .aborted, none⟩ := by
  have hb := blocks_handed s
  exact ⟨(adm_of_blocks hb).trans rfl, (cfu_of_blocks hb).trans rfl, (dtu_of_blocks hb).trans rfl, (tdb_of_blocks hb).trans rfl,
    (watches_of_blocks hb).trans rfl, (fle_of_blocks hb).trans rfl, (congrArg Cmc.gen (cmc_of_blocks hb)).trans rfl,
    (rqu_of_blocks hb).trans rfl, (shu_of_blocks hb).trans rfl, (fwd_of_blocks hb).trans rfl, (rsv_of_blocks hb).trans rfl⟩

theorem noRecords_handed (s : State) : NoRecords s.handed := by
  obtain ⟨-, -, -, htdb, -⟩ := handed_keeps s
  exact ⟨by rw [htdb], by rw [htdb], by rw [htdb]⟩

theorem isUp_handed (s : State) (d : Degree) : s.handed.isUp d = s.isUp d := by
  obtain ⟨hadm, -⟩ := handed_keeps s
  rw [State.isUp, State.adjacency, hadm]; rfl

theorem firstNode_handed {s : State} (h : ∀ d, s.isUp d = false) : FirstNode s.handed (originateNode s.handed) := by
  obtain ⟨-, -, -, -, -, hfle, -⟩ := handed_keeps s
  refine originateNode_first (noRecords_handed s) (fun d => (isUp_handed s d).trans (h d)) fun d => ?_
  rw [State.flood, hfle]
  exact vget_replicate _ _

theorem flushed_flush {s : State} (h : ∀ d, s.isUp d = false) : Flushed s (flush s) := by
  have f := firstNode_handed h
  obtain ⟨hadm, hcfu, hdtu, htdb, hwatch, hfle, hgen, hrqu, hshu, hfwd, hrsv⟩ := handed_keeps s
  have hseq : s.handed.fle.seq = s.fle.seq := by rw [hfle]
  have hid : s.handed.nodeId = s.nodeId := by rw [State.nodeId, hcfu]; rfl
  have aborted := claimedBy_requests s
  have stale := claimedBy_results s
  have fits := ownNodeFits_of_noRecords (noRecords_handed s)
  rw [flush_eq, flushRestart_eq fun d => (isUp_handed s d).trans (h d)]
  generalize s.handed = z at *
  have own : z.fle.seq ≤ 0xFFFFFFF0 → ∀ t : State, t.tdb = (originateNode z).tdb → t.cfu = z.cfu → OwnNodeHeld z.fle.seq t :=
    fun hl t => ownNodeHeld_of_originate hl fits
  generalize originateNode z = x at *
  have field {α : Type} (π : State → α) : π x.besideRecords = π z.besideRecords := congrArg π f.beside
  have grows : ClaimsGrow z (normalRequest x.refreshed) :=
    ((ClaimsGrow.of_beside f.beside).trans (ClaimsGrow.of_eq (t := x.refreshed) rfl rfl)).trans
      (ClaimsGrow.of_keeps (by rw [normalRequest_eq]) (Keeps.normalRequest _))
  have hnr := normalReq_normalRequest x.refreshed
  have hng : (normalRequest x.refreshed).cmc.gen = x.cmc.gen := gen_normalRequest x.refreshed
  have he := normalRequest_eq x.refreshed
  generalize normalRequest x.refreshed = y at *
  have hycfu : y.cfu = z.cfu := by rw [he]; exact field State.cfu
  have hytdb : y.tdb = x.tdb := by rw [he]; rfl
  exact
  { adm := by rw [he]; exact (field State.adm).trans hadm
    cfu := hycfu.trans hcfu
    dtu := by rw [he]; exact (field State.dtu).trans hdtu
    exclusions := by rw [hytdb]; exact (field fun x => x.tdb.exclusions).trans (show z.tdb.exclusions = _ by rw [htdb])
    watches := by rw [he]; exact (field fun x => x.ntu.watches).trans hwatch
    nodes := fun e hm => by
      obtain ⟨p, hn, -⟩ := f.nodes
      rw [hytdb, hn, List.mem_singleton] at hm
      rw [hm]
      exact ⟨hid, rfl⟩
    links := by rw [hytdb]; exact f.links
    own := fun hl => by
      rw [← hseq] at hl ⊢
      exact ⟨by rw [he]; exact f.seq hl, own hl y hytdb hycfu⟩
    gen := hng.trans ((field fun x => x.cmc.gen).trans hgen)
    normalReq := hnr
    rqu := by rw [he]; exact (field State.rqu).trans hrqu
    rsv := by rw [he]; exact (field State.rsv).trans hrsv
    shu := by rw [he]; exact (field State.shu).trans hshu
    fwd := by rw [he]; exact (field fun x => x.fsw.fwd).trans hfwd
    aborted := fun q hq => (aborted q hq).grows grows
    stale := fun e hm => (stale e hm).grows grows }

end Sys2Proof.Machine
end

section
/-! SUPPORT. WRITE_PARAM of the node ID: the branches of the command, the entry to RUNNING, and the flush in RUNNING (R39, R89, R207, R209). -/

namespace Sys2Proof.Machine

/-! ## The branches of the command -/

theorem targetOk_nodeId (sel : Option Nat) : targetOk ⟨some .nodeId, sel⟩ = true := by cases sel <;> rfl

theorem paramLocked_nodeId (s : State) : paramLocked s .nodeId = s.cfu.locks.identity := rfl

theorem clampParam_nodeId (old v : Nat) : clampParam .nodeId old v = min v 65534 := by
  rw [clampParam_ranged (by decide)]
  simp [paramRange]

/-- A part with a new node ID written, before it takes effect. -/
def State.withNodeId (s : State) (w : NodeId) : State := writeParams .nodeId none w s

section
variable {sel : Option Nat} {v : Nat} {s : State} (hl : s.cfu.locks.identity = false)
include hl

theorem doWriteParam_nodeId_refused (h : (s.cfu.start = .isolated ∧ v = 0) ∨ (s.cfu.start = .running ∧ s.cmc.gen = 0xFFFFFFFF)) :
    doWriteParam ⟨some .nodeId, sel⟩ v s = (s, ⟨.notReady, .none⟩) := by
  have hr : nodeIdRefused s .nodeId v = true := by simpa [nodeIdRefused, Config.lastGeneration] using h
  simp [doWriteParam, targetOk_nodeId, paramLocked_nodeId, hl, hr, refuse]

theorem doWriteParam_nodeId_same (hr : s.cfu.start = .running) (hg : s.cmc.gen ≠ 0xFFFFFFFF)
    (h : v = 0 ∨ (v = s.nodeId ∧ v ≤ 65534)) : doWriteParam ⟨some .nodeId, sel⟩ v s =
      (s, ⟨if s.nodeId = v then .ok else .adjusted, .param ⟨some .nodeId, sel⟩ s.nodeId⟩) := by
  have hn : nodeIdRefused s .nodeId v = false := by simp [nodeIdRefused, Config.lastGeneration, hr, hg]
  have he : effective s .nodeId s.nodeId v = s.nodeId := by
    rcases h with rfl | ⟨rfl, h⟩
    · simp [effective, hr]
    · rw [effective, clampParam_nodeId, min_eq_left h, ite_self]
  have ho : getParam s.cfu.params .nodeId sel = s.nodeId := rfl
  simp [doWriteParam, targetOk_nodeId, paramLocked_nodeId, hl, hn, ho, he]

theorem doWriteParam_nodeId_new {w : NodeId} (hw : w = min v 65534) (hv : v ≠ 0) (hne : w ≠ s.nodeId)
    (hg : s.cfu.start = .running → s.cmc.gen ≠ 0xFFFFFFFF) : doWriteParam ⟨some .nodeId, sel⟩ v s =
      (paramWritten .nodeId sel s.nodeId (s.withNodeId w),
        ⟨if w = v then .ok else .adjusted, .param ⟨some .nodeId, sel⟩ w⟩) := by
  have hn : nodeIdRefused s .nodeId v = false := by
    simp only [nodeIdRefused, Config.lastGeneration, Bool.and_eq_false_iff, Bool.or_eq_false_iff, beq_eq_false_iff_ne]
    exact Or.inr ⟨Or.inr hv, (em (s.cfu.start = .running)).symm.imp id hg⟩
  have he : effective s .nodeId s.nodeId v = w := by simp [effective, hv, clampParam_nodeId, hw]
  have ho : getParam s.cfu.params .nodeId sel = s.nodeId := rfl
  have hx : writeParams .nodeId sel w s = s.withNodeId w := rfl
  simp [doWriteParam, targetOk_nodeId, paramLocked_nodeId, hl, hn, ho, he, hne, hx]

end

theorem paramWritten_isolated {s : State} (h : s.cfu.start = .isolated) (sel : Option Nat) (old : Nat) :
    paramWritten .nodeId sel old s = enterRunning s := by simp [paramWritten, h]

theorem paramWritten_running {s : State} (h : s.cfu.start = .running) (sel : Option Nat) (old : Nat) :
    paramWritten .nodeId sel old s = flush s.renamed := by simp [paramWritten, h, State.renamed]

theorem OwnNodeHeld.of_steady {q : Nat} {s t : State} (h : OwnNodeHeld q s) (hs : t.steady = s.steady) : OwnNodeHeld q t := by
  rwa [OwnNodeHeld, tdb_of_steady hs, State.nodeId, cfu_of_steady hs]

/-! ## The entry to RUNNING (R40, R207) -/

theorem nbr_enterDowns_mem {e : Degree} {l : List Degree} (h : e ∈ l) (s : State) : ((enterDowns l s).adjacency e).nbr = none := by
  induction l generalizing s with
  | nil => simp at h
  | cons d l ih =>
    by_cases hl : e ∈ l
    · exact ih hl _
    · obtain rfl : e = d := by simpa [hl] using h
      exact nbr_enterDowns (s := enterDown e s) l (by rw [(adjacency_enterDown e e s).2.1, if_pos rfl])

/-- What an entry to RUNNING leaves of a part. -/
structure Entered (s t : State) : Prop where
  cfu : t.cfu = { s.cfu with start := .running }
  degree : ∀ d, (t.adjacency d).enable = (s.adjacency d).enable ∧
    ((s.adjacency d).enable = true → (t.adjacency d).state = .down ∧ (t.adjacency d).nbr = none)
  own : s.fle.seq ≤ 0xFFFFFFF0 → OwnNodeFits s → t.fle.seq = s.fle.seq + 1 ∧ OwnNodeHeld s.fle.seq t
  refresh : t.fle.refreshTimer = some (s.now + s.cfu.params.refreshInterval * 1000)
  dtu : t.dtu = s.dtu
  exclusions : t.tdb.exclusions = s.tdb.exclusions
  watches : t.ntu.watches = s.ntu.watches
  rqu : t.rqu = s.rqu
  shu : t.shu = s.shu

theorem entered_enterRunning (s : State) : Entered s (enterRunning s) := by
  have down {α : Type} (π : State → α) : π s.inDown.withoutDegrees =
    π { s with cfu := { s.cfu with start := .running } }.withoutDegrees := congrArg π (withoutDegrees_inDown s)
  have enable : ∀ d, (s.inDown.adjacency d).enable = (s.adjacency d).enable := fun d => enable_enterDowns _ _ d
  have degree : ∀ d, (s.adjacency d).enable = true → (s.inDown.adjacency d).state = .down ∧ (s.inDown.adjacency d).nbr = none := by
    intro d hd
    have hm : d ∈ allDegrees.filter fun e => (s.adjacency e).enable := by simp [mem_allDegrees, hd]
    exact ⟨(state_enterDowns _ _ d).trans (if_pos hm), nbr_enterDowns_mem hm _⟩
  have hcfu : s.inDown.cfu = { s.cfu with start := .running } := down State.cfu
  have htdb : s.inDown.tdb = s.tdb := down State.tdb
  have hseq : s.inDown.fle.seq = s.fle.seq := down fun x => x.fle.seq
  have hnow : s.inDown.now = s.now := down State.now
  have hdtu : s.inDown.dtu = s.dtu := down State.dtu
  have hwatch : s.inDown.ntu.watches = s.ntu.watches := down fun x => x.ntu.watches
  have hrqu : s.inDown.rqu = s.rqu := down State.rqu
  have hshu : s.inDown.shu = s.shu := down State.shu
  rw [enterRunning_eq]
  generalize s.inDown = z at *
  have fits : OwnNodeFits s → OwnNodeFits z := by
    intro h
    rwa [OwnNodeFits, State.nodeId, htdb, hcfu]
  have own : z.fle.seq ≤ 0xFFFFFFF0 → OwnNodeFits s → (originateNode z).timed.fle.seq = z.fle.seq + 1 ∧
      ∀ t : State, t.tdb = (originateNode z).tdb → t.cfu = z.cfu → OwnNodeHeld z.fle.seq t := fun hl hf =>
    ⟨seq_originateNode hl, fun t => ownNodeHeld_of_originate hl (fits hf)⟩
  have hb := beside_originateNode z
  generalize originateNode z = x at *
  have field {α : Type} (π : State → α) : π x.besideRecords = π z.besideRecords := congrArg π hb
  have xcfu : x.cfu = z.cfu := field State.cfu
  have xnow : x.now = z.now := field State.now
  have xadj : ∀ d, x.timed.adjacency d = z.adjacency d := fun d => field fun y => y.adjacency d
  exact
  { cfu := xcfu.trans hcfu
    degree := fun d => by rw [xadj]; exact ⟨enable d, degree d⟩
    own := fun hl hf => by
      rw [← hseq] at hl ⊢
      obtain ⟨h1, h2⟩ := own hl hf
      exact ⟨h1, h2 _ rfl xcfu⟩
    refresh := by
      show some (x.now + x.cfu.params.refreshInterval * 1000) = _
      rw [xnow, xcfu, hnow, hcfu]
    dtu := (field State.dtu).trans hdtu
    exclusions := (field fun y => y.tdb.exclusions).trans (show z.tdb.exclusions = _ by rw [htdb])
    watches := (field fun y => y.ntu.watches).trans hwatch
    rqu := (field State.rqu).trans hrqu
    shu := (field State.shu).trans hshu }

/-! ## The flush in RUNNING (R39, R89) -/

theorem keeps_of_core {s t : State} (h : t.core = s.core) : t.cfu = s.cfu ∧ t.dtu = s.dtu ∧ t.tdb = s.tdb ∧
    t.ntu.watches = s.ntu.watches ∧ t.fle.seq = s.fle.seq ∧ t.cmc = s.cmc ∧ t.rqu = s.rqu ∧ t.rsv = s.rsv ∧ t.shu = s.shu ∧
    t.fsw.fwd = s.fsw.fwd := by
  have field {α : Type} (π : State → α) : π t.core = π s.core := congrArg π h
  exact ⟨field State.cfu, field State.dtu, field State.tdb, field fun x => x.ntu.watches, field fun x => x.fle.seq, field State.cmc,
    field State.rqu, field State.rsv, field State.shu, field fun x => x.fsw.fwd⟩

theorem routeOwn_renamed (s : State) (n : NodeId) : routeOwn s.renamed n = routeOwn s n := by
  obtain ⟨hcfu, -, -, -, -, -, -, -, -, hfwd⟩ := keeps_of_core (core_renamed s)
  refine routeOwn_congr (by rw [State.nodeId, hcfu]; rfl) hfwd (fun d => ?_) n
  rw [(adjacency_renamed s d).2, AdjState.renamed]
  split
  · simp_all
  · simp_all

theorem Flushed.cleared_routes {s t : State} (h : Flushed s t) (n : NodeId) : routeOwn t n = routeOwn s.cleared n :=
  routeOwn_congr (by rw [State.nodeId, h.cfu]; rfl) h.fwd (fun d => by rw [State.adjacency, h.adm]; rfl) n

/-- The answers of a flush, placed when the command is answered and the event has ended. -/
theorem Flushed.answered {r u s t y : State} (h : Flushed s y) (hg : ClaimsGrow y t) (ht : t.steady = y.steady)
    (hrsv : s.rsv = u.rsv) (hrqu : s.rqu = u.rqu) (hcmc : s.cmc = u.cmc) (hshu : s.shu = u.shu)
    (hr : ∀ n, routeOwn r n = routeOwn s n) : FlushAnswered r u (finish t) := by
  have hst : (finish t).steady = y.steady := (steady_finish t).trans ht
  have hid : (finish t).nodeId = s.nodeId := by rw [State.nodeId, cfu_of_steady hst, h.cfu]; rfl
  have hv := (rsv_of_steady hst).trans h.rsv
  rw [FlushAnswered, hv, ← hrsv, ← hrqu, ← hcmc, ← hshu]
  refine ⟨?_, laneAborted_finish _, rfl, rfl, fun rs hrs q hq => ?_, fun e he => ?_⟩
  · have hidle : ({ s.rsv.l0.finish .aborted with work := .idle } : Lane) = s.rsv.l0.finish .aborted := by
      rw [← work_finish .aborted s.rsv.l0]
    exact hidle ▸ laneAborted_finish s.rsv.l0
  · rw [← requests_of_lanesHold hrs] at hq
    have hp := (((h.aborted q hq).routed hr).grows hg).finish
    rwa [routeaFrame_eq, ← hid] at hp
  · have hp := (((h.stale e he).routed (r' := finish t) fun n =>
      (routeOwn_of_steady hst n).trans (h.cleared_routes n)).grows hg).finish
    rw [routeaFrame_eq, ← hid] at hp
    exact hp

end Sys2Proof.Machine

open Sys2Proof Sys2Proof.Machine

/-- Settles O22, by the lock, the start state and whether the node ID changes. -/
theorem nodeIdWriteStartsOrFlushes : Obligations.NodeIdWriteStartsOrFlushes := by
  intro m sel v w s u hu hm hw cfu written
  have hf : FloodDone u := hu ▸ floodDone_settle s
  have run : exec (.writeParam m ⟨some .nodeId, sel⟩ v) s = .next (finish (answerMgmt (identity m.port m.src) m.tag
      (doWriteParam ⟨some .nodeId, sel⟩ v u).2 (doWriteParam ⟨some .nodeId, sel⟩ v u).1)) := by
    rw [← manageFrom_commanded m _ u hm]; exact event_eq hu
  refine ⟨fun hl => ?_, fun hl h => ?_, fun hl hr hg h => ?_, fun hl hs hv hne => ?_, fun hl hs hg hv hne => ?_⟩
  · rw [doWriteParam_locked (targetOk_nodeId sel) hl] at run
    obtain ⟨hb, ha, ht⟩ := answer_event hf m ⟨.locked, .none⟩ hm.2.1
    exact ⟨_, run, hb, ha, ht⟩
  · rw [doWriteParam_nodeId_refused hl h] at run
    obtain ⟨hb, ha, ht⟩ := answer_event hf m ⟨.notReady, .none⟩ hm.2.1
    exact ⟨_, run, hb, ha, ht⟩
  · rw [doWriteParam_nodeId_same hl hr hg h] at run
    obtain ⟨hb, ha, ht⟩ := answer_event hf m ⟨if u.nodeId = v then .ok else .adjusted, .param ⟨some .nodeId, sel⟩ u.nodeId⟩ hm.2.1
    exact ⟨_, run, hb, ht, ha⟩
  · rw [doWriteParam_nodeId_new hl hw hv hne (by simp [hs]), paramWritten_isolated (s := u.withNodeId w) hs] at run
    have h := entered_enterRunning (u.withNodeId w)
    generalize enterRunning (u.withNodeId w) = y at *
    have hst := steady_answered (identity m.port m.src) m.tag ⟨if w = v then .ok else .adjusted, .param ⟨some .nodeId, sel⟩ w⟩ y
    refine ⟨_, ⟨run, (cfu_of_steady hst).trans h.cfu, answered_answerMgmt m _ _ (identity_ne m _ hm.2.1),
      (dtu_of_steady hst).trans h.dtu, ?_, (watches_of_steady hst).trans h.watches⟩, fun d => ?_, fun hseq hfits => ?_,
      (refresh_of_steady hst).trans h.refresh, (rqu_of_steady hst).trans h.rqu, (shu_of_steady hst).trans h.shu⟩
    · rw [tdb_of_steady hst]; exact h.exclusions
    · rw [State.adjacency, adm_of_steady hst]; exact h.degree d
    · obtain ⟨h1, h2⟩ := h.own hseq hfits
      exact ⟨(seq_of_steady hst).trans h1, h2.of_steady hst⟩
  · have hstart : cfu = (u.withNodeId w).cfu := by
      show ({ u.cfu with start := .running, params := _ } : Cfu) = _
      rw [← hs]; rfl
    rw [doWriteParam_nodeId_new hl hw hv hne fun _ => hg, paramWritten_running (s := u.withNodeId w) hs] at run
    obtain ⟨zcfu, zdtu, ztdb, zwatch, zseq, zcmc, zrqu, zrsv, zshu, -⟩ := keeps_of_core (core_renamed (u.withNodeId w))
    have h := flushed_flush (isUp_renamed (u.withNodeId w))
    have degree := adjacency_renamed (u.withNodeId w)
    have routes := routeOwn_renamed (u.withNodeId w)
    generalize (u.withNodeId w).renamed = z at *
    generalize flush z = y at *
    have zid : z.nodeId = w := by rw [State.nodeId, zcfu]; rfl
    have hst := steady_answered (identity m.port m.src) m.tag ⟨if w = v then .ok else .adjusted, .param ⟨some .nodeId, sel⟩ w⟩ y
    have htdb := tdb_of_steady hst
    have hcmc := cmc_of_steady hst
    refine ⟨_, ⟨run, ?_, answered_answerMgmt m _ _ (identity_ne m _ hm.2.1), ((dtu_of_steady hst).trans h.dtu).trans zdtu, ?_,
      ((watches_of_steady hst).trans h.watches).trans zwatch⟩, fun d => ?_, ?_, ?_, ?_, fun hseq => ?_, ?_, ?_, ?_, ?_, ?_⟩
    · rw [cfu_of_steady hst, h.cfu, zcfu, hstart]
    · rw [htdb, h.exclusions, ztdb]; rfl
    · rw [State.adjacency, adm_of_steady hst, h.adm]; exact degree d
    · rw [htdb, ← zid]; exact h.nodes
    · rw [htdb]; exact h.links
    · rw [hcmc, h.gen, zcmc]; rfl
    · obtain ⟨h1, h2⟩ := h.own (by rw [zseq]; exact hseq)
      rw [zseq] at h1 h2
      exact ⟨(seq_of_steady hst).trans h1, h2.of_steady hst⟩
    · refine h.answered (ClaimsGrow.placeOwn _ _ y) (steady_of_blocks (blocks_answerMgmt _ _ _ _)) zrsv zrqu zcmc zshu fun n => ?_
      rw [routes]
      exact routeOwn_congr rfl rfl (fun _ => Iff.rfl) n
    · rw [hcmc]; exact h.normalReq
    · rw [rqu_of_steady hst, h.rqu, zrqu]; rfl
    · exact (shu_of_steady hst).trans h.shu
    · exact (fwd_of_steady hst).trans h.fwd

end

section
/-! SUPPORT. A management command that keeps the adjacencies, FLE and the ports leaves its own effect and its answer; the domain table
and the delegation table as their commands write them (R53 to R55, R134). -/

namespace Sys2Proof.Machine

/-! ## A command and its answer (R206) -/

section
variable {m : MgmtFrom} {f : State → Done} {s u w : State}

/-- A command whose rule leaves FLE nothing to place: the blocks its rule leaves, its answer placed, and the traffic grown. -/
theorem commanded_done {r : Reply} (hu : u = settle s) (hm : Commanded m u) (hr : f u = (w, r)) (hd : FloodDone w) :
    ∃ t, event (manageFrom m f) s = .next t ∧ t.blocks = w.blocks ∧ Answered m r.code r.data t ∧ Traffic [] [] w t := by
  obtain ⟨t, ht, -, hb, ha, htr, -⟩ := commanded_event m f s (hu ▸ hm)
  rw [← hu, hr] at hb ha htr
  exact ⟨t, ht, hb hd, ha, htr [] []⟩

/-- A command refused: nothing but its answer (R206). -/
theorem commanded_refused {c : ResultCode} (hu : u = settle s) (hm : Commanded m u) (hr : f u = refuse c u) :
    ∃ t, event (manageFrom m f) s = .next t ∧ t.blocks = u.blocks ∧ Answered m c .none t ∧ Traffic [] [] u t :=
  commanded_done (r := ⟨c, .none⟩) hu hm hr (hu ▸ floodDone_settle s)

/-- A command whose rule changes none of ADM, FLE, FSW and the notice sources. -/
theorem commanded_aside {r : Reply} (hu : u = settle s) (hm : Commanded m u) (hr : f u = (w, r)) (ha : w.adm = u.adm)
    (hf : w.fle = u.fle) (hw : w.fsw = u.fsw) (hn : w.ntu.sources = u.ntu.sources) :
    ∃ t, event (manageFrom m f) s = .next t ∧ Answered m r.code r.data t ∧ Traffic [] [] u t ∧ t.blocks = w.blocks := by
  have hd : FloodDone u := hu ▸ floodDone_settle s
  obtain ⟨t, ht, hb, hans, htr⟩ := commanded_done hu hm hr (hd.shrinks (FloodShrinks.of_eq ha hf hw))
  have hg : Traffic [] [] u w := by
    refine ⟨fun p _ => ?_, fun i _ _ => by rw [Ntu.source, Ntu.source, hn]⟩
    have : w.port p = u.port p := by cases p <;> simp [State.port, hw]
    rw [this]; exact PortGrows.refl _
  exact ⟨t, ht, hans, hg.trans htr, hb⟩

end

/-! ## Domain numbers, entries and peers (R42, R53, R134) -/

theorem foreignDomain_out {n : Nat} (h : n = 0 ∨ 15 < n) : foreignDomain n = false := by
  simp only [foreignDomain, Bool.and_eq_false_iff, decide_eq_false_iff_not]; omega

theorem foreignDomain_val {k : Fin 16} (h : k ≠ 0) : foreignDomain k.val = true := by
  have : k.val ≠ 0 := fun e => h (Fin.ext e)
  simp only [foreignDomain, Bool.and_eq_true, decide_eq_true_eq]; omega

theorem setDomain_val (k : Fin 16) (e : DomainEntry) (s : State) : setDomain k.val e s = { s with dtu := vset s.dtu k e } :=
  dif_pos k.isLt

theorem setPeer_val (k : Fin 16) (peer : NodeId) (s : State) :
    setPeer k.val peer s = { s with rqu := { s.rqu with delegation := vset s.rqu.delegation k peer } } := dif_pos k.isLt

theorem vget?_val {α : Type} {n : Nat} (v : Vector α n) (k : Fin n) : vget? v k.val = some (vget v k) := vget?_lt v k.isLt

/-- The ranges of the fields of a domain entry (R42). -/
theorem rangeOk_iff (f : DomainFields) : f.rangeOk = true ↔
    f.nativeBase ≤ 0xFFFFFFFF ∧ f.nodeBase ≤ 65535 ∧ 1 ≤ f.nodeLimit ∧ f.nodeLimit ≤ 256 ∧ f.gridRatio ∈ [1, 2, 4, 6] ∧
      f.gridOffset ≤ 383 ∧ 1 ≤ f.costScale ∧ f.costScale ≤ 16 ∧ 1 ≤ f.impScale ∧ f.impScale ≤ 16 := by
  simp only [DomainFields.rangeOk, Bool.and_eq_true, Bool.or_eq_true, decide_eq_true_eq, beq_iff_eq, List.mem_cons,
    List.not_mem_nil, or_false]
  tauto

/-! ## DOMAIN_WRITE (R53) -/

section
variable {n : Nat} {f : DomainFields} {s : State}

theorem doDomainWrite_locked (h : s.cfu.locks.domain = true) : doDomainWrite n f s = refuse .locked s := by simp [doDomainWrite, h]

theorem doDomainWrite_bad (h : s.cfu.locks.domain = false) (hb : foreignDomain n = false ∨ f.rangeOk = false) :
    doDomainWrite n f s = refuse .badArgument s := by
  have : domainArgsOk n f = false := by rcases hb with hb | hb <;> simp [domainArgsOk, hb]
  simp [doDomainWrite, h, this]

/-- An accepted write leaves a CLEAN entry with the fields given; a domain no longer valid loses its delegation peer. -/
theorem doDomainWrite_ok {k : Fin 16} (h : s.cfu.locks.domain = false) (hk : k ≠ 0) (hf : f.rangeOk = true) :
    doDomainWrite k.val f s = ({ s with
      dtu := vset s.dtu k ⟨f, .clean, false, .none⟩
      rqu := if f.valid = true then s.rqu else { s.rqu with delegation := vset s.rqu.delegation k 0 } }, ⟨.ok, .none⟩) := by
  have hargs : domainArgsOk k.val f = true := by simp [domainArgsOk, foreignDomain_val hk, hf]
  cases hv : f.valid <;> simp [doDomainWrite, h, hargs, writeDomain, hv, setDomain_val, setPeer_val]

/-! ## DOMAIN_RELEASE (R54) -/

theorem doDomainRelease_bad (h : foreignDomain n = false) : doDomainRelease n s = refuse .badArgument s := by
  simp [doDomainRelease, h]

theorem release_eq (e : DomainEntry) : e.release =
    if e.state = .faulted ∨ e.state = .quarantined then { e with state := .clean, outstanding := false } else e := by
  unfold DomainEntry.release
  split <;> simp_all

theorem doDomainRelease_ok {k : Fin 16} (hk : k ≠ 0) :
    doDomainRelease k.val s = ({ s with dtu := vset s.dtu k (vget s.dtu k).release }, ⟨.ok, .none⟩) := by
  simp [doDomainRelease, foreignDomain_val hk, vget?_val, setDomain_val]

/-! ## DELEGATE_WRITE (R134) -/

variable {peer : NodeId}

theorem doDelegateWrite_locked (h : s.cfu.locks.domain = true) : doDelegateWrite n peer s = refuse .locked s := by
  simp [doDelegateWrite, h]

theorem doDelegateWrite_bad (h : s.cfu.locks.domain = false) (hb : foreignDomain n = false ∨ peer = 65535 ∨ peer = s.nodeId) :
    doDelegateWrite n peer s = refuse .badArgument s := by
  have : delegateArgsOk s n peer = false := by
    rcases hb with hb | hb | hb <;> simp [delegateArgsOk, hb]
  simp [doDelegateWrite, h, this]

/-- The peer in force: the one asked for where the domain is valid, 0 elsewhere. -/
theorem peerInForce_val {k : Fin 16} {q : NodeId} (h : (((vget s.dtu k).fields.valid = true ∨ peer = 0) ∧ q = peer) ∨
    ((vget s.dtu k).fields.valid = false ∧ q = 0)) : peerInForce s k.val peer = q := by
  rw [peerInForce, vget?_val, Option.any_some]
  rcases h with ⟨hv | h0, rfl⟩ | ⟨hv, rfl⟩
  · rw [if_pos hv]
  · rw [h0, ite_self]
  · rw [if_neg (by simp [hv])]

theorem doDelegateWrite_ok {k : Fin 16} {q : NodeId} (h : s.cfu.locks.domain = false) (hk : k ≠ 0) (h1 : peer ≠ 65535)
    (h2 : peer ≠ s.nodeId) (hq : peerInForce s k.val peer = q) : doDelegateWrite k.val peer s =
      ({ s with rqu := { s.rqu with delegation := vset s.rqu.delegation k q } },
        ⟨if q = peer then .ok else .adjusted, .delegation k.val q⟩) := by
  have hargs : delegateArgsOk s k.val peer = true := by simp [delegateArgsOk, foreignDomain_val hk, h1, h2]
  simp [doDelegateWrite, h, hargs, hq, setPeer_val]

end

end Sys2Proof.Machine

open Sys2Proof Sys2Proof.Machine

/-- Settles O47, command by command: what the lock and the argument checks refuse, and what each accepted command leaves. -/
theorem domainTableAndDelegationWrites : Obligations.DomainTableAndDelegationWrites := by
  intro m n f peer s u hu hm refused inRange
  have range : ¬ inRange → f.rangeOk = false := fun h => by rwa [← Bool.not_eq_true, rangeOk_iff]
  refine ⟨fun hl => ⟨?_, ?_⟩, fun hl hn => ⟨?_, ?_⟩, fun hl hr => ?_, fun hl hp => ?_, fun hn => ?_, fun k hk hn => ?_⟩
  · exact commanded_refused hu hm (doDomainWrite_locked hl)
  · exact commanded_refused hu hm (doDelegateWrite_locked hl)
  · exact commanded_refused hu hm (doDomainWrite_bad hl (Or.inl (foreignDomain_out hn)))
  · exact commanded_refused hu hm (doDelegateWrite_bad hl (Or.inl (foreignDomain_out hn)))
  · exact commanded_refused hu hm (doDomainWrite_bad hl (Or.inr (range hr)))
  · exact commanded_refused hu hm (doDelegateWrite_bad hl (Or.inr hp))
  · exact commanded_refused hu hm (doDomainRelease_bad (foreignDomain_out hn))
  · subst hn
    refine ⟨fun hl hr => ?_, ?_, fun hl h1 h2 q hq => ?_⟩
    · exact commanded_aside hu hm (doDomainWrite_ok hl hk ((rangeOk_iff f).2 hr)) rfl rfl rfl rfl
    · rw [← release_eq]
      exact commanded_aside hu hm (doDomainRelease_ok hk) rfl rfl rfl rfl
    · obtain ⟨t, ht, ha, htr, hb⟩ := commanded_aside hu hm (doDelegateWrite_ok hl hk h1 h2 (peerInForce_val hq)) rfl rfl rfl rfl
      exact ⟨t, ht, htr, ha, hb⟩

end

section
/-! SUPPORT. WATCH_WRITE, NOTICE_ENABLE and NOTICE_CLEAR: what each makes of the watches and the notice sources, and the sources when
their event has ended (R50, R193 to R197, R201). -/

namespace Sys2Proof.Machine

/-! ## WATCH_WRITE (R197) -/

/-- What WATCH_WRITE refuses: an index, a key count, a mode or an origin out of range, and a key given twice. -/
theorem argsOk_eq_false (w : WatchArgs) : w.argsOk = false ↔ 7 < w.index ∨ 4 < w.keys.length ∨ w.mode = none ∨
    (∃ k ∈ w.keys, k.origin = 0 ∨ k.origin = 65535) ∨ ¬ w.keys.Nodup := by
  simp only [WatchArgs.argsOk, Bool.and_eq_false_iff, decide_eq_false_iff_not, not_le, Option.isSome_eq_false_iff,
    Option.isNone_iff_eq_none, List.all_eq_false, Bool.and_eq_true, bne_iff_ne, ne_eq, not_and_or, not_not, or_assoc]

theorem doWatchWrite_bad {w : WatchArgs} (s : State) (h : w.argsOk = false) : doWatchWrite w s = refuse .badArgument s := by
  simp [doWatchWrite, h]

theorem doWatchWrite_ok {w : WatchArgs} {k : Fin 8} {mode : WatchMode} (s : State) (h : w.argsOk = true) (hk : w.index = k.val)
    (hm : w.mode = some mode) : doWatchWrite w s = ({ s with ntu := { s.ntu with watches :=
      (vset s.ntu.watches k (if w.keys = [] then none else some ⟨mode, w.keys⟩)) } }, ⟨.ok, .none⟩) := by
  have hw : WatchArgs.watch w = if w.keys = [] then none else some ⟨mode, w.keys⟩ := by
    unfold WatchArgs.watch
    rw [hm]
    cases w.keys <;> rfl
  have hs : setWatch w s = { s with ntu := { s.ntu with watches := (vset s.ntu.watches k (WatchArgs.watch w)) } } := by
    obtain ⟨i, mo, ks⟩ := w
    obtain rfl : i = k.val := hk
    exact dif_pos k.isLt
  simp [doWatchWrite, h, hs, hw]

/-! ## The enables (R195) -/

theorem port_of_fsw {s t : State} (h : t.fsw = s.fsw) (p : Port) : t.port p = s.port p := by
  cases p <;> simp only [State.port, h]

theorem watches_mapSources (f : NoticeId → NoticeSource → NoticeSource) (n : Ntu) : (n.mapSources f).watches = n.watches := by
  unfold Ntu.mapSources
  generalize NoticeId.all = l
  induction l generalizing n with
  | nil => rfl
  | cons i l ih => rw [List.foldl_cons, ih]; rfl

section
variable {mask : BitVec 16} {s : State} {i : NoticeId}

theorem ntu_setEnables : (setEnables mask s).ntu = s.ntu.mapSources fun i n => { n with enable := mask.getLsbD i.number.val } := rfl

theorem source_setEnables : (setEnables mask s).ntu.source i = { s.ntu.source i with enable := mask.getLsbD i.number.val } := by
  rw [ntu_setEnables, source_mapSources]

/-- Notices originated and held mark the sources that are due, and change no other. -/
theorem source_holdDue : (holdDue s).ntu.source i = (s.ntu.source i).originated := by
  rw [← source_markDue, holdDue, source_markSents, source_markSents]

/-- An emission marks a source that is due, and leaves the rest of it. -/
theorem originated_eq (n : NoticeSource) : n.originated = { n with sent := n.sent || n.due } := by
  unfold NoticeSource.originated
  cases n.due <;> simp

/-- The part of NOTICE_ENABLE before its answer: the enables written, and the NOTICEs this makes due originated. -/
def enabledBy (mask : BitVec 16) (s : State) : State := holdDue (setEnables mask s)

/-- The answer to NOTICE_ENABLE: the sources enabled, and those pending. -/
def enabledReply (mask : BitVec 16) (s : State) : Reply :=
  ⟨.ok, .notices (NoticeId.all.filter fun i => mask.getLsbD i.number.val) (enabledBy mask s).ntu.pendingSet⟩

theorem doNoticeEnable_eq : doNoticeEnable mask s = (enabledBy mask s, enabledReply mask s) := by
  have h : (enabledBy mask s).ntu.enabledSet = NoticeId.all.filter fun i => mask.getLsbD i.number.val := by
    rw [Ntu.enabledSet]
    refine List.filter_congr fun i _ => ?_
    rw [enabledBy, source_holdDue, originated_eq, source_setEnables]
  rw [enabledReply, ← h, doNoticeEnable, enabledBy]

theorem mem_pendingSet {n : Ntu} : i ∈ n.pendingSet ↔ (n.source i).pending = true := by
  simp [Ntu.pendingSet, mem_noticeIds]

theorem source_enabledBy : (enabledBy mask s).ntu.source i =
    ({ s.ntu.source i with enable := mask.getLsbD i.number.val } : NoticeSource).originated := by
  rw [enabledBy, source_holdDue, source_setEnables]

theorem pending_enabledBy : ((enabledBy mask s).ntu.source i).pending = (s.ntu.source i).pending := by
  rw [source_enabledBy, originated_eq]

theorem claims_setEnables : (setEnables mask s).claims = s.claims := by simp only [setEnables]

theorem fsw_setEnables : (setEnables mask s).fsw = s.fsw := by simp only [setEnables]

theorem fsw_enabledBy : (enabledBy mask s).fsw = s.fsw := by
  rw [enabledBy, holdDue, foldl_keeps State.fsw _ _ _ fun t j => by simp only [markSent], fsw_setEnables]

/-- Enables written and NOTICEs originated leave all but the notice sources. -/
theorem blocks_enabledBy : { (enabledBy mask s).blocks with ntu := s.ntu } = { s.blocks with ntu := s.ntu } := by
  rw [enabledBy, blocks_holdDue]
  simp only [State.blocks, setEnables]

theorem watches_enabledBy : (enabledBy mask s).ntu.watches = s.ntu.watches := by
  rw [enabledBy, watches_of_blocks (blocks_holdDue _), ntu_setEnables, watches_mapSources]

theorem floodDone_enabledBy (h : FloodDone s) : FloodDone (enabledBy mask s) := by
  have hv : FloodShrinks s (setEnables mask s) :=
    FloodShrinks.of_eq (by simp only [setEnables]) (by simp only [setEnables]) fsw_setEnables
  have hb := blocks_holdDue (setEnables mask s)
  refine h.shrinks (hv.trans (FloodShrinks.of_queues (adm_of_blocks hb) (fle_of_blocks hb) fun d => ?_))
  exact queue_le_of_traffic (Traffic.holdDue _) _

end

/-! ## Sources when a command's event has ended (R193) -/

section
variable {who : NodeId} {tag : Nat} {r : Reply} {s : State} {i : NoticeId}

theorem source_answerMgmt (hi : i ≠ .congestion) : (answerMgmt who tag r s).ntu.source i = s.ntu.source i := by
  unfold answerMgmt placeOwn
  split
  · rfl
  · exact source_setSource_ne _ _ _ _ (Ne.symm hi)

theorem source_answered (hi : i ≠ .congestion) :
    (finish (answerMgmt who tag r s)).ntu.source i = (s.ntu.source i).originated := by
  rw [source_finish hi, source_answerMgmt hi]

theorem port_answerMgmt (p : Port) : (answerMgmt who tag r s).port p = s.port p := by
  unfold answerMgmt placeOwn
  split <;> cases p <;> rfl

/-- The claims of a command's event: those of its rule, and its answer, which is no NOTICE. -/
theorem notOf_answerMgmt (h : ∀ c ∈ s.claims, NotOf i c.frame) : ∀ c ∈ (answerMgmt who tag r s).claims, NotOf i c.frame := by
  unfold answerMgmt placeOwn
  split
  · intro c hc
    rcases List.mem_append.1 hc with hc | hc
    · exact h c hc
    · obtain rfl := List.mem_singleton.1 hc
      intro n hn
      simp [ownFrame] at hn
  · exact h

/-- A source that is pending and enabled when its event has ended has sent its NOTICE. -/
theorem sent_of_pending {t : State} (hq : Quiet t) (hp : (t.ntu.source i).pending = true) (he : (t.ntu.source i).enable = true) :
    (t.ntu.source i).sent = true := by
  have := hq i
  simpa [NoticeSource.due, hp, he] using this

end

/-! ## NOTICE_ENABLE, its answer and its NOTICEs (R193, R195) -/

/-- The state in which the event of a NOTICE_ENABLE ends. -/
def enabledState (m : MgmtFrom) (mask : BitVec 16) (u : State) : State :=
  finish (answerMgmt (identity m.port m.src) m.tag (enabledReply mask u) (enabledBy mask u))

section
variable {m : MgmtFrom} {mask : BitVec 16} {u : State} {i : NoticeId}

theorem blocks_enabledState (h : FloodDone u) : (enabledState m mask u).blocks = (enabledBy mask u).blocks :=
  blocks_answered _ _ _ (floodDone_enabledBy h)

theorem source_enabledState (hi : i ≠ .congestion) : (enabledState m mask u).ntu.source i =
    ({ u.ntu.source i with enable := mask.getLsbD i.number.val } : NoticeSource).originated := by
  rw [enabledState, source_answered hi, source_enabledBy, originated_of_not_due (due_originated _)]

theorem enable_enabledState : ((enabledState m mask u).ntu.source i).enable = mask.getLsbD i.number.val := by
  rw [enabledState, enable_of_steady (steady_answered _ _ _ _), source_enabledBy, originated_eq]

theorem keeps_enabledState : Keeps (enabledBy mask u) (enabledState m mask u) := (Keeps.placeOwn _ _ _).trans (Keeps.finish _)

theorem grows_enabledState (p : Port) : PortGrows (u.port p) ((enabledState m mask u).port p) := by
  have h : Traffic [] [] (setEnables mask u) (enabledState m mask u) := (Traffic.holdDue _).trans (traffic_answered _ _ _ _)
  have := h.1 p (by simp)
  rwa [port_of_fsw fsw_setEnables] at this

/-- A source that is masked, not pending or has sent its NOTICE draws none. -/
theorem silent_enabledState (hi : i ≠ .congestion) (hc : u.claims = [])
    (h : mask.getLsbD i.number.val = false ∨ (u.ntu.source i).pending = false ∨ (u.ntu.source i).sent = true) :
    NoticeSilent i u (enabledState m mask u) ∧ ((enabledState m mask u).ntu.source i).sent = (u.ntu.source i).sent := by
  have hd : (({ u.ntu.source i with enable := mask.getLsbD i.number.val } : NoticeSource)).due = false := by
    simp only [NoticeSource.due]
    rcases h with h | h | h <;> simp [h]
  have hv : ((setEnables mask u).ntu.source i).due = false := by rw [source_setEnables, hd]
  have hport : ∀ p, (answerMgmt (identity m.port m.src) m.tag (enabledReply mask u) (enabledBy mask u)).port p = u.port p :=
    fun p => (port_answerMgmt p).trans (port_of_fsw fsw_enabledBy p)
  refine ⟨?_, by rw [source_enabledState hi, originated_of_not_due hd]⟩
  have silent : NoticeSilent i _ (enabledState m mask u) := noticeSilent_finish hi
    (by rw [source_answerMgmt hi, source_enabledBy, due_originated]) (notOf_answerMgmt fun c hcl => ?_)
  · intro p
    have := silent p
    rwa [hport] at this
  · rw [enabledBy, claims_holdDue] at hcl
    rcases List.mem_append.1 hcl with hcl | hcl
    · rw [claims_setEnables, hc] at hcl; cases hcl
    · obtain ⟨j, hj, rfl⟩ := List.mem_map.1 hcl
      intro n hn e
      simp only [noticeFrame, Body.notice.injEq] at hn
      subst hn
      obtain rfl : j = i := e
      rw [mem_dueSources, hv] at hj
      cases hj

end

/-! ## NOTICE_CLEAR (R50, R196) -/

/-- Every source rewritten with its enable kept leaves the blocks. -/
theorem blocks_mapSources (f : NoticeId → NoticeSource → NoticeSource) (hf : ∀ i n, (f i n).enable = n.enable) (s : State) :
    { s with ntu := s.ntu.mapSources f }.blocks = s.blocks := by
  unfold Ntu.mapSources
  generalize NoticeId.all = l
  induction l generalizing s with
  | nil => rfl
  | cons i l ih => exact (ih { s with ntu := s.ntu.setSource i (f i (s.ntu.source i)) }).trans (blocks_of_source s i _ (hf _ _))

section
variable {mask : BitVec 16} {s : State} {i : NoticeId}

theorem ntu_clearSources : (clearSources mask s).ntu =
    s.ntu.mapSources fun i n => if mask.getLsbD i.number.val then n.clear else n := rfl

theorem source_clearSources : (clearSources mask s).ntu.source i =
    if mask.getLsbD i.number.val = true then (s.ntu.source i).clear else s.ntu.source i := by
  rw [ntu_clearSources, source_mapSources]

theorem blocks_clearSources : (clearSources mask s).blocks = s.blocks :=
  blocks_mapSources _ (fun i n => by split <;> rfl) s

/-- The part of NOTICE_CLEAR before its answer: the sources of the mask cleared, and with DOMAIN_FAULT every fault-outstanding flag. -/
def clearedBy (mask : BitVec 16) (s : State) : State :=
  { clearSources mask s with
    dtu := if mask.getLsbD 2 = true then (clearSources mask s).dtu.map fun e => { e with outstanding := false }
      else (clearSources mask s).dtu }

theorem dtu_clearSources : (clearSources mask s).dtu = s.dtu := by simp only [clearSources]

theorem blocks_clearedBy : (clearedBy mask s).blocks =
    State.blocks { s with dtu := if mask.getLsbD 2 = true then s.dtu.map fun e => { e with outstanding := false } else s.dtu } := by
  have h := blocks_clearSources (mask := mask) (s := s)
  generalize hd : (if mask.getLsbD 2 = true then s.dtu.map fun e => { e with outstanding := false } else s.dtu) = v
  rw [clearedBy, dtu_clearSources, hd]
  exact congrArg (fun b : State => { b with dtu := v }) h

theorem ntu_clearedBy : (clearedBy mask s).ntu = (clearSources mask s).ntu := rfl

theorem source_clearedBy : (clearedBy mask s).ntu.source i =
    if mask.getLsbD i.number.val = true then (s.ntu.source i).clear else s.ntu.source i := by
  rw [ntu_clearedBy, source_clearSources]

theorem fsw_clearedBy : (clearedBy mask s).fsw = s.fsw := by simp only [clearedBy, clearSources]

theorem floodDone_clearedBy (h : FloodDone s) : FloodDone (clearedBy mask s) :=
  h.shrinks (FloodShrinks.of_eq (by simp only [clearedBy, clearSources]) (by simp only [clearedBy, clearSources]) fsw_clearedBy)

theorem traffic_clearedBy : Traffic (NoticeId.all.filter fun i => mask.getLsbD i.number.val) [] s (clearedBy mask s) := by
  refine ⟨fun p _ => by rw [port_of_fsw fsw_clearedBy]; exact PortGrows.refl _, fun i hi _ => ?_⟩
  have : mask.getLsbD i.number.val ≠ true := fun h => hi (List.mem_filter.2 ⟨mem_noticeIds i, h⟩)
  rw [source_clearedBy, if_neg this]

theorem doNoticeClear_eq : doNoticeClear mask s = (clearedBy mask s,
    ⟨.ok, .notices (NoticeId.all.filter fun i => (s.ntu.source i).enable)
      (NoticeId.all.filter fun i => (s.ntu.source i).pending && !mask.getLsbD i.number.val)⟩) := by
  have hs : (if mask.getLsbD NoticeId.domainFault.number.val then clearOutstanding (clearSources mask s) else clearSources mask s) =
      clearedBy mask s := by
    have h2 : NoticeId.domainFault.number.val = 2 := rfl
    rw [h2, clearedBy]
    generalize clearSources mask s = c
    cases mask.getLsbD 2 <;> rfl
  have he : (clearedBy mask s).ntu.enabledSet = NoticeId.all.filter fun i => (s.ntu.source i).enable := by
    rw [Ntu.enabledSet]
    refine List.filter_congr fun i _ => ?_
    rw [source_clearedBy]
    split <;> rfl
  have hp : (clearedBy mask s).ntu.pendingSet =
      NoticeId.all.filter fun i => (s.ntu.source i).pending && !mask.getLsbD i.number.val := by
    rw [Ntu.pendingSet]
    refine List.filter_congr fun i _ => ?_
    rw [source_clearedBy]
    split <;> simp_all [NoticeSource.clear]
  rw [doNoticeClear, hs, he, hp]

end

/-- A command that reaches its owning rule runs to the end of its event. -/
theorem commanded_run {m : MgmtFrom} {f : State → Done} {s u w : State} {r : Reply} (hu : u = settle s) (hm : Commanded m u)
    (hr : f u = (w, r)) : event (manageFrom m f) s = .next (finish (answerMgmt (identity m.port m.src) m.tag r w)) := by
  have h := manageFrom_commanded m f u hm
  rw [hr] at h
  rw [event_eq hu, h]

end Sys2Proof.Machine

open Sys2Proof Sys2Proof.Machine

/-- Settles O48, command by command, and by whether a source is due at the end of an event. -/
theorem watchAndNoticeCommands : Obligations.WatchAndNoticeCommands := by
  refine ⟨fun m w mask s u hu hm => ?_, fun i s => ?_⟩
  · intro bad masked
    have hf : FloodDone u := hu ▸ floodDone_settle s
    refine ⟨fun hb => ?_, fun hb k mode hk hmode => ?_, ?_, ?_⟩
    · exact commanded_refused hu hm (doWatchWrite_bad u ((argsOk_eq_false w).2 hb))
    · have hok : w.argsOk = true := by rw [← Bool.not_eq_false, argsOk_eq_false]; exact hb
      exact commanded_aside hu hm (doWatchWrite_ok u hok hk hmode) rfl rfl rfl rfl
    · have hb := blocks_enabledState (m := m) (mask := mask) hf
      refine ⟨enabledState m mask u, (enabledBy mask u).ntu.pendingSet, ?_, ?_, fun i _ => ?_, ?_, ?_, grows_enabledState,
        fun i => ⟨enable_enabledState, fun hi hp => ?_, fun hi hp hs => ?_, fun hi h => ?_, fun hi => ?_⟩⟩
      · exact commanded_run hu hm doNoticeEnable_eq
      · exact answered_answerMgmt m (enabledReply mask u) (enabledBy mask u) (identity_ne m u hm.2.1)
      · rw [mem_pendingSet, pending_enabledBy]
      · rw [hb]; exact blocks_enabledBy
      · rw [watches_of_blocks hb, watches_enabledBy]
      · refine sent_of_pending (quiet_finish _) ?_ (enable_enabledState.trans hi)
        exact (keeps_enabledState i (pending_enabledBy.trans hp)).1
      · refine noticePlaced_holdDue _ _ _ ?_
        rw [source_setEnables]
        simp only [NoticeSource.due, hp, hs]
        simpa using hi
      · exact silent_enabledState hi (hu ▸ claims_settle s) h
      · rw [source_enabledState hi, originated_eq]
        exact ⟨rfl, rfl, rfl, rfl⟩
    · refine ⟨_, commanded_run hu hm doNoticeClear_eq, answered_answerMgmt m _ _ (identity_ne m u hm.2.1), ?_, ?_, fun i hi hc => ?_⟩
      · rw [blocks_answered _ _ _ (floodDone_clearedBy hf)]; exact blocks_clearedBy
      · exact traffic_clearedBy.trans ((traffic_answered _ _ _ _).mono (by simp) (by simp))
      · rw [source_answered hc, source_clearedBy, if_pos hi, originated_of_not_due rfl]
        rfl
  · intro n
    refine ⟨fun hp he hs => ?_, fun hi h hc => ?_⟩
    · have hd : n.due = true := by simp [NoticeSource.due, hp, he, hs]
      refine ⟨noticePlaced_finish hd, sent_of_pending (quiet_finish s) (Keeps.finish s i hp).1 ?_⟩
      rw [enable_of_steady (steady_finish s)]
      exact he
    · refine noticeSilent_finish hi ?_ (by simp [hc])
      show n.due = false
      simp only [NoticeSource.due]
      rcases h with h | h | h <;> simp [h]

end

section
/-! SUPPORT. The frame FLE claims space for: the waiting PULL, the next TALLY of a round, or the ADVERT of the send-list head, and what a
claim leaves (R84, R95). -/

namespace Sys2Proof.Machine

variable {d : Degree} {s : State}

/-! ## When a claim is due, and a key that leaves its list as if sent (R95) -/

theorem fleDue_iff : fleDue s d = true ↔ (s.isUp d = true ∧ (s.port (.deg d)).queue.length < 24) ∧
    ((s.flood d).waiting ≠ [] ∨ (s.flood d).round ≠ none ∨ (s.flood d).sendList ≠ []) := by
  simp only [fleDue, OutPort.room, Bool.and_eq_true, Bool.or_eq_true, decide_eq_true_eq,
    Bool.not_eq_true', ← Bool.not_eq_true, List.isEmpty_iff, Option.isSome_iff_ne_none, or_assoc, ne_eq]
  exact Iff.rfl

theorem ownFrame_neighbour (s : State) (kind : Nat) (b : Body) :
    ownFrame s kind neighbourDst b = ⟨kind, 1, 0, s.nodeId, 65535, b⟩ := rfl

theorem setFlood_setFlood (s : State) (d : Degree) (x y : FleDegree) : (s.setFlood d x).setFlood d y = s.setFlood d y := by
  simp [State.setFlood, vset]

theorem nextAdvert_of_sent {k : RecordKey} {a : AdvertBody} (rest : List RecordKey) (h : keyAdvert s k = some a) :
    nextAdvert s (k :: rest) = (some a, rest) := by rw [nextAdvert, h]

theorem nextAdvert_of_skipped {k : RecordKey} (rest : List RecordKey) (h : keyAdvert s k = none) :
    nextAdvert s (k :: rest) = nextAdvert s rest := by rw [nextAdvert, h]

/-- Which keys of a list are sent does not depend on the flood lists. -/
theorem nextAdvert_setFlood (x : FleDegree) (l : List RecordKey) : nextAdvert (s.setFlood d x) l = nextAdvert s l := by
  induction l with
  | nil => rfl
  | cons k l ih =>
    rw [nextAdvert, nextAdvert, ih, keyAdvert_of_steady (steady_setFlood s d x)]

/-! ## The claims, one for each kind of frame (R95) -/

section
variable (hu : s.isUp d = true) (hq : (s.port (.deg d)).queue.length < 24)
include hu hq

theorem fleClaim_pull (hw : (s.flood d).waiting ≠ []) : fleClaim d s = enqueueOwn (.deg d)
    ⟨0x04, 1, 0, s.nodeId, 65535, .pull (s.flood d).waiting⟩ (s.setFlood d { s.flood d with waiting := [] }) := by
  have hd : fleDue s d = true := fleDue_iff.2 ⟨⟨hu, hq⟩, Or.inl hw⟩
  have he : (!(s.flood d).waiting.isEmpty) = true := by simpa using hw
  unfold fleClaim
  rw [if_pos hd]
  dsimp only
  rw [if_pos he]
  rfl

variable (hw : (s.flood d).waiting = [])
include hw

theorem fleClaim_tally {cursor : NodeId} (hr : (s.flood d).round = some cursor) : fleClaim d s = enqueueOwn (.deg d)
    ⟨0x03, 1, 0, s.nodeId, 65535, .tally (nextTally s.tdb cursor).1⟩
    (s.setFlood d { s.flood d with round := (nextTally s.tdb cursor).2 }) := by
  have hd : fleDue s d = true := fleDue_iff.2 ⟨⟨hu, hq⟩, Or.inr (Or.inl (by simp [hr]))⟩
  simp only [fleClaim, hd, hw, hr, if_true, List.isEmpty_nil, Bool.not_true, Bool.false_eq_true, if_false]
  rfl

variable (hr : (s.flood d).round = none)
include hr

/-- The claim from a send list that is not empty. -/
theorem fleClaim_list (hl : (s.flood d).sendList ≠ []) : fleClaim d s =
    match (nextAdvert s (s.flood d).sendList).1 with
    | some a => enqueueOwn (.deg d) ⟨0x02, 1, 0, s.nodeId, 65535, .advert a⟩
        (s.setFlood d { s.flood d with sendList := (nextAdvert s (s.flood d).sendList).2 })
    | none => s.setFlood d { s.flood d with sendList := (nextAdvert s (s.flood d).sendList).2 } := by
  have hd : fleDue s d = true := fleDue_iff.2 ⟨⟨hu, hq⟩, Or.inr (Or.inr hl)⟩
  simp only [fleClaim, hd, hw, hr, if_true, List.isEmpty_nil, Bool.not_true, Bool.false_eq_true, if_false]
  rfl

theorem fleClaim_advert {k : RecordKey} {rest : List RecordKey} {a : AdvertBody} (hl : (s.flood d).sendList = k :: rest)
    (ha : keyAdvert s k = some a) : fleClaim d s = enqueueOwn (.deg d) ⟨0x02, 1, 0, s.nodeId, 65535, .advert a⟩
      (s.setFlood d { s.flood d with sendList := rest }) := by
  rw [fleClaim_list hu hq hw hr (by simp [hl]), hl, nextAdvert_of_sent rest ha]

/-- A head that cannot be sent leaves the list as if sent, in the same claim. -/
theorem fleClaim_skip {k : RecordKey} {rest : List RecordKey} (hl : (s.flood d).sendList = k :: rest) (ha : keyAdvert s k = none) :
    fleClaim d s = fleClaim d (s.setFlood d { s.flood d with sendList := rest }) := by
  have hx : (s.setFlood d { s.flood d with sendList := rest }).flood d = { s.flood d with sendList := rest } := by simp
  rw [fleClaim_list hu hq hw hr (by simp [hl]), hl, nextAdvert_of_skipped rest ha]
  by_cases he : rest = []
  · subst he
    rw [fleClaim_of_not_due]
    · rfl
    · rw [← Bool.not_eq_true, fleDue_iff, hx, hw, hr]; simp
  · rw [fleClaim_list (s := s.setFlood d { s.flood d with sendList := rest }) hu hq (by rw [hx]; exact hw) (by rw [hx]; exact hr)
      (by rw [hx]; exact he), hx, nextAdvert_setFlood, setFlood_setFlood]
    rfl

end

end Sys2Proof.Machine

end

section
/-! SUPPORT. The ADVERT of a record: the working version in native form, or converted back through its domain entry (R52, R84, R95). -/

namespace Sys2Proof.Machine

/-! ## Records that are sent (R52, R84) -/

/-- A record of a domain can be sent while its entry is valid and not quarantined (R52). -/
def DomainEntry.Sends (e : DomainEntry) : Prop := e.fields.valid = true ∧ e.state ≠ .quarantined

/-- The native ID of an internal one (R52). -/
def toNative (f : DomainFields) (n : NodeId) : Nat := f.nativeBase + (n - f.nodeBase)

/-- An internal ID lies in the mapped block, and its native ID fits 32 bits (R52). -/
def MapsBack (f : DomainFields) (n : NodeId) : Prop :=
  f.nodeBase ≤ n ∧ n < f.nodeBase + f.nodeLimit ∧ toNative f n ≤ 0xFFFFFFFF

theorem unmapNode_of_mapsBack {f : DomainFields} {n : NodeId} (h : MapsBack f n) : unmapNode f n = some (toNative f n) := by
  obtain ⟨h1, h2, h3⟩ := h
  rw [toNative] at h3
  simp [unmapNode, h1, h2, h3, toNative]

theorem unmapNode_of_not_mapsBack {f : DomainFields} {n : NodeId} (h : ¬ MapsBack f n) : unmapNode f n = none := by
  refine if_neg fun k => h ?_
  simpa [MapsBack, toNative, and_assoc] using k

/-- The own keys are barred while the counter is exhausted; no other key is (R84). -/
theorem keyAdvert_exhausted {s : State} {k : RecordKey} (hs : 0xFFFFFFF0 < s.fle.seq) (hk : isOwnKey s.nodeId k = true) :
    keyAdvert s k = none := by
  have hl : s.fle.live = false := by rw [← Bool.not_eq_true, live_iff]; omega
  simp [keyAdvert, hl, hk]

/-- A key may be sent as far as the counter goes: the counter is live, or the key is not an own one (R84). -/
def Unbarred (s : State) (k : RecordKey) : Prop := s.fle.live = true ∨ isOwnKey s.nodeId k = false

theorem unbarred_of {s : State} {k : RecordKey} (h : s.fle.seq ≤ 0xFFFFFFF0 ∨ (∀ n, k = .node n → n ≠ s.nodeId) ∧
    (∀ l, k = .link l → l.origin ≠ s.nodeId ∨ 7 < l.num)) : Unbarred s k := by
  refine h.imp live_iff.2 fun ⟨hn, hl⟩ => ?_
  cases k with
  | node n => simpa [isOwnKey] using hn n rfl
  | link l => simpa [isOwnKey, imp_iff_not_or] using hl l rfl

theorem keyAdvert_node {s : State} {n : NodeId} {i : Nat} {r : NodeRec} (hk : Unbarred s (.node n))
    (hf : s.tdb.findNode n = some (i, r)) : keyAdvert s (.node n) = nodeAdvert s.dtu r := by
  rcases hk with hk | hk <;> simp [keyAdvert, hk, hf]

theorem keyAdvert_link {s : State} {l : LinkKey} {i : Nat} {r : LinkRec} (hk : Unbarred s (.link l))
    (hf : s.tdb.findLink l = some (i, r)) : keyAdvert s (.link l) = linkAdvert s.dtu r := by
  rcases hk with hk | hk <;> simp [keyAdvert, hk, hf]

theorem id_of_findNode {t : Tdb} {n : NodeId} {i : Nat} {r : NodeRec} (h : t.findNode n = some (i, r)) : r.id = n := by
  simpa using List.find?_some h

theorem key_of_findLink {t : Tdb} {l : LinkKey} {i : Nat} {r : LinkRec} (h : t.findLink l = some (i, r)) : r.key = l := by
  simpa using List.find?_some h

/-! ## Node records (R95) -/

section
variable {dtu : Vector DomainEntry 16} {r : NodeRec} {p : Part NodeContent} (hw : r.ver.working = some p)
include hw

theorem nodeAdvert_native (hd : r.ver.domain = 0) : nodeAdvert dtu r = some ⟨0, r.id, p.seq, r.ver.age,
    .node p.content.regen (if p.content.transit = true then 1 else 0), 0, 0⟩ := by
  simp [nodeAdvert, hw, hd, nativeAdvert, bit]

variable {j : Fin 16} (hj : j ≠ 0) (hd : r.ver.domain = j.val)
include hj hd

theorem nodeAdvert_foreign (hs : (vget dtu j).Sends) (hm : MapsBack (vget dtu j).fields r.id) : nodeAdvert dtu r =
    some ⟨j.val, 0, p.seq, r.ver.age, .node p.content.regen (if p.content.transit = true then 1 else 0),
      toNative (vget dtu j).fields r.id, 0⟩ := by
  have h0 : j.val ≠ 0 := fun e => hj (Fin.ext e)
  simp [nodeAdvert, hw, hd, h0, vget?_val, hs.1, hs.2, unmapNode_of_mapsBack hm, bit]

theorem nodeAdvert_unsent (h : ¬ ((vget dtu j).Sends ∧ MapsBack (vget dtu j).fields r.id)) : nodeAdvert dtu r = none := by
  have h0 : j.val ≠ 0 := fun e => hj (Fin.ext e)
  by_cases hs : (vget dtu j).Sends
  · simp [nodeAdvert, hw, hd, h0, vget?_val, unmapNode_of_not_mapsBack fun hm => h ⟨hs, hm⟩]
  · have hs' : (!(vget dtu j).fields.valid || (vget dtu j).state == .quarantined) = true := by
      rw [DomainEntry.Sends, not_and_or, not_not] at hs
      simpa using hs
    simp [nodeAdvert, hw, hd, h0, vget?_val, hs']

end

/-! ## Slot maps converted back (R52) -/

theorem forall_channelSlots (f : DomainFields) (n : Nat) (p : Nat → Bool) : (channelSlots f n).all p = true ↔
    ∀ a, a < f.gridRatio → p (f.gridOffset + n * f.gridRatio + a) = true := by
  simp [channelSlots]

theorem exists_channelSlots (f : DomainFields) (n : Nat) (p : Nat → Bool) : (channelSlots f n).any p = true ↔
    ∃ a, a < f.gridRatio ∧ p (f.gridOffset + n * f.gridRatio + a) = true := by
  simp [channelSlots]

/-- A channel is BLOCKED when every slot of it is. -/
theorem getLsbD_channelsBlocked (f : DomainFields) (m : SlotMap) {n : Nat} (hn : n < 384) :
    (channelsBlocked f m).getLsbD n = true ↔ n < f.channelCount ∧
      ∀ a, a < f.gridRatio → m.slot (f.gridOffset + n * f.gridRatio + a) = .blocked := by
  rw [channelsBlocked, getLsbD_mapBits _ hn, Bool.and_eq_true, decide_eq_true_eq, forall_channelSlots]
  simp only [beq_iff_eq]

/-- A channel is USED when some slot of it is and not every one is BLOCKED. -/
theorem getLsbD_channelsUsed (f : DomainFields) (m : SlotMap) {n : Nat} (hn : n < 384) :
    (channelsUsed f m).getLsbD n = true ↔ n < f.channelCount ∧
      ¬ (∀ a, a < f.gridRatio → m.slot (f.gridOffset + n * f.gridRatio + a) = .blocked) ∧
      ∃ a, a < f.gridRatio ∧ m.slot (f.gridOffset + n * f.gridRatio + a) = .used := by
  rw [channelsUsed, getLsbD_mapBits _ hn, Bool.and_eq_true, Bool.and_eq_true, decide_eq_true_eq, Bool.not_eq_true',
    ← Bool.not_eq_true, forall_channelSlots, exists_channelSlots, and_assoc]
  simp only [beq_iff_eq]

/-! ## Link records (R52, R95) -/

section
variable {dtu : Vector DomainEntry 16} {r : LinkRec} {p : Part LinkContent} (hw : r.ver.working = some p)
include hw

theorem linkAdvert_native (hd : r.ver.domain = 0) : linkAdvert dtu r = some ⟨0, r.key.origin, p.seq, r.ver.age,
    .link r.key.num p.content.far (if p.content.farNum.isSome then 1 else 0) (p.content.farNum.getD 0) p.content.cost p.content.imp
      p.content.slots.used p.content.slots.blocked, 0, 0⟩ := by
  simp [linkAdvert, hw, hd, nativeAdvert]

variable {j : Fin 16} (hj : j ≠ 0) (hd : r.ver.domain = j.val)
include hj hd

theorem linkAdvert_foreign (hs : (vget dtu j).Sends) (ho : MapsBack (vget dtu j).fields r.key.origin)
    (hf : MapsBack (vget dtu j).fields p.content.far) : linkAdvert dtu r = some ⟨j.val, 0, p.seq, r.ver.age,
      .link (r.ver.native.getD r.key.num) 0 0 0 (max 1 (p.content.cost / (vget dtu j).fields.costScale))
        (p.content.imp / (vget dtu j).fields.impScale) (channelsUsed (vget dtu j).fields p.content.slots)
        (channelsBlocked (vget dtu j).fields p.content.slots),
      toNative (vget dtu j).fields r.key.origin, toNative (vget dtu j).fields p.content.far⟩ := by
  have h0 : j.val ≠ 0 := fun e => hj (Fin.ext e)
  simp [linkAdvert, hw, hd, h0, vget?_val, hs.1, hs.2, unmapNode_of_mapsBack ho, unmapNode_of_mapsBack hf]

theorem linkAdvert_unsent (h : ¬ ((vget dtu j).Sends ∧ MapsBack (vget dtu j).fields r.key.origin ∧
    MapsBack (vget dtu j).fields p.content.far)) : linkAdvert dtu r = none := by
  have h0 : j.val ≠ 0 := fun e => hj (Fin.ext e)
  by_cases hs : (vget dtu j).Sends
  · by_cases ho : MapsBack (vget dtu j).fields r.key.origin
    · have hf := unmapNode_of_not_mapsBack fun hm => h ⟨hs, ho, hm⟩
      simp [linkAdvert, hw, hd, h0, vget?_val, unmapNode_of_mapsBack ho, hf]
    · simp [linkAdvert, hw, hd, h0, vget?_val, unmapNode_of_not_mapsBack ho]
  · have hs' : (!(vget dtu j).fields.valid || (vget dtu j).state == .quarantined) = true := by
      rw [DomainEntry.Sends, not_and_or, not_not] at hs
      simpa using hs
    simp [linkAdvert, hw, hd, h0, vget?_val, hs']

end

end Sys2Proof.Machine

end

section
/-! SUPPORT. The next TALLY of a round, and the summary of an origin (R96, R97). -/

namespace Sys2Proof.Machine

/-! ## Sets of numbers in order -/

theorem mem_insertBy_natLt {a x : Nat} {l : List Nat} : x ∈ insertBy natLt a l ↔ x = a ∨ x ∈ l := by
  induction l with
  | nil => simp [insertBy]
  | cons b l ih =>
    rw [insertBy]
    split
    · simp
    · split
      · rw [List.mem_cons, ih, List.mem_cons]; tauto
      · rename_i h1 h2
        have : a = b := by simp only [natLt, decide_eq_true_eq] at h1 h2; omega
        simp [this]

theorem pairwise_insertBy_natLt {a : Nat} {l : List Nat} (h : l.Pairwise (· < ·)) : (insertBy natLt a l).Pairwise (· < ·) := by
  induction l with
  | nil => simp [insertBy]
  | cons b l ih =>
    obtain ⟨hb, hl⟩ := List.pairwise_cons.1 h
    rw [insertBy]
    split
    · rename_i hab
      have hab : a < b := by simpa [natLt] using hab
      refine List.pairwise_cons.2 ⟨fun x hx => ?_, h⟩
      rcases List.mem_cons.1 hx with rfl | hx
      · exact hab
      · exact lt_trans hab (hb x hx)
    · split
      · rename_i hba
        have hba : b < a := by simpa [natLt] using hba
        refine List.pairwise_cons.2 ⟨fun x hx => ?_, ih hl⟩
        rcases mem_insertBy_natLt.1 hx with rfl | hx
        · exact hba
        · exact hb x hx
      · exact h

theorem mem_sortBy_natLt {x : Nat} {l : List Nat} : x ∈ sortBy natLt l ↔ x ∈ l := by
  induction l with
  | nil => simp [sortBy]
  | cons b l ih => rw [sortBy, List.foldr_cons, mem_insertBy_natLt, List.mem_cons, ← ih, sortBy]

theorem pairwise_sortBy_natLt (l : List Nat) : (sortBy natLt l).Pairwise (· < ·) := by
  induction l with
  | nil => simp [sortBy]
  | cons b l ih => exact pairwise_insertBy_natLt ih

/-! ## The origins a TALLY is taken from (R97) -/

/-- The origins held from a cursor on. -/
def Tdb.originsFrom (t : Tdb) (cursor : NodeId) : List NodeId := t.origins.filter fun o => decide (cursor ≤ o)

theorem mem_originsFrom {t : Tdb} {cursor o : NodeId} : o ∈ t.originsFrom cursor ↔
    cursor ≤ o ∧ ((∃ e ∈ t.nodes, e.2.id = o) ∨ ∃ e ∈ t.links, e.2.key.origin = o) := by
  simp [Tdb.originsFrom, Tdb.origins, mem_sortBy_natLt, and_comm]

theorem pairwise_originsFrom (t : Tdb) (cursor : NodeId) : (t.originsFrom cursor).Pairwise (· < ·) :=
  (pairwise_sortBy_natLt _).filter _

theorem entries_nextTally (t : Tdb) (cursor : NodeId) : (nextTally t cursor).1.first = cursor ∧
    (nextTally t cursor).1.entries = ((t.originsFrom cursor).take 80).filterMap t.summary := by
  unfold nextTally
  dsimp only
  split <;> exact ⟨rfl, rfl⟩

/-- A TALLY that lists the last origin ends the round. -/
theorem nextTally_last {t : Tdb} {cursor : NodeId} (h : (t.originsFrom cursor).length ≤ 80) :
    (nextTally t cursor).1.last = 65534 ∧ (nextTally t cursor).2 = none := by
  have : (t.origins.filter fun o => decide (cursor ≤ o)).length ≤ Config.tallyEntries := h
  simp [nextTally, this]

/-- A TALLY that does not is followed from the origin behind its last one. -/
theorem nextTally_more {t : Tdb} {cursor : NodeId} (h : ¬ (t.originsFrom cursor).length ≤ 80) :
    (nextTally t cursor).1.last = ((t.originsFrom cursor).take 80).getLastD cursor ∧
      (nextTally t cursor).2 = some ((nextTally t cursor).1.last + 1) := by
  have : ¬ (t.origins.filter fun o => decide (cursor ≤ o)).length ≤ Config.tallyEntries := h
  rw [nextTally, if_neg this]
  exact ⟨rfl, rfl⟩

/-! ## Summaries (R96) -/

theorem foldl_max_spec (l : List Nat) (a : Nat) : a ≤ l.foldl max a ∧ (∀ q ∈ l, q ≤ l.foldl max a) ∧
    (l.foldl max a = a ∨ l.foldl max a ∈ l) := by
  induction l generalizing a with
  | nil => simp
  | cons b l ih =>
    obtain ⟨h1, h2, h3⟩ := ih (max a b)
    refine ⟨le_trans (le_max_left a b) h1, fun q hq => ?_, ?_⟩
    · rcases List.mem_cons.1 hq with rfl | hq
      · exact le_trans (le_max_right a q) h1
      · exact h2 q hq
    · rw [List.foldl_cons]
      rcases h3 with h3 | h3
      · rw [h3]
        rcases le_total a b with h | h
        · rw [max_eq_right h]; exact Or.inr List.mem_cons_self
        · rw [max_eq_left h]; exact Or.inl rfl
      · exact Or.inr (List.mem_cons_of_mem _ h3)

theorem summary_of_nil {t : Tdb} {o : NodeId} (h : t.sequences o = []) : t.summary o = none := by rw [Tdb.summary, h]

/-- The summary of a held origin: the highest sequence of its working versions, their number, and their sum. -/
theorem summary_of_held {t : Tdb} {o : NodeId} (h : t.sequences o ≠ []) : ∃ m, t.summary o =
    some ⟨o, m, (t.sequences o).length, (t.sequences o).sum % 2 ^ 32⟩ ∧ m ∈ t.sequences o ∧ ∀ q ∈ t.sequences o, q ≤ m := by
  unfold Tdb.summary
  generalize t.sequences o = l at h
  cases l with
  | nil => exact absurd rfl h
  | cons q qs =>
    obtain ⟨-, hle, hmem⟩ := foldl_max_spec (q :: qs) 0
    refine ⟨_, by rw [List.sum_eq_foldl], ?_, hle⟩
    rcases hmem with h0 | hm
    · have := hle q List.mem_cons_self
      have hq : q = 0 := by omega
      rw [h0, hq]; exact List.mem_cons_self
    · exact hm

end Sys2Proof.Machine

open Sys2Proof Sys2Proof.Machine

/-- Settles O15: the claim by what is ready at the degree, the ADVERT by its record and domain, the TALLY by what is left of the round. -/
theorem fleClaimsPullThenTallyThenAdvert : Obligations.FleClaimsPullThenTallyThenAdvert := by
  have run (d : Degree) (s : State) : exec (.fleFrameClaim d) s = .next (finish (fleClaim d s)) := rfl
  have idle (d : Degree) (s : State) (h : ¬ fleDue s d = true) : exec (.fleFrameClaim d) s = .next (finish s) := by
    rw [run, fleClaim_of_not_due d s (by simpa using h)]
  refine ⟨fun d s => ⟨fun h => ?_, fun hw hr hl => ?_, fun hu hq => ⟨fun hw => ?_, fun hw cursor hr => ?_,
    fun hw hr k rest hl => ⟨fun a ha => ?_, fun ha => ?_⟩⟩⟩, fun s k hk => ?_, fun s hs => ⟨?_, fun n hn => ?_⟩,
    fun t cursor => ?_, fun t o => ⟨summary_of_nil, summary_of_held⟩⟩
  · exact idle d s fun k => h (fleDue_iff.1 k).1
  · exact idle d s fun k => by simpa [hw, hr, hl] using (fleDue_iff.1 k).2
  · rw [run, fleClaim_pull hu hq hw]
  · rw [run, fleClaim_tally hu hq hw hr]
  · rw [run, fleClaim_advert hu hq hw hr hl ha]
  · rw [run, run, fleClaim_skip hu hq hw hr hl ha]
  · intro sendable native mapped
    have hk := unbarred_of hk
    refine ⟨fun n i r p hn hf hw => ?_, fun l i r p hl hf hw => ?_⟩
    · subst hn
      obtain rfl := id_of_findNode hf
      rw [keyAdvert_node hk hf]
      exact ⟨nodeAdvert_native hw, fun j hj hd => ⟨fun h => nodeAdvert_foreign hw hj hd h.1 h.2, nodeAdvert_unsent hw hj hd⟩⟩
    · subst hl
      obtain rfl := key_of_findLink hf
      rw [keyAdvert_link hk hf]
      refine ⟨fun hd => ⟨fun m hm => ?_, fun hm => ?_⟩,
        fun j num hj hd hnum => ⟨fun ⟨hs, ho, hfar⟩ => ?_, linkAdvert_unsent hw hj hd⟩⟩
      · rw [linkAdvert_native hw hd, hm]; rfl
      · rw [linkAdvert_native hw hd, hm]; rfl
      · refine ⟨_, _, (linkAdvert_foreign hw hj hd hs ho hfar).trans (by rw [hnum]; rfl), fun n hn => ⟨?_, ?_⟩⟩
        · exact getLsbD_channelsBlocked _ _ hn
        · exact getLsbD_channelsUsed _ _ hn
  · exact keyAdvert_exhausted hs (by simp [isOwnKey])
  · exact keyAdvert_exhausted hs (by simp [isOwnKey, hn])
  · obtain ⟨hfirst, hentries⟩ := entries_nextTally t cursor
    refine ⟨(t.originsFrom cursor).take 80, (t.originsFrom cursor).drop 80, ?_, fun o => ?_, List.length_take_le _ _, hfirst, hentries,
      fun h => nextTally_last (List.drop_eq_nil_iff.1 h), fun h => ?_⟩
    · rw [List.take_append_drop]; exact pairwise_originsFrom t cursor
    · rw [List.take_append_drop]; exact mem_originsFrom
    · have hlong : ¬ (t.originsFrom cursor).length ≤ 80 := fun k => h (List.drop_eq_nil_iff.2 k)
      obtain ⟨hlast, hnext⟩ := nextTally_more hlong
      have hlen : ((t.originsFrom cursor).take 80).length = 80 := by rw [List.length_take]; omega
      refine ⟨hlen, ?_, hnext⟩
      rw [hlast, List.getLastD_eq_getLast?]
      cases hg : ((t.originsFrom cursor).take 80).getLast? with
      | some o => rfl
      | none => rw [List.getLast?_eq_none_iff.1 hg] at hlen; cases hlen

end

section
/-! SUPPORT. A foreign ADVERT that does not translate: the fault counted against its domain entry, and the quarantine it may bring (R43,
R47, R49, R51). -/

namespace Sys2Proof.Machine

/-! ## An ADVERT taken (R11, R43) -/

theorem exec_advert {d : Degree} {a : AdvertBody} {s u : State} (hu : u = settle s) (ht : takesInput u (.deg d) = true)
    (hup : u.isUp d = true) (hf : a.formOk = true) : exec (.advert d a) s = .next (finish (takeAdvert d a u)) := by
  have h : takeBody (.deg d) 0 true (.advert a) u = takeAdvert d a u := by
    have hform : (Handled.advert a).formOk = true := hf
    simp only [takeBody, ht, if_true, passOn, hform, Bool.not_true, Bool.false_eq_true, if_false, passFromDegree, toFlood, hup]
  rw [← h]; exact event_eq hu

section
variable {d : Degree} {a : AdvertBody} {k : Fin 16} {s : State} (ha : a.domain = k.val) (hk : k ≠ 0)
include ha hk

theorem takeAdvert_quarantined (hq : (vget s.dtu k).state = .quarantined) : takeAdvert d a s = s := by
  have h0 : k.val ≠ 0 := fun e => hk (Fin.ext e)
  simp [takeAdvert, ha, h0, vget?_val, hq]

section
variable (hq : (vget s.dtu k).state ≠ .quarantined)
include hq

theorem takeAdvert_fault {f : FaultKind} (hf : translate s.tdb s.nodeId d (vget s.dtu k).fields a = .fault f) :
    takeAdvert d a s = takeFault k.val (vget s.dtu k) f s := by
  have h0 : k.val ≠ 0 := fun e => hk (Fin.ext e)
  simp [takeAdvert, ha, h0, vget?_val, hq, hf]

theorem takeAdvert_record {w : RecordWrite} {offsets : List Nat}
    (hw : translate s.tdb s.nodeId d (vget s.dtu k).fields a = .record w offsets) :
    takeAdvert d a s = takeRecord d w (takeWarning k.val (vget s.dtu k) offsets s) := by
  have h0 : k.val ≠ 0 := fun e => hk (Fin.ext e)
  simp [takeAdvert, ha, h0, vget?_val, hq, hw]

end

end

/-! ## A fault counted (R47, R49) -/

theorem translate_unmapped {t : Tdb} {self : NodeId} {d : Degree} {f : DomainFields} {a : AdvertBody} (h : f.valid = false) :
    translate t self d f a = .fault .unmapped := by simp [translate, h]

theorem countFault_first {e : DomainEntry} (f : FaultKind) (hq : e.state ≠ .quarantined)
    (h : e.state = .clean ∨ e.state = .warned ∨ e.outstanding = false) :
    DomainEntry.countFault f e = ⟨e.fields, .faulted, true, f⟩ := by
  obtain ⟨fields, state, outstanding, last⟩ := e
  cases state with
  | clean => rfl
  | warned => rfl
  | faulted =>
    obtain rfl : outstanding = false := by simpa using h
    rfl
  | quarantined => exact absurd rfl hq

theorem countFault_again {e : DomainEntry} (f : FaultKind) (hs : e.state = .faulted) (ho : e.outstanding = true) :
    DomainEntry.countFault f e = ⟨e.fields, .quarantined, true, f⟩ := by
  obtain ⟨fields, state, outstanding, last⟩ := e
  obtain rfl : state = .faulted := hs
  obtain rfl : outstanding = true := ho
  rfl

/-- An entry of the domain table written, and DOMAIN_FAULT raised for its domain. -/
def State.faulted (s : State) (k : Fin 16) (e : DomainEntry) : State :=
  raise .domainFault [.domain k.val] { s with dtu := vset s.dtu k e }

theorem raised_faulted (s : State) (k : Fin 16) (e : DomainEntry) : Raised .domainFault (.domain k.val) (s.faulted k e) :=
  raised_raise (by simp) _

theorem Traffic.faulted {ps : List Port} (s : State) (k : Fin 16) (e : DomainEntry) :
    Traffic [.domainFault] ps s (s.faulted k e) := (Traffic.of_eq rfl rfl).trans (Traffic.raise (Or.inl (by simp)) _ _)

theorem blocks_faulted (s : State) (k : Fin 16) (e : DomainEntry) :
    (s.faulted k e).blocks = State.blocks { s with dtu := vset s.dtu k e } := blocks_raise _ _ _

theorem takeFault_first {k : Fin 16} {e : DomainEntry} {f : FaultKind} (s : State)
    (h : DomainEntry.countFault f e = ⟨e.fields, .faulted, true, f⟩) :
    takeFault k.val e f s = s.faulted k ⟨e.fields, .faulted, true, f⟩ := by
  rw [takeFault, h, setDomain_val]; rfl

theorem takeFault_again {k : Fin 16} {e : DomainEntry} {f : FaultKind} (s : State)
    (h : DomainEntry.countFault f e = ⟨e.fields, .quarantined, true, f⟩) :
    takeFault k.val e f s = urgentRequest (withdrawDomain k.val (s.faulted k ⟨e.fields, .quarantined, true, f⟩)) := by
  rw [takeFault, h, setDomain_val]; rfl

/-! ## The links of a domain withdrawn (R51) -/

/-- The links of a domain with an ACTIVE working version, withdrawn. -/
def withdrawLinks (n : Nat) (l : List (Nat × LinkRec)) : List (Nat × LinkRec) :=
  l.map fun x => if x.2.ver.domain = n ∧ x.2.ver.workingActive = true then (x.1, { x.2 with ver := x.2.ver.withdraw }) else x

theorem quarantines_iff {n : Nat} {r : LinkRec} : quarantines n r = true ↔ r.ver.domain = n ∧ r.ver.workingActive = true := by
  simp [quarantines]

theorem workingActive_withdraw {α : Type} (v : Versions α) : v.withdraw.workingActive = false := by
  unfold Versions.withdraw
  cases h : v.working with
  | none => simp [Versions.workingActive, h]
  | some p => simp [Versions.workingActive, Versions.working, Part.isActive]

/-- No link of the domain is ACTIVE after its withdrawal. -/
theorem not_active_withdrawLinks {n : Nat} {l : List (Nat × LinkRec)} {x : Nat × LinkRec} (hx : x ∈ withdrawLinks n l)
    (hd : x.2.ver.domain = n) : x.2.ver.workingActive = false := by
  obtain ⟨y, -, rfl⟩ := List.mem_map.1 hx
  by_cases h : y.2.ver.domain = n ∧ y.2.ver.workingActive = true
  · rw [if_pos h]; exact workingActive_withdraw _
  · rw [if_neg h] at hd ⊢
    exact Bool.eq_false_iff.2 fun k => h ⟨hd, k⟩

theorem withdrawLinks_none {n : Nat} {l : List (Nat × LinkRec)} (h : ∀ x ∈ l, quarantines n x.2 = false) : withdrawLinks n l = l := by
  refine (List.map_congr_left fun x hx => ?_).trans (List.map_id l)
  simp only [← quarantines_iff]
  rw [if_neg (by simp [h x hx])]
  rfl

theorem withdrawLinks_eq (n : Nat) (l : List (Nat × LinkRec)) : withdrawLinks n l =
    tmap (fun r => if quarantines n r then { r with ver := r.ver.withdraw } else r) l := by
  refine List.map_congr_left fun x _ => ?_
  simp only [← quarantines_iff]
  split <;> rfl

/-- The state without FLE's lists and the mark of a change. -/
def State.besideFlood (s : State) : State := { s with fle := Fle.reset, cmc := { s.cmc with changed := false } }

theorem besideFlood_checkPulls (o : NodeId) (s : State) : (checkPulls o s).besideFlood = s.besideFlood := rfl

theorem besideFlood_withdrawDomain (n : Nat) (s : State) : (withdrawDomain n s).besideFlood =
    State.besideFlood { s with tdb := { s.tdb with links := withdrawLinks n s.tdb.links } } := by
  unfold withdrawDomain
  dsimp only
  split
  · rename_i h
    have : withdrawLinks n s.tdb.links = s.tdb.links := withdrawLinks_none fun x hx => by
      simpa using List.filter_eq_nil_iff.1 (List.isEmpty_iff.1 h) x hx
    rw [this]
  · rw [foldl_keeps State.besideFlood _ _ _ fun t (e : Nat × LinkRec) => besideFlood_checkPulls e.2.key.origin t, withdrawLinks_eq]
    rfl

theorem sendList_checkPulls (o : NodeId) (s : State) (b : Degree) : ((checkPulls o s).flood b).sendList = (s.flood b).sendList := by
  rw [checkPulls, flood_mapFlood, FleDegree.dropPulls]
  split <;> rfl

theorem sendList_withdrawDomain (n : Nat) (s : State) (b : Degree) :
    ((withdrawDomain n s).flood b).sendList = (s.flood b).sendList := by
  unfold withdrawDomain
  dsimp only
  split
  · rfl
  · rw [foldl_keeps (fun t : State => (t.flood b).sendList) _ _ _ fun t (e : Nat × LinkRec) => sendList_checkPulls _ t b]
    rfl

theorem floodShrinks_withdrawDomain (n : Nat) (s : State) : FloodShrinks s (withdrawDomain n s) := by
  unfold withdrawDomain
  dsimp only
  split
  · exact FloodShrinks.refl s
  · exact (FloodShrinks.of_eq rfl rfl rfl).trans (FloodShrinks.foldl _ (fun t e => floodShrinks_checkPulls _ t) _ _)

/-! ## The quarantine of a domain (R49, R51) -/

/-- What the quarantine of a domain leaves when its event has ended. -/
structure Quarantined (k : Fin 16) (e : DomainEntry) (u t : State) : Prop where
  raised : Raised .domainFault (.domain k.val) t
  traffic : Traffic [.domainFault] [] u t
  dtu : t.dtu = vset u.dtu k e
  urgent : UrgentTaken u t
  nodes : t.tdb.nodes = u.tdb.nodes
  links : t.tdb.links = withdrawLinks k.val u.tdb.links
  sendList : ∀ b, (t.flood b).sendList = (u.flood b).sendList

theorem quarantined_finish {u : State} (hf : FloodDone u) (k : Fin 16) (e : DomainEntry) :
    Quarantined k e u (finish (urgentRequest (withdrawDomain k.val (u.faulted k e)))) := by
  have hb := besideFlood_withdrawDomain k.val (u.faulted k e)
  have hsend := sendList_withdrawDomain k.val (u.faulted k e)
  have hshrink := floodShrinks_withdrawDomain k.val (u.faulted k e)
  generalize withdrawDomain k.val (u.faulted k e) = w at *
  have field {α : Type} (π : State → α) : π w.besideFlood = π (State.besideFlood { u.faulted k e with
    tdb := { u.tdb with links := withdrawLinks k.val u.tdb.links } }) := congrArg π hb
  have hfsw : w.fsw = (u.faulted k e).fsw := field State.fsw
  have hntu : w.ntu = (u.faulted k e).ntu := field State.ntu
  have htdb : w.tdb = { u.tdb with links := withdrawLinks k.val u.tdb.links } := field State.tdb
  obtain ⟨-, udtu, utdb, ufle, -, -⟩ := urgentRequest_keeps w
  have hd : FloodDone (urgentRequest w) := by
    have h0 : FloodShrinks u (u.faulted k e) := FloodShrinks.of_eq rfl rfl rfl
    refine hf.shrinks (h0.trans (hshrink.trans (FloodShrinks.of_queues (urgentRequest_keeps w).1 ufle fun d => ?_)))
    exact queue_le_of_traffic (Traffic.urgentRequest w) _
  constructor
  · exact (raised_faulted u k e).keeps ((Keeps.of_eq hntu).trans ((Keeps.urgentRequest w).trans (Keeps.finish _)))
  · exact (Traffic.faulted u k e).trans ((Traffic.of_eq hfsw hntu).trans ((Traffic.urgentRequest w).trans (Traffic.finish _)))
  · rw [dtu_finish, udtu]; exact field State.dtu
  · exact (urgentTaken_of_ends (ends_finish _)).congr (field State.rsv) (field State.rqu) (field State.cmc)
      (congrArg Fsw.fwd hfsw) (congrArg Fsw.fwdGen hfsw)
  · rw [tdb_finish, utdb, htdb]
  · rw [tdb_finish, utdb, htdb]
  · intro b
    rw [State.flood, hd.fle_finish, ufle]
    exact hsend b

end Sys2Proof.Machine

end

section
/-! SUPPORT. A foreign ADVERT that translates: its node IDs, cost, impairment and slot map (R44 to R46), the record stored (R61 to R63),
and the warning of a CLEAN entry (R48). -/

namespace Sys2Proof.Machine

/-! ## Node IDs mapped (R44) -/

/-- The internal node ID of a native one. -/
def internalId (f : DomainFields) (n : Nat) : NodeId := f.nodeBase + (n - f.nativeBase)

/-- A native node ID lies in the mapped block, and its internal one is a node ID. -/
def MapsIn (f : DomainFields) (n : Nat) : Prop :=
  f.nativeBase ≤ n ∧ n - f.nativeBase < f.nodeLimit ∧ 1 ≤ internalId f n ∧ internalId f n ≤ 65534

/-- Every record of an origin is held under one domain. -/
def OriginIn (t : Tdb) (domain : Nat) (o : NodeId) : Prop :=
  (∀ x ∈ t.nodes, x.2.id = o → x.2.ver.domain = domain) ∧ ∀ x ∈ t.links, x.2.key.origin = o → x.2.ver.domain = domain

theorem mapNode_of_mapsIn {f : DomainFields} {n : Nat} (h : MapsIn f n) : mapNode f n = some (n - f.nativeBase) := by
  obtain ⟨hbase, hlimit, hpos, hmax⟩ := h
  have hok : nodeIdOk (f.nodeBase + (n - f.nativeBase)) = true := by
    simp only [nodeIdOk, Bool.and_eq_true, decide_eq_true_eq]
    exact ⟨hpos, hmax⟩
  simp [mapNode, Nat.not_lt.2 hbase, hlimit, hok]

section
variable {t : Tdb} {domain : Nat} {o : NodeId} (h : OriginIn t domain o)
include h

theorem OriginIn.domain_node {i : Nat} {r : NodeRec} (hr : t.findNode o = some (i, r)) : r.ver.domain = domain :=
  h.1 (i, r) (List.mem_of_find?_eq_some hr) (id_of_findNode hr)

theorem OriginIn.domain_link {k : LinkKey} (hk : k.origin = o) {i : Nat} {r : LinkRec} (hr : t.findLink k = some (i, r)) :
    r.ver.domain = domain :=
  h.2 (i, r) (List.mem_of_find?_eq_some hr) (by rw [key_of_findLink hr, hk])

theorem OriginIn.no_foreign_node : ((t.findNode o).any fun e => e.2.ver.domain != domain) = false := by
  cases hr : t.findNode o with
  | none => rfl
  | some e => simp [h.domain_node (i := e.1) (r := e.2) hr]

theorem OriginIn.no_foreign_link : (t.links.any fun e => e.2.key.origin == o && e.2.ver.domain != domain) = false := by
  simpa using fun i r hx => h.2 (i, r) hx

theorem OriginIn.originFree : originFree t domain o = true := by
  rw [Machine.originFree, h.no_foreign_node, h.no_foreign_link]; rfl

end

theorem mapOrigin_of_fits {t : Tdb} {self : NodeId} {domain : Nat} {f : DomainFields} {n : Nat} (hm : MapsIn f n)
    (hs : internalId f n ≠ self) (ho : OriginIn t domain (internalId f n)) :
    mapOrigin t self domain f n = some (n - f.nativeBase) := by
  have hfree := ho.originFree
  unfold internalId at hs hfree
  simp [mapOrigin, mapNode_of_mapsIn hm, hs, hfree]

/-! ## Slot maps mapped (R46) -/

theorem slot_make (used blocked : BitVec 384) {n : Nat} (hn : n < 384) : (SlotMap.make used blocked).slot n =
    if blocked.getLsbD n = true then .blocked else if used.getLsbD n = true then .used else .free := by
  unfold SlotMap.make SlotMap.slot
  dsimp only
  split
  · rfl
  · rename_i h
    rw [BitVec.getLsbD_and, BitVec.getLsbD_not, Bool.eq_false_iff.2 h, decide_eq_true hn]
    simp only [Bool.not_false, Bool.and_true]

theorem slot_mapChannels (f : DomainFields) (used blocked : BitVec 384) {n : Nat} (hn : n < 384) :
    (mapChannels f used blocked).slot n =
      if n < f.gridOffset ∨ f.channelCount ≤ (n - f.gridOffset) / f.gridRatio then .blocked
      else if blocked.getLsbD ((n - f.gridOffset) / f.gridRatio) = true then .blocked
      else if used.getLsbD ((n - f.gridOffset) / f.gridRatio) = true then .used else .free := by
  rw [mapChannels, slot_make _ _ hn, getLsbD_mapBits _ hn, getLsbD_mapBits _ hn]
  by_cases h : n < f.gridOffset ∨ f.channelCount ≤ (n - f.gridOffset) / f.gridRatio
  · have hc : slotChannel f n = none := by
      rcases h with h | h
      · simp [slotChannel, h]
      · simp [slotChannel, Nat.not_lt.2 h]
    rw [hc, if_pos h]; rfl
  · obtain ⟨hoff, hcount⟩ := not_or.1 h
    have hc : slotChannel f n = some ((n - f.gridOffset) / f.gridRatio) := by simp [slotChannel, hoff, Nat.not_le.1 hcount]
    rw [hc, if_neg h]

/-- Native maps that are clear from the channel count up are no grid fault. -/
theorem gridFault_of_clear {f : DomainFields} {used blocked : BitVec 384}
    (h : ∀ c, f.channelCount ≤ c → c < 384 → used.getLsbD c = false ∧ blocked.getLsbD c = false) :
    gridFault f used blocked = false := by
  have hz : (used ||| blocked).toNat >>> f.channelCount = 0 := Nat.eq_of_testBit_eq fun i => by
    rw [Nat.testBit_shiftRight, BitVec.testBit_toNat, BitVec.getLsbD_or, Nat.zero_testBit]
    by_cases hi : f.channelCount + i < 384
    · obtain ⟨hu, hb⟩ := h _ (Nat.le_add_right _ i) hi
      rw [hu, hb]; rfl
    · rw [BitVec.getLsbD_of_ge _ _ (by omega), BitVec.getLsbD_of_ge _ _ (by omega)]; rfl
  rw [gridFault, hz]; rfl

/-! ## Records translated (R44 to R46) -/

/-- The write a foreign node ADVERT translates to. -/
def nodeWriteOf (f : DomainFields) (d : Degree) (a : AdvertBody) (regen transit : Nat) : NodeWrite :=
  ⟨internalId f a.nativeOrigin, a.domain, some a.nativeOrigin,
    ⟨a.seq, stateOfAge a.age, ⟨regen, transit == 1, .degree d⟩⟩, a.age⟩

/-- The write a foreign link ADVERT translates to. -/
def linkWriteOf (f : DomainFields) (a : AdvertBody) (num cost imp : Nat) (used blocked : BitVec 384) : LinkWrite :=
  ⟨⟨internalId f a.nativeOrigin, num⟩, a.domain, some num, ⟨a.seq, stateOfAge a.age,
    ⟨internalId f a.nativeFar, none, min (cost * f.costScale) 65535, min (imp * f.impScale) 4095,
      mapChannels f used blocked⟩⟩, a.age⟩

section
variable {t : Tdb} {self : NodeId} {d : Degree} {f : DomainFields} {a : AdvertBody} (hv : f.valid = true)
  (ho : mapOrigin t self a.domain f a.nativeOrigin = some (a.nativeOrigin - f.nativeBase))
include hv ho

theorem translate_node {regen transit : Nat} (hr : a.record = .node regen transit) :
    translate t self d f a = .record (.node (nodeWriteOf f d a regen transit)) [a.nativeOrigin - f.nativeBase] := by
  simp only [translate, hv, hr, ho]
  rfl

theorem translate_link {num far farNum cost imp : Nat} {flags : BitVec 8} {used blocked : BitVec 384}
    (hr : a.record = .link num far flags farNum cost imp used blocked)
    (hf : mapNode f a.nativeFar = some (a.nativeFar - f.nativeBase)) (hn : num ≤ 255) (hg : gridFault f used blocked = false) :
    translate t self d f a = .record (.link (linkWriteOf f a num cost imp used blocked))
      [a.nativeOrigin - f.nativeBase, a.nativeFar - f.nativeBase] := by
  simp only [translate, hv, hr, ho, hf, hg, if_neg (Nat.not_lt.2 hn)]
  rfl

end

/-- The versions of a record after an ADVERT of a domain was written to it (R62). -/
def advertVersions {α : Type} (domain : Nat) (native : Option Nat) (committed : Option (Part α)) (seq age : Nat) (c : α) :
    Versions α :=
  ⟨domain, native, committed, some ⟨seq, if age = 0 then .withdrawn else .active, c⟩, age, if age = 0 then some 60 else none⟩

theorem write_stateOfAge {α : Type} {v : Versions α} {domain : Nat} (hd : v.domain = domain) (seq age : Nat) (c : α)
    (native : Option Nat) :
    Versions.write ⟨seq, stateOfAge age, c⟩ age native v = advertVersions domain native v.committed seq age c := by
  subst hd
  by_cases h : age = 0 <;> simp [Versions.write, stateOfAge, advertVersions, h, Config.lingerSeconds]

/-! ## Records stored (R61 to R63) -/

/-- A write is stored in every state with a database and an own node ID: the database becomes the one given. -/
def Stores (w : RecordWrite) (t : Tdb) (self : NodeId) (t' : Tdb) : Prop :=
  ∀ s : State, s.tdb = t → s.nodeId = self → writeRecord w s = (afterWrite (keyOrigin w.key) { s with tdb := t' }, true)

section
variable {t : Tdb} {self : NodeId}

theorem stores_node_held {w : NodeWrite} {i : Nat} {r : NodeRec} (h : t.findNode w.id = some (i, r))
    (hd : r.ver.domain = w.domain) : Stores (.node w) t self { t with
      nodes := tput t.nodes i { r with ver := r.ver.write w.part w.age w.native } } := by
  rintro s rfl rfl
  simp [writeRecord, writeNode, h, hd, RecordWrite.key, keyOrigin]

theorem stores_node_new {w : NodeWrite} (h : t.findNode w.id = none) (ho : OriginIn t w.domain w.id)
    (hs : w.id ≠ self) (hl : t.nodes.length < 255) : Stores (.node w) t self { t with
      nodes := tput t.nodes (lowestFreeFrom t.nodes 0)
        ⟨w.id, Versions.insert w.domain w.part w.age w.native, t.incomplete.contains w.id⟩
      incomplete := t.incomplete.filter (· != w.id) } := by
  rintro s rfl rfl
  have hroom : s.tdb.nodeRoom s.nodeId w.id = true := by
    have := List.length_filter_le (fun e : Nat × NodeRec => e.2.id != s.nodeId) s.tdb.nodes
    rw [Tdb.nodeRoom, if_neg (by simpa using hs)]
    exact decide_eq_true (Nat.lt_of_le_of_lt this hl)
  have hfree := lowestFree_of_room (t := s.tdb.nodes) (cap := Config.nodeTableSize) (Nat.lt_trans hl (by decide))
  simp only [writeRecord, writeNode, h, ho.no_foreign_link, hroom, hfree]
  rfl

theorem stores_link_held {w : LinkWrite} {i : Nat} {r : LinkRec} (h : t.findLink w.key = some (i, r))
    (hd : r.ver.domain = w.domain) : Stores (.link w) t self { t with
      links := tput t.links i { r with ver := r.ver.write w.part w.age w.native } } := by
  rintro s rfl rfl
  simp [writeRecord, writeLink, h, hd, RecordWrite.key, keyOrigin]

theorem stores_link_new {w : LinkWrite} (h : t.findLink w.key = none) (ho : OriginIn t w.domain w.key.origin)
    (hs : w.key.origin ≠ self) (hl : t.links.length < 2040) : Stores (.link w) t self { t with
      links := tput t.links (lowestFreeFrom t.links 0) ⟨w.key, Versions.insert w.domain w.part w.age w.native⟩ } := by
  rintro s rfl rfl
  have hself : (w.key.origin == s.nodeId) = false := beq_eq_false_iff_ne.2 hs
  have hroom : s.tdb.linkRoom s.nodeId w.key = true := by
    have := List.length_filter_le (fun e : Nat × LinkRec => !isOwnKey s.nodeId (.link e.2.key)) s.tdb.links
    have hown : isOwnKey s.nodeId (.link w.key) = false := by simp [isOwnKey, hself]
    rw [Tdb.linkRoom, hown]
    exact decide_eq_true (Nat.lt_of_le_of_lt this hl)
  have hfree := lowestFree_of_room (t := s.tdb.links) (cap := Config.linkTableSize) (Nat.lt_trans hl (by decide))
  simp only [writeRecord, writeLink, h, hself, ho.no_foreign_node, hroom, hfree]
  rfl

end

/-- An entry found in a table is the one found after it is written under the same test. -/
theorem find_tput_held {α : Type} {t : List (Nat × α)} {i : Nat} {a b : α} {p : Nat × α → Bool} (h : t.find? p = some (i, a))
    (hb : p (i, b) = true) : (tput t i b).find? p = some (i, b) :=
  find_tput_self hb fun e he => by rw [h] at he; exact (congrArg Prod.fst (Option.some.inj he)).symm

/-- An entry put in a table where none meets a test is the one found. -/
theorem find_tput_new {α : Type} {t : List (Nat × α)} {i : Nat} {b : α} {p : Nat × α → Bool} (h : t.find? p = none)
    (hb : p (i, b) = true) : (tput t i b).find? p = some (i, b) :=
  find_tput_self hb fun e he => by rw [h] at he; cases he

/-! ## A record taken (R91, R93) -/

/-- What taking a record leaves: its database, and no frame, no notice and no domain entry beside. -/
structure Taken (s : State) (tdb : Tdb) (t : State) : Prop where
  tdb : t.tdb = tdb
  dtu : t.dtu = s.dtu
  traffic : ∀ is ps, Traffic is ps s t
  keeps : Keeps s t

theorem Taken.urgentRequest {s t : State} {tdb : Tdb} (h : Taken s tdb t) : Taken s tdb (urgentRequest t) := by
  obtain ⟨-, udtu, utdb, -⟩ := urgentRequest_keeps t
  exact ⟨utdb.trans h.tdb, udtu.trans h.dtu, fun is ps => (h.traffic is ps).trans (Traffic.urgentRequest t),
    h.keeps.trans (Keeps.urgentRequest t)⟩

theorem Taken.finish {s t : State} {tdb : Tdb} (h : Taken s tdb t) : Taken s tdb (finish t) :=
  ⟨(tdb_finish t).trans h.tdb, (dtu_finish t).trans h.dtu, fun is ps => (h.traffic is ps).trans (Traffic.finish t),
    h.keeps.trans (Keeps.finish t)⟩

theorem taken_stored (d : Degree) (k : RecordKey) (o : NodeId) (s : State) (tdb : Tdb) :
    Taken s tdb (addKeyUp (some d) k (afterWrite o { s with tdb := tdb })) :=
  ⟨rfl, rfl, fun _ _ => Traffic.of_eq rfl rfl, Keeps.of_eq rfl⟩

/-- A record newer than the one held is stored, with an urgent request when it withdraws a committed link. -/
theorem taken_takeOther {d : Degree} {w : RecordWrite} {s : State} {tdb : Tdb} (hw : Stores w s.tdb s.nodeId tdb)
    (hseq : ∀ h, s.tdb.heldSeq w.key = some h → h < w.seq) : Taken s tdb (takeOther d w s) := by
  have hstored := taken_stored d w.key (keyOrigin w.key) s tdb
  unfold takeOther
  rw [hw s rfl rfl]
  cases hh : s.tdb.heldSeq w.key with
  | none => exact hstored
  | some h =>
    simp only [if_pos (hseq h hh), if_true]
    split
    · exact hstored.urgentRequest
    · exact hstored

/-! ## The warning of an entry (R48) -/

theorem warns_iff {e : DomainEntry} {offsets : List Nat} : warns e offsets = true ↔
    e.state = .clean ∧ ∃ o ∈ offsets, e.fields.nodeLimit - e.fields.nodeLimit / 8 ≤ o := by
  simp [warns, warnThreshold]

/-- The offset of a native node ID is at or above the warning threshold. -/
def HighOffset (f : DomainFields) (n : Nat) : Prop := warnThreshold f ≤ n - f.nativeBase

/-- The entry of a domain made WARNED, and DOMAIN_WARN raised for the domain. -/
def State.warned (s : State) (k : Fin 16) (e : DomainEntry) : State :=
  raise .domainWarn [.domain k.val] { s with dtu := vset s.dtu k { e with state := .warned } }

theorem raised_warned (s : State) (k : Fin 16) (e : DomainEntry) : Raised .domainWarn (.domain k.val) (s.warned k e) :=
  raised_raise (by simp) _

theorem Traffic.warned {ps : List Port} (s : State) (k : Fin 16) (e : DomainEntry) : Traffic [.domainWarn] ps s (s.warned k e) :=
  (Traffic.of_eq rfl rfl).trans (Traffic.raise (Or.inl (by simp)) _ _)

theorem takeWarning_warns {k : Fin 16} {e : DomainEntry} {offsets : List Nat} (s : State) (h : warns e offsets = true) :
    takeWarning k.val e offsets s = s.warned k e := by
  rw [takeWarning, if_pos h, setDomain_val]; rfl

theorem takeWarning_silent {n : Nat} {e : DomainEntry} {offsets : List Nat} (s : State) (h : warns e offsets = false) :
    takeWarning n e offsets s = s := by
  rw [takeWarning, h]; rfl

/-! ## The event (R43 to R48) -/

/-- An ADVERT of domain `k` stored, its translation warning or not. -/
def TranslationKept (d : Degree) (a : AdvertBody) (k : Fin 16) (s u : State) (warn : Prop) (t : State) : Prop :=
  exec (.advert d a) s = .next t ∧ Traffic [.domainWarn] [] u t ∧
    ((vget u.dtu k).state = .clean → warn → Raised .domainWarn (.domain k.val) t ∧
      t.dtu = vset u.dtu k { vget u.dtu k with state := .warned }) ∧
    (¬ ((vget u.dtu k).state = .clean ∧ warn) → t.dtu = u.dtu ∧ Traffic [] [] u t)

section
variable {d : Degree} {a : AdvertBody} {k : Fin 16} {s u : State} (hu : u = settle s) (ht : takesInput u (.deg d) = true)
  (hup : u.isUp d = true) (hf : a.formOk = true) (ha : a.domain = k.val) (hk : k ≠ 0) (hq : (vget u.dtu k).state ≠ .quarantined)
include hu ht hup hf ha hk hq

/-- A translated record that is newer than the one held and is stored. -/
theorem translated_kept {w : RecordWrite} {offsets : List Nat} {tdb : Tdb} {warn : Prop}
    (hw : translate u.tdb u.nodeId d (vget u.dtu k).fields a = .record w offsets) (hs : keyOrigin w.key ≠ u.nodeId)
    (hseq : ∀ h, u.tdb.heldSeq w.key = some h → h < w.seq)
    (hstore : Stores w u.tdb u.nodeId tdb)
    (hwarn : warn ↔ ∃ o ∈ offsets, (vget u.dtu k).fields.nodeLimit - (vget u.dtu k).fields.nodeLimit / 8 ≤ o) :
    ∃ t, TranslationKept d a k s u warn t ∧ t.tdb = tdb := by
  have hexec := exec_advert hu ht hup hf
  rw [takeAdvert_record ha hk hq hw] at hexec
  have taken : ∀ v : State, v.tdb = u.tdb → v.nodeId = u.nodeId → Taken v tdb (finish (takeRecord d w v)) := fun v hv hn => by
    rw [takeRecord, hn, beq_eq_false_iff_ne.2 hs]
    exact (taken_takeOther (hv ▸ hn ▸ hstore) (hv ▸ hseq)).finish
  have hiff := warns_iff (e := vget u.dtu k) (offsets := offsets)
  rw [← hwarn] at hiff
  by_cases h : warns (vget u.dtu k) offsets = true
  · rw [takeWarning_warns u h] at hexec
    obtain ⟨etdb, edtu, traffic, keeps⟩ := taken (u.warned k (vget u.dtu k)) rfl rfl
    exact ⟨_, ⟨hexec, (Traffic.warned u k _).trans (traffic _ _),
      fun _ _ => ⟨(raised_warned u k _).keeps keeps, edtu⟩, fun hn => absurd (hiff.1 h) hn⟩, etdb⟩
  · rw [takeWarning_silent u (Bool.eq_false_iff.2 h)] at hexec
    obtain ⟨etdb, edtu, traffic, -⟩ := taken u rfl rfl
    exact ⟨_, ⟨hexec, traffic _ _, fun hc hw => absurd (hiff.2 ⟨hc, hw⟩) h, fun _ => ⟨edtu, traffic _ _⟩⟩, etdb⟩

section
variable {f : DomainFields} (he : (vget u.dtu k).fields = f) (hv : f.valid = true) (hm : MapsIn f a.nativeOrigin)
  (hs : internalId f a.nativeOrigin ≠ u.nodeId) (ho : OriginIn u.tdb k.val (internalId f a.nativeOrigin))
include he hv hm hs ho

/-- A translated node record that is newer than the one held and is stored. -/
theorem foreignNode_kept {regen transit : Nat} {tdb : Tdb} (hr : a.record = .node regen transit)
    (hseq : ∀ h, u.tdb.heldSeq (.node (internalId f a.nativeOrigin)) = some h → h < a.seq)
    (hstore : Stores (.node (nodeWriteOf f d a regen transit)) u.tdb u.nodeId tdb) :
    ∃ t, TranslationKept d a k s u (HighOffset f a.nativeOrigin) t ∧ t.tdb = tdb := by
  subst he
  have horigin := mapOrigin_of_fits hm hs ho
  rw [← ha] at horigin
  refine translated_kept hu ht hup hf ha hk hq (translate_node hv horigin hr) hs hseq hstore ?_
  simp [HighOffset, warnThreshold]

theorem foreignNode_held {regen transit i : Nat} {r : NodeRec} {q : Part NodeContent} (hr : a.record = .node regen transit)
    (hfind : u.tdb.findNode (internalId f a.nativeOrigin) = some (i, r)) (hwork : r.ver.working = some q) (hlt : q.seq < a.seq) :
    ∃ t, TranslationKept d a k s u (HighOffset f a.nativeOrigin) t ∧
      t.tdb.findNode (internalId f a.nativeOrigin) = some (i, { r with
        ver := advertVersions k.val (some a.nativeOrigin) r.ver.committed a.seq a.age ⟨regen, transit == 1, .degree d⟩ }) := by
  have hd : r.ver.domain = k.val := ho.domain_node hfind
  obtain ⟨t, hkept, htdb⟩ := foreignNode_kept hu ht hup hf ha hk hq he hv hm hs ho hr
    (fun h hh => by
      obtain rfl : q.seq = h := by simpa [Tdb.heldSeq, hfind, hwork] using hh
      exact hlt)
    (stores_node_held hfind (hd.trans ha.symm))
  have hid : r.id = internalId f a.nativeOrigin := id_of_findNode hfind
  refine ⟨t, hkept, ?_⟩
  rw [htdb, ← write_stateOfAge hd]
  exact find_tput_held hfind (beq_iff_eq.2 hid)

theorem foreignNode_new {regen transit : Nat} (hr : a.record = .node regen transit)
    (hfind : u.tdb.findNode (internalId f a.nativeOrigin) = none) (hl : u.tdb.nodes.length < 255) :
    ∃ t i m, TranslationKept d a k s u (HighOffset f a.nativeOrigin) t ∧
      t.tdb.findNode (internalId f a.nativeOrigin) = some (i, ⟨internalId f a.nativeOrigin,
        advertVersions k.val (some a.nativeOrigin) none a.seq a.age ⟨regen, transit == 1, .degree d⟩, m⟩) := by
  obtain ⟨t, hkept, htdb⟩ := foreignNode_kept hu ht hup hf ha hk hq he hv hm hs ho hr (by simp [Tdb.heldSeq, hfind])
    (stores_node_new hfind (show OriginIn u.tdb a.domain _ from ha ▸ ho) hs hl)
  rw [Versions.insert, nodeWriteOf, write_stateOfAge (domain := k.val) ha] at htdb
  exact ⟨t, _, _, hkept, (congrArg (Tdb.findNode · (internalId f a.nativeOrigin)) htdb).trans
    (find_tput_new hfind (beq_self_eq_true _))⟩

section
variable {num far farNum cost imp : Nat} {flags : BitVec 8} {used blocked : BitVec 384}
  (hr : a.record = .link num far flags farNum cost imp used blocked) (hfar : MapsIn f a.nativeFar) (hnum : num ≤ 255)
  (hclear : ∀ c, f.channelCount ≤ c → c < 384 → used.getLsbD c = false ∧ blocked.getLsbD c = false)
include hr hfar hnum hclear

/-- A translated link record that is newer than the one held and is stored. -/
theorem foreignLink_kept {tdb : Tdb}
    (hseq : ∀ h, u.tdb.heldSeq (.link ⟨internalId f a.nativeOrigin, num⟩) = some h → h < a.seq)
    (hstore : Stores (.link (linkWriteOf f a num cost imp used blocked)) u.tdb u.nodeId tdb) :
    ∃ t, TranslationKept d a k s u (HighOffset f a.nativeOrigin ∨ HighOffset f a.nativeFar) t ∧
      t.tdb = tdb := by
  subst he
  have horigin := mapOrigin_of_fits hm hs ho
  rw [← ha] at horigin
  refine translated_kept hu ht hup hf ha hk hq (translate_link hv horigin hr (mapNode_of_mapsIn hfar) hnum
    (gridFault_of_clear hclear)) hs hseq hstore ?_
  simp [HighOffset, warnThreshold]

theorem foreignLink_held {i : Nat} {r : LinkRec} {q : Part LinkContent}
    (hfind : u.tdb.findLink ⟨internalId f a.nativeOrigin, num⟩ = some (i, r)) (hwork : r.ver.working = some q) (hlt : q.seq < a.seq) :
    ∃ t, TranslationKept d a k s u (HighOffset f a.nativeOrigin ∨ HighOffset f a.nativeFar) t ∧
      t.tdb.findLink ⟨internalId f a.nativeOrigin, num⟩ = some (i, ⟨⟨internalId f a.nativeOrigin, num⟩,
        advertVersions k.val (some num) r.ver.committed a.seq a.age ⟨internalId f a.nativeFar, none,
          min (cost * f.costScale) 65535, min (imp * f.impScale) 4095, mapChannels f used blocked⟩⟩) := by
  have hd : r.ver.domain = k.val := ho.domain_link rfl hfind
  obtain ⟨t, hkept, htdb⟩ := foreignLink_kept hu ht hup hf ha hk hq he hv hm hs ho hr hfar hnum hclear
    (fun h hh => by
      obtain rfl : q.seq = h := by simpa [Tdb.heldSeq, hfind, hwork] using hh
      exact hlt)
    (stores_link_held hfind (hd.trans ha.symm))
  obtain ⟨key, ver⟩ := r
  obtain rfl : key = ⟨internalId f a.nativeOrigin, num⟩ := key_of_findLink hfind
  refine ⟨t, hkept, ?_⟩
  rw [htdb, ← write_stateOfAge hd]
  exact find_tput_held hfind (beq_self_eq_true _)

theorem foreignLink_new (hfind : u.tdb.findLink ⟨internalId f a.nativeOrigin, num⟩ = none) (hl : u.tdb.links.length < 2040) :
    ∃ t i, TranslationKept d a k s u (HighOffset f a.nativeOrigin ∨ HighOffset f a.nativeFar) t ∧
      t.tdb.findLink ⟨internalId f a.nativeOrigin, num⟩ = some (i, ⟨⟨internalId f a.nativeOrigin, num⟩,
        advertVersions k.val (some num) none a.seq a.age ⟨internalId f a.nativeFar, none,
          min (cost * f.costScale) 65535, min (imp * f.impScale) 4095, mapChannels f used blocked⟩⟩) := by
  obtain ⟨t, hkept, htdb⟩ := foreignLink_kept hu ht hup hf ha hk hq he hv hm hs ho hr hfar hnum hclear
    (by simp [Tdb.heldSeq, hfind]) (stores_link_new hfind (show OriginIn u.tdb a.domain _ from ha ▸ ho) hs hl)
  rw [Versions.insert, linkWriteOf, write_stateOfAge (domain := k.val) ha] at htdb
  exact ⟨t, _, hkept, (congrArg (Tdb.findLink · ⟨internalId f a.nativeOrigin, num⟩) htdb).trans
    (find_tput_new hfind (beq_self_eq_true _))⟩

end

end

end

/-! ## The faults of an entry (R47, R49, R51) -/

section
variable {d : Degree} {a : AdvertBody} {k : Fin 16} {s u : State} (hu : u = settle s) (ht : takesInput u (.deg d) = true)
  (hup : u.isUp d = true) (hf : a.formOk = true) (ha : a.domain = k.val) (hk : k ≠ 0)
include hu ht hup hf ha hk

theorem advert_quarantined (hq : (vget u.dtu k).state = .quarantined) :
    ∃ t, exec (.advert d a) s = .next t ∧ t.blocks = u.blocks ∧ Traffic [] [] u t := by
  have hexec := exec_advert hu ht hup hf
  rw [takeAdvert_quarantined ha hk hq] at hexec
  have hd : FloodDone u := hu ▸ floodDone_settle s
  exact ⟨_, hexec, hd.blocks_finish, Traffic.finish u⟩

variable {f : FaultKind} (hq : (vget u.dtu k).state ≠ .quarantined)
  (hfault : translate u.tdb u.nodeId d (vget u.dtu k).fields a = .fault f)
include hq hfault

theorem advert_fault_first
    (h : (vget u.dtu k).state = .clean ∨ (vget u.dtu k).state = .warned ∨ (vget u.dtu k).outstanding = false) :
    ∃ t, exec (.advert d a) s = .next t ∧ Raised .domainFault (.domain k.val) t ∧ Traffic [.domainFault] [] u t ∧
      t.blocks = State.blocks { u with dtu := vset u.dtu k ⟨(vget u.dtu k).fields, .faulted, true, f⟩ } := by
  have hexec := exec_advert hu ht hup hf
  rw [takeAdvert_fault ha hk hq hfault, takeFault_first u (countFault_first f hq h)] at hexec
  have hd : FloodDone u := hu ▸ floodDone_settle s
  have hd' : FloodDone (u.faulted k ⟨(vget u.dtu k).fields, .faulted, true, f⟩) := hd.shrinks (FloodShrinks.of_eq rfl rfl rfl)
  exact ⟨_, hexec, (raised_faulted u k _).keeps (Keeps.finish _), (Traffic.faulted u k _).trans (Traffic.finish _),
    hd'.blocks_finish.trans (blocks_faulted u k _)⟩

theorem advert_fault_again (hs : (vget u.dtu k).state = .faulted) (ho : (vget u.dtu k).outstanding = true) :
    ∃ t, exec (.advert d a) s = .next t ∧ Quarantined k ⟨(vget u.dtu k).fields, .quarantined, true, f⟩ u t := by
  have hexec := exec_advert hu ht hup hf
  rw [takeAdvert_fault ha hk hq hfault, takeFault_again u (countFault_again f hs ho)] at hexec
  exact ⟨_, hexec, quarantined_finish (hu ▸ floodDone_settle s) k _⟩

end

end Sys2Proof.Machine

open Sys2Proof Sys2Proof.Machine

/-- Settles O34, by the three ways of a foreign ADVERT: discarded, a fault counted, or a translated record stored in a state that
has, with or without the warning, the same database. -/
theorem foreignAdvertIsTranslatedOrCounted : Obligations.ForeignAdvertIsTranslatedOrCounted := by
  intro d a k s u hu ht hup hf ha hk e
  refine ⟨advert_quarantined hu ht hup hf ha hk, fun f hq hfault => ?_, fun hq hv => ?_⟩
  · have htr : translate u.tdb u.nodeId d e.fields a = .fault f := by
      rcases hfault with ⟨hinvalid, rfl⟩ | ⟨-, h⟩
      · exact translate_unmapped hinvalid
      · exact h
    refine ⟨advert_fault_first hu ht hup hf ha hk hq htr, fun hs ho => ?_⟩
    obtain ⟨t, hexec, hquar⟩ := advert_fault_again hu ht hup hf ha hk hq htr hs ho
    refine ⟨t, hexec, hquar.raised, hquar.traffic, hquar.dtu, hquar.urgent, hquar.nodes, hquar.links, fun x hx => ?_, hquar.sendList⟩
    rw [hquar.links] at hx
    exact not_active_withdrawLinks hx
  · intro st linger id mapped origin high kept
    refine ⟨fun regen transit hr ⟨hm, hs, ho⟩ => ⟨fun i r q => ?_, ?_⟩, ?_⟩
    · exact foreignNode_held hu ht hup hf ha hk hq rfl hv hm hs ho hr
    · exact foreignNode_new hu ht hup hf ha hk hq rfl hv hm hs ho hr
    · intro num far flags farNum cost imp used blocked hr ⟨hm, hs, ho⟩ hfar hnum channels hclear key warn content slots
      have hslots : slots (mapChannels e.fields used blocked) := fun n => slot_mapChannels e.fields used blocked
      refine ⟨fun i r q hfind hwork hlt => ?_, fun hfind hl => ?_⟩
      · obtain ⟨t, hkept, hheld⟩ :=
          foreignLink_held hu ht hup hf ha hk hq rfl hv hm hs ho hr hfar hnum hclear hfind hwork hlt
        exact ⟨t, _, hkept, hslots, hheld⟩
      · obtain ⟨t, i, hkept, hheld⟩ := foreignLink_new hu ht hup hf ha hk hq rfl hv hm hs ho hr hfar hnum hclear hfind hl
        exact ⟨t, _, i, hkept, hslots, hheld⟩

end

section
/-! SUPPORT. The exclusion list as additions, removals and the age clock leave it (R67, R75 to R79). -/

namespace Sys2Proof.Machine

/-- The part with another exclusion list. -/
def State.withExclusions (s : State) (l : List Exclusion) : State := { s with tdb := { s.tdb with exclusions := l } }

/-- An event that changes the exclusion list alone. -/
theorem exclusions_event {u : State} (h : FloodDone u) (l : List Exclusion) : Traffic [] [] u (finish (u.withExclusions l)) ∧
    (finish (u.withExclusions l)).blocks = (u.withExclusions l).blocks :=
  ⟨(Traffic.of_eq rfl rfl).trans (Traffic.finish _),
    FloodDone.blocks_finish (h.shrinks (FloodShrinks.of_eq (t := u.withExclusions l) rfl rfl rfl))⟩

/-- A run has the ranges of R75. -/
theorem slotRun_rangeOk_iff (n : SlotRun) : n.rangeOk = true ↔
    1 ≤ n.key.origin ∧ n.key.origin ≤ 65534 ∧ n.key.num ≤ 255 ∧ n.first ≤ 383 ∧
      (n.count = 0 ∨ (n.count ≤ 384 ∧ n.first + n.count - 1 ≤ 383)) := by
  simp [SlotRun.rangeOk, and_assoc]

theorem slotRun_normal_eq (r : SlotRun) : r.normal = if r.count = 0 then { r with first := 0 } else r := by
  simp [SlotRun.normal]

/-! ## One expiry of the age clock (R67) -/

theorem tick_isOwnKey_node (self id : NodeId) (v : Versions NodeContent) : v.tick (isOwnKey self (.node id)) =
    { v with age := if id = self then v.age else v.age - 1, linger := v.linger.map (· - 1) } := by
  simp [Versions.tick, isOwnKey]

theorem tick_isOwnKey_link (self : NodeId) (k : LinkKey) (v : Versions LinkContent) : v.tick (isOwnKey self (.link k)) =
    { v with age := if k.origin = self ∧ k.num ≤ 7 then v.age else v.age - 1, linger := v.linger.map (· - 1) } := by
  simp [Versions.tick, isOwnKey]

/-! ## An addition, by what the list holds (R76) -/

section
variable {r : SlotRun} {s : State} {e : Exclusion}

theorem find_run_eq_none {l : List Exclusion} {n : SlotRun} (h : ∀ e ∈ l, e.run ≠ n) : l.find? (fun e => e.run == n) = none :=
  List.find?_eq_none.2 fun e he => by simpa using h e he

theorem addExclusion_loaded (o : ExclusionOrigin) (h : s.tdb.exclusions.find? (fun e => e.run == r.normal) = some e)
    (he : e.origin = .loaded) : addExclusion r o s = (s, .unchanged) := by
  unfold addExclusion; simp only [h, he]

theorem addExclusion_made_loaded (h : s.tdb.exclusions.find? (fun e => e.run == r.normal) = some e) (he : e.origin = .reported) :
    addExclusion r .loaded s = (s.withExclusions (s.tdb.exclusions.map fun x =>
      if x.run = r.normal then { x with origin := .loaded, lifetime := none } else x), .madeLoaded) := by
  unfold addExclusion; simp only [h, he, updateExclusion, beq_iff_eq, State.withExclusions]

theorem addExclusion_restarted (h : s.tdb.exclusions.find? (fun e => e.run == r.normal) = some e) (he : e.origin = .reported) :
    addExclusion r .reported s = (s.withExclusions (s.tdb.exclusions.map fun x =>
      if x.run = r.normal then { x with lifetime := reportedLifetime s.cfu.params } else x), .restarted) := by
  unfold addExclusion; simp only [h, he, updateExclusion, beq_iff_eq, State.withExclusions]

/-- The entry that an addition appends. -/
def addedExclusion (r : SlotRun) (o : ExclusionOrigin) (s : State) : Exclusion :=
  ⟨r.normal, o, match o with
    | .loaded => none
    | .reported => reportedLifetime s.cfu.params, s.now, s.stamp + 1⟩

theorem addExclusion_appended (o : ExclusionOrigin) (h : ∀ e ∈ s.tdb.exclusions, e.run ≠ r.normal)
    (hl : s.tdb.exclusions.length < 128) :
    addExclusion r o s = ((s.withExclusions (s.tdb.exclusions ++ [addedExclusion r o s])).nextStamp, .appended) := by
  unfold addExclusion
  simp only [find_run_eq_none h]
  exact if_pos hl

theorem addExclusion_full (o : ExclusionOrigin) (h : ∀ e ∈ s.tdb.exclusions, e.run ≠ r.normal)
    (hl : 128 ≤ s.tdb.exclusions.length) : addExclusion r o s = (s, .refused) := by
  unfold addExclusion
  simp only [find_run_eq_none h]
  exact if_neg (Nat.not_lt.2 hl)

end

/-! ## FAULTREP (R78) -/

/-- An event that ends by raising a source over a part in which FLE has nothing to place. -/
theorem raised_event {u w : State} (i : NoticeId) (m : Member) (hw : FloodDone w) (ht : Traffic [i] [] u w) :
    Raised i m (finish (raise i [m] w)) ∧ Traffic [i] [] u (finish (raise i [m] w)) ∧
      (finish (raise i [m] w)).blocks = w.blocks :=
  ⟨(raised_raise (by simp) w).keeps (Keeps.finish _), (ht.trans (Traffic.raise (by simp) _ _)).trans (Traffic.finish _),
    blocks_finish_of_blocks hw (blocks_raise _ _ _) fun _ => le_refl _⟩

theorem takeBody_faultrep {p : Port} {r : SlotRun} {s : State} (h : takesInput s p = true) :
    takeBody p 0 false (.faultrep r) s = takeFaultrep p r s := by
  rw [takeBody, if_pos h]; cases p <;> rfl

/-- What a FAULTREP raises after its addition. -/
def AddEffect.told (a : AddEffect) (w : State) : State :=
  match a with
  | .appended => raise .exclusion [.added] w
  | .refused => raise .exclusion [.full] w
  | _ => w

section
variable {p : Port} {r : SlotRun} {s w : State}

theorem takeFaultrep_bad (h : r.normal.rangeOk = false) : takeFaultrep p r s = frameError p s := by simp [takeFaultrep, h]

/-- The state in which a FAULTREP in range ends, by the effect of its addition. -/
theorem takeFaultrep_of_add {a : AddEffect} (h : r.normal.rangeOk = true) (ha : addExclusion r .reported s = (w, a)) :
    takeFaultrep p r s = a.told w := by
  unfold takeFaultrep; simp only [h, ha]; cases a <;> rfl

end

/-! ## EXCLUDE_ADD and EXCLUDE_REMOVE (R77, R79) -/

/-- A rewriting of entries that keeps their runs keeps the position of a run. -/
theorem findIdx_run_map {f : Exclusion → Exclusion} (hf : ∀ e, (f e).run = e.run) (n : SlotRun) (l : List Exclusion) :
    (l.map f).findIdx? (fun e => e.run == n) = l.findIdx? (fun e => e.run == n) := by
  simp [List.findIdx?_map, Function.comp_def, hf]

/-- A run appended to a list without it stands at the list's end. -/
theorem findIdx_run_append {l : List Exclusion} {x : Exclusion} (h : ∀ e ∈ l, e.run ≠ x.run) :
    (l ++ [x]).findIdx? (fun e => e.run == x.run) = some l.length := by
  have hn : l.findIdx? (fun e => e.run == x.run) = none := List.findIdx?_eq_none_iff.2 fun e he => by simpa using h e he
  simp [List.findIdx?_append, hn]

/-- The entry that `findIdx?` gives the position of is the entry that `find?` gives. -/
theorem find_of_findIdx {α : Type} {q : α → Bool} {l : List α} {i : Nat} {e : α} (h : l.findIdx? q = some i) (he : l[i]? = some e) :
    l.find? q = some e := by
  obtain ⟨hi, hq, hlt⟩ := List.findIdx?_eq_some_iff_getElem.1 h
  rw [List.getElem?_eq_getElem hi, Option.some.injEq] at he
  exact List.find?_eq_some_iff_getElem.2 ⟨he ▸ hq, i, hi, he, fun j hj => by simpa using hlt j hj⟩

section
variable {r : SlotRun} {s w : State}

theorem doExcludeAdd_bad (h : r.normal.rangeOk = false) : doExcludeAdd r s = refuse .badArgument s := by simp [doExcludeAdd, h]

theorem doExcludeRemove_bad (h : r.normal.rangeOk = false) : doExcludeRemove r s = refuse .badArgument s := by
  simp [doExcludeRemove, h]

theorem doExcludeAdd_full (h : r.normal.rangeOk = true) (ha : addExclusion r .loaded s = (w, .refused)) :
    doExcludeAdd r s = refuse .full s := by simp [doExcludeAdd, h, ha]

theorem doExcludeAdd_ok {a : AddEffect} {i : Nat} (h : r.normal.rangeOk = true) (ha : addExclusion r .loaded s = (w, a))
    (hne : a ≠ .refused) (hi : w.tdb.exclusions.findIdx? (fun e => e.run == r.normal) = some i) :
    doExcludeAdd r s = (w, ⟨.ok, .exclusionAt i w.tdb.exclusions.length⟩) := by
  have hi' : exclusionPosition r.normal w = some i := hi
  simp [doExcludeAdd, h, ha, hne, hi']

theorem removeExclusion_eq : removeExclusion r s = s.withExclusions (s.tdb.exclusions.filter fun x => x.run ≠ r) := by
  simp only [removeExclusion, State.withExclusions, bne, beq_eq_decide, decide_not]

theorem doExcludeRemove_absent (h : r.normal.rangeOk = true) (hl : ∀ e ∈ s.tdb.exclusions, e.run ≠ r.normal) :
    doExcludeRemove r s = (s, ⟨.ok, .notFound⟩) := by
  have : (s.tdb.exclusions.any fun e => e.run == r.normal) = false := by simpa using hl
  simp [doExcludeRemove, h, this]

theorem doExcludeRemove_present {e : Exclusion} (h : r.normal.rangeOk = true) (he : e ∈ s.tdb.exclusions) (hr : e.run = r.normal) :
    doExcludeRemove r s = (s.withExclusions (s.tdb.exclusions.filter fun x => x.run ≠ r.normal), ⟨.ok, .removed⟩) := by
  have : (s.tdb.exclusions.any fun e => e.run == r.normal) = true := List.any_eq_true.2 ⟨e, he, by simpa using hr⟩
  rw [doExcludeRemove, h, this, removeExclusion_eq]; rfl

end

theorem expireExclusion_due {r : SlotRun} {s : State} {e : Exclusion} (he : e ∈ s.tdb.exclusions) (hr : e.run = r)
    (ho : e.origin = .reported) (hl : e.lifetime = some 0) :
    expireExclusion r s = s.withExclusions (s.tdb.exclusions.filter fun x => x.run ≠ r) := by
  have : (s.tdb.exclusions.any fun e => e.run == r && e.origin == .reported && e.lifetime == some 0) = true :=
    List.any_eq_true.2 ⟨e, he, by simp [hr, ho, hl]⟩
  rw [expireExclusion, this, removeExclusion_eq]; rfl

end Sys2Proof.Machine

open Sys2Proof Sys2Proof.Machine

/-- Settles O39, by the map that the age clock is on records and exclusions, which leaves ADM, FLE and FSW as they are. -/
theorem ageClockCountsDown : Obligations.AgeClockCountsDown := by
  intro s u hu
  have hf : FloodDone u := hu ▸ floodDone_settle s
  have hd : FloodDone (expireAgeClock u) := hf.shrinks (FloodShrinks.of_eq rfl rfl rfl)
  refine ⟨_, event_eq hu, (Traffic.of_eq rfl rfl).trans (Traffic.finish _), ?_⟩
  rw [hd.blocks_finish, expireAgeClock, Tdb.tick]
  simp only [tmap, tick_isOwnKey_node, tick_isOwnKey_link]
  rfl

/-- Settles O37, by the five rows of an addition. -/
theorem faultrepAddsReportedExclusion : Obligations.FaultrepAddsReportedExclusion := by
  intro p r s u hu hp n inRange life
  have hf : FloodDone u := hu ▸ floodDone_settle s
  have hn : n = r.normal := (slotRun_normal_eq r).symm
  have hlife : life = reportedLifetime u.cfu.params := by simp [life, reportedLifetime]
  have range : inRange → r.normal.rangeOk = true := fun h => (slotRun_rangeOk_iff _).2 (hn ▸ h)
  have run : exec (.faultrep p r) s = .next (finish (takeFaultrep p r u)) := by
    rw [← takeBody_faultrep hp]; exact event_eq hu
  refine ⟨fun h => ?out, fun h hnone hl => ?appended, fun h hnone hl => ?full, fun h e hfind => ⟨fun ho => ?loaded, fun ho => ?restarted⟩⟩
  case out =>
    have hbad : r.normal.rangeOk = false := by
      rw [Bool.eq_false_iff, Ne, slotRun_rangeOk_iff, ← hn]; exact h
    rw [takeFaultrep_bad hbad] at run
    exact ⟨_, run, discard_event hf p⟩
  case appended =>
    rw [takeFaultrep_of_add (range h) (addExclusion_appended _ (hn ▸ hnone) hl)] at run
    refine ⟨_, run, ?_⟩
    have := raised_event (u := u) .exclusion .added
      (w := (u.withExclusions (u.tdb.exclusions ++ [addedExclusion r .reported u])).nextStamp)
      (hf.shrinks (FloodShrinks.of_eq rfl rfl rfl)) (Traffic.of_eq rfl rfl)
    rw [hn, hlife]
    exact this
  case full =>
    rw [takeFaultrep_of_add (range h) (addExclusion_full _ (hn ▸ hnone) hl)] at run
    exact ⟨_, run, raised_event .exclusion .full hf (Traffic.refl _ _ _)⟩
  case loaded =>
    rw [takeFaultrep_of_add (range h) (addExclusion_loaded _ (hn ▸ hfind) ho)] at run
    exact ⟨_, run, hf.blocks_finish, Traffic.finish _⟩
  case restarted =>
    rw [takeFaultrep_of_add (range h) (addExclusion_restarted (hn ▸ hfind) ho)] at run
    rw [hn, hlife]
    exact ⟨_, run, exclusions_event hf _⟩

/-- Settles O38, by the rows of an addition, the entry's position after each, and the filter that a removal is. -/
theorem exclusionsAreAddedAndRemoved : Obligations.ExclusionsAreAddedAndRemoved := by
  intro m r s u hu n l put
  have hf : FloodDone u := hu ▸ floodDone_settle s
  have hn : n = r.normal := (slotRun_normal_eq r).symm
  rw [hn]
  refine ⟨fun hm hbad => ⟨?addBad, ?removeBad⟩, fun hm hok hnone => ⟨fun hl => ?added, fun hl => ?full, ?notFound⟩,
    fun hm hok i e hi he => ?_, fun ⟨e, he, hr, ho, hl⟩ => ?expired⟩
  case addBad =>
    exact commanded_refused hu hm (doExcludeAdd_bad hbad)
  case removeBad =>
    exact commanded_refused hu hm (doExcludeRemove_bad hbad)
  case added =>
    have hi := findIdx_run_append (x := addedExclusion r .loaded u) hnone
    obtain ⟨t, ht, ha, htr, hb⟩ := commanded_aside hu hm
      (doExcludeAdd_ok hok (addExclusion_appended .loaded hnone hl) (by decide) hi) rfl rfl rfl rfl
    refine ⟨t, ht, htr, ?_, hb⟩
    simpa [State.nextStamp, State.withExclusions, l] using ha
  case full =>
    obtain ⟨t, ht, hb, ha, htr⟩ := commanded_refused hu hm (doExcludeAdd_full hok (addExclusion_full .loaded hnone hl))
    exact ⟨t, ht, htr, ha, hb⟩
  case notFound =>
    exact commanded_done hu hm (doExcludeRemove_absent hok hnone) hf
  case expired =>
    have run : exec (.exclusionLifetimeExpiry r) s = .next (finish (expireExclusion r u)) := event_eq hu
    rw [expireExclusion_due he hr ho hl] at run
    exact ⟨_, run, exclusions_event hf _⟩
  have hfind := find_of_findIdx hi he
  have hmem : e ∈ u.tdb.exclusions := List.mem_of_find?_eq_some hfind
  have hrun : e.run = r.normal := by simpa using List.find?_some hfind
  refine ⟨?present, ?removed⟩
  case present =>
    cases ho : e.origin with
    | loaded =>
      obtain ⟨t, ht, hb, ha, htr⟩ := commanded_done hu hm
        (doExcludeAdd_ok hok (addExclusion_loaded .loaded hfind ho) (by decide) hi) hf
      exact ⟨t, ht, htr, ha, fun _ => hb, nofun⟩
    | reported =>
      have hpos := (findIdx_run_map (f := fun x => if x.run = r.normal then { x with origin := .loaded, lifetime := none } else x)
        (fun x => by split <;> rfl) r.normal u.tdb.exclusions).trans hi
      obtain ⟨t, ht, ha, htr, hb⟩ := commanded_aside hu hm
        (doExcludeAdd_ok hok (addExclusion_made_loaded hfind ho) (by decide) hpos) rfl rfl rfl rfl
      refine ⟨t, ht, htr, ?_, nofun, fun _ => hb⟩
      simpa [State.withExclusions, l] using ha
  case removed =>
    obtain ⟨t, ht, ha, htr, hb⟩ := commanded_aside hu hm (doExcludeRemove_present hok hmem hrun) rfl rfl rfl rfl
    exact ⟨t, ht, htr, ha, hb⟩

end

section
/-! SUPPORT. The pull lists after a change of an origin's records (R101), and the expiry of a record's age and linger (R68, R70). -/

namespace Sys2Proof.Machine

/-! ## The pull lists at the end of an event (R100, R101) -/

/-- Pull lists and waiting PULLs that a check left are checked, whatever else changed. -/
theorem pullsChecked_of_dropPulls {o : NodeId} {s t : State}
    (hp : ∀ d, (t.flood d).pulls = ((s.flood d).dropPulls o (PullEntry.matched t.tdb)).pulls)
    (hw : ∀ d, (t.flood d).waiting = ((s.flood d).dropPulls o (PullEntry.matched t.tdb)).waiting) : PullsChecked o s t := by
  have hm : (fun x : PullEntry => x.origin == o && t.tdb.summary o == some ⟨o, x.highest, x.count, x.sum⟩) =
      fun x => x.origin == o && PullEntry.matched t.tdb x := by
    funext x
    cases hx : x.origin == o
    · rfl
    · simp only [PullEntry.matched, eq_of_beq hx]
  unfold PullsChecked
  rw [hm]
  intro met d
  rw [hp, hw, FleDegree.dropPulls]
  by_cases h : ((s.flood d).pulls.any fun e => e.origin == o && PullEntry.matched t.tdb e) = true
  · rw [if_pos h, if_pos h]
    exact ⟨rfl, List.filter_congr fun x _ => by simp [bne, beq_eq_decide]⟩
  · rw [if_neg h, if_neg h]
    refine ⟨(List.filter_eq_self.2 fun x hx => ?_).symm, rfl⟩
    rw [List.any_eq_true] at h
    exact Bool.not_eq_true' _ ▸ Bool.eq_false_iff.2 fun k => h ⟨x, hx, k⟩

/-- A check of the pull lists stands at the end of its event. -/
theorem PullsChecked.finish {o : NodeId} {s t : State} (h : PullsChecked o s t) (hd : FloodDone s) (ha : t.adm = s.adm)
    (hq : ∀ d : Degree, (s.port (.deg d)).queue.length ≤ (t.port (.deg d)).queue.length) : PullsChecked o s (finish t) := by
  intro d
  have hw : (t.isUp d && (t.port (.deg d)).room (.deg d)) = true → (t.flood d).waiting = [] := by
    intro k
    simp only [Bool.and_eq_true, OutPort.room, decide_eq_true_eq] at k
    have hu : s.isUp d = true := by rw [← k.1]; simp [State.isUp, State.adjacency, ha]
    have hr : (s.port (.deg d)).queue.length < queueSize (.deg d) := lt_of_le_of_lt (hq d) k.2
    have hs : (s.flood d).waiting = [] := by
      have := hd d
      simp only [fleDue, hu, OutPort.room, hr, decide_true, Bool.true_and, Bool.or_eq_false_iff, Bool.not_eq_false',
        List.isEmpty_iff] at this
      exact this.1.1
    rw [(h d).2, hs]
    simp
  rw [(pulls_finish hw).1, (pulls_finish hw).2, tdb_finish]
  exact h d

/-- A check over a state with the same pull lists and waiting PULLs. -/
theorem PullsChecked.of_lists {o : NodeId} {r s t : State} (h : PullsChecked o r t) (hp : ∀ d, (r.flood d).pulls = (s.flood d).pulls)
    (hw : ∀ d, (r.flood d).waiting = (s.flood d).waiting) : PullsChecked o s t := fun d => by
  rw [← hp, ← hw]; exact h d

theorem pullsChecked_checkPulls (o : NodeId) (s : State) : PullsChecked o s (checkPulls o s) :=
  pullsChecked_of_dropPulls (fun d => by rw [checkPulls, flood_mapFlood]; rfl) fun d => by rw [checkPulls, flood_mapFlood]; rfl

/-! ## A write and the end of its event -/

/-- What an event leaves that writes a database, checks the pull lists of an origin and floods nothing. -/
structure WrittenSilently (o : NodeId) (tdb : Tdb) (u t : State) : Prop where
  traffic : Traffic [] [] u t
  tdb : t.tdb = tdb
  sendList : ∀ d, (t.flood d).sendList = (u.flood d).sendList
  cmc : t.cmc = { u.cmc with changed := true }
  pulls : PullsChecked o u t
  rqu : t.rqu = u.rqu
  rsv : t.rsv = u.rsv

theorem writtenSilently_finish {u : State} (hf : FloodDone u) (o : NodeId) (tdb : Tdb) :
    WrittenSilently o tdb u (finish (afterWrite o { u with tdb := tdb })) := by
  have hd : FloodDone (afterWrite o { u with tdb := tdb }) :=
    hf.shrinks ((FloodShrinks.of_eq rfl rfl rfl).trans (floodShrinks_checkPulls _ _))
  have hp : PullsChecked o u (afterWrite o { u with tdb := tdb }) :=
    (pullsChecked_checkPulls o (noteChange { u with tdb := tdb })).of_lists (fun _ => rfl) fun _ => rfl
  constructor
  · exact (Traffic.of_eq rfl rfl).trans (Traffic.finish _)
  · exact tdb_finish _
  · intro d
    rw [State.flood, hd.fle_finish]
    exact sendList_checkPulls _ _ d
  · exact cmc_finish _
  · exact hp.finish hf rfl fun _ => le_refl _
  · exact rqu_finish _
  · exact rsv_finish _

/-! ## The age of a record (R68) -/

section
variable {α : Type} {v : Versions α} {p : Part α}

theorem ageDue_active (ha : v.age = 0) (hw : v.working = some p) (hp : p.state = .active) : v.ageDue = true := by
  simp [Versions.ageDue, Versions.workingActive, Part.isActive, ha, hw, hp]

theorem not_ageDue (h : v.age ≠ 0 ∨ ∀ p, v.working = some p → p.state = .withdrawn) : v.ageDue = false := by
  rcases h with h | h
  · simp [Versions.ageDue, h]
  · cases hw : v.working with
    | none => simp [Versions.ageDue, Versions.workingActive, hw]
    | some p => simp [Versions.ageDue, Versions.workingActive, Part.isActive, hw, h p hw]

theorem withdraw_of_working (hw : v.working = some p) : v.withdraw =
    { v with pending := some { p with state := .withdrawn }, age := 0, linger := some 60 } := by
  rw [Versions.withdraw, hw]; rfl

/-! ## The linger of a record (R70) -/

theorem lingerDue_withdrawn (hl : v.linger = some 0) (hp : p.state = .withdrawn)
    (h : (v.committed = none ∧ v.pending = some p) ∨ (v.committed = some p ∧ v.pending = none)) : v.lingerDue = true := by
  rcases h with ⟨hc, hq⟩ | ⟨hc, hq⟩ <;> simp [Versions.lingerDue, Part.isActive, hl, hc, hq, hp]

theorem not_lingerDue (h : v.linger ≠ some 0 ∨ (v.committed.isSome = true ∧ v.pending.isSome = true)) : v.lingerDue = false := by
  rcases h with h | ⟨hc, hq⟩
  · simp [Versions.lingerDue, h]
  · obtain ⟨c, hc⟩ := Option.isSome_iff_exists.1 hc
    obtain ⟨q, hq⟩ := Option.isSome_iff_exists.1 hq
    simp [Versions.lingerDue, hc, hq]

end

/-! ## An expiry of a record held -/

section
variable {u : State} {i : Nat}

theorem expireAge_link {k : LinkKey} {r : LinkRec} (hr : u.tdb.findLink k = some (i, r)) (h : r.ver.ageDue = true) :
    expireAge (.link k) u = afterWrite k.origin { u with tdb := { u.tdb with
      links := tput u.tdb.links i { r with ver := r.ver.withdraw } } } := by
  simp [expireAge, Tdb.recordIs, Tdb.updateRecord, hr, h, keyOrigin]

theorem expireAge_node {n : NodeId} {r : NodeRec} (hr : u.tdb.findNode n = some (i, r)) (h : r.ver.ageDue = true) :
    expireAge (.node n) u = afterWrite n { u with tdb := { u.tdb with
      nodes := tput u.tdb.nodes i { r with ver := r.ver.withdraw } } } := by
  simp [expireAge, Tdb.recordIs, Tdb.updateRecord, hr, h, keyOrigin]

theorem expireAge_link_early {k : LinkKey} {r : LinkRec} (hr : u.tdb.findLink k = some (i, r)) (h : r.ver.ageDue = false) :
    expireAge (.link k) u = u := by simp [expireAge, Tdb.recordIs, hr, h]

theorem expireAge_node_early {n : NodeId} {r : NodeRec} (hr : u.tdb.findNode n = some (i, r)) (h : r.ver.ageDue = false) :
    expireAge (.node n) u = u := by simp [expireAge, Tdb.recordIs, hr, h]

theorem expireLinger_due {k : RecordKey} (h : u.tdb.recordIs Versions.lingerDue Versions.lingerDue k = true) :
    expireLinger k u = noteChange (removeRecord k u) := if_pos h

theorem expireLinger_early {k : RecordKey} (h : u.tdb.recordIs Versions.lingerDue Versions.lingerDue k = false) :
    expireLinger k u = u := by simp [expireLinger, h]

theorem recordIs_link {k : LinkKey} {r : LinkRec} (hr : u.tdb.findLink k = some (i, r)) (q : Versions NodeContent → Bool)
    (p : Versions LinkContent → Bool) : u.tdb.recordIs q p (.link k) = p r.ver := by simp [Tdb.recordIs, hr]

theorem recordIs_node {n : NodeId} {r : NodeRec} (hr : u.tdb.findNode n = some (i, r)) (q : Versions NodeContent → Bool)
    (p : Versions LinkContent → Bool) : u.tdb.recordIs q p (.node n) = q r.ver := by simp [Tdb.recordIs, hr]

end

/-! ## A record removed (R65, R72) -/

/-- What an event leaves that removes a record. -/
structure RecordRemoved (k : RecordKey) (u t : State) : Prop where
  traffic : Traffic [] [] u t
  tdb : t.tdb = clearIncomplete (u.tdb.erase k)
  pulls : PullsChecked (keyOrigin k) u t
  sendList : ∀ d, (t.flood d).sendList = (u.flood d).sendList.filter (· ≠ k)
  cmc : t.cmc = { u.cmc with changed := true }
  shu : t.shu = u.shu
  fwd : t.fsw.fwd = u.fsw.fwd

theorem recordRemoved_finish {u : State} (hf : FloodDone u) (k : RecordKey) :
    RecordRemoved k u (finish (noteChange (removeRecord k u))) := by
  have hd : FloodDone (noteChange (removeRecord k u)) := hf.shrinks (floodShrinks_removeRecord k u)
  have hp : PullsChecked (keyOrigin k) u (noteChange (removeRecord k u)) :=
    (pullsChecked_checkPulls (keyOrigin k) (dropKey k { u with tdb := clearIncomplete (u.tdb.erase k) })).of_lists
      (fun d => by rw [dropKey, flood_mapFlood]; rfl) fun d => by rw [dropKey, flood_mapFlood]; rfl
  constructor
  · exact (Traffic.of_eq rfl rfl).trans (Traffic.finish _)
  · exact tdb_finish _
  · exact hp.finish hf rfl fun _ => le_refl _
  · intro d
    rw [State.flood, hd.fle_finish]
    refine (sendList_checkPulls _ _ d).trans ?_
    rw [dropKey, flood_mapFlood]
    exact List.filter_congr fun x _ => by simp [bne, beq_eq_decide]
  · exact cmc_finish _
  · exact shu_finish _
  · exact fwd_finish _

theorem findLink_erase (t : Tdb) (k : LinkKey) : (clearIncomplete (t.erase (.link k))).findLink k = none :=
  List.find?_eq_none.2 fun e he => by simpa [Bool.not_eq_true] using (List.mem_filter.1 he).2

theorem findNode_erase (t : Tdb) (n : NodeId) : (clearIncomplete (t.erase (.node n))).findNode n = none := by
  refine List.find?_eq_none.2 fun e he => ?_
  obtain ⟨x, hx, rfl⟩ := List.mem_map.1 he
  simpa using (List.mem_filter.1 hx).2

end Sys2Proof.Machine

open Sys2Proof Sys2Proof.Machine

/-- Settles O40, by the two expiries of a record that is held: each is due, and then one write or one removal, or it is not due. -/
theorem ageAndLingerExpiries : Obligations.AgeAndLingerExpiries := by
  have silent {u : State} (hf : FloodDone u) : (finish u).blocks = u.blocks ∧ Traffic [] [] u (finish u) :=
    ⟨hf.blocks_finish, Traffic.finish u⟩
  refine ⟨fun k i r s u hu hr => ?link, fun n i r s u hu hr => ?node⟩
  case link =>
    have hf : FloodDone u := hu ▸ floodDone_settle s
    have age : exec (.ageExpiry (.link k)) s = .next (finish (expireAge (.link k) u)) := event_eq hu
    have linger : exec (.lingerExpiry (.link k)) s = .next (finish (expireLinger (.link k) u)) := event_eq hu
    refine ⟨fun p ha hw hp => ?withdrawn, fun h => ?young, fun p hl hp h => ?removed, fun h => ?kept⟩
    case withdrawn =>
      rw [expireAge_link hr (ageDue_active ha hw hp), withdraw_of_working hw] at age
      have w := writtenSilently_finish hf k.origin
        { u.tdb with links := tput u.tdb.links i { r with ver := { r.ver with
          pending := some { p with state := .withdrawn }, age := 0, linger := some 60 } } }
      have hkey : r.key = k := key_of_findLink hr
      exact ⟨_, age, w.traffic, (congrArg (Tdb.findLink · k) w.tdb).trans (find_tput_held hr (beq_iff_eq.2 hkey)),
        w.sendList, w.cmc, w.pulls, (congrArg Tdb.nodes w.tdb :), w.rqu, w.rsv⟩
    case young =>
      rw [expireAge_link_early hr (not_ageDue h)] at age
      exact ⟨_, age, silent hf⟩
    case removed =>
      rw [expireLinger_due ((recordIs_link hr _ _).trans (lingerDue_withdrawn hl hp h))] at linger
      have w := recordRemoved_finish hf (.link k)
      refine ⟨_, linger, w.traffic, (congrArg (Tdb.findLink · k) w.tdb).trans (findLink_erase _ k), ?_,
        congrArg Tdb.incomplete w.tdb, w.pulls, fun e he => ?_, w.sendList, w.cmc, w.shu, w.fwd, (congrArg Tdb.exclusions w.tdb :)⟩
      · refine (congrArg Tdb.links w.tdb).trans (List.filter_congr fun x _ => ?_)
        simp [bne, beq_eq_decide]
      · rw [w.tdb] at he
        obtain ⟨x, -, rfl⟩ := List.mem_map.1 he
        rfl
    case kept =>
      rw [expireLinger_early ((recordIs_link hr _ _).trans (not_lingerDue h))] at linger
      exact ⟨_, linger, silent hf⟩
  case node =>
    have hf : FloodDone u := hu ▸ floodDone_settle s
    have age : exec (.ageExpiry (.node n)) s = .next (finish (expireAge (.node n) u)) := event_eq hu
    have linger : exec (.lingerExpiry (.node n)) s = .next (finish (expireLinger (.node n) u)) := event_eq hu
    refine ⟨fun p ha hw hp => ?withdrawn, fun h => ?young, fun p hl hp h => ?removed, fun h => ?kept⟩
    case withdrawn =>
      rw [expireAge_node hr (ageDue_active ha hw hp), withdraw_of_working hw] at age
      have w := writtenSilently_finish hf n
        { u.tdb with nodes := tput u.tdb.nodes i { r with ver := { r.ver with
          pending := some { p with state := .withdrawn }, age := 0, linger := some 60 } } }
      have hkey : r.id = n := id_of_findNode hr
      exact ⟨_, age, w.traffic, (congrArg (Tdb.findNode · n) w.tdb).trans (find_tput_held hr (beq_iff_eq.2 hkey)),
        w.sendList, w.cmc, w.pulls, (congrArg Tdb.links w.tdb :), w.rqu, w.rsv⟩
    case young =>
      rw [expireAge_node_early hr (not_ageDue h)] at age
      exact ⟨_, age, silent hf⟩
    case removed =>
      rw [expireLinger_due ((recordIs_node hr _ _).trans (lingerDue_withdrawn hl hp h))] at linger
      have w := recordRemoved_finish hf (.node n)
      refine ⟨_, linger, w.traffic, (congrArg (Tdb.findNode · n) w.tdb).trans (findNode_erase _ n), ?_,
        (congrArg Tdb.links w.tdb :), congrArg Tdb.incomplete w.tdb, w.pulls, w.sendList, w.cmc, w.shu, w.fwd,
        (congrArg Tdb.exclusions w.tdb :)⟩
      refine (congrArg Tdb.nodes w.tdb).trans (congrArg (List.map _) (List.filter_congr fun x _ => ?_))
      simp [bne, beq_eq_decide]
    case kept =>
      rw [expireLinger_early ((recordIs_node hr _ _).trans (not_lingerDue h))] at linger
      exact ⟨_, linger, silent hf⟩

end

section
/-! SUPPORT. All own records originated together: what each origination leaves to those before and after it (R61 to R65, R83 to R87). -/

namespace Sys2Proof.Machine

theorem length_tput_le {α : Type} (t : List (Nat × α)) (i : Nat) (a : α) : (tput t i a).length ≤ t.length + 1 := by
  induction t with
  | nil => exact le_refl _
  | cons b t ih =>
    rw [tput]
    split
    · exact le_refl _
    · split
      · exact Nat.le_succ _
      · exact Nat.succ_le_succ ih

theorem sendList_dropPulls (o : NodeId) (hit : PullEntry → Bool) (x : FleDegree) : (x.dropPulls o hit).sendList = x.sendList := by
  unfold FleDegree.dropPulls
  split <;> rfl

/-! ## An insertion refused (R64, R65) -/

section
variable (o : NodeId) (m : Member) (s : State)

/-- The database with the origin marked INCOMPLETE: at its node record, or in the list of origins without one. -/
theorem tdb_refuseInsertion :
    (∃ i r, s.tdb.findNode o = some (i, r) ∧
      (refuseInsertion o m s).tdb = { s.tdb with nodes := tput s.tdb.nodes i { r with incomplete := true } }) ∨
    s.tdb.findNode o = none ∧ ∃ inc, (refuseInsertion o m s).tdb = { s.tdb with incomplete := inc } := by
  unfold refuseInsertion
  dsimp only
  split
  · rename_i i r h
    exact Or.inl ⟨i, r, h, rfl⟩
  · rename_i h
    refine Or.inr ⟨h, ?_⟩
    split
    · exact ⟨_, rfl⟩
    · exact ⟨_, rfl⟩

theorem findNode_refuseInsertion :
    ((refuseInsertion o m s).tdb.findNode o).map (·.2.ver) = (s.tdb.findNode o).map (·.2.ver) := by
  rcases tdb_refuseInsertion o m s with ⟨i, r, h, ht⟩ | ⟨-, inc, ht⟩ <;> rw [ht]
  · have hid : r.id = o := id_of_findNode h
    rw [h, Tdb.findNode, find_tput_held (b := { r with incomplete := true }) h (beq_iff_eq.2 hid)]
    rfl
  · rfl

theorem links_refuseInsertion : (refuseInsertion o m s).tdb.links = s.tdb.links := by
  rcases tdb_refuseInsertion o m s with ⟨i, r, -, ht⟩ | ⟨-, inc, ht⟩ <;> rw [ht]

theorem sendList_refuseInsertion (d : Degree) : ((refuseInsertion o m s).flood d).sendList = (s.flood d).sendList := by
  unfold refuseInsertion dropPullsOf
  rw [flood_mapFlood, sendList_dropPulls]
  rfl

theorem Traffic.refuseInsertion {is : List NoticeId} {ps : List Port} (h : NoticeId.tableFull ∈ is) :
    Traffic is ps s (Machine.refuseInsertion o m s) :=
  (Traffic.of_eq rfl rfl).trans ((Traffic.raise (Or.inl h) [m] _).trans (Traffic.of_eq rfl rfl))

theorem Keeps.refuseInsertion : Keeps s (Machine.refuseInsertion o m s) :=
  (Keeps.of_eq rfl).trans ((Keeps.raise .tableFull [m] _).trans (Keeps.of_eq rfl))

end

/-! ## What a write does: it stores, it leaves the state alone, or it is refused (R61 to R64) -/

theorem writeLink_cases (w : LinkWrite) (s : State) :
    (∃ i r, writeLink w s =
        (afterWrite w.key.origin { s with tdb := { s.tdb with links := tput s.tdb.links i r } }, true) ∧ r.key = w.key ∧
        (TablesOk s → ∀ e ∈ s.tdb.links, e.1 = i → e.2.key = w.key)) ∨
      writeLink w s = (s, false) ∨ writeLink w s = (refuseInsertion w.key.origin .linkTable s, false) := by
  unfold writeLink
  dsimp only
  split
  · rename_i i r h
    have hk := key_of_findLink h
    split
    · exact Or.inr (Or.inl rfl)
    · refine Or.inl ⟨i, _, rfl, hk, fun ht e he hi => ?_⟩
      rw [entry_unique ht.2.1.1 he (List.mem_of_find?_eq_some h) hi, hk]
  · split
    · exact Or.inr (Or.inl rfl)
    · split
      · exact Or.inr (Or.inl rfl)
      · split
        · exact Or.inr (Or.inr rfl)
        · split
          · exact Or.inr (Or.inr rfl)
          · rename_i i hi
            refine Or.inl ⟨i, _, rfl, rfl, fun ht e he hei => ?_⟩
            simp only [lowestFree] at hi
            split at hi
            · exact absurd (hei.trans (Option.some.inj hi).symm) ((lowestFreeFrom_spec ht.2.1.1 0).2.1 e he)
            · cases hi

theorem writeNode_cases (w : NodeWrite) (s : State) :
    (∃ nodes inc e, writeNode w s =
        (afterWrite w.id { s with tdb := { s.tdb with nodes := nodes, incomplete := inc } }, true) ∧
        nodes.find? (fun e => e.2.id == w.id) = some e ∧ e.2.ver.domain = w.domain) ∨
      writeNode w s = (s, false) ∨ writeNode w s = (refuseInsertion w.id .nodeTable s, false) := by
  unfold writeNode
  dsimp only
  split
  · rename_i i r h
    have hp : (r.id == w.id) = true := beq_iff_eq.2 (id_of_findNode h)
    split
    · exact Or.inr (Or.inl rfl)
    · rename_i hd
      exact Or.inl ⟨_, _, _, rfl, find_tput_held h (b := { r with ver := r.ver.write w.part w.age w.native }) hp, (by simpa using hd : r.ver.domain = w.domain)⟩
  · rename_i h
    split
    · exact Or.inr (Or.inl rfl)
    · split
      · exact Or.inr (Or.inr rfl)
      · split
        · exact Or.inr (Or.inr rfl)
        · exact Or.inl ⟨_, _, _, rfl, find_tput_new h (beq_self_eq_true _), rfl⟩

section
variable {is : List NoticeId} {ps : List Port}

theorem Traffic.writeLink (h : NoticeId.tableFull ∈ is) (w : LinkWrite) (s : State) : Traffic is ps s (Machine.writeLink w s).1 := by
  rcases writeLink_cases w s with ⟨i, r, hw, -⟩ | hw | hw <;> rw [hw]
  · exact Traffic.of_eq rfl rfl
  · exact Traffic.refl _ _ _
  · exact Traffic.refuseInsertion _ _ _ h

theorem Traffic.writeNode (h : NoticeId.tableFull ∈ is) (w : NodeWrite) (s : State) : Traffic is ps s (Machine.writeNode w s).1 := by
  rcases writeNode_cases w s with ⟨nodes, inc, e, hw, -⟩ | hw | hw <;> rw [hw]
  · exact Traffic.of_eq rfl rfl
  · exact Traffic.refl _ _ _
  · exact Traffic.refuseInsertion _ _ _ h

theorem Keeps.writeLink (w : LinkWrite) (s : State) : Keeps s (Machine.writeLink w s).1 := by
  rcases writeLink_cases w s with ⟨i, r, hw, -⟩ | hw | hw <;> rw [hw]
  · exact Keeps.of_eq rfl
  · exact Keeps.refl _
  · exact Keeps.refuseInsertion _ _ _

theorem Keeps.writeNode (w : NodeWrite) (s : State) : Keeps s (Machine.writeNode w s).1 := by
  rcases writeNode_cases w s with ⟨nodes, inc, e, hw, -⟩ | hw | hw <;> rw [hw]
  · exact Keeps.of_eq rfl
  · exact Keeps.refl _
  · exact Keeps.refuseInsertion _ _ _

theorem Traffic.originateLink (h : NoticeId.tableFull ∈ is) (d : Degree) {s : State} (hl : s.fle.seq ≤ 0xFFFFFFF0) :
    Traffic is ps s (Machine.originateLink d s) := by
  have key := fun w => (Traffic.of_eq (ps := ps) (s := s) (t := takeSeq s) rfl rfl).trans (Traffic.writeLink h w (takeSeq s))
  rw [originateLink_live (live_iff.2 hl)]
  split
  · exact (key _).trans (Traffic.of_eq rfl rfl)
  · exact key _

theorem Traffic.originateNode (h : NoticeId.tableFull ∈ is) {s : State} (hl : s.fle.seq ≤ 0xFFFFFFF0) :
    Traffic is ps s (Machine.originateNode s) := by
  have key := fun w => (Traffic.of_eq (ps := ps) (s := s) (t := takeSeq s) rfl rfl).trans (Traffic.writeNode h w (takeSeq s))
  rw [originateNode_live (live_iff.2 hl)]
  split
  · exact (key _).trans (Traffic.of_eq rfl rfl)
  · exact key _

end

/-! ## The counter exhausted (R84) -/

/-- The part an own link record is written with while the counter is exhausted; none when nothing is written. -/
def spentLinkPart (d : Degree) (s : State) : Option (Part LinkContent) :=
  exhaustedPart ((s.tdb.findLink ⟨s.nodeId, d.val⟩).bind fun e => e.2.ver.working) (ownLinkContent s d)

/-- The part the own node record is written with while the counter is exhausted; none when nothing is written. -/
def spentNodePart (s : State) : Option (Part NodeContent) :=
  exhaustedPart ((s.tdb.findNode s.nodeId).bind fun e => e.2.ver.working) (some (ownNodeContent s))

theorem not_live_iff {f : Fle} : f.live = false ↔ 0xFFFFFFF0 < f.seq := by
  rw [← Bool.not_eq_true, live_iff]; omega

theorem originateLink_spent {d : Degree} {s : State} (h : 0xFFFFFFF0 < s.fle.seq) : originateLink d s =
    match spentLinkPart d s with
    | none => raise .sequence [.exhausted] s
    | some p => (writeLink ⟨⟨s.nodeId, d.val⟩, 0, none, p, if p.isActive then 3600 else 0⟩ (raise .sequence [.exhausted] s)).1 := by
  unfold originateLink spentLinkPart
  simp only [not_live_iff.2 h]
  rfl

theorem originateNode_spent {s : State} (h : 0xFFFFFFF0 < s.fle.seq) : originateNode s =
    match spentNodePart s with
    | none => raise .sequence [.exhausted] s
    | some p => (writeNode ⟨s.nodeId, 0, none, p, 3600⟩ (raise .sequence [.exhausted] s)).1 := by
  unfold originateNode spentNodePart
  simp only [not_live_iff.2 h]
  rfl

/-- An origination with the counter exhausted keeps the counter and every episode, and raises SEQUENCE. -/
theorem originateLink_exhausted (d : Degree) {s : State} (h : 0xFFFFFFF0 < s.fle.seq) :
    (originateLink d s).fle.seq = s.fle.seq ∧ Keeps s (originateLink d s) := by
  rw [originateLink_spent h]
  split
  · exact ⟨rfl, Keeps.raise _ _ _⟩
  · exact ⟨seq_writeLink _ _, (Keeps.raise _ _ _).trans (Keeps.writeLink _ _)⟩

theorem originateNode_exhausted {s : State} (h : 0xFFFFFFF0 < s.fle.seq) :
    (originateNode s).fle.seq = s.fle.seq ∧ Raised .sequence .exhausted (originateNode s) := by
  have hr := raised_raise (i := .sequence) (List.mem_singleton_self Member.exhausted) s
  rw [originateNode_spent h]
  split
  · exact ⟨rfl, hr⟩
  · exact ⟨seq_writeNode _ _, hr.keeps (Keeps.writeNode _ _)⟩

/-! ## What originations of own link records leave to one another -/

/-- What originations of the own link records of some keys leave: the rest of the part, the tables in order, the versions of the own
node record, every other link record, room for as many fewer records, and the keys in the send lists. -/
structure LinksOriginated (ks : List LinkKey) (s t : State) : Prop where
  beside : t.besideRecords = s.besideRecords
  sound : Sound s t
  node : (t.tdb.findNode s.nodeId).map (·.2.ver) = (s.tdb.findNode s.nodeId).map (·.2.ver)
  link : TablesOk s → ∀ k, k ∉ ks → t.tdb.findLink k = s.tdb.findLink k
  length : t.tdb.links.length ≤ s.tdb.links.length + ks.length
  sendList : ∀ d k, k ∈ (s.flood d).sendList → k ∈ (t.flood d).sendList

section
variable {s t u : State} {ks ls : List LinkKey}

/-- Fields of two states that are equal beside the records. -/
theorem nodeId_of_beside (h : t.besideRecords = s.besideRecords) : t.nodeId = s.nodeId :=
  (congrArg State.nodeId h :)

theorem isUp_of_beside (h : t.besideRecords = s.besideRecords) (d : Degree) : t.isUp d = s.isUp d :=
  (congrArg (State.isUp · d) h :)

theorem ownLinkContent_of_beside (h : t.besideRecords = s.besideRecords) (d : Degree) : ownLinkContent t d = ownLinkContent s d :=
  (congrArg (ownLinkContent · d) h :)

/-- A change that no record and no send list sees. -/
theorem LinksOriginated.of_eq (hb : t.besideRecords = s.besideRecords) (hs : Sound s t) (ht : t.tdb = s.tdb)
    (hl : ∀ d, (t.flood d).sendList = (s.flood d).sendList) : LinksOriginated [] s t :=
  ⟨hb, hs, by rw [ht], fun _ _ _ => by rw [ht], by rw [ht]; exact le_refl _, fun d k hk => by rwa [hl]⟩

theorem LinksOriginated.refl (s : State) : LinksOriginated [] s s := .of_eq rfl (Sound.refl s) rfl fun _ => rfl

theorem LinksOriginated.trans (h : LinksOriginated ks s t) (k : LinksOriginated ls t u) : LinksOriginated (ks ++ ls) s u where
  beside := k.beside.trans h.beside
  sound := h.sound.trans k.sound
  node := by
    have := k.node
    rw [nodeId_of_beside h.beside] at this
    exact this.trans h.node
  link := fun ht x hx => by
    rw [List.mem_append, not_or] at hx
    exact (k.link (h.sound.tables ht) x hx.2).trans (h.link ht x hx.1)
  length := by
    have := h.length; have := k.length
    rw [List.length_append]; omega
  sendList := fun d x hx => k.sendList d x (h.sendList d x hx)

theorem LinksOriginated.mono (h : LinksOriginated [] s t) : LinksOriginated ks s t :=
  { h with
    link := fun ht k _ => h.link ht k List.not_mem_nil
    length := h.length.trans (Nat.add_le_add_left (Nat.zero_le _) _) }

theorem linksOriginated_writeLink {w : LinkWrite} (h : w.key.origin = s.nodeId) : LinksOriginated [w.key] s (writeLink w s).1 := by
  have hb := beside_writeLink w s
  have hs := Sound.writeLink w s
  rcases writeLink_cases w s with ⟨i, r, hw, hr, hi⟩ | hw | hw <;> rw [hw] at hb hs ⊢
  · refine ⟨hb, hs, rfl, fun ht k hk => ?_, length_tput_le _ _ _, fun d k hk => ?_⟩
    · have hne : w.key ≠ k := fun e => hk (by simp [e])
      exact find_tput_other (by simpa [hr] using hne) fun e he hei => by simpa [hi ht e he hei] using hne
    · rw [afterWrite, sendList_checkPulls]; exact hk
  · exact (LinksOriginated.refl s).mono
  · have hlinks := links_refuseInsertion w.key.origin .linkTable s
    refine ⟨hb, hs, ?_, fun _ k _ => by rw [Tdb.findLink, hlinks]; rfl, by rw [hlinks]; exact Nat.le_succ _, fun d k hk => ?_⟩
    · rw [← h]; exact findNode_refuseInsertion _ _ _
    · rw [sendList_refuseInsertion]; exact hk

theorem mem_sendList_addKey_of_mem {k l : RecordKey} {x : FleDegree} (h : k ∈ x.sendList) : k ∈ (x.addKey l).sendList := by
  unfold FleDegree.addKey
  split
  · exact h
  · exact List.mem_append_left _ h

theorem linksOriginated_addKeyUp (b : Option Degree) (k : RecordKey) (s : State) : LinksOriginated [] s (addKeyUp b k s) :=
  { LinksOriginated.refl s with
    beside := beside_mapFlood _ _
    sound := Sound.addKeyUp b k s
    sendList := fun d x hx => by
      rw [addKeyUp, flood_mapFlood]
      split
      · exact mem_sendList_addKey_of_mem hx
      · exact hx }

theorem linksOriginated_takeSeq (s : State) : LinksOriginated [] s (takeSeq s) := .of_eq rfl (Sound.of_tracked rfl) rfl fun _ => rfl

theorem linksOriginated_raise (ms : List Member) (s : State) : LinksOriginated [] s (raise .sequence ms s) :=
  .of_eq (beside_raise_sequence ms s) (Sound.raise _ _ _) rfl fun _ => rfl

theorem linksOriginated_originateLink (d : Degree) (s : State) :
    LinksOriginated [⟨s.nodeId, d.val⟩] s (originateLink d s) := by
  rcases Nat.lt_or_ge 0xFFFFFFF0 s.fle.seq with h | h
  · rw [originateLink_spent h]
    have hr := linksOriginated_raise [.exhausted] s
    split
    · exact hr.mono
    · exact hr.trans (linksOriginated_writeLink (w := ⟨⟨s.nodeId, d.val⟩, _, _, _, _⟩) rfl)
  · rw [originateLink_live (live_iff.2 h)]
    have key := (linksOriginated_takeSeq s).trans
      (linksOriginated_writeLink (s := takeSeq s) (w := ⟨⟨s.nodeId, d.val⟩, 0, none, ownLinkPart d s, ownLinkAge d s⟩) rfl)
    split
    · exact key.trans (linksOriginated_addKeyUp _ _ _)
    · exact key

end

/-- The own link records of some degrees originated, in the order of the list. -/
def originateLinks (l : List Degree) (s : State) : State := l.foldl (fun t d => originateLink d t) s

theorem originateAll_eq (s : State) : originateAll s = originateLinks s.upDegrees (originateNode s) := rfl

theorem originateLinks_append (l r : List Degree) (s : State) : originateLinks (l ++ r) s = originateLinks r (originateLinks l s) :=
  List.foldl_append

section
variable {s : State} {l : List Degree}

theorem linksOriginated_originateLinks (l : List Degree) (s : State) :
    LinksOriginated (l.map fun d => ⟨s.nodeId, d.val⟩) s (originateLinks l s) := by
  induction l generalizing s with
  | nil => exact LinksOriginated.refl s
  | cons d l ih =>
    have hd := linksOriginated_originateLink d s
    have hl := ih (originateLink d s)
    rw [nodeId_of_beside hd.beside] at hl
    exact hd.trans hl

theorem seq_originateLinks (h : s.fle.seq + l.length ≤ 0xFFFFFFF0) : (originateLinks l s).fle.seq = s.fle.seq + l.length := by
  induction l generalizing s with
  | nil => rfl
  | cons d l ih =>
    rw [List.length_cons] at h
    have hs : (originateLink d s).fle.seq = s.fle.seq + 1 := seq_originateLink (by omega)
    refine (ih (by rw [hs]; omega)).trans ?_
    rw [hs, List.length_cons]; omega

theorem Traffic.originateLinks {is : List NoticeId} {ps : List Port} (hm : NoticeId.tableFull ∈ is)
    (h : s.fle.seq + l.length ≤ 0xFFFFFFF0) : Traffic is ps s (Machine.originateLinks l s) := by
  induction l generalizing s with
  | nil => exact Traffic.refl _ _ _
  | cons d l ih =>
    rw [List.length_cons] at h
    have hs : (Machine.originateLink d s).fle.seq = s.fle.seq + 1 := seq_originateLink (by omega)
    exact (Traffic.originateLink hm d (by omega)).trans (ih (by rw [hs]; omega))

theorem originateLinks_exhausted (l : List Degree) (h : 0xFFFFFFF0 < s.fle.seq) :
    (originateLinks l s).fle.seq = s.fle.seq ∧ Keeps s (originateLinks l s) := by
  induction l generalizing s with
  | nil => exact ⟨rfl, Keeps.refl _⟩
  | cons d l ih =>
    obtain ⟨hs, hk⟩ := originateLink_exhausted d h
    obtain ⟨hs', hk'⟩ := ih (s := originateLink d s) (by rw [hs]; exact h)
    exact ⟨hs'.trans hs, hk.trans hk'⟩

end

theorem links_writeNode (w : NodeWrite) (s : State) : (writeNode w s).1.tdb.links = s.tdb.links := by
  rcases writeNode_cases w s with ⟨nodes, inc, e, hw, -⟩ | hw | hw <;> rw [hw]
  · rfl
  · exact links_refuseInsertion _ _ _

theorem links_originateNode (s : State) : (originateNode s).tdb.links = s.tdb.links := by
  rcases Nat.lt_or_ge 0xFFFFFFF0 s.fle.seq with h | h
  · rw [originateNode_spent h]
    split
    · rfl
    · exact links_writeNode _ _
  · rw [originateNode_live (live_iff.2 h)]
    split
    · exact links_writeNode _ _
    · exact links_writeNode _ _

/-! ## The own link record of one degree among them -/

section
variable {d : Degree} {s t : State} {ks : List LinkKey}

/-- Originations of other own link records leave an own link record its place. -/
theorem OwnLinkFits.originated (h : OwnLinkFits d s) (ho : LinksOriginated ks s t) (ht : TablesOk s) (hk : ⟨s.nodeId, d.val⟩ ∉ ks)
    (hr : s.tdb.findLink ⟨s.nodeId, d.val⟩ = none → s.tdb.links.length + ks.length < 2048) : OwnLinkFits d t := by
  unfold OwnLinkFits at h ⊢
  rw [nodeId_of_beside ho.beside, ho.link ht _ hk]
  cases hf : s.tdb.findLink ⟨s.nodeId, d.val⟩ with
  | some e => rw [hf] at h; exact h
  | none =>
    rw [hf] at h
    refine ⟨fun e he => ?_, Nat.lt_of_le_of_lt ho.length (hr hf)⟩
    have hn := ho.node
    rw [he, Option.map_some] at hn
    obtain ⟨x, hx, hv⟩ := Option.map_eq_some_iff.1 hn.symm
    rw [← hv]; exact h.1 x hx

/-- The origination of the own node record leaves an own link record its place. -/
theorem OwnLinkFits.originateNode (h : OwnLinkFits d s) : OwnLinkFits d (Machine.originateNode s) := by
  have write (p : Part NodeContent) {v : State} (hv : OwnLinkFits d v) :
      OwnLinkFits d (writeNode ⟨v.nodeId, 0, none, p, Config.fullAge⟩ v).1 := by
    rcases writeNode_cases ⟨v.nodeId, 0, none, p, Config.fullAge⟩ v with ⟨nodes, inc, e, hw, he, hd⟩ | hw | hw <;> rw [hw]
    · unfold OwnLinkFits at hv ⊢
      change match v.tdb.findLink ⟨v.nodeId, d.val⟩ with
        | some e => e.2.ver.domain = 0
        | none => (∀ e, nodes.find? (fun e => e.2.id == v.nodeId) = some e → e.2.ver.domain = 0) ∧ v.tdb.links.length < 2048
      cases hf : v.tdb.findLink ⟨v.nodeId, d.val⟩ with
      | some x => rw [hf] at hv; exact hv
      | none =>
        rw [hf] at hv
        refine ⟨fun x hx => ?_, hv.2⟩
        obtain rfl : e = x := Option.some.inj (he.symm.trans hx)
        exact hd
    · exact hv
    · unfold OwnLinkFits at hv ⊢
      have hn : (refuseInsertion v.nodeId .nodeTable v).nodeId = v.nodeId := nodeId_of_beside (beside_refuseInsertion _ _ _)
      rw [hn, Tdb.findLink, links_refuseInsertion]
      change match v.tdb.findLink ⟨v.nodeId, d.val⟩ with
        | some e => e.2.ver.domain = 0
        | none => _
      cases hf : v.tdb.findLink ⟨v.nodeId, d.val⟩ with
      | some x => rw [hf] at hv; exact hv
      | none =>
        rw [hf] at hv
        refine ⟨fun x hx => ?_, hv.2⟩
        have hm := findNode_refuseInsertion v.nodeId .nodeTable v
        rw [hx, Option.map_some] at hm
        obtain ⟨y, hy, hyv⟩ := Option.map_eq_some_iff.1 hm.symm
        rw [← hyv]; exact hv.1 y hy
  rcases Nat.lt_or_ge 0xFFFFFFF0 s.fle.seq with hs | hs
  · rw [originateNode_spent hs]
    split
    · exact h
    · exact write _ (v := raise .sequence [.exhausted] s) h
  · rw [originateNode_live (live_iff.2 hs)]
    have key := write (ownNodePart s) (v := takeSeq s) h
    split
    · exact key
    · exact key

end

/-- A sorted list splits at each of its members. -/
theorem sorted_split {l : List Degree} (h : l.Pairwise (· < ·)) {e : Degree} (he : e ∈ l) :
    l = l.filter (· < e) ++ e :: l.filter (e < ·) := by
  induction l with
  | nil => cases he
  | cons d l ih =>
    obtain ⟨hd, hl⟩ := List.pairwise_cons.1 h
    rcases List.mem_cons.1 he with rfl | he
    · have h1 : l.filter (· < e) = [] := List.filter_eq_nil_iff.2 fun x hx => by simpa using le_of_lt (hd x hx)
      have h2 : l.filter (e < ·) = l := List.filter_eq_self.2 fun x hx => by simpa using hd x hx
      simp [h1, h2]
    · have hde := hd e he
      rw [List.filter_cons_of_pos (by simpa using hde), List.filter_cons_of_neg (by simpa using le_of_lt hde), List.cons_append,
        ← ih hl he]

theorem upDegrees_sorted (s : State) : s.upDegrees.Pairwise (· < ·) :=
  List.Pairwise.filter _ (by decide : allDegrees.Pairwise (· < ·))

theorem mem_upDegrees {s : State} {d : Degree} : d ∈ s.upDegrees ↔ s.isUp d = true := by
  simp [State.upDegrees, mem_allDegrees]

theorem length_upDegrees_le (s : State) : s.upDegrees.length ≤ 8 := List.length_filter_le _ _

/-- At most seven degrees come before another. -/
theorem length_before_le (s : State) (e : Degree) : (s.upDegrees.filter (· < e)).length ≤ 7 := by
  have h : (s.upDegrees.filter (· < e)).length ≤ (allDegrees.filter (· < e)).length :=
    (List.Sublist.filter _ List.filter_sublist).length_le
  have h7 : ∀ e : Degree, (allDegrees.filter (· < e)).length ≤ 7 := by decide
  exact h.trans (h7 e)

theorem ownKey_not_mem {self : NodeId} {e : Degree} {l : List Degree} (h : e ∉ l) :
    (⟨self, e.val⟩ : LinkKey) ∉ l.map fun d => (⟨self, d.val⟩ : LinkKey) := by
  rw [List.mem_map]
  rintro ⟨d, hd, hk⟩
  obtain rfl : d = e := Fin.ext (LinkKey.mk.inj hk).2
  exact h hd

/-- All own records originated, around the own link record of one degree in UP. -/
theorem originateAll_around {e : Degree} {s : State} (hup : s.isUp e = true) :
    originateAll s = originateLinks (s.upDegrees.filter (e < ·)) (originateLink e
      (originateLinks (s.upDegrees.filter (· < e)) (originateNode s))) := by
  have hsplit := sorted_split (upDegrees_sorted s) (mem_upDegrees.2 hup)
  rw [originateAll_eq]
  conv_lhs => rw [hsplit]
  rw [originateLinks_append]
  rfl

section
variable {e : Degree} {c : LinkContent} {s : State}

/-- The own link record of a degree in UP, originated with all the others while the counter is live: it takes the sequence of its
turn, and stays in every send list that it joined. -/
theorem originateAll_link (hup : s.isUp e = true) (hc : ownLinkContent s e = some c) (hl : s.fle.seq + 9 ≤ 0xFFFFFFF0) (ht : TablesOk s)
    (hf : OwnLinkFits e s) (hr : s.tdb.findLink ⟨s.nodeId, e.val⟩ = none → s.tdb.links.length ≤ 2040) :
    LinkStored ⟨s.nodeId, e.val⟩ ⟨s.fle.seq + 1 + (s.upDegrees.filter (· < e)).length, .active, c⟩ 3600 (originateAll s).tdb.links ∧
      ∀ f, s.isUp f = true → .link ⟨s.nodeId, e.val⟩ ∈ ((originateAll s).flood f).sendList := by
  have hpre := length_before_le s e
  have hnotPre : e ∉ s.upDegrees.filter (· < e) := by simp
  have hnotPost : e ∉ s.upDegrees.filter (e < ·) := by simp
  rw [originateAll_around hup]
  generalize s.upDegrees.filter (· < e) = pre at *
  generalize s.upDegrees.filter (e < ·) = post at *
  have hb0 := beside_originateNode s
  have hn0 := nodeId_of_beside hb0
  have hseq0 : (originateNode s).fle.seq = s.fle.seq + 1 := seq_originateNode (by omega)
  have hf0 := hf.originateNode
  have ht0 := (Sound.originateNode s).tables ht
  have hlinks0 : (originateNode s).tdb.links = s.tdb.links := links_originateNode s
  generalize originateNode s = s0 at *
  have ho1 := linksOriginated_originateLinks pre s0
  have hseq1 : (originateLinks pre s0).fle.seq = s0.fle.seq + pre.length := seq_originateLinks (by omega)
  have hf1 := hf0.originated ho1 ht0 (ownKey_not_mem hnotPre) fun h => by
    rw [Tdb.findLink, hlinks0, hn0] at h
    have := hr h
    rw [hlinks0, List.length_map]; omega
  have hb1 := ho1.beside.trans hb0
  have hn1 := nodeId_of_beside hb1
  have hc1 := (ownLinkContent_of_beside hb1 e).trans hc
  have ht1 := ho1.sound.tables ht0
  have hseq : (originateLinks pre s0).fle.seq = s.fle.seq + 1 + pre.length := by rw [hseq1, hseq0]
  generalize originateLinks pre s0 = s1 at *
  obtain ⟨links, ho, hs, -⟩ := originateLink_own (d := e) (s := s1) (by omega) hf1
  have hsend := fun f hf => mem_sendList_originateLink (e := f) (d := e) (s := s1) (by omega) hf1 hf
  have hlinks : (originateLink e s1).tdb.links = links := by rw [ho]; rfl
  have ho2 := linksOriginated_originateLink e s1
  have ho3 := linksOriginated_originateLinks post (originateLink e s1)
  have hn2 := nodeId_of_beside ho2.beside
  refine ⟨?_, fun f hf => ho3.sendList f _ ?_⟩
  · obtain ⟨i, v, hfind, hv⟩ := hs
    refine ⟨i, v, ?_, hv⟩
    have hkeep := ho3.link (ho2.sound.tables ht1) ⟨s1.nodeId, e.val⟩ (by rw [hn2]; exact ownKey_not_mem hnotPost)
    rw [hn1] at hkeep hfind
    refine hkeep.trans ((congrArg (List.find? _) hlinks).trans (hfind.trans ?_))
    simp [ownLinkPart, ownLinkAge, hc1, hseq, Part.isActive]
  · rw [← hn1]
    exact hsend f (by rw [isUp_of_beside hb1]; exact hf)

end

end Sys2Proof.Machine
end

section
/-! SUPPORT. The timers of the flood engine: refresh, tally and pull deadline (R87, R97, R101). -/

namespace Sys2Proof.Machine

theorem beside_originateAll (s : State) : (originateAll s).besideRecords = s.besideRecords :=
  (linksOriginated_originateLinks s.upDegrees (originateNode s)).beside.trans (beside_originateNode s)

theorem seq_originateAll {s : State} (h : s.fle.seq + 9 ≤ 0xFFFFFFF0) :
    (originateAll s).fle.seq = s.fle.seq + 1 + s.upDegrees.length := by
  have hl := length_upDegrees_le s
  have hs : (originateNode s).fle.seq = s.fle.seq + 1 := seq_originateNode (by omega)
  rw [originateAll_eq, seq_originateLinks (by rw [hs]; omega), hs]

theorem Traffic.originateAll {is : List NoticeId} {ps : List Port} (hm : NoticeId.tableFull ∈ is) {s : State}
    (h : s.fle.seq + 9 ≤ 0xFFFFFFF0) : Traffic is ps s (Machine.originateAll s) := by
  have hl := length_upDegrees_le s
  have hs : (Machine.originateNode s).fle.seq = s.fle.seq + 1 := seq_originateNode (by omega)
  exact (Traffic.originateNode hm (by omega)).trans (Traffic.originateLinks hm (by rw [hs]; omega))

theorem originateAll_exhausted {s : State} (h : 0xFFFFFFF0 < s.fle.seq) :
    (originateAll s).fle.seq = s.fle.seq ∧ Raised .sequence .exhausted (originateAll s) := by
  obtain ⟨hseq, hr⟩ := originateNode_exhausted h
  obtain ⟨hseq', hk⟩ := originateLinks_exhausted s.upDegrees (s := originateNode s) (by rw [hseq]; exact h)
  exact ⟨hseq'.trans hseq, hr.keeps hk⟩

/-- The own node record stands as it was stored while own link records are originated. -/
theorem NodeStored.originateLinks {p : Part NodeContent} {l : List Degree} {s : State} (h : NodeStored s.nodeId p s.tdb.nodes) :
    NodeStored s.nodeId p (originateLinks l s).tdb.nodes := by
  obtain ⟨i, v, b, hf, hv⟩ := h
  have hn := (linksOriginated_originateLinks l s).node
  rw [Tdb.findNode, Tdb.findNode, hf, Option.map_some] at hn
  obtain ⟨⟨j, r⟩, hr, hver⟩ := Option.map_eq_some_iff.1 hn
  obtain ⟨id, ver, mark⟩ := r
  obtain rfl : id = s.nodeId := by simpa using List.find?_some hr
  obtain rfl : ver = _ := hver
  exact ⟨j, v, mark, hr, hv⟩

/-- The own node record, originated with the own link records after it. -/
theorem originateAll_node {s : State} (hl : s.fle.seq ≤ 0xFFFFFFF0) (hf : OwnNodeFits s) :
    NodeStored s.nodeId (ownNodePart s) (originateAll s).tdb.nodes ∧
      ∀ f, s.isUp f = true → .node s.nodeId ∈ ((originateAll s).flood f).sendList := by
  obtain ⟨nodes, inc, ho, hs⟩ := originateNode_own hl hf
  have hfold := linksOriginated_originateLinks s.upDegrees (originateNode s)
  have hid := nodeId_of_beside (beside_originateNode s)
  have hstored : NodeStored (originateNode s).nodeId (ownNodePart s) (originateNode s).tdb.nodes := by
    rw [hid, ho]; exact hs
  refine ⟨?_, fun f hf' => hfold.sendList f _ ?_⟩
  · rw [← hid]; exact hstored.originateLinks
  · rw [ho]
    refine mem_sendList_addKeyUp ?_ _
    exact hf'

/-- An own node record stored, as `OwnNodeHeld` reads it. -/
theorem NodeStored.held {seq : Nat} {t : State}
    (h : NodeStored t.nodeId ⟨seq, .active, ownNodeContent t⟩ t.tdb.nodes) : OwnNodeHeld seq t := by
  obtain ⟨i, v, b, hf, -⟩ := h
  exact ⟨_, hf, rfl, rfl, rfl⟩

/-! ## The refresh timer (R87) -/

/-- The state in which the refresh timer's event ends but for its frames. -/
def State.refreshedAt (m : Moment) (u : State) : State :=
  { originateAll (u.reach m) with fle := { (originateAll (u.reach m)).fle with
      refreshTimer := some (max u.now m + u.cfu.params.refreshInterval * 1000) } }

theorem expireRefresh_some {u : State} {m : Moment} (h : u.fle.refreshTimer = some m) : expireRefresh u = u.refreshedAt m := by
  have hb := beside_originateAll (u.reach m)
  have hnow : (originateAll (u.reach m)).now = max u.now m := congrArg State.now hb
  have hparams : (originateAll (u.reach m)).cfu.params = u.cfu.params := (congrArg (fun x : State => x.cfu.params) hb :)
  unfold expireRefresh State.refreshedAt
  simp only [h, hnow, hparams]

section
variable (u : State) (m : Moment)

/-- What the refresh timer's event keeps and restarts. -/
theorem refreshedAt_keeps : (finish (u.refreshedAt m)).now = max u.now m ∧
    (finish (u.refreshedAt m)).fle.refreshTimer = some (max u.now m + u.cfu.params.refreshInterval * 1000) ∧
    (finish (u.refreshedAt m)).adm = u.adm ∧ (finish (u.refreshedAt m)).rqu = u.rqu ∧ (finish (u.refreshedAt m)).rsv = u.rsv ∧
    (finish (u.refreshedAt m)).shu = u.shu ∧ (finish (u.refreshedAt m)).dtu = u.dtu ∧ (finish (u.refreshedAt m)).cfu = u.cfu ∧
    (finish (u.refreshedAt m)).fle.slotMaps = u.fle.slotMaps := by
  have hb := beside_originateAll (u.reach m)
  have field {α : Type} (π : State → α) : π (originateAll (u.reach m)).besideRecords = π (u.reach m).besideRecords := congrArg π hb
  refine ⟨(now_finish _).trans (field State.now), refresh_of_steady (steady_finish _), (adm_finish _).trans (field State.adm),
    (rqu_finish _).trans (field State.rqu), (rsv_finish _).trans (field State.rsv), (shu_finish _).trans (field State.shu),
    (dtu_finish _).trans (field State.dtu), (cfu_finish _).trans (field State.cfu),
    (slotMaps_of_steady (steady_finish _)).trans (field fun x => x.fle.slotMaps)⟩

theorem traffic_refreshedAt : Traffic [.sequence, .tableFull] [] u (finish (u.refreshedAt m)) :=
  (Traffic.of_eq (t := u.reach m) rfl rfl).trans ((Traffic.of_beside (beside_originateAll (u.reach m)) (by simp) (by simp)).trans
    ((Traffic.of_eq rfl rfl).trans (Traffic.finish (u.refreshedAt m))))

theorem refreshedAt_exhausted (h : 0xFFFFFFF0 < u.fle.seq) :
    (finish (u.refreshedAt m)).fle.seq = u.fle.seq ∧ Raised .sequence .exhausted (finish (u.refreshedAt m)) := by
  obtain ⟨hseq, hr⟩ := originateAll_exhausted (s := u.reach m) h
  exact ⟨(seq_of_steady (steady_finish _)).trans hseq, hr.keeps ((Keeps.of_eq rfl).trans (Keeps.finish (u.refreshedAt m)))⟩

section
variable (hl : u.fle.seq + 9 ≤ 0xFFFFFFF0)
include hl

theorem seq_refreshedAt : (finish (u.refreshedAt m)).fle.seq = u.fle.seq + 1 + u.upDegrees.length :=
  (seq_of_steady (steady_finish _)).trans (seq_originateAll (s := u.reach m) hl)

theorem traffic_refreshedAt_live : Traffic [.tableFull] [] u (finish (u.refreshedAt m)) :=
  (Traffic.of_eq (t := u.reach m) rfl rfl).trans ((Traffic.originateAll (s := u.reach m) (by simp) hl).trans
    ((Traffic.of_eq rfl rfl).trans (Traffic.finish (u.refreshedAt m))))

theorem refreshedAt_live : (u.refreshedAt m).fle.seq ≤ 0xFFFFFFF0 := by
  have h := length_upDegrees_le u
  have hs : (u.refreshedAt m).fle.seq = u.fle.seq + 1 + u.upDegrees.length := seq_originateAll (s := u.reach m) hl
  omega

theorem refreshedAt_node (hf : OwnNodeFits u) : OwnNodeHeld u.fle.seq (finish (u.refreshedAt m)) ∧
    ∀ f, u.isUp f = true → Floods f (.node u.nodeId) (finish (u.refreshedAt m)) := by
  obtain ⟨hs, hm⟩ := originateAll_node (s := u.reach m) (show u.fle.seq ≤ 0xFFFFFFF0 by omega) hf
  obtain ⟨-, -, -, -, -, -, -, hcfu, -⟩ := refreshedAt_keeps u m
  obtain ⟨a, ha⟩ := NodeStored.advert (t := u.refreshedAt m) hs (refreshedAt_live u m hl)
  refine ⟨NodeStored.held ?_, fun f hf' => floods_finish ha (Or.inl (hm f hf'))⟩
  rw [State.nodeId, ownNodeContent, hcfu, tdb_finish]
  exact hs

theorem refreshedAt_link (ht : TablesOk u) {e : Degree} {b : Neighbour} (hup : u.isUp e = true) (hb : (u.adjacency e).nbr = some b)
    (hf : OwnLinkFits e u) (hr : u.tdb.findLink ⟨u.nodeId, e.val⟩ = none → u.tdb.links.length ≤ 2040) :
    OwnLinkHeld e ⟨u.fle.seq + 1 + (u.upDegrees.filter (· < e)).length, .active, upContent e b (finish (u.refreshedAt m))⟩
      (finish (u.refreshedAt m)) ∧
    ∀ f, u.isUp f = true → Floods f (.link ⟨u.nodeId, e.val⟩) (finish (u.refreshedAt m)) := by
  have hc := ownLinkContent_of_up (s := u.reach m) hup hb
  obtain ⟨hs, hm⟩ := originateAll_link (s := u.reach m) hup hc hl ht hf hr
  obtain ⟨-, -, -, -, -, -, -, hcfu, hmaps⟩ := refreshedAt_keeps u m
  obtain ⟨a, ha⟩ := LinkStored.advert (t := u.refreshedAt m) hs (refreshedAt_live u m hl)
  refine ⟨LinkStored.held ?_, fun f hf' => floods_finish ha (Or.inl (hm f hf'))⟩
  rw [State.nodeId, upContent, hcfu, hmaps, tdb_finish]
  exact hs

end

end

/-! ## Tally timers and pull deadlines (R97, R101) -/

theorem expireTally_some {d : Degree} {u : State} {m : Moment} (h : (u.flood d).tallyTimer = some m) : expireTally d u =
    (u.reach m).setFlood d { u.flood d with
      round := some ((u.flood d).round.getD 1)
      tallyTimer := some (max u.now m + u.cfu.params.tallyInterval * 1000) } := by
  unfold expireTally
  simp only [h]
  cases hr : (u.flood d).round with
  | none => rfl
  | some c =>
    rw [Option.isNone_some, if_neg Bool.false_ne_true, Option.getD_some, ← hr]
    rfl

theorem expirePull_some {d : Degree} {o : NodeId} {u : State} {e : PullEntry}
    (h : (u.flood d).pulls.find? (fun e => e.origin == o) = some e) : expirePull d o u =
      (u.reach e.deadline).setFlood d { u.flood d with
        pulls := (u.flood d).pulls.filter fun e => e.origin ≠ o
        waiting := (u.flood d).waiting.filter (· ≠ o) } := by
  have hany : ((u.flood d).pulls.any fun e => e.origin == o && true) = true :=
    List.any_eq_true.2 ⟨e, List.mem_of_find?_eq_some h, by simpa using List.find?_some h⟩
  rw [expirePull, h]
  show (u.reach e.deadline).setFlood d ((u.flood d).dropPulls o fun _ => true) = _
  rw [FleDegree.dropPulls, if_pos hany]
  simp only [Bool.and_true, bne, beq_eq_decide, decide_not]

theorem floodShrinks_expirePull {d : Degree} {o : NodeId} {u : State} {e : PullEntry}
    (h : (u.flood d).pulls.find? (fun e => e.origin == o) = some e) : FloodShrinks u (expirePull d o u) := by
  rw [expirePull_some h]
  refine FloodShrinks.trans (t := u.reach e.deadline) (FloodShrinks.of_eq rfl rfl rfl) ⟨rfl, fun c => ⟨le_refl _, ?_⟩⟩
  rw [flood_setFlood]
  split
  · rename_i hc
    subst hc
    refine ⟨fun hw => ?_, id, id⟩
    have hw' : (u.flood d).waiting = [] := hw
    simp [hw']
  · exact ⟨id, id, id⟩

end Sys2Proof.Machine

open Sys2Proof Sys2Proof.Machine

/-- Settles O41, by the originations of the refresh timer, each leaving the others their places, and the one degree's lists that a
tally timer or a pull deadline writes. -/
theorem floodTimerExpiries : Obligations.FloodTimerExpiries := by
  intro d m s u hu n ups
  have hf : FloodDone u := hu ▸ floodDone_settle s
  have refresh (h : u.fle.refreshTimer = some m) : exec .refreshTimerExpiry s = .next (finish (u.refreshedAt m)) := by
    rw [← expireRefresh_some h]; exact event_eq hu
  obtain ⟨hnow, htimer, hadm, hrqu, hrsv, hshu, hdtu, hcfu, -⟩ := refreshedAt_keeps u m
  refine ⟨fun h => ?refreshed, fun h hl => ?live, fun hq h => ?tally, fun o e he hm => ?pull⟩
  case refreshed =>
    exact ⟨_, refresh h, hnow, htimer, hadm, hcfu, traffic_refreshedAt u m, refreshedAt_exhausted u m⟩
  case live =>
    exact ⟨_, refresh h, hnow, htimer, seq_refreshedAt u m hl, refreshedAt_node u m hl,
      fun ht e b hup hb hfits hr => refreshedAt_link u m hl ht hup hb hfits hr,
      hadm, hrqu, hrsv, hshu, hdtu, hcfu, traffic_refreshedAt_live u m hl⟩
  case tally =>
    have run : exec (.tallyTimerExpiry d) s = .next (finish (expireTally d u)) := event_eq hu
    have hclaims : u.claims = [] := hu ▸ claims_settle s
    have hrested : Rested (expireTally d u) := by rw [expireTally_some h]; exact ⟨hq.of_ntu rfl, hclaims⟩
    rw [hrested.finish_eq, expireTally_some h] at run
    exact ⟨_, run, (Traffic.of_eq rfl rfl).trans (Traffic.offerAll _), rfl⟩
  case pull =>
    have run : exec (.pullDeadlineExpiry d o) s = .next (finish (expirePull d o u)) := event_eq hu
    have hd : FloodDone (expirePull d o u) := hf.shrinks (floodShrinks_expirePull he)
    refine ⟨_, run, ?_, ?_⟩
    · rw [expirePull_some he]
      exact (Traffic.of_eq rfl rfl).trans (Traffic.finish _)
    · rw [hd.blocks_finish, expirePull_some he, hm]
      rfl

end

section
/-! SUPPORT. A native ADVERT of another origin: discarded, corrected, stored or refused for want of room (R61 to R65, R91, R93, R101). -/

namespace Sys2Proof.Machine

/-! ## An insertion refused, at the end of its event (R64, R101) -/

section
variable (o : NodeId)

theorem pulls_dropPulls_all (x : FleDegree) : (x.dropPulls o fun _ => true).pulls = x.pulls.filter (·.origin ≠ o) := by
  unfold FleDegree.dropPulls
  split
  · simp only [Bool.and_true, beq_eq_decide, decide_not]
  · rename_i h
    refine (List.filter_eq_self.2 fun y hy => ?_).symm
    simp only [List.any_eq_true, not_exists, not_and, Bool.and_true, beq_iff_eq] at h
    exact decide_eq_true (h y hy)

theorem waiting_dropPulls_all (x : FleDegree) : (x.dropPulls o fun _ => true).waiting =
    if ∃ y ∈ x.pulls, y.origin = o then x.waiting.filter (· ≠ o) else x.waiting := by
  have hiff : (x.pulls.any fun e => e.origin == o && true) = true ↔ ∃ y ∈ x.pulls, y.origin = o := by simp
  unfold FleDegree.dropPulls
  by_cases h : ∃ y ∈ x.pulls, y.origin = o
  · rw [if_pos (hiff.2 h), if_pos h]
    exact List.filter_congr fun y _ => by simp [bne, beq_eq_decide]
  · rw [if_neg (mt hiff.1 h), if_neg h]

theorem flood_refuseInsertion (m : Member) (s : State) (d : Degree) :
    (refuseInsertion o m s).flood d = (s.flood d).dropPulls o fun _ => true := by
  unfold refuseInsertion dropPullsOf
  rw [flood_mapFlood]
  rfl

theorem floodShrinks_refuseInsertion (m : Member) (s : State) : FloodShrinks s (refuseInsertion o m s) := by
  refine ⟨rfl, fun d => ⟨le_refl _, ?_⟩⟩
  rw [flood_refuseInsertion]
  unfold FleDegree.dropPulls
  split <;> simp_all

/-- The origins listed INCOMPLETE after a refusal for one that has no node record. -/
def incompleteWith (l : List NodeId) : List NodeId :=
  if o ∈ l then l else (if l.length < 32 then l else l.drop 1) ++ [o]

theorem tdb_refuseInsertion_absent (m : Member) {s : State} (h : s.tdb.findNode o = none) :
    (refuseInsertion o m s).tdb = { s.tdb with incomplete := incompleteWith o s.tdb.incomplete } := by
  unfold refuseInsertion incompleteWith
  simp only [h]
  by_cases ho : o ∈ s.tdb.incomplete
  · rw [if_pos ho, if_pos (by simpa using ho)]; rfl
  · rw [if_neg ho, if_neg (by simpa using ho)]; rfl

theorem tdb_refuseInsertion_present (m : Member) {s : State} {i : Nat} {r : NodeRec} (h : s.tdb.findNode o = some (i, r)) :
    (refuseInsertion o m s).tdb = { s.tdb with nodes := tput s.tdb.nodes i { r with incomplete := true } } := by
  unfold refuseInsertion
  simp only [h]
  rfl

end

/-- What a refused insertion leaves when its event has ended. -/
structure InsertionRefused (o : NodeId) (m : Member) (u t : State) : Prop where
  raised : Raised .tableFull m t
  traffic : Traffic [.tableFull] [] u t
  links : t.tdb.links = u.tdb.links
  cmc : t.cmc = u.cmc
  rqu : t.rqu = u.rqu
  rsv : t.rsv = u.rsv
  seq : t.fle.seq = u.fle.seq
  lists : ∀ e, (t.flood e).sendList = (u.flood e).sendList ∧ (t.flood e).pulls = (u.flood e).pulls.filter (·.origin ≠ o) ∧
    (t.flood e).waiting =
      if ∃ y ∈ (u.flood e).pulls, y.origin = o then (u.flood e).waiting.filter (· ≠ o) else (u.flood e).waiting
  present : ∀ i r, u.tdb.findNode o = some (i, r) → t.tdb.findNode o = some (i, { r with incomplete := true }) ∧
    t.tdb.incomplete = u.tdb.incomplete
  absent : u.tdb.findNode o = none → t.tdb.nodes = u.tdb.nodes ∧ t.tdb.incomplete = incompleteWith o u.tdb.incomplete

theorem insertionRefused_finish {u : State} (hf : FloodDone u) (o : NodeId) (m : Member) :
    InsertionRefused o m u (finish (refuseInsertion o m u)) := by
  have hd : FloodDone (refuseInsertion o m u) := hf.shrinks (floodShrinks_refuseInsertion o m u)
  have hraised : Raised .tableFull m (refuseInsertion o m u) :=
    (raised_raise (List.mem_singleton_self m) _).keeps (Keeps.of_eq rfl)
  have flood (e : Degree) : (finish (refuseInsertion o m u)).flood e = (u.flood e).dropPulls o fun _ => true := by
    rw [← flood_refuseInsertion, State.flood, hd.fle_finish]; rfl
  constructor
  · exact hraised.keeps (Keeps.finish _)
  · exact (Traffic.refuseInsertion _ _ _ (by simp)).trans (Traffic.finish _)
  · rw [tdb_finish, links_refuseInsertion]
  · exact cmc_finish _
  · exact rqu_finish _
  · exact rsv_finish _
  · rw [hd.fle_finish]; rfl
  · intro e
    rw [flood]
    exact ⟨sendList_dropPulls _ _ _, pulls_dropPulls_all _ _, waiting_dropPulls_all _ _⟩
  · intro i r h
    have hid : r.id = o := id_of_findNode h
    rw [tdb_finish, tdb_refuseInsertion_present o m h]
    exact ⟨find_tput_held h (beq_iff_eq.2 hid), rfl⟩
  · intro h
    rw [tdb_finish, tdb_refuseInsertion_absent o m h]
    exact ⟨rfl, rfl⟩

/-! ## A record stored and flooded (R91, R94, R101) -/

/-- The state with a database written for a record that arrived on a degree, before the event ends. -/
def State.withRecord (u : State) (d : Degree) (k : RecordKey) (tdb : Tdb) : State :=
  addKeyUp (some d) k (afterWrite (keyOrigin k) { u with tdb := tdb })

/-- What an event leaves that stored a record which arrived on a degree. -/
structure AdvertStored (d : Degree) (k : RecordKey) (tdb : Tdb) (u t : State) : Prop where
  traffic : Traffic [] [] u t
  tdb : t.tdb = tdb
  floods : ∀ e, u.isUp e = true → e ≠ d → Floods e k t
  pulls : PullsChecked (keyOrigin k) u t
  seq : t.fle.seq = u.fle.seq
  changed : t.cmc.changed = true

/-- A key has joined the send list of every UP degree but one. -/
def ListsKey (d : Degree) (j : RecordKey) (u t : State) : Prop := ∀ e, (t.flood e).sendList =
  if u.isUp e = true ∧ e ≠ d ∧ j ∉ (u.flood e).sendList then (u.flood e).sendList ++ [j] else (u.flood e).sendList

theorem addKey_eq (k : RecordKey) (x : FleDegree) : x.addKey k =
    { x with sendList := if k ∈ x.sendList then x.sendList else x.sendList ++ [k] } := by
  unfold FleDegree.addKey
  by_cases h : k ∈ x.sendList
  · rw [if_pos (by simpa using h), if_pos h]
  · rw [if_neg (by simpa using h), if_neg h]

theorem keyAdvert_congr {s t : State} (hf : t.fle = s.fle) (hc : t.cfu = s.cfu) (ht : t.tdb = s.tdb) (hd : t.dtu = s.dtu)
    (k : RecordKey) : keyAdvert t k = keyAdvert s k := by
  unfold keyAdvert State.nodeId
  rw [hf, hc, ht, hd]

theorem PullsChecked.of_kept {o : NodeId} {s t v : State} (h : PullsChecked o s t) (ht : v.tdb = t.tdb)
    (hl : ∀ d, (v.flood d).pulls = (t.flood d).pulls ∧ (v.flood d).waiting = (t.flood d).waiting) : PullsChecked o s v := fun d => by
  rw [ht, (hl d).1, (hl d).2]; exact h d

section
variable {d : Degree} {k : RecordKey} {tdb : Tdb} {u : State}

theorem pullsChecked_withRecord : PullsChecked (keyOrigin k) u (u.withRecord d k tdb) := by
  have h : PullsChecked (keyOrigin k) u (afterWrite (keyOrigin k) { u with tdb := tdb }) :=
    (pullsChecked_checkPulls (keyOrigin k) (noteChange { u with tdb := tdb })).of_lists (fun _ => rfl) fun _ => rfl
  refine h.of_kept rfl fun e => ?_
  rw [State.withRecord, addKeyUp, flood_mapFlood]
  split
  · rw [addKey_eq]; exact ⟨rfl, rfl⟩
  · exact ⟨rfl, rfl⟩

theorem sendList_withRecord (e : Degree) : ((u.withRecord d k tdb).flood e).sendList =
    if u.isUp e = true ∧ e ≠ d ∧ k ∉ (u.flood e).sendList then (u.flood e).sendList ++ [k] else (u.flood e).sendList := by
  have hlist : ((afterWrite (keyOrigin k) { u with tdb := tdb }).flood e).sendList = (u.flood e).sendList := sendList_checkPulls _ _ e
  have hiff : (u.isUp e && some d != some e) = true ↔ u.isUp e = true ∧ e ≠ d := by
    rw [Bool.and_eq_true, bne_iff_ne]
    exact and_congr_right fun _ => ⟨fun h c => h (by rw [c]), fun h c => h (Option.some.inj c).symm⟩
  have hup : (afterWrite (keyOrigin k) { u with tdb := tdb }).isUp e = u.isUp e := rfl
  rw [State.withRecord, addKeyUp, flood_mapFlood, hup]
  by_cases h : u.isUp e = true ∧ e ≠ d
  · rw [if_pos (hiff.2 h), addKey_eq]
    show (if k ∈ _ then _ else _) = _
    rw [hlist]
    by_cases hk : k ∈ (u.flood e).sendList
    · rw [if_pos hk, if_neg fun c => c.2.2 hk]
    · rw [if_neg hk, if_pos ⟨h.1, h.2, hk⟩]
  · rw [if_neg (mt hiff.1 h), if_neg fun c => h ⟨c.1, c.2.1⟩, hlist]

/-- A record stored, and the end of an event that leaves FLE, the records and the domain table alone. -/
theorem AdvertStored.of_kept {a : AdvertBody} {v : State} (hf : FloodDone u) (ha : keyAdvert (u.withRecord d k tdb) k = some a)
    (tadm : v.adm = u.adm) (tdtu : v.dtu = u.dtu) (ttdb : v.tdb = tdb) (tfle : v.fle = (u.withRecord d k tdb).fle) (tcfu : v.cfu = u.cfu)
    (tcmc : v.cmc.changed = true) (tr : Traffic [] [] u v) : AdvertStored d k tdb u (finish v) where
  traffic := tr.trans (Traffic.finish v)
  tdb := (tdb_finish v).trans ttdb
  floods := fun e he hne => by
    refine floods_finish ((keyAdvert_congr tfle tcfu ttdb tdtu k).trans ha) (Or.inl ?_)
    rw [State.flood, tfle, show vget (u.withRecord d k tdb).fle.degrees e = (u.withRecord d k tdb).flood e from rfl,
      sendList_withRecord]
    by_cases hk : k ∈ (u.flood e).sendList
    · rw [if_neg fun c => c.2.2 hk]; exact hk
    · rw [if_pos ⟨he, hne, hk⟩]; exact List.mem_append_right _ (List.mem_singleton_self k)
  pulls := by
    have h : PullsChecked (keyOrigin k) u v := (pullsChecked_withRecord (d := d) (tdb := tdb)).of_kept ttdb fun e => by
      rw [State.flood, tfle]; exact ⟨rfl, rfl⟩
    exact h.finish hf tadm fun e => queue_le_of_traffic tr _
  seq := (seq_of_steady (steady_finish v)).trans (by rw [tfle]; rfl)
  changed := (congrArg Cmc.changed (cmc_finish v)).trans tcmc

theorem advertStored_finish {a : AdvertBody} (hf : FloodDone u) (ha : keyAdvert (u.withRecord d k tdb) k = some a) :
    AdvertStored d k tdb u (finish (u.withRecord d k tdb)) :=
  AdvertStored.of_kept hf ha rfl rfl rfl rfl rfl rfl (Traffic.of_eq rfl rfl)

theorem changed_urgentRequest (s : State) : (urgentRequest s).cmc.changed = s.cmc.changed := by
  unfold urgentRequest startUrgent upgradeUrgent
  dsimp only
  split
  · split
    · rfl
    · rw [cmc_abort]; rfl
  · split
    · rfl
    · rw [cmc_abort]; rfl
  · split
    · rfl
    · rw [cmc_abort]
  · rfl

theorem advertStored_urgent {a : AdvertBody} (hf : FloodDone u) (ha : keyAdvert (u.withRecord d k tdb) k = some a) :
    AdvertStored d k tdb u (finish (urgentRequest (u.withRecord d k tdb))) ∧
      UrgentTaken u (finish (urgentRequest (u.withRecord d k tdb))) := by
  obtain ⟨uadm, udtu, utdb, ufle, -, ucfu⟩ := urgentRequest_keeps (u.withRecord d k tdb)
  refine ⟨AdvertStored.of_kept hf ha uadm udtu utdb ufle ucfu (changed_urgentRequest _) ?_, ?_⟩
  · exact (Traffic.of_eq rfl rfl).trans (Traffic.urgentRequest _)
  · exact (urgentTaken_of_ends (ends_finish _)).congr rfl rfl rfl rfl rfl

/-- With no notice due, FLE's claims are still to come when the event ends. -/
theorem listsKey_finish (hq : Quiet u) (hc : u.claims = []) : ListsKey d k u (finish (u.withRecord d k tdb)) := by
  have hr : Rested (u.withRecord d k tdb) := ⟨hq.of_ntu rfl, hc⟩
  intro e
  rw [hr.finish_eq]
  exact sendList_withRecord e

/-- A correction: the key of the newer record held joins the list of the degree it came from (R91). -/
theorem corrected_finish (hq : Quiet u) (hc : u.claims = []) : Traffic [] [] u (finish (addKey d k u)) ∧
    (finish (addKey d k u)).blocks = (u.setFlood d { u.flood d with sendList :=
      (if k ∈ (u.flood d).sendList then (u.flood d).sendList else (u.flood d).sendList ++ [k]) }).blocks := by
  have hr : Rested (addKey d k u) := ⟨hq.of_ntu rfl, hc⟩
  rw [hr.finish_eq, blocks_offerAll, addKey, addKey_eq]
  exact ⟨(Traffic.of_eq rfl rfl).trans (Traffic.offerAll _), rfl⟩

end

/-! ## What the sequence held decides (R91) -/

section
variable {d : Degree} {w : RecordWrite} {u v : State} {h : Nat} {tdb : Tdb}

theorem takeOther_equal (hh : u.tdb.heldSeq w.key = some w.seq) : takeOther d w u = u := by simp [takeOther, hh]

theorem takeOther_older (hh : u.tdb.heldSeq w.key = some h) (hs : w.seq < h) : takeOther d w u = addKey d w.key u := by
  simp [takeOther, hh, Nat.not_lt.2 (Nat.le_of_lt hs), Nat.ne_of_lt hs]

/-- A record that is newer, or that is not held, and is not stored. -/
theorem takeOther_kept (hh : ∀ h, u.tdb.heldSeq w.key = some h → h < w.seq) (hw : writeRecord w u = (v, false)) :
    takeOther d w u = v := by
  unfold takeOther
  cases hk : u.tdb.heldSeq w.key with
  | none => simp [hw]
  | some h => simp [hw, hh h hk]

theorem takeOther_first (hh : u.tdb.heldSeq w.key = none) (hw : Stores w u.tdb u.nodeId tdb) :
    takeOther d w u = u.withRecord d w.key tdb := by
  unfold takeOther
  simp only [hh, hw u rfl rfl]
  rfl

theorem takeOther_newer (hh : u.tdb.heldSeq w.key = some h) (hs : h < w.seq) (hw : Stores w u.tdb u.nodeId tdb) :
    takeOther d w u = if withdrawsCommitted u.tdb w = true then urgentRequest (u.withRecord d w.key tdb)
      else u.withRecord d w.key tdb := by
  unfold takeOther
  simp only [hh, hw u rfl rfl, if_pos hs]
  rfl

end

/-- A native ADVERT of another origin is taken as a record of another origin. -/
theorem exec_native_advert {d : Degree} {a : AdvertBody} {s u : State} (hu : u = settle s) (ht : takesInput u (.deg d) = true)
    (hup : u.isUp d = true) (hf : a.formOk = true) (hd : a.domain = 0) (ho : keyOrigin (nativeWrite d a).key ≠ u.nodeId) :
    exec (.advert d a) s = .next (finish (takeOther d (nativeWrite d a) u)) := by
  have htake : takeAdvert d a u = takeOther d (nativeWrite d a) u := by
    rw [takeAdvert, if_pos (by simpa using hd), takeRecord, if_neg (by simpa using ho)]
  rw [← htake]; exact exec_advert hu ht hup hf

/-! ## Native link records -/

section
variable {u : State} {w : LinkWrite} {i : Nat} {r : LinkRec}

theorem heldSeq_link {q : Part LinkContent} (h : u.tdb.findLink w.key = some (i, r)) (hq : r.ver.working = some q) :
    u.tdb.heldSeq (.link w.key) = some q.seq := by simp [Tdb.heldSeq, h, hq]

theorem heldSeq_link_none (h : u.tdb.findLink w.key = none) : u.tdb.heldSeq (.link w.key) = none := by simp [Tdb.heldSeq, h]

theorem writeLink_foreign (h : u.tdb.findLink w.key = some (i, r)) (hd : r.ver.domain ≠ w.domain) : writeLink w u = (u, false) := by
  simp [writeLink, h, hd]

theorem writeLink_foreign_origin (h : u.tdb.findLink w.key = none) (ho : w.key.origin ≠ u.nodeId) {e : Nat × NodeRec}
    (he : u.tdb.findNode w.key.origin = some e) (hd : e.2.ver.domain ≠ w.domain) : writeLink w u = (u, false) := by
  simp [writeLink, h, ho, he, hd]

theorem no_foreign_origin (hn : ∀ e, u.tdb.findNode w.key.origin = some e → e.2.ver.domain = w.domain) :
    ((u.tdb.findNode w.key.origin).any fun e => e.2.ver.domain != w.domain) = false := by
  cases he : u.tdb.findNode w.key.origin with
  | none => rfl
  | some e => simp [hn e he]

theorem linkRoom_other (ho : w.key.origin ≠ u.nodeId) : u.tdb.linkRoom u.nodeId w.key = decide ((u.tdb.links.filter fun e =>
    !(e.2.key.origin == u.nodeId && decide (e.2.key.num ≤ 7))).length < 2040) := by
  have hown : isOwnKey u.nodeId (.link w.key) = false := by simp [isOwnKey, ho]
  rw [Tdb.linkRoom, hown]
  rfl

section
variable (h : u.tdb.findLink w.key = none) (ho : w.key.origin ≠ u.nodeId)
  (hn : ∀ e, u.tdb.findNode w.key.origin = some e → e.2.ver.domain = w.domain)
include h ho hn

theorem writeLink_full (hl : 2040 ≤ (u.tdb.links.filter fun e =>
    !(e.2.key.origin == u.nodeId && decide (e.2.key.num ≤ 7))).length) :
    writeLink w u = (refuseInsertion w.key.origin .linkTable u, false) := by
  have hroom := linkRoom_other ho
  rw [decide_eq_false (Nat.not_lt.2 hl)] at hroom
  simp [writeLink, h, ho, no_foreign_origin hn, hroom]

theorem stores_link_room (hl : (u.tdb.links.filter fun e => !(e.2.key.origin == u.nodeId && decide (e.2.key.num ≤ 7))).length < 2040)
    (hc : u.tdb.links.length < 2048) : Stores (.link w) u.tdb u.nodeId { u.tdb with
      links := tput u.tdb.links (lowestFreeFrom u.tdb.links 0) ⟨w.key, Versions.insert w.domain w.part w.age w.native⟩ } := by
  have hroom := linkRoom_other ho
  rw [decide_eq_true hl] at hroom
  have hself : (w.key.origin == u.nodeId) = false := beq_eq_false_iff_ne.2 ho
  have hdom := no_foreign_origin hn
  have hfree := lowestFree_of_room (t := u.tdb.links) (cap := Config.linkTableSize) hc
  intro s ht hi
  rw [← ht] at h hdom hfree hroom ⊢
  rw [← hi] at hself hroom
  simp only [writeRecord, writeLink, h, hself, hdom, hroom, hfree]
  rfl

end

/-- A native record held under a key of another origin can be sent. -/
theorem keyAdvert_other_link {k : LinkKey} {p : Part LinkContent} (ho : k.origin ≠ u.nodeId) (h : u.tdb.findLink k = some (i, r))
    (hd : r.ver.domain = 0) (hp : r.ver.pending = some p) : ∃ a, keyAdvert u (.link k) = some a := by
  have hw : r.ver.working = some p := by rw [Versions.working, hp]; rfl
  exact ⟨_, (keyAdvert_link (Or.inr (by simp [isOwnKey, ho])) h).trans (linkAdvert_native hw hd)⟩

end

/-! ## Native node records -/

section
variable {u : State} {w : NodeWrite} {i : Nat} {r : NodeRec}

theorem heldSeq_node {q : Part NodeContent} (h : u.tdb.findNode w.id = some (i, r)) (hq : r.ver.working = some q) :
    u.tdb.heldSeq (.node w.id) = some q.seq := by simp [Tdb.heldSeq, h, hq]

theorem heldSeq_node_none (h : u.tdb.findNode w.id = none) : u.tdb.heldSeq (.node w.id) = none := by simp [Tdb.heldSeq, h]

theorem writeNode_foreign (h : u.tdb.findNode w.id = some (i, r)) (hd : r.ver.domain ≠ w.domain) : writeNode w u = (u, false) := by
  simp [writeNode, h, hd]

theorem writeNode_foreign_links (h : u.tdb.findNode w.id = none) {e : Nat × LinkRec} (he : e ∈ u.tdb.links)
    (ho : e.2.key.origin = w.id) (hd : e.2.ver.domain ≠ w.domain) : writeNode w u = (u, false) := by
  have hany : (u.tdb.links.any fun e => e.2.key.origin == w.id && e.2.ver.domain != w.domain) = true :=
    List.any_eq_true.2 ⟨e, he, by simp [ho, hd]⟩
  simp only [writeNode, h, hany]
  rfl

theorem no_foreign_links (hl : ∀ e ∈ u.tdb.links, e.2.key.origin = w.id → e.2.ver.domain = w.domain) :
    (u.tdb.links.any fun e => e.2.key.origin == w.id && e.2.ver.domain != w.domain) = false := by
  simpa using fun i r hx => hl (i, r) hx

theorem nodeRoom_other (ho : w.id ≠ u.nodeId) :
    u.tdb.nodeRoom u.nodeId w.id = decide ((u.tdb.nodes.filter fun e => e.2.id != u.nodeId).length < 255) := by
  rw [Tdb.nodeRoom, if_neg (by simpa using ho)]
  rfl

section
variable (h : u.tdb.findNode w.id = none)
  (hl : ∀ e ∈ u.tdb.links, e.2.key.origin = w.id → e.2.ver.domain = w.domain) (ho : w.id ≠ u.nodeId)
include h hl ho

theorem writeNode_full (hr : 255 ≤ (u.tdb.nodes.filter fun e => e.2.id != u.nodeId).length) :
    writeNode w u = (refuseInsertion w.id .nodeTable u, false) := by
  have hroom := nodeRoom_other ho
  rw [decide_eq_false (Nat.not_lt.2 hr)] at hroom
  simp only [writeNode, h, no_foreign_links hl, hroom]
  rfl

theorem stores_node_room (hr : (u.tdb.nodes.filter fun e => e.2.id != u.nodeId).length < 255) (hc : u.tdb.nodes.length < 256) :
    Stores (.node w) u.tdb u.nodeId { u.tdb with
      nodes := tput u.tdb.nodes (lowestFreeFrom u.tdb.nodes 0)
        ⟨w.id, Versions.insert w.domain w.part w.age w.native, u.tdb.incomplete.contains w.id⟩
      incomplete := u.tdb.incomplete.filter (· != w.id) } := by
  have hroom := nodeRoom_other ho
  rw [decide_eq_true hr] at hroom
  have hdom := no_foreign_links hl
  have hfree := lowestFree_of_room (t := u.tdb.nodes) (cap := Config.nodeTableSize) hc
  intro s ht hi
  rw [← ht] at h hdom hfree hroom ⊢
  rw [← hi] at hroom
  simp only [writeRecord, writeNode, h, hdom, hroom, hfree]
  rfl

end

theorem keyAdvert_other_node {n : NodeId} {p : Part NodeContent} (ho : n ≠ u.nodeId) (h : u.tdb.findNode n = some (i, r))
    (hd : r.ver.domain = 0) (hp : r.ver.pending = some p) : ∃ a, keyAdvert u (.node n) = some a := by
  have hw : r.ver.working = some p := by rw [Versions.working, hp]; rfl
  exact ⟨_, (keyAdvert_node (Or.inr (by simp [isOwnKey, ho])) h).trans (nodeAdvert_native hw hd)⟩

end

end Sys2Proof.Machine
end

section
/-! SUPPORT. The records a native ADVERT writes (R4, R62, R90). -/

namespace Sys2Proof.Machine

theorem takeOther_kept_first {d : Degree} {w : RecordWrite} {u v : State} (hh : u.tdb.heldSeq w.key = none)
    (hw : writeRecord w u = (v, false)) : takeOther d w u = v :=
  takeOther_kept (fun h hk => by rw [hh] at hk; cases hk) hw

/-- The write of a native link ADVERT. -/
def nativeLinkWrite (k : LinkKey) (seq age : Nat) (c : LinkContent) : LinkWrite := ⟨k, 0, none, ⟨seq, stateOfAge age, c⟩, age⟩

/-- The write of a native node ADVERT. -/
def nativeNodeWrite (o : NodeId) (seq age : Nat) (c : NodeContent) : NodeWrite := ⟨o, 0, none, ⟨seq, stateOfAge age, c⟩, age⟩

section
variable {u : State} {k : LinkKey} {i seq age : Nat} {r : LinkRec} (c : LinkContent)

theorem nativeLink_held (h : u.tdb.findLink k = some (i, r)) (hd : r.ver.domain = 0) :
    ∃ tdb, Stores (.link (nativeLinkWrite k seq age c)) u.tdb u.nodeId tdb ∧
      tdb.findLink k = some (i, ⟨k, advertVersions 0 none r.ver.committed seq age c⟩) ∧ tdb.nodes = u.tdb.nodes ∧
      tdb.exclusions = u.tdb.exclusions := by
  refine ⟨_, stores_link_held (w := nativeLinkWrite k seq age c) h hd, ?_, rfl, rfl⟩
  obtain ⟨key, ver⟩ := r
  obtain rfl : key = k := key_of_findLink h
  rw [← write_stateOfAge hd]
  exact find_tput_held h (beq_self_eq_true _)

theorem nativeLink_new (h : u.tdb.findLink k = none) (ho : k.origin ≠ u.nodeId)
    (hn : ∀ e, u.tdb.findNode k.origin = some e → e.2.ver.domain = 0)
    (hl : (u.tdb.links.filter fun e => !(e.2.key.origin == u.nodeId && decide (e.2.key.num ≤ 7))).length < 2040)
    (hc : u.tdb.links.length < 2048) : ∃ tdb i, Stores (.link (nativeLinkWrite k seq age c)) u.tdb u.nodeId tdb ∧
      tdb.findLink k = some (i, ⟨k, advertVersions 0 none none seq age c⟩) ∧ tdb.exclusions = u.tdb.exclusions := by
  refine ⟨_, lowestFreeFrom u.tdb.links 0, stores_link_room (w := nativeLinkWrite k seq age c) h ho hn hl hc, ?_, rfl⟩
  rw [← write_stateOfAge (v := ⟨0, none, none, none, 0, none⟩) rfl]
  exact find_tput_new h (beq_self_eq_true _)

theorem advert_nativeLink {d : Degree} {tdb : Tdb} {v : Option (Part LinkContent)} (ho : k.origin ≠ u.nodeId)
    (h : tdb.findLink k = some (i, ⟨k, advertVersions 0 none v seq age c⟩)) :
    ∃ a, keyAdvert (u.withRecord d (.link k) tdb) (.link k) = some a :=
  keyAdvert_other_link (u := u.withRecord d (.link k) tdb) ho h rfl rfl

/-- A withdrawal takes a committed ACTIVE link away exactly when its age is 0 (R93). -/
theorem withdrawsCommitted_iff (h : u.tdb.findLink k = some (i, r)) :
    withdrawsCommitted u.tdb (.link (nativeLinkWrite k seq age c)) = true ↔ age = 0 ∧ r.ver.committedActive = true := by
  by_cases ha : age = 0 <;>
    simp [withdrawsCommitted, nativeLinkWrite, stateOfAge, Part.isActive, Tdb.linkActive, h, ha]

end

section
variable {u : State} {o : NodeId} {i seq age : Nat} {r : NodeRec} (c : NodeContent)

theorem nativeNode_held (h : u.tdb.findNode o = some (i, r)) (hd : r.ver.domain = 0) :
    ∃ tdb, Stores (.node (nativeNodeWrite o seq age c)) u.tdb u.nodeId tdb ∧
      tdb.findNode o = some (i, ⟨o, advertVersions 0 none r.ver.committed seq age c, r.incomplete⟩) ∧
      tdb.links = u.tdb.links ∧ tdb.exclusions = u.tdb.exclusions := by
  refine ⟨_, stores_node_held (w := nativeNodeWrite o seq age c) h hd, ?_, rfl, rfl⟩
  obtain ⟨id, ver, mark⟩ := r
  obtain rfl : id = o := id_of_findNode h
  rw [← write_stateOfAge hd]
  exact find_tput_held h (beq_self_eq_true _)

theorem nativeNode_new (h : u.tdb.findNode o = none) (ho : o ≠ u.nodeId)
    (hn : ∀ e ∈ u.tdb.links, e.2.key.origin = o → e.2.ver.domain = 0)
    (hl : (u.tdb.nodes.filter fun e => e.2.id != u.nodeId).length < 255)
    (hc : u.tdb.nodes.length < 256) : ∃ tdb i, Stores (.node (nativeNodeWrite o seq age c)) u.tdb u.nodeId tdb ∧
      tdb.findNode o = some (i, ⟨o, advertVersions 0 none none seq age c, decide (o ∈ u.tdb.incomplete)⟩) ∧
      tdb.incomplete = u.tdb.incomplete.filter (· ≠ o) ∧ tdb.exclusions = u.tdb.exclusions := by
  refine ⟨_, lowestFreeFrom u.tdb.nodes 0, stores_node_room (w := nativeNodeWrite o seq age c) h hn ho hl hc, ?_, ?_, rfl⟩
  · rw [← write_stateOfAge (v := ⟨0, none, none, none, 0, none⟩) rfl, ← List.contains_eq_mem]
    exact find_tput_new h (beq_self_eq_true _)
  · exact List.filter_congr fun x _ => by simp [nativeNodeWrite, bne, beq_eq_decide]

theorem advert_nativeNode {d : Degree} {tdb : Tdb} {v : Option (Part NodeContent)} {mark : Bool} (ho : o ≠ u.nodeId)
    (h : tdb.findNode o = some (i, ⟨o, advertVersions 0 none v seq age c, mark⟩)) :
    ∃ a, keyAdvert (u.withRecord d (.node o) tdb) (.node o) = some a :=
  keyAdvert_other_node (u := u.withRecord d (.node o) tdb) ho h rfl rfl

end

end Sys2Proof.Machine

open Sys2Proof Sys2Proof.Machine

/-- Settles O32, by the record held under the ADVERT's key: its sequence and domain decide whether the ADVERT is dropped, corrected or
stored; and by the room there is when none is held. -/
theorem advertTakenBySequence : Obligations.AdvertTakenBySequence := by
  intro d o seq age num far farNum cost imp regen transit flags used blocked s u hu htakes hup ho a b k st p w linger nothing corrected
    floods lists calm refused others otherNodes
  have hf : FloodDone u := hu ▸ floodDone_settle s
  have hc : u.claims = [] := hu ▸ claims_settle s
  let lw := nativeLinkWrite k seq age p.content
  let nw := nativeNodeWrite o seq age w.content
  have dropped {x : AdvertBody} {v : RecordWrite} (run : exec (.advert d x) s = .next (finish (takeOther d v u)))
      (h : takeOther d v u = u) : nothing x := by
    rw [h] at run; exact ⟨_, run, hf.blocks_finish, Traffic.finish u⟩
  have corrects {x : AdvertBody} {v : RecordWrite} (run : exec (.advert d x) s = .next (finish (takeOther d v u)))
      (hq : Quiet u) (h : takeOther d v u = addKey d v.key u) : corrected x v.key := by
    rw [h] at run; exact ⟨_, run, corrected_finish hq hc⟩
  have refuses {x : AdvertBody} {v : RecordWrite} {m : Member} (run : exec (.advert d x) s = .next (finish (takeOther d v u)))
      (h : takeOther d v u = refuseInsertion o m u) : refused x m := by
    rw [h] at run
    have r := insertionRefused_finish hf o m
    exact ⟨_, run, r.raised, r.traffic, r.links, r.cmc, r.rqu, r.rsv, r.seq, r.lists, r.present, r.absent⟩
  have stays {j : RecordKey} {tdb : Tdb} (hs : AdvertStored d j tdb u (finish (u.withRecord d j tdb)))
      (he : tdb.exclusions = u.tdb.exclusions) : calm (finish (u.withRecord d j tdb)) :=
    ⟨cmc_finish _, rqu_finish _, rsv_finish _, hs.seq, (congrArg Tdb.exclusions hs.tdb).trans he⟩
  refine ⟨fun hform => ?link, fun hform => ?node⟩
  case link =>
    have run : exec (.advert d a) s = .next (finish (takeOther d (.link lw) u)) := exec_native_advert hu htakes hup hform rfl ho
    refine ⟨fun i r q hr hq => ?held, fun hr => ⟨fun ⟨e, he, hd⟩ => ?foreign, fun hn => ⟨fun hl hcap => ?new, fun hl => ?full⟩⟩⟩
    case held =>
      have hseq : u.tdb.heldSeq (.link lw.key) = some q.seq := heldSeq_link hr hq
      have newer (hlt : q.seq < seq) : ∀ h, u.tdb.heldSeq (.link lw.key) = some h → h < seq := fun h hh => by
        rw [hseq] at hh; exact Option.some.inj hh ▸ hlt
      refine ⟨fun e => dropped run (takeOther_equal (hseq.trans (congrArg some e.symm))), fun hquiet hlt => corrects run hquiet (takeOther_older hseq hlt),
        fun hlt hd => dropped run (takeOther_kept (newer hlt) (writeLink_foreign hr hd)), fun hlt hd => ?_⟩
      obtain ⟨tdb, hstore, hfind, hnodes, hexcl⟩ := nativeLink_held (seq := seq) (age := age) p.content hr hd
      obtain ⟨x, hx⟩ := advert_nativeLink (u := u) (d := d) p.content ho hfind
      rw [takeOther_newer hseq hlt hstore] at run
      have hiff := withdrawsCommitted_iff (seq := seq) (age := age) p.content hr
      by_cases hw : age = 0 ∧ r.ver.committedActive = true
      · rw [if_pos (hiff.2 hw)] at run
        obtain ⟨hs, hurgent⟩ := advertStored_urgent hf hx
        refine ⟨_, run, hs.traffic, hs.floods, hs.pulls, (congrArg (Tdb.findLink · k) hs.tdb).trans hfind,
          (congrArg Tdb.nodes hs.tdb).trans hnodes, (congrArg Tdb.exclusions hs.tdb).trans hexcl, hs.seq, hs.changed,
          fun _ _ => hurgent, fun h => ?_⟩
        rcases h with h | h
        · exact absurd hw.1 h
        · rw [hw.2] at h; cases h
      · rw [if_neg (mt hiff.1 hw)] at run
        have hs := advertStored_finish hf hx
        exact ⟨_, run, hs.traffic, hs.floods, hs.pulls, (congrArg (Tdb.findLink · k) hs.tdb).trans hfind,
          (congrArg Tdb.nodes hs.tdb).trans hnodes, (congrArg Tdb.exclusions hs.tdb).trans hexcl, hs.seq, hs.changed,
          fun h1 h2 => absurd ⟨h1, h2⟩ hw, fun _ => ⟨stays hs hexcl, fun hquiet => listsKey_finish hquiet hc⟩⟩
    case foreign =>
      exact dropped run (takeOther_kept_first (heldSeq_link_none (w := lw) hr)
        (writeLink_foreign_origin (w := lw) hr ho he hd))
    case new =>
      obtain ⟨tdb, i, hstore, hfind, hexcl⟩ := nativeLink_new (seq := seq) (age := age) p.content hr ho hn hl hcap
      obtain ⟨x, hx⟩ := advert_nativeLink (u := u) (d := d) p.content ho hfind
      rw [takeOther_first (heldSeq_link_none (w := lw) hr) hstore] at run
      have hs := advertStored_finish hf hx
      exact ⟨_, i, run, hs.traffic, hs.floods, fun hquiet => listsKey_finish hquiet hc, hs.pulls,
        (congrArg (Tdb.findLink · k) hs.tdb).trans hfind, stays hs hexcl⟩
    case full =>
      exact refuses run (takeOther_kept_first (heldSeq_link_none (w := lw) hr)
        (writeLink_full (w := lw) hr ho hn hl))
  case node =>
    have run : exec (.advert d b) s = .next (finish (takeOther d (.node nw) u)) := exec_native_advert hu htakes hup hform rfl ho
    refine ⟨fun i r q hr hq => ?held, fun hr => ⟨fun ⟨e, he, hk, hd⟩ => ?foreign, fun hn => ⟨fun hl hcap => ?new, fun hl => ?full⟩⟩⟩
    case held =>
      have hseq : u.tdb.heldSeq (.node nw.id) = some q.seq := heldSeq_node hr hq
      have newer (hlt : q.seq < seq) : ∀ h, u.tdb.heldSeq (.node nw.id) = some h → h < seq := fun h hh => by
        rw [hseq] at hh; exact Option.some.inj hh ▸ hlt
      refine ⟨fun e => dropped run (takeOther_equal (hseq.trans (congrArg some e.symm))), fun hquiet hlt => corrects run hquiet (takeOther_older hseq hlt),
        fun hlt hd => dropped run (takeOther_kept (newer hlt) (writeNode_foreign hr hd)), fun hlt hd => ?_⟩
      obtain ⟨tdb, hstore, hfind, hlinks, hexcl⟩ := nativeNode_held (seq := seq) (age := age) w.content hr hd
      obtain ⟨x, hx⟩ := advert_nativeNode (u := u) (d := d) w.content ho hfind
      rw [takeOther_newer hseq hlt hstore, if_neg (show ¬ withdrawsCommitted u.tdb (.node nw) = true from Bool.false_ne_true)] at run
      have hs := advertStored_finish hf hx
      exact ⟨_, run, hs.traffic, hs.floods, fun hquiet => listsKey_finish hquiet hc, hs.pulls, stays hs hexcl,
        (congrArg Tdb.links hs.tdb).trans hlinks, (congrArg (Tdb.findNode · o) hs.tdb).trans hfind⟩
    case foreign =>
      exact dropped run (takeOther_kept_first (heldSeq_node_none (w := nw) hr)
        (writeNode_foreign_links (w := nw) hr he hk hd))
    case new =>
      obtain ⟨tdb, i, hstore, hfind, hinc, hexcl⟩ := nativeNode_new (seq := seq) (age := age) w.content hr ho hn hl hcap
      obtain ⟨x, hx⟩ := advert_nativeNode (u := u) (d := d) w.content ho hfind
      rw [takeOther_first (heldSeq_node_none (w := nw) hr) hstore] at run
      have hs := advertStored_finish hf hx
      exact ⟨_, i, run, hs.traffic, hs.floods, fun hquiet => listsKey_finish hquiet hc, hs.pulls, stays hs hexcl,
        (congrArg Tdb.incomplete hs.tdb).trans hinc, (congrArg (Tdb.findNode · o) hs.tdb).trans hfind⟩
    case full =>
      exact refuses run (takeOther_kept_first (heldSeq_node_none (w := nw) hr)
        (writeNode_full (w := nw) hr hn ho hl))

end

section
/-! SUPPORT. The tables across a promotion (R71, R72) and the changed-link set (R114). -/

namespace Sys2Proof.Machine

/-! ## Records removed one after another (R65, R72) -/

/-- The tables after the removal of the records of some keys. -/
def Tdb.without (l : List RecordKey) (t : Tdb) : Tdb := l.foldl (fun t k => clearIncomplete (t.erase k)) t

theorem tdb_removeRecords (l : List RecordKey) (s : State) : (l.foldl (fun t k => removeRecord k t) s).tdb = s.tdb.without l := by
  induction l generalizing s with
  | nil => rfl
  | cons k l ih => exact ih (removeRecord k s)

theorem mem_nodes_removed {t : Tdb} {k : RecordKey} {e : Nat × NodeRec} : e ∈ (clearIncomplete (t.erase k)).nodes ↔
    ∃ x ∈ t.nodes, .node x.2.id ≠ k ∧ e = (x.1, { x.2 with incomplete := false }) := by
  have hmem : ∀ x : Nat × NodeRec, x ∈ (t.erase k).nodes ↔ x ∈ t.nodes ∧ .node x.2.id ≠ k := fun x => by
    cases k <;> simp [Tdb.erase]
  constructor
  · intro he
    obtain ⟨x, hx, rfl⟩ := List.mem_map.1 he
    exact ⟨x, ((hmem x).1 hx).1, ((hmem x).1 hx).2, rfl⟩
  · rintro ⟨x, hx, hk, rfl⟩
    exact List.mem_map.2 ⟨x, (hmem x).2 ⟨hx, hk⟩, rfl⟩

theorem mem_links_removed {t : Tdb} {k : RecordKey} {e : Nat × LinkRec} : e ∈ (clearIncomplete (t.erase k)).links ↔
    e ∈ t.links ∧ .link e.2.key ≠ k := by
  cases k <;> simp [clearIncomplete, Tdb.erase]

theorem mem_nodes_without {l : List RecordKey} {t : Tdb} {e : Nat × NodeRec} : e ∈ (t.without l).nodes ↔
    ∃ x ∈ t.nodes, .node x.2.id ∉ l ∧ e = (x.1, { x.2 with incomplete := x.2.incomplete && l.isEmpty }) := by
  induction l generalizing t with
  | nil => simp [Tdb.without]
  | cons k l ih =>
    refine (ih (t := clearIncomplete (t.erase k))).trans ?_
    simp only [mem_nodes_removed, List.isEmpty_cons, Bool.and_false, List.mem_cons, not_or]
    constructor
    · rintro ⟨-, ⟨x, hx, hk, rfl⟩, hl, rfl⟩
      exact ⟨x, hx, ⟨hk, hl⟩, rfl⟩
    · rintro ⟨x, hx, ⟨hk, hl⟩, rfl⟩
      exact ⟨_, ⟨x, hx, hk, rfl⟩, hl, rfl⟩

theorem mem_links_without {l : List RecordKey} {t : Tdb} {e : Nat × LinkRec} : e ∈ (t.without l).links ↔
    e ∈ t.links ∧ .link e.2.key ∉ l := by
  induction l generalizing t with
  | nil => simp [Tdb.without]
  | cons k l ih =>
    refine (ih (t := clearIncomplete (t.erase k))).trans ?_
    rw [mem_links_removed, List.mem_cons, not_or, and_assoc]

theorem incomplete_without (l : List RecordKey) (t : Tdb) : (t.without l).incomplete = if l = [] then t.incomplete else [] := by
  induction l generalizing t with
  | nil => rfl
  | cons k l ih =>
    rw [if_neg (List.cons_ne_nil k l)]
    refine (ih (clearIncomplete (t.erase k))).trans ?_
    split <;> rfl

/-! ## The records a promotion removes (R71) -/

section
variable {α : Type} (v : Versions α)

/-- The record commits WITHDRAWN and its linger has run out. -/
def Versions.Leaves : Prop := v.pending.any (·.state == .withdrawn) = true ∧ v.linger = some 0

theorem promotionRemoves_iff : v.promotionRemoves = true ↔ v.Leaves := by
  have hp : ∀ p : Part α, (!p.isActive) = (p.state == .withdrawn) := fun p => by cases h : p.state <;> simp [Part.isActive, h]
  simp only [Versions.promotionRemoves, Versions.Leaves, hp, Bool.and_eq_true, beq_iff_eq]

theorem promote_eq_or : v.promote = { v with committed := v.pending.or v.committed, pending := none } := by
  cases v with
  | mk domain native committed pending age linger => cases pending <;> rfl

end

/-- A record of either table leaves at the promotion. -/
def Tdb.Removes (t : Tdb) : Prop := (∃ x ∈ t.nodes, x.2.ver.Leaves) ∨ ∃ x ∈ t.links, x.2.ver.Leaves

section
variable {t : Tdb}

theorem node_mem_removed {n : NodeId} : .node n ∈ t.removedByPromotion ↔ ∃ x ∈ t.nodes, x.2.id = n ∧ x.2.ver.Leaves := by
  simp only [Tdb.removedByPromotion, List.mem_append, List.mem_map, List.mem_filter, promotionRemoves_iff]
  constructor
  · rintro (⟨x, ⟨hx, hl⟩, he⟩ | ⟨x, -, he⟩)
    · exact ⟨x, hx, RecordKey.node.inj he, hl⟩
    · cases he
  · rintro ⟨x, hx, rfl, hl⟩
    exact Or.inl ⟨x, ⟨hx, hl⟩, rfl⟩

theorem link_mem_removed {k : LinkKey} : .link k ∈ t.removedByPromotion ↔ ∃ x ∈ t.links, x.2.key = k ∧ x.2.ver.Leaves := by
  simp only [Tdb.removedByPromotion, List.mem_append, List.mem_map, List.mem_filter, promotionRemoves_iff]
  constructor
  · rintro (⟨x, -, he⟩ | ⟨x, ⟨hx, hl⟩, he⟩)
    · cases he
    · exact ⟨x, hx, RecordKey.link.inj he, hl⟩
  · rintro ⟨x, hx, rfl, hl⟩
    exact Or.inr ⟨x, ⟨hx, hl⟩, rfl⟩

theorem removed_ne_nil : t.removedByPromotion ≠ [] ↔ t.Removes := by
  constructor
  · intro h
    obtain ⟨k, hk⟩ := List.exists_mem_of_ne_nil _ h
    cases k with
    | node n =>
      obtain ⟨x, hx, -, hl⟩ := node_mem_removed.1 hk
      exact Or.inl ⟨x, hx, hl⟩
    | link k =>
      obtain ⟨x, hx, -, hl⟩ := link_mem_removed.1 hk
      exact Or.inr ⟨x, hx, hl⟩
  · rintro (⟨x, hx, hl⟩ | ⟨x, hx, hl⟩)
    · exact List.ne_nil_of_mem (node_mem_removed.2 ⟨x, hx, rfl, hl⟩)
    · exact List.ne_nil_of_mem (link_mem_removed.2 ⟨x, hx, rfl, hl⟩)

end

/-! ## The tables after a promotion (R71, R113) -/

section
variable (s : State)

theorem tdb_promoteTables : (promoteTables s).tdb = (s.tdb.without s.tdb.removedByPromotion).promoteAll := by
  rw [promoteTables, tdb_removeRecords]

/-- The state without the records, the INCOMPLETE marks and FLE's lists. -/
def State.besideTables : State :=
  { s with
    tdb := ⟨[], [], [], s.tdb.exclusions, s.tdb.ageClock⟩
    fle := { s.fle with degrees := Vector.replicate 8 FleDegree.reset } }

theorem besideTables_promoteTables : (promoteTables s).besideTables = s.besideTables :=
  foldl_keeps State.besideTables (fun t k => removeRecord k t) _ s fun t k => by cases k <;> rfl

theorem mem_nodes_promoted {e : Nat × NodeRec} : e ∈ (promoteTables s).tdb.nodes ↔
    ∃ x ∈ s.tdb.nodes, (∀ y ∈ s.tdb.nodes, y.2.id = x.2.id → ¬ y.2.ver.Leaves) ∧
      e = (x.1, { x.2 with
        ver := { x.2.ver with committed := x.2.ver.pending.or x.2.ver.committed, pending := none }
        incomplete := x.2.incomplete && s.tdb.removedByPromotion.isEmpty }) := by
  have hnot : ∀ n : NodeId, .node n ∉ s.tdb.removedByPromotion ↔ ∀ y ∈ s.tdb.nodes, y.2.id = n → ¬ y.2.ver.Leaves := fun n => by
    rw [node_mem_removed]; push Not; rfl
  rw [tdb_promoteTables]
  simp only [← promote_eq_or, ← hnot]
  constructor
  · intro h
    obtain ⟨y, hy, rfl⟩ := List.mem_map.1 h
    obtain ⟨x, hx, hl, rfl⟩ := mem_nodes_without.1 hy
    exact ⟨x, hx, hl, rfl⟩
  · rintro ⟨x, hx, hl, rfl⟩
    exact List.mem_map.2 ⟨_, mem_nodes_without.2 ⟨x, hx, hl, rfl⟩, rfl⟩

theorem mem_links_promoted {e : Nat × LinkRec} : e ∈ (promoteTables s).tdb.links ↔
    ∃ x ∈ s.tdb.links, (∀ y ∈ s.tdb.links, y.2.key = x.2.key → ¬ y.2.ver.Leaves) ∧
      e = (x.1, { x.2 with
        ver := { x.2.ver with committed := x.2.ver.pending.or x.2.ver.committed, pending := none } }) := by
  have hnot : ∀ k : LinkKey, .link k ∉ s.tdb.removedByPromotion ↔ ∀ y ∈ s.tdb.links, y.2.key = k → ¬ y.2.ver.Leaves := fun k => by
    rw [link_mem_removed]; push Not; rfl
  rw [tdb_promoteTables]
  simp only [← promote_eq_or, ← hnot]
  constructor
  · intro h
    obtain ⟨x, hx, rfl⟩ := List.mem_map.1 h
    obtain ⟨hx, hl⟩ := mem_links_without.1 hx
    exact ⟨x, hx, hl, rfl⟩
  · rintro ⟨x, hx, hl, rfl⟩
    exact List.mem_map.2 ⟨x, mem_links_without.2 ⟨hx, hl⟩, rfl⟩

theorem incomplete_promoteTables (h : s.tdb.Removes) : (promoteTables s).tdb.incomplete = [] := by
  rw [tdb_promoteTables]
  exact (incomplete_without _ _).trans (if_neg (removed_ne_nil.2 h))

theorem incomplete_promoteTables_kept (h : ¬ s.tdb.Removes) : (promoteTables s).tdb.incomplete = s.tdb.incomplete := by
  rw [tdb_promoteTables]
  exact (incomplete_without _ _).trans (if_pos (not_not.1 (mt removed_ne_nil.1 h)))

end

/-! ## The changed-link set (R114) -/

theorem mem_insertBy_keyLt {a x : LinkKey} {l : List LinkKey} : x ∈ insertBy keyLt a l ↔ x = a ∨ x ∈ l := by
  induction l with
  | nil => simp [insertBy]
  | cons b l ih =>
    rw [insertBy]
    split
    · simp
    · split
      · rw [List.mem_cons, ih, List.mem_cons]; tauto
      · rename_i h1 h2
        have : a = b := by
          obtain ⟨ao, an⟩ := a
          obtain ⟨bo, bn⟩ := b
          simp only [keyLt, Bool.or_eq_true, Bool.and_eq_true, decide_eq_true_eq, beq_iff_eq] at h1 h2
          have key : ∀ p q r t : Nat, ¬ (p < r ∨ p = r ∧ q < t) → ¬ (r < p ∨ r = p ∧ t < q) → p = r ∧ q = t := by omega
          rw [LinkKey.mk.injEq]
          exact key _ _ _ _ h1 h2
        simp [this]

theorem mem_sortBy_keyLt {x : LinkKey} {l : List LinkKey} : x ∈ sortBy keyLt l ↔ x ∈ l := by
  induction l with
  | nil => simp [sortBy]
  | cons b l ih => rw [sortBy, List.foldr_cons, mem_insertBy_keyLt, List.mem_cons, ← ih, sortBy]

section
variable (a b : Tdb)

/-- The committed content of a link before or after a promotion. -/
def ContentShown (k : LinkKey) (c : LinkContent) : Prop :=
  ∃ p, p.content = c ∧ (a.committedLink k = some p ∨ b.committedLink k = some p)

/-- A link key is the twin that a link names before or after a promotion. -/
def TwinShown (k j : LinkKey) : Prop := ∃ c, ContentShown a b k c ∧ c.far = j.origin ∧ c.farNum = some j.num

/-- The record of a link key has a pending part before a promotion. -/
def Rewritten (k : LinkKey) : Prop := ∃ e ∈ a.links, e.2.key = k ∧ e.2.ver.pending.isSome = true

theorem mem_contents {k : LinkKey} {c : LinkContent} : c ∈ contents a b k ↔ ContentShown a b k c := by
  simp only [contents, List.mem_map, List.mem_append, Option.mem_toList, ContentShown]
  exact exists_congr fun p => and_comm

theorem mem_twins {k j : LinkKey} : j ∈ (contents a b k).filterMap LinkContent.twin ↔ TwinShown a b k j := by
  rw [List.mem_filterMap]
  refine exists_congr fun c => and_congr (mem_contents a b) ?_
  obtain ⟨jo, jn⟩ := j
  cases h : c.farNum with
  | none => simp [LinkContent.twin, h]
  | some n => simp [LinkContent.twin, h, LinkKey.mk.injEq]

theorem mem_rewritten {k : LinkKey} : k ∈ a.rewritten ↔ Rewritten a k := by
  simp only [Tdb.rewritten, List.mem_map, List.mem_filter, Rewritten]
  exact exists_congr fun e => ⟨fun ⟨⟨h, hp⟩, hk⟩ => ⟨h, hk, hp⟩, fun ⟨h, hk, hp⟩ => ⟨⟨h, hp⟩, hk⟩⟩

theorem isChanged_iff {k : LinkKey} : isChanged a b k = true ↔
    Rewritten a k ∨ (a.nodeActive k.origin ≠ b.nodeActive k.origin ∨
      ∃ c, ContentShown a b k c ∧ a.nodeActive c.far ≠ b.nodeActive c.far) ∨
    (∃ j, TwinShown a b k j ∧ Rewritten a j) ∨ ∃ j, Rewritten a j ∧ TwinShown a b j k := by
  simp only [isChanged, Bool.or_eq_true, List.any_eq_true, List.contains_iff_mem, bne_iff_ne, mem_rewritten, mem_twins, mem_contents,
    or_assoc]

theorem mem_changedLinks {k : LinkKey} : k ∈ changedLinks a b ↔ (∃ e ∈ a.links, e.2.key = k) ∧
    (Rewritten a k ∨ (a.nodeActive k.origin ≠ b.nodeActive k.origin ∨
      ∃ c, ContentShown a b k c ∧ a.nodeActive c.far ≠ b.nodeActive c.far) ∨
    (∃ j, TwinShown a b k j ∧ Rewritten a j) ∨ ∃ j, Rewritten a j ∧ TwinShown a b j k) := by
  rw [changedLinks, mem_sortBy_keyLt, List.mem_filter, isChanged_iff, List.mem_map]

end

end Sys2Proof.Machine
end

section
/-! SUPPORT. The re-check of the results at a promotion (R184, R185, R188). -/

namespace Sys2Proof.Machine

/-! ## What the re-check of one result finds (R184, R185) -/

section
variable (t : Tdb) (st : ResultState) (runs : List HeldRun)

/-- A slot of a run is in a state in the committed view. -/
def SlotSeen (x : SlotState) : Prop :=
  ∃ h ∈ runs, ∃ n, n < h.width ∧ ∃ p, t.committedLink h.key = some p ∧ p.content.slots.slot (h.start + n) = x

/-- A result with these runs is stale. -/
def ResultStale : Prop := (∃ h ∈ runs, t.usable h.key = false) ∨
  (st = .held ∧ (SlotSeen t runs .used ∨ SlotSeen t runs .blocked)) ∨ (st = .claimed ∧ SlotSeen t runs .blocked)

/-- A result with these runs is settled: it is CLAIMED, and every slot is USED. -/
def ResultSettled : Prop := ¬ ResultStale t st runs ∧ st = .claimed ∧ ¬ SlotSeen t runs .free

theorem mem_runSlots {x : SlotState} : x ∈ runs.flatMap t.runSlots ↔ SlotSeen t runs x := by
  have one : ∀ h : HeldRun, x ∈ t.runSlots h ↔ ∃ n, n < h.width ∧ ∃ p, t.committedLink h.key = some p ∧
      p.content.slots.slot (h.start + n) = x := fun h => by
    unfold Tdb.runSlots
    cases t.committedLink h.key <;> simp
  simp only [List.mem_flatMap, one, SlotSeen]

theorem any_unusable : (runs.any fun r => !t.usable r.key) = true ↔ ∃ h ∈ runs, t.usable h.key = false := by
  simp only [List.any_eq_true, Bool.not_eq_true']

theorem any_not_free : ((runs.flatMap t.runSlots).any (· != .free)) = true ↔ SlotSeen t runs .used ∨ SlotSeen t runs .blocked := by
  rw [List.any_eq_true, ← mem_runSlots, ← mem_runSlots]
  constructor
  · rintro ⟨x, hx, hne⟩
    cases x with
    | free => cases hne
    | used => exact Or.inl hx
    | blocked => exact Or.inr hx
  · rintro (h | h)
    · exact ⟨_, h, rfl⟩
    · exact ⟨_, h, rfl⟩

theorem any_blocked : ((runs.flatMap t.runSlots).any (· == .blocked)) = true ↔ SlotSeen t runs .blocked := by
  rw [List.any_beq', List.contains_iff_mem, mem_runSlots]

theorem all_used (hb : ¬ SlotSeen t runs .blocked) :
    ((runs.flatMap t.runSlots).all (· == .used)) = true ↔ ¬ SlotSeen t runs .free := by
  rw [← mem_runSlots] at hb ⊢
  rw [List.all_eq_true]
  constructor
  · intro h hf
    cases h _ hf
  · intro h x hx
    cases x with
    | free => exact absurd hx h
    | used => rfl
    | blocked => exact absurd hx hb

theorem recheckOf_unusable (h : ∃ r ∈ runs, t.usable r.key = false) : recheckOf t st runs = .stale := by
  unfold recheckOf
  exact if_pos ((any_unusable t runs).2 h)

theorem recheckOf_held (h : ¬ ∃ r ∈ runs, t.usable r.key = false) : recheckOf t .held runs =
    if (runs.flatMap t.runSlots).any (· != .free) = true then .stale else .kept := by
  unfold recheckOf
  exact if_neg (mt (any_unusable t runs).1 h)

theorem recheckOf_claimed (h : ¬ ∃ r ∈ runs, t.usable r.key = false) : recheckOf t .claimed runs =
    if (runs.flatMap t.runSlots).any (· == .blocked) = true then .stale
    else if (runs.flatMap t.runSlots).all (· == .used) = true then .settled else .kept := by
  unfold recheckOf
  exact if_neg (mt (any_unusable t runs).1 h)

theorem recheckOf_spec : (ResultStale t st runs → recheckOf t st runs = .stale) ∧
    (ResultSettled t st runs → recheckOf t st runs = .settled) ∧
    (¬ ResultStale t st runs → ¬ ResultSettled t st runs → recheckOf t st runs = .kept) := by
  by_cases hu : ∃ h ∈ runs, t.usable h.key = false
  · have hs : ResultStale t st runs := Or.inl hu
    exact ⟨fun _ => recheckOf_unusable t st runs hu, fun h => absurd hs h.1, fun h => absurd hs h⟩
  · cases st with
    | held =>
      rw [recheckOf_held t runs hu]
      have hstale : ResultStale t .held runs ↔ SlotSeen t runs .used ∨ SlotSeen t runs .blocked := by
        simp [ResultStale, hu]
      rw [hstale, ← any_not_free]
      exact ⟨fun h => if_pos h, fun ⟨_, hclaimed, _⟩ => (by cases hclaimed), fun h _ => if_neg h⟩
    | claimed =>
      rw [recheckOf_claimed t runs hu]
      have hstale : ResultStale t .claimed runs ↔ SlotSeen t runs .blocked := by simp [ResultStale, hu]
      by_cases hb : SlotSeen t runs .blocked
      · rw [if_pos ((any_blocked t runs).2 hb)]
        exact ⟨fun _ => rfl, fun h => absurd (hstale.2 hb) h.1, fun h => absurd (hstale.2 hb) h⟩
      · rw [if_neg (mt (any_blocked t runs).1 hb)]
        have hsettled : ResultSettled t .claimed runs ↔ ¬ SlotSeen t runs .free := by simp [ResultSettled, hstale, hb]
        rw [hsettled, hstale, ← all_used t runs hb]
        exact ⟨fun h => absurd h hb, fun h => if_pos h, fun _ h => if_neg h⟩

theorem recheckOf_stale_iff : recheckOf t st runs = .stale ↔ ResultStale t st runs := by
  obtain ⟨hs, hd, hk⟩ := recheckOf_spec t st runs
  refine ⟨fun h => by_contra fun hn => ?_, hs⟩
  by_cases hset : ResultSettled t st runs
  · rw [hd hset] at h; cases h
  · rw [hk hn hset] at h; cases h

theorem recheckOf_kept_iff : recheckOf t st runs ≠ .kept ↔ ResultStale t st runs ∨ ResultSettled t st runs := by
  obtain ⟨hs, hd, hk⟩ := recheckOf_spec t st runs
  constructor
  · intro h
    by_contra hn
    rw [not_or] at hn
    exact h (hk hn.1 hn.2)
  · rintro (h | h)
    · rw [hs h]; exact nofun
    · rw [hd h]; exact nofun

end

/-! ## Results freed (R171) -/

/-- The results of some indices freed with their holds. -/
def Shu.freeAll (is : List Nat) (v : Shu) : Shu := is.foldl (fun v i => v.free i) v

section
variable {is : List Nat} {v : Shu}

theorem mem_results_freeAll {e : Nat × Result} : e ∈ (v.freeAll is).results ↔ e ∈ v.results ∧ e.1 ∉ is := by
  induction is generalizing v with
  | nil => simp [Shu.freeAll]
  | cons i is ih =>
    refine (ih (v := v.free i)).trans ?_
    have hfree : e ∈ (v.free i).results ↔ e ∈ v.results ∧ e.1 ≠ i := by simp [Shu.free, tdel]
    rw [hfree, List.mem_cons, not_or, and_assoc]

theorem mem_holds_freeAll {h : Nat × Hold} : h ∈ (v.freeAll is).holds ↔ h ∈ v.holds ∧ h.2.result ∉ is := by
  induction is generalizing v with
  | nil => simp [Shu.freeAll]
  | cons i is ih =>
    refine (ih (v := v.free i)).trans ?_
    have hfree : h ∈ (v.free i).holds ↔ h ∈ v.holds ∧ h.2.result ≠ i := by simp [Shu.free]
    rw [hfree, List.mem_cons, not_or, and_assoc]

theorem runsOf_free {i j : Nat} (h : j ≠ i) : (v.free i).runsOf j = v.runsOf j := by
  unfold Shu.runsOf Shu.free
  rw [List.filter_filter]
  refine congrArg (List.map _) (List.filter_congr fun e _ => ?_)
  by_cases he : e.2.result = j
  · simp [he, h]
  · simp [he]

end

/-! ## The re-check of several results, one after another -/

/-- The blocks without the results and their holds. -/
def State.besideShu (s : State) : State := { s.blocks with shu := Shu.reset }

/-- The re-check frees a result. -/
def Shu.frees (v : Shu) (t : Tdb) (e : Nat × Result) : Bool := decide (recheckOf t e.2.state (v.runsOf e.1) ≠ .kept)

section
variable (e : Nat × Result) (s : State)

theorem besideShu_recheckResult : (recheckResult e s).besideShu = s.besideShu := by
  unfold recheckResult State.besideShu
  split
  · rfl
  · rw [blocks_answerNow]; rfl
  · rfl

theorem shu_recheckResult : (recheckResult e s).shu = if s.shu.frees s.tdb e = true then s.shu.free e.1 else s.shu := by
  unfold recheckResult Shu.frees
  split
  · rename_i h; simp [h]
  · rename_i h
    rw [shu_of_steady (steady_of_blocks (blocks_answerNow _ _ _ _ _))]
    simp [h, freeResult]
  · rename_i h; simp [h, freeResult]

theorem Traffic.recheckResult {is : List NoticeId} {ps : List Port} : Traffic is ps s (Machine.recheckResult e s) := by
  unfold Machine.recheckResult
  split
  · exact Traffic.refl _ _ _
  · exact (Traffic.of_eq rfl rfl).trans (Traffic.answerNow _ _ _ _ _)
  · exact Traffic.of_eq rfl rfl

theorem Keeps.recheckResult : Keeps s (Machine.recheckResult e s) := by
  unfold Machine.recheckResult
  split
  · exact Keeps.refl _
  · exact (Keeps.of_eq (t := freeResult e.1 s) rfl).trans (Keeps.answerNow _ _ _ _ _)
  · exact Keeps.of_eq rfl

theorem claimsGrow_recheckResult : ClaimsGrow s (recheckResult e s) := by
  unfold recheckResult
  split
  · exact ClaimsGrow.refl s
  · exact (ClaimsGrow.of_eq (t := freeResult e.1 s) rfl rfl).trans (ClaimsGrow.placeOwn _ _ _)
  · exact ClaimsGrow.of_eq rfl rfl

/-- Routes, generation and node ID are those before a re-check. -/
theorem routeOwn_recheckResult (n : NodeId) : routeOwn (recheckResult e s) n = routeOwn s n :=
  (congrArg (routeOwn · n) (besideShu_recheckResult e s) :)

theorem routeaFrame_recheckResult (dest : NodeId) (tag : Nat) (o : RouteOutcome) :
    routeaFrame (recheckResult e s) dest tag o (recheckResult e s).cmc.gen [] = routeaFrame s dest tag o s.cmc.gen [] :=
  (congrArg (fun x : State => routeaFrame x dest tag o x.cmc.gen []) (besideShu_recheckResult e s) :)

theorem tdb_recheckResult : (recheckResult e s).tdb = s.tdb := (congrArg State.tdb (besideShu_recheckResult e s) :)

theorem runsOf_recheckResult {i : Nat} (h : i ≠ e.1) : (recheckResult e s).shu.runsOf i = s.shu.runsOf i := by
  rw [shu_recheckResult]
  split
  · exact runsOf_free h
  · rfl

end

/-- The re-check of some results in order. -/
def recheckEach (l : List (Nat × Result)) (s : State) : State := l.foldl (fun t e => recheckResult e t) s

/-- The results with a run on a changed link. -/
def Shu.touched (v : Shu) (changed : List LinkKey) : List (Nat × Result) :=
  v.results.filter fun e => (v.runsOf e.1).any fun r => changed.contains r.key

theorem recheckAll_eq (changed : List LinkKey) (s : State) : recheckAll changed s = recheckEach (s.shu.touched changed) s := rfl

section
variable {l : List (Nat × Result)} {s : State}

theorem besideShu_recheckEach (l : List (Nat × Result)) (s : State) : (recheckEach l s).besideShu = s.besideShu :=
  foldl_keeps State.besideShu _ l s fun t e => besideShu_recheckResult e t

/-- Results of different indices are re-checked independently. -/
theorem shu_recheckEach (hl : l.Pairwise fun a b => a.1 ≠ b.1) :
    (recheckEach l s).shu = s.shu.freeAll ((l.filter (s.shu.frees s.tdb)).map (·.1)) := by
  induction l generalizing s with
  | nil => rfl
  | cons x l ih =>
    obtain ⟨hx, hl⟩ := List.pairwise_cons.1 hl
    have hsame : l.filter ((recheckResult x s).shu.frees (recheckResult x s).tdb) = l.filter (s.shu.frees s.tdb) :=
      List.filter_congr fun e he => by rw [Shu.frees, Shu.frees, tdb_recheckResult, runsOf_recheckResult x s (hx e he).symm]
    refine (ih (s := recheckResult x s) hl).trans ?_
    rw [hsame, shu_recheckResult, List.filter_cons]
    split
    · rfl
    · rfl

theorem shu_recheckEach_sub (l : List (Nat × Result)) (s : State) : (∀ e ∈ (recheckEach l s).shu.results, e ∈ s.shu.results) ∧
    (∀ e ∈ (recheckEach l s).shu.holds, e ∈ s.shu.holds) ∧ (recheckEach l s).shu.expired = s.shu.expired := by
  refine foldl_inv (fun t : State => (∀ e ∈ t.shu.results, e ∈ s.shu.results) ∧ (∀ e ∈ t.shu.holds, e ∈ s.shu.holds) ∧
    t.shu.expired = s.shu.expired) _ l s (fun t e ⟨hr, hh, hx⟩ => ?_) ⟨fun _ => id, fun _ => id, rfl⟩
  rw [shu_recheckResult]
  split
  · exact ⟨fun x hx => hr x (List.mem_filter.1 hx).1, fun x hx => hh x (List.mem_filter.1 hx).1, hx⟩
  · exact ⟨hr, hh, hx⟩

/-- A result that turns out stale is answered STALE by the routes and with the generation before the re-check (R188). -/
theorem claimedBy_recheckEach (hl : l.Pairwise fun a b => a.1 ≠ b.1) : ∀ e ∈ l,
    recheckOf s.tdb e.2.state (s.shu.runsOf e.1) = .stale →
      ClaimedBy s (routeaFrame s e.2.requester e.2.tag .stale s.cmc.gen []) (recheckEach l s) := by
  induction l generalizing s with
  | nil => intro e he; cases he
  | cons x l ih =>
    obtain ⟨hx, hl⟩ := List.pairwise_cons.1 hl
    intro e he hstale
    rcases List.mem_cons.1 he with rfl | he
    · have hstep : recheckResult e s = answerNow .shu e.2.requester e.2.tag .stale (freeResult e.1 s) := by
        unfold recheckResult; rw [hstale]
      have placed : ClaimedBy s (routeaFrame s e.2.requester e.2.tag .stale s.cmc.gen []) (recheckResult e s) := by
        rw [hstep]
        exact ClaimedBy.routed (claimed_placeOwn .shu (routeaFrame s e.2.requester e.2.tag .stale s.cmc.gen []) (freeResult e.1 s))
          fun n => by rw [← routeOwn_recheckResult e s n, hstep]; rfl
      exact placed.grows (ClaimsGrow.foldl _ (fun t y => claimsGrow_recheckResult y t) _ _)
    · have later := (ih (s := recheckResult x s) hl e he
        (by rw [tdb_recheckResult, runsOf_recheckResult x s (hx e he).symm]; exact hstale)).routed (r' := s)
        fun n => (routeOwn_recheckResult x s n).symm
      rwa [routeaFrame_recheckResult] at later

theorem Traffic.recheckEach {is : List NoticeId} {ps : List Port} (l : List (Nat × Result)) (s : State) :
    Traffic is ps s (Machine.recheckEach l s) := Traffic.foldl _ (fun t e => Traffic.recheckResult e t) l s

theorem Keeps.recheckEach (l : List (Nat × Result)) (s : State) : Keeps s (Machine.recheckEach l s) :=
  Keeps.foldl _ (fun t e => Keeps.recheckResult e t) l s

end

/-- A table in order lists different indices. -/
theorem pairwise_of_rising {α : Type} {t : List (Nat × α)} (h : Table.rising t = true) : t.Pairwise fun a b => a.1 ≠ b.1 :=
  ((rising_iff_pairwise t).1 h).imp Nat.ne_of_lt

end Sys2Proof.Machine
end

section
/-! SUPPORT. The promotion as a whole: its hand-offs, its notices, and what it leaves of the part (R113, R116, R198, R199). -/

namespace Sys2Proof.Machine

/-! ## Members of a detail (R192) -/

theorem eq_or_mem_of_mem_insertBy {α : Type} {lt : α → α → Bool} {a x : α} {l : List α} (h : x ∈ insertBy lt a l) : x = a ∨ x ∈ l := by
  induction l with
  | nil => exact Or.inl (List.mem_singleton.1 h)
  | cons b l ih =>
    rw [insertBy] at h
    split at h
    · exact List.mem_cons.1 h
    · split at h
      · rcases List.mem_cons.1 h with rfl | h
        · exact Or.inr List.mem_cons_self
        · exact (ih h).imp_right (List.mem_cons_of_mem b)
      · exact Or.inr h

theorem mem_or_mem_of_mem_addMembers {x : Member} {ms l : List Member} (h : x ∈ addMembers ms l) : x ∈ ms ∨ x ∈ l := by
  induction ms generalizing l with
  | nil => exact Or.inr h
  | cons m ms ih =>
    rcases ih (l := insertBy memberLt m l) h with h | h
    · exact Or.inl (List.mem_cons_of_mem m h)
    · exact (eq_or_mem_of_mem_insertBy h).imp_left fun e => by rw [e]; exact List.mem_cons_self

/-- An event adds its own members to a detail and no others. -/
theorem mem_detail_raise {i : NoticeId} {ms : List Member} {s : State} {x : Member}
    (h : x ∈ ((raise i ms s).ntu.source i).detail) : x ∈ ms ∨ x ∈ (s.ntu.source i).detail := by
  have hs : (raise i ms s).ntu.source i = (s.ntu.source i).raise ms none := by simp [raise]
  rw [hs, NoticeSource.raise] at h
  split at h
  · exact mem_or_mem_of_mem_addMembers h
  · exact Or.inl ((mem_or_mem_of_mem_addMembers h).resolve_right List.not_mem_nil)

/-! ## Watches (R198) -/

section
variable (a b : Tdb) (changed : List LinkKey)

/-- A watch fires at a promotion between two databases. -/
def WatchFires (w : Watch) : Prop := (w.mode = .any ∧ ∃ k ∈ w.keys, k ∈ changed) ∨
  (w.mode = .all ∧ (∃ k ∈ w.keys, a.linkActive k = true) ∧ ∀ k ∈ w.keys, b.linkActive k = false)

theorem fires_iff (w : Watch) : w.fires a b changed = true ↔ WatchFires a b changed w := by
  cases h : w.mode <;> simp [Watch.fires, WatchFires, h]

theorem mem_firing {n : Ntu} {m : Member} : m ∈ firing a b changed n ↔
    ∃ (i : Fin 8) (w : Watch), vget n.watches i = some w ∧ WatchFires a b changed w ∧ m = .watch i.val := by
  rw [firing, List.mem_filterMap]
  constructor
  · rintro ⟨i, -, h⟩
    split at h
    · cases h
    · rename_i w hw
      split at h
      · rename_i hf
        exact ⟨i, w, hw, (fires_iff a b changed w).1 hf, (Option.some.inj h).symm⟩
      · cases h
  · rintro ⟨i, w, hw, hf, rfl⟩
    refine ⟨i, mem_allDegrees i, ?_⟩
    rw [hw]
    exact if_pos ((fires_iff a b changed w).2 hf)

end

section
variable (a : Tdb) (changed : List LinkKey) (s : State)

theorem Traffic.raiseWatches {is : List NoticeId} {ps : List Port} (h : NoticeId.watch ∈ is) :
    Traffic is ps s (Machine.raiseWatches a changed s) := by
  unfold Machine.raiseWatches
  split
  · exact Traffic.refl _ _ _
  · exact Traffic.raise (Or.inl h) _ _

theorem Keeps.raiseWatches : Keeps s (Machine.raiseWatches a changed s) := by
  unfold Machine.raiseWatches
  split
  · exact Keeps.refl _
  · exact Keeps.raise _ _ _

theorem claims_raiseWatches : (raiseWatches a changed s).claims = s.claims := by
  unfold raiseWatches
  split <;> rfl

/-- Without watches nothing fires. -/
theorem raiseWatches_none (h : ∀ i, vget s.ntu.watches i = none) : raiseWatches a changed s = s := by
  have hf : firing a s.tdb changed s.ntu = [] := List.eq_nil_iff_forall_not_mem.2 fun m hm => by
    obtain ⟨i, w, hw, -⟩ := (mem_firing _ _ _).1 hm
    rw [h i] at hw; cases hw
  rw [raiseWatches, hf]

theorem raised_raiseWatches {m : Member} (h : m ∈ firing a s.tdb changed s.ntu) : Raised .watch m (raiseWatches a changed s) := by
  unfold raiseWatches
  split
  · rename_i hn; rw [hn] at h; cases h
  · rename_i hn; rw [hn] at h; exact raised_raise h s

theorem mem_detail_raiseWatches {m : Member} (h : m ∈ ((raiseWatches a changed s).ntu.source .watch).detail) :
    m ∈ firing a s.tdb changed s.ntu ∨ m ∈ (s.ntu.source .watch).detail := by
  unfold raiseWatches at h
  split at h
  · exact Or.inr h
  · rename_i hn
    rw [hn]; exact mem_detail_raise h

end

/-- A source outside the given ones keeps its detail. -/
theorem Traffic.detail {is : List NoticeId} {ps : List Port} {s t : State} (h : Traffic is ps s t) {i : NoticeId} (hi : i ∉ is)
    (hc : i ≠ .congestion) : (t.ntu.source i).detail = (s.ntu.source i).detail :=
  (congrArg NoticeSource.detail (h.2 i hi hc) :)

/-! ## The steps of a promotion -/

/-- The links a promotion changes. -/
def State.promotedLinks (u : State) : List LinkKey := changedLinks u.tdb (promoteTables u).tdb

/-- A promotion with its records committed, the generation incremented and COMMIT raised. -/
def State.committed (u : State) : State :=
  raiseCommit u.cmc.drainMembers (u.cmc.gen + 1) { promoteTables u with cmc := u.cmc.promoted u.promotedLinks }

/-- A promotion with its results re-checked. -/
def State.rechecked (u : State) : State := recheckEach (u.committed.shu.touched u.promotedLinks) u.committed

/-- A promotion with its watches looked at. -/
def State.watched (u : State) : State := raiseWatches u.tdb u.promotedLinks u.rechecked

theorem promote_eq (u : State) : promote u = handTree u.watched := by
  unfold promote
  simp only [cmc_promoteTables, recheckAll_eq]
  rfl

section
variable (u : State)

theorem besideShu_watched : u.watched.besideShu = { promoteTables u with cmc := u.cmc.promoted u.promotedLinks }.besideShu := by
  have h1 : u.watched.besideShu = u.rechecked.besideShu := by
    rw [State.besideShu, State.watched, blocks_raiseWatches]; rfl
  have h2 : u.committed.besideShu = { promoteTables u with cmc := u.cmc.promoted u.promotedLinks }.besideShu := by
    rw [State.besideShu, State.committed, blocks_raiseCommit]; rfl
  rw [h1, State.rechecked, besideShu_recheckEach, h2]

theorem shu_watched : u.watched.shu = u.rechecked.shu := shu_of_steady (steady_of_blocks (blocks_raiseWatches _ _ _))

/-- What the tables' promotion leaves alone. -/
theorem traffic_promoteTables {is : List NoticeId} {ps : List Port} : Traffic is ps u (promoteTables u) :=
  Traffic.of_eq (congrArg State.fsw (besideTables_promoteTables u) :) (congrArg State.ntu (besideTables_promoteTables u) :)

theorem traffic_committed {is : List NoticeId} {ps : List Port} (h : NoticeId.commit ∈ is) : Traffic is ps u u.committed :=
  (traffic_promoteTables u).trans ((Traffic.of_eq rfl rfl).trans (Traffic.raiseCommit h _ _ _))

theorem traffic_rechecked {is : List NoticeId} {ps : List Port} (h : NoticeId.commit ∈ is) : Traffic is ps u u.rechecked :=
  (traffic_committed u h).trans (Traffic.recheckEach _ _)

theorem shu_committed : u.committed.shu = u.shu := (congrArg State.shu (besideTables_promoteTables u) :)

end

/-! ## The promotion of a part with both lanes IDLE -/

/-- What a promotion leaves when its event has ended. -/
structure Promoted (u t : State) : Prop where
  tdb : t.tdb = (promoteTables u).tdb
  cmc : t.cmc = u.cmc.promoted u.promotedLinks
  rsv : t.rsv = { u.rsv with l0 := { u.rsv.l0 with work := .tree (u.cmc.gen + 1) }, treeJob := none }
  shu : t.shu = u.rechecked.shu
  standing : t.adm = u.adm ∧ t.dtu = u.dtu ∧ t.cfu = u.cfu
  rqu : t.rqu = u.rqu
  exclusions : t.tdb.exclusions = u.tdb.exclusions
  fwd : t.fsw.fwd = u.fsw.fwd
  seq : t.fle.seq = u.fle.seq
  watches : t.ntu.watches = u.ntu.watches
  after : Traffic [] [] u.watched t
  keeps : Keeps u.watched t

/-- The fields that stay where the tables alone change. -/
theorem keeps_of_besideTables {s t : State} (h : t.besideTables = s.besideTables) : t.rsv = s.rsv ∧ t.rqu = s.rqu ∧ t.adm = s.adm ∧
    t.dtu = s.dtu ∧ t.cfu = s.cfu ∧ t.fsw.fwd = s.fsw.fwd ∧ t.fle.seq = s.fle.seq ∧ t.tdb.exclusions = s.tdb.exclusions ∧
    t.ntu.watches = s.ntu.watches :=
  ⟨(congrArg State.rsv h :), (congrArg State.rqu h :), (congrArg State.adm h :), (congrArg State.dtu h :), (congrArg State.cfu h :),
    (congrArg (fun x : State => x.fsw.fwd) h :), (congrArg (fun x : State => x.fle.seq) h :),
    (congrArg (fun x : State => x.tdb.exclusions) h :), (congrArg (fun x : State => x.ntu.watches) h :)⟩

/-- The fields that stay where the results and the traffic alone change. -/
theorem keeps_of_besideShu {s t : State} (h : t.besideShu = s.besideShu) : t.tdb = s.tdb ∧ t.cmc = s.cmc ∧ t.rsv = s.rsv ∧
    t.rqu = s.rqu ∧ t.adm = s.adm ∧ t.dtu = s.dtu ∧ t.cfu = s.cfu ∧ t.fsw.fwd = s.fsw.fwd ∧ t.fle = s.fle ∧
    t.ntu.watches = s.ntu.watches :=
  ⟨(congrArg State.tdb h :), (congrArg State.cmc h :), (congrArg State.rsv h :), (congrArg State.rqu h :), (congrArg State.adm h :),
    (congrArg State.dtu h :), (congrArg State.cfu h :), (congrArg (fun x : State => x.fsw.fwd) h :), (congrArg State.fle h :),
    (congrArg (fun x : State => x.ntu.watches) h :)⟩

/-- The fields that the steps before the tree build keep. -/
theorem watched_keeps (u : State) : u.watched.rsv = u.rsv ∧ u.watched.rqu = u.rqu ∧ u.watched.adm = u.adm ∧ u.watched.dtu = u.dtu ∧
    u.watched.cfu = u.cfu ∧ u.watched.fsw.fwd = u.fsw.fwd ∧ u.watched.fle.seq = u.fle.seq ∧
    u.watched.tdb.exclusions = u.tdb.exclusions ∧ u.watched.ntu.watches = u.ntu.watches := by
  have ht := besideTables_promoteTables u
  have hb := besideShu_watched u
  generalize promoteTables u = v at *
  obtain ⟨h1, h2, h3, h4, h5, h6, h7, h8, h9⟩ := keeps_of_besideTables ht
  obtain ⟨ktdb, -, k1, k2, k3, k4, k5, k6, kfle, k9⟩ := keeps_of_besideShu hb
  exact ⟨k1.trans h1, k2.trans h2, k3.trans h3, k4.trans h4, k5.trans h5, k6.trans h6, (congrArg Fle.seq kfle).trans h7,
    (congrArg Tdb.exclusions ktdb).trans h8, k9.trans h9⟩

theorem tdb_watched (u : State) : u.watched.tdb = (promoteTables u).tdb := (keeps_of_besideShu (besideShu_watched u)).1

theorem cmc_watched (u : State) : u.watched.cmc = u.cmc.promoted u.promotedLinks := (keeps_of_besideShu (besideShu_watched u)).2.1

/-- The part with the tree build of a generation at work in L0. -/
def State.building (s : State) (g : Nat) : State :=
  { s with rsv := { s.rsv with l0 := { s.rsv.l0 with work := .tree g }, treeJob := none } }

section
variable (s : State) (g : Nat)

theorem building_keeps : (s.building g).tdb = s.tdb ∧ (s.building g).cmc = s.cmc ∧ (s.building g).shu = s.shu ∧
    (s.building g).rqu = s.rqu ∧ (s.building g).adm = s.adm ∧ (s.building g).dtu = s.dtu ∧ (s.building g).cfu = s.cfu ∧
    (s.building g).fsw = s.fsw ∧ (s.building g).fle = s.fle ∧ (s.building g).ntu = s.ntu :=
  ⟨rfl, rfl, rfl, rfl, rfl, rfl, rfl, rfl, rfl, rfl⟩

theorem traffic_building {is : List NoticeId} {ps : List Port} : Traffic is ps s (s.building g) := Traffic.of_eq rfl rfl

theorem keeps_building : Keeps s (s.building g) := Keeps.of_eq rfl

theorem claimsGrow_building : ClaimsGrow s (s.building g) := ClaimsGrow.of_eq rfl rfl

theorem routeOwn_building (n : NodeId) : routeOwn (s.building g) n = routeOwn s n := rfl

theorem nodeId_building : (s.building g).nodeId = s.nodeId := rfl

end

section
variable {u : State} (h0 : u.rsv.l0.work = .idle)
include h0

/-- The promotion before its event ends. -/
theorem promote_idle : promote u = u.watched.building (u.cmc.gen + 1) := by
  obtain ⟨hrsv, -⟩ := watched_keeps u
  have hgen : u.watched.cmc.gen = u.cmc.gen + 1 := by rw [cmc_watched]; rfl
  rw [promote_eq, handTree_idle (by rw [hrsv]; exact h0), hgen]
  rfl

theorem promoted_finish : Promoted u (finish (promote u)) := by
  obtain ⟨hrsv, hrqu, hadm, hdtu, hcfu, hfwd, hseq, hexcl, hw⟩ := watched_keeps u
  obtain ⟨btdb, bcmc, bshu, brqu, badm, bdtu, bcfu, bfsw, bfle, bntu⟩ := building_keeps u.watched (u.cmc.gen + 1)
  rw [promote_idle h0]
  constructor
  · rw [tdb_finish, btdb, tdb_watched]
  · rw [cmc_finish, bcmc, cmc_watched]
  · rw [rsv_finish, State.building, hrsv]
  · rw [shu_finish, bshu, shu_watched]
  · rw [adm_finish, dtu_finish, cfu_finish, badm, bdtu, bcfu]; exact ⟨hadm, hdtu, hcfu⟩
  · rw [rqu_finish, brqu, hrqu]
  · rw [tdb_finish, btdb, hexcl]
  · rw [fwd_finish, bfsw, hfwd]
  · rw [seq_of_steady (steady_finish _), bfle, hseq]
  · rw [watches_finish, bntu, hw]
  · exact (traffic_building _ _).trans (Traffic.finish _)
  · exact (keeps_building _ _).trans (Keeps.finish _)

end

/-! ## The notices of a promotion (R198, R199) -/

section
variable {u t : State} (h : Promoted u t)
include h

theorem Promoted.traffic : Traffic [.commit, .watch] [] u t :=
  (traffic_rechecked u (by simp)).trans ((Traffic.raiseWatches _ _ _ (by simp)).trans
    ⟨h.after.1, fun i _ hc => h.after.2 i List.not_mem_nil hc⟩)

theorem Promoted.traffic_unwatched (hw : ∀ i, vget u.ntu.watches i = none) : Traffic [.commit] [] u t := by
  have hwatched : u.watched = u.rechecked := raiseWatches_none _ _ _ fun i => by
    have : u.rechecked.ntu.watches = u.ntu.watches :=
      (congrArg (fun x : State => x.ntu.watches) (besideShu_recheckEach _ _) :).trans
        (congrArg (fun x : State => x.ntu.watches) (besideTables_promoteTables u) :)
    rw [this]; exact hw i
  have hafter := h.after
  rw [hwatched] at hafter
  exact (traffic_rechecked u (by simp)).trans ⟨hafter.1, fun i _ hc => hafter.2 i List.not_mem_nil hc⟩

theorem Promoted.firing_eq : firing u.tdb u.rechecked.tdb u.promotedLinks u.rechecked.ntu =
    firing u.tdb t.tdb t.cmc.changedLinks u.ntu := by
  have htdb : u.rechecked.tdb = t.tdb := (congrArg State.tdb (besideShu_recheckEach _ _) :).trans h.tdb.symm
  have hw : u.rechecked.ntu.watches = u.ntu.watches :=
    (congrArg (fun x : State => x.ntu.watches) (besideShu_recheckEach _ _) :).trans
      (congrArg (fun x : State => x.ntu.watches) (besideTables_promoteTables u) :)
  rw [htdb, h.cmc]
  unfold firing
  rw [hw]
  rfl

theorem Promoted.watch_raised {i : Fin 8} {w : Watch} (hw : vget u.ntu.watches i = some w)
    (hf : WatchFires u.tdb t.tdb t.cmc.changedLinks w) : Raised .watch (.watch i.val) t := by
  refine (raised_raiseWatches u.tdb u.promotedLinks u.rechecked ?_).keeps h.keeps
  rw [h.firing_eq]
  exact (mem_firing _ _ _).2 ⟨i, w, hw, hf, rfl⟩

theorem Promoted.watch_silent {i : Fin 8} {w : Watch} (hw : vget u.ntu.watches i = some w)
    (hf : ¬ WatchFires u.tdb t.tdb t.cmc.changedLinks w) (hm : Member.watch i.val ∈ (t.ntu.source .watch).detail) :
    Member.watch i.val ∈ (u.ntu.source .watch).detail := by
  rw [h.after.detail List.not_mem_nil (by decide)] at hm
  rcases mem_detail_raiseWatches _ _ _ hm with hm | hm
  · rw [h.firing_eq] at hm
    obtain ⟨j, x, hx, hfx, hij⟩ := (mem_firing _ _ _).1 hm
    obtain rfl : i = j := Fin.ext (Member.watch.inj hij)
    obtain rfl : w = x := Option.some.inj (hw.symm.trans hx)
    exact absurd hfx hf
  · rwa [(traffic_rechecked u (is := [.commit]) (ps := []) (by simp)).detail (by decide) (by decide)] at hm

/-- COMMIT as the promotion left it. -/
theorem Promoted.commit_source : ({ t.ntu.source .commit with sent := false } : NoticeSource) =
    { u.committed.ntu.source .commit with sent := false } := by
  have ht : Traffic [.watch] [] u.committed t :=
    (Traffic.recheckEach _ _).trans ((Traffic.raiseWatches _ _ _ (by simp)).trans
      ⟨h.after.1, fun i _ hc => h.after.2 i List.not_mem_nil hc⟩)
  exact ht.2 .commit (by decide) (by decide)

theorem Promoted.commit_raised : (t.ntu.source .commit).pending = true ∧ (t.ntu.source .commit).gen = some (u.cmc.gen + 1) ∧
    ∀ m ∈ u.cmc.drainMembers, Raised .commit m t := by
  have hs : u.committed.ntu.source .commit = ((promoteTables u).ntu.source .commit).raise u.cmc.drainMembers (some (u.cmc.gen + 1)) := by
    simp [State.committed, raiseCommit]
  have heq := h.commit_source
  rw [hs] at heq
  have hpending : (t.ntu.source .commit).pending = true := by
    refine (congrArg NoticeSource.pending heq :).trans ?_
    unfold NoticeSource.raise; split
    · assumption
    · rfl
  refine ⟨hpending, (congrArg NoticeSource.gen heq :).trans ?_, fun m hm => ⟨hpending, ?_⟩⟩
  · unfold NoticeSource.raise; split <;> rfl
  · rw [show (t.ntu.source .commit).detail = _ from (congrArg NoticeSource.detail heq :)]
    unfold NoticeSource.raise
    split <;> exact mem_addMembers _ _ _ hm

end

/-! ## The results across a promotion (R184, R185, R188) -/

section
variable {u t : State} (h : Promoted u t)
include h

theorem Promoted.results_sub : (∀ e ∈ t.shu.results, e ∈ u.shu.results) ∧ (∀ e ∈ t.shu.holds, e ∈ u.shu.holds) ∧
    t.shu.expired = u.shu.expired := by
  have hs := shu_recheckEach_sub (u.committed.shu.touched u.promotedLinks) u.committed
  rw [shu_committed] at hs
  rw [h.shu, State.rechecked, shu_committed]
  exact hs

/-- A result has a run on a changed link, and its re-check frees it. -/
def ResultFreed (u t : State) (e : Nat × Result) : Prop :=
  (∃ r ∈ u.shu.runsOf e.1, r.key ∈ t.cmc.changedLinks) ∧
    (ResultStale t.tdb e.2.state (u.shu.runsOf e.1) ∨ ResultSettled t.tdb e.2.state (u.shu.runsOf e.1))

theorem Promoted.mem_touched {e : Nat × Result} : e ∈ u.committed.shu.touched u.promotedLinks ↔
    e ∈ u.shu.results ∧ ∃ r ∈ u.shu.runsOf e.1, r.key ∈ t.cmc.changedLinks := by
  have hc : t.cmc.changedLinks = u.promotedLinks := by rw [h.cmc]; rfl
  rw [shu_committed, Shu.touched, List.mem_filter, List.any_eq_true, hc]
  simp only [List.contains_iff_mem]

theorem Promoted.tdb_committed : u.committed.tdb = t.tdb := h.tdb.symm

omit h in
theorem touched_pairwise (ht : Table.rising u.shu.results = true) : (u.committed.shu.touched u.promotedLinks).Pairwise fun a b => a.1 ≠ b.1 := by
  rw [shu_committed]
  exact (pairwise_of_rising ht).filter _

variable (ht : Table.rising u.shu.results = true)
include ht

/-- The indices freed are those of the results that the re-check frees. -/
theorem Promoted.shu_eq : ∃ is, t.shu = u.shu.freeAll is ∧ ∀ e ∈ u.shu.results, e.1 ∈ is ↔ ResultFreed u t e := by
  refine ⟨((u.committed.shu.touched u.promotedLinks).filter (u.committed.shu.frees u.committed.tdb)).map (·.1),
    h.shu.trans ((shu_recheckEach (touched_pairwise ht)).trans (congrArg (Shu.freeAll _) (shu_committed u))), fun e he => ?_⟩
  have hfrees : ∀ x, u.committed.shu.frees u.committed.tdb x = true ↔ ResultStale t.tdb x.2.state (u.shu.runsOf x.1) ∨
      ResultSettled t.tdb x.2.state (u.shu.runsOf x.1) := fun x => by
    rw [Shu.frees, decide_eq_true_eq, recheckOf_kept_iff, h.tdb_committed, shu_committed]
  rw [List.mem_map]
  constructor
  · rintro ⟨x, hx, hi⟩
    obtain ⟨hx, hgo⟩ := List.mem_filter.1 hx
    obtain ⟨hx, hmet⟩ := h.mem_touched.1 hx
    obtain rfl := entry_unique ht hx he hi
    exact ⟨hmet, (hfrees x).1 hgo⟩
  · rintro ⟨hmet, hgo⟩
    exact ⟨e, List.mem_filter.2 ⟨h.mem_touched.2 ⟨he, hmet⟩, (hfrees e).2 hgo⟩, rfl⟩

theorem Promoted.result_freed {e : Nat × Result} (he : e ∈ u.shu.results) (hf : ResultFreed u t e) :
    e ∉ t.shu.results ∧ ∀ x ∈ t.shu.holds, x.2.result ≠ e.1 := by
  obtain ⟨is, hs, hmem⟩ := h.shu_eq ht
  have hi := (hmem e he).2 hf
  rw [hs]
  refine ⟨fun k => (mem_results_freeAll.1 k).2 hi, fun x hx hr => ?_⟩
  have hn := (mem_holds_freeAll.1 hx).2
  rw [hr] at hn
  exact hn hi

theorem Promoted.result_kept {e : Nat × Result} (he : e ∈ u.shu.results) (hf : ¬ ResultFreed u t e) :
    e ∈ t.shu.results ∧ ∀ x ∈ u.shu.holds, x.2.result = e.1 → x ∈ t.shu.holds := by
  obtain ⟨is, hs, hmem⟩ := h.shu_eq ht
  have hi := mt (hmem e he).1 hf
  rw [hs]
  exact ⟨mem_results_freeAll.2 ⟨he, hi⟩, fun x hx hr => mem_holds_freeAll.2 ⟨hx, by rw [hr]; exact hi⟩⟩

end

/-- A result whose re-check finds it stale is answered STALE (R188). -/
theorem promote_answers_stale {u : State} (h0 : u.rsv.l0.work = .idle) (ht : Table.rising u.shu.results = true) {e : Nat × Result}
    (he : e ∈ u.shu.results) (hmet : ∃ r ∈ u.shu.runsOf e.1, r.key ∈ (finish (promote u)).cmc.changedLinks)
    (hs : ResultStale (finish (promote u)).tdb e.2.state (u.shu.runsOf e.1)) :
    RouteAnswered e.2.requester e.2.tag .stale (u.cmc.gen + 1) [] (finish (promote u)) := by
  have h := promoted_finish h0
  have hstale : recheckOf u.committed.tdb e.2.state (u.committed.shu.runsOf e.1) = .stale := by
    rw [recheckOf_stale_iff, h.tdb_committed, shu_committed]; exact hs
  have claimed := claimedBy_recheckEach (touched_pairwise ht) e (h.mem_touched.2 ⟨he, hmet⟩) hstale
  have grown : ClaimsGrow u.rechecked (promote u) := by
    rw [promote_idle h0]
    exact (ClaimsGrow.of_keeps (claims_raiseWatches _ _ _) (Keeps.raiseWatches _ _ _)).trans (claimsGrow_building u.watched _)
  have same : u.watched.besideShu = u.committed.besideShu := by
    rw [State.besideShu, State.watched, blocks_raiseWatches]
    exact besideShu_recheckEach _ _
  obtain ⟨-, -, -, -, hadm, -, hcfu, hfwd, -⟩ := keeps_of_besideShu same
  have hnode : (promote u).nodeId = u.committed.nodeId := by
    rw [promote_idle h0, nodeId_building, State.nodeId, hcfu]; rfl
  have hroute (n : NodeId) : routeOwn (promote u) n = routeOwn u.committed n := by
    rw [promote_idle h0, routeOwn_building]
    exact routeOwn_congr (by rw [State.nodeId, hcfu]; rfl) hfwd (fun d => by rw [State.adjacency, hadm]; rfl) n
  exact routeAnswered_finish ((claimed.grows grown).routed (r' := promote u) hroute) hnode

end Sys2Proof.Machine

open Sys2Proof Sys2Proof.Machine

/-- Settles O44, by the steps of a promotion: the tables, the changed links, the results re-checked each by itself, the watches and the
tree build. -/
theorem promotionCommitsPendingParts : Obligations.PromotionCommitsPendingParts := by
  intro s u hu
  refine ⟨fun hn => ?early, fun hd h0 h1 => ?due⟩
  case early =>
    have hdue : promotionDue u = false := by
      rw [Bool.eq_false_iff]
      intro k
      simp only [promotionDue, Lane.isIdle, Bool.and_eq_true, beq_iff_eq] at k
      exact hn ⟨k.1.1, k.1.2, k.2⟩
    show Host.Outcome.next (promoteDue (claimAll s)) = _
    rw [← hu, promoteDue, hdue]
    rfl
  case due =>
    intro runs goneNode goneLink removes
    have run : exec .promotion s = .next (finish (promote u)) := by
      show Host.Outcome.next (promoteDue (claimAll s)) = _
      rw [← hu, promoteDue, if_pos (by simp [promotionDue, Lane.isIdle, hd, h0, h1])]
    have h := promoted_finish h0
    have stale := fun ht e he => promote_answers_stale (u := u) (e := e) h0 ht he
    generalize finish (promote u) = t at *
    have hc {α : Type} (π : Cmc → α) : π t.cmc = π (u.cmc.promoted u.promotedLinks) := congrArg π h.cmc
    obtain ⟨hpending, hgen, hmembers⟩ := h.commit_raised
    obtain ⟨hres, hholds, hexpired⟩ := h.results_sub
    have nodes := fun e => mem_nodes_promoted u (e := e)
    have links := fun e => mem_links_promoted u (e := e)
    rw [← h.tdb] at nodes links
    have hrem : (u.tdb.removedByPromotion.isEmpty = true) ↔ ¬ removes := by
      rw [List.isEmpty_iff]; exact (not_iff_not.2 removed_ne_nil).symm.trans not_not |>.symm
    refine ⟨t, run, hc Cmc.gen, hc Cmc.normalReq, hc Cmc.urgentReq, hc Cmc.state, hc Cmc.freeze, fun e he => ?nodes, fun e he => ?links,
      fun e' he' hg e he => ?goneNode, fun e' he' hg e he => ?goneLink, fun e' he' hk => ?keptNode, fun e' he' hk => ?keptLink,
      fun hr => ?_, fun hr => ?_, fun k => ?changed, fun hok e he => ?results, hres, hholds, hexpired,
      fun i w hw => ⟨h.watch_raised hw, h.watch_silent hw⟩, h.watches, h.traffic_unwatched, ?_, ?_, ?_, hpending, hgen,
      fun hf => hmembers _ ?_, fun hm => hmembers _ ?_, h.traffic, h.standing.1, h.standing.2.1, h.standing.2.2, h.rqu, h.exclusions,
      h.fwd, h.seq⟩
    case nodes =>
      obtain ⟨x, hx, -, rfl⟩ := (nodes e).1 he
      refine ⟨x, hx, rfl, rfl, rfl, fun hr => ?_, fun hr => ?_⟩
      · rw [Bool.eq_false_iff.2 (mt hrem.1 (not_not.2 hr)), Bool.and_false]
      · rw [hrem.2 hr, Bool.and_true]
    case links =>
      obtain ⟨x, hx, -, rfl⟩ := (links e).1 he
      exact ⟨x, hx, rfl, rfl, rfl⟩
    case goneNode =>
      obtain ⟨x, -, hx, rfl⟩ := (nodes e).1 he
      exact fun hid => hx e' he' hid.symm hg
    case goneLink =>
      obtain ⟨x, -, hx, rfl⟩ := (links e).1 he
      exact fun hkey => hx e' he' hkey.symm hg
    case keptNode => exact ⟨_, (nodes _).2 ⟨e', he', hk, rfl⟩, rfl, rfl⟩
    case keptLink => exact ⟨_, (links _).2 ⟨e', he', hk, rfl⟩, rfl, rfl⟩
    case changed =>
      rw [hc Cmc.changedLinks, h.tdb]
      exact mem_changedLinks _ _
    case results =>
      intro slot unusable met isStale settled
      have ht : Table.rising u.shu.results = true := hok.2.2.2.1.1
      exact ⟨fun hmet hst => stale ht e he hmet hst, fun hmet hgo => h.result_freed ht he ⟨hmet, hgo⟩,
        fun hn => h.result_kept ht he hn⟩
    · rw [h.tdb]; exact incomplete_promoteTables u hr
    · rw [h.tdb]; exact incomplete_promoteTables_kept u hr
    · rw [h.rsv]
    · rw [h.rsv]
    · rw [h.rsv]
    · simp [Cmc.drainMembers, hf]
    · simp [Cmc.drainMembers, hm]

end

section
/-! SUPPORT. The own records originated in emptied tables: nothing else is held, nothing is refused, no pull is open (R61 to R65, R83
to R86, R120). -/

namespace Sys2Proof.Machine

/-! ## Flood lists without a pull or a round -/

/-- A degree's lists hold no pull entry and no waiting PULL, and no round runs. -/
def FleDegree.Idle (x : FleDegree) : Prop := x.pulls = [] ∧ x.waiting = [] ∧ x.round = none

theorem FleDegree.Idle.addKey {x : FleDegree} (h : x.Idle) (k : RecordKey) : (x.addKey k).Idle := by
  unfold FleDegree.addKey
  split
  · exact h
  · exact h

theorem FleDegree.Idle.dropPulls_eq {x : FleDegree} (h : x.Idle) (o : NodeId) (hit : PullEntry → Bool) : x.dropPulls o hit = x := by
  simp [FleDegree.dropPulls, h.1]

/-- Every degree's lists are idle. -/
def FloodIdle (s : State) : Prop := ∀ d, (s.flood d).Idle

theorem FloodIdle.addKeyUp {s : State} (h : FloodIdle s) (b : Option Degree) (k : RecordKey) : FloodIdle (addKeyUp b k s) := fun d => by
  rw [Machine.addKeyUp, flood_mapFlood]
  split
  · exact (h d).addKey k
  · exact h d

theorem FloodIdle.afterWrite {s t : State} (h : FloodIdle s) (ht : t.fle = s.fle) (o : NodeId) : FloodIdle (afterWrite o t) := fun d => by
  rw [Machine.afterWrite, checkPulls, flood_mapFlood]
  have hd : ((noteChange t).flood d).Idle := by
    show (vget t.fle.degrees d).Idle
    rw [ht]; exact h d
  rw [hd.dropPulls_eq]
  exact hd

/-! ## Tables with the own records alone -/

/-- The records held are the own ones, originated and never committed: the node record, and link records of the degrees listed; no pull
is open and no round runs. -/
structure OwnRecords (ds : List Degree) (s : State) : Prop where
  nodes : ∀ e ∈ s.tdb.nodes, e.2.id = s.nodeId ∧ e.2.ver.committed = none ∧ e.2.ver.domain = 0
  links : ∀ e ∈ s.tdb.links, e.2.ver.committed = none ∧ e.2.ver.domain = 0 ∧ ∃ d ∈ ds, e.2.key = ⟨s.nodeId, d.val⟩
  incomplete : s.tdb.incomplete = []
  length : s.tdb.links.length ≤ ds.length
  idle : FloodIdle s

theorem OwnRecords.of_eq {ds : List Degree} {s t : State} (h : OwnRecords ds s) (ht : t.tdb = s.tdb) (hc : t.cfu = s.cfu)
    (hf : FloodIdle t) : OwnRecords ds t := by
  have hn : t.nodeId = s.nodeId := by rw [State.nodeId, hc]; rfl
  exact ⟨by rw [ht, hn]; exact h.nodes, by rw [ht, hn]; exact h.links, by rw [ht]; exact h.incomplete, by rw [ht]; exact h.length, hf⟩

section
variable {ds : List Degree} {s : State} {d : Degree}

theorem OwnRecords.fits (h : OwnRecords ds s) (hl : ds.length < 2048) (d : Degree) : OwnLinkFits d s := by
  unfold OwnLinkFits
  cases hf : s.tdb.findLink ⟨s.nodeId, d.val⟩ with
  | some e => exact (h.links e (List.mem_of_find?_eq_some hf)).2.1
  | none =>
    exact ⟨fun e he => (h.nodes e (List.mem_of_find?_eq_some he)).2.2, Nat.lt_of_le_of_lt h.length hl⟩

theorem OwnRecords.findLink_none (h : OwnRecords ds s) (hd : d ∉ ds) : s.tdb.findLink ⟨s.nodeId, d.val⟩ = none := by
  refine List.find?_eq_none.2 fun e he hk => hd ?_
  obtain ⟨-, -, d', hd', hkey⟩ := h.links e he
  rw [hkey, beq_iff_eq] at hk
  exact Fin.ext (LinkKey.mk.inj hk).2 ▸ hd'

/-- An own link record that fits is stored under one index, with a committed part only where the record held had one. -/
theorem writeLink_uncommitted (p : Part LinkContent) (age : Nat) (hf : OwnLinkFits d s)
    (hc : ∀ e ∈ s.tdb.links, e.2.ver.committed = none) : ∃ i r,
    writeLink ⟨⟨s.nodeId, d.val⟩, 0, none, p, age⟩ s =
      (afterWrite s.nodeId { s with tdb := { s.tdb with links := tput s.tdb.links i r } }, true) ∧
    r.key = ⟨s.nodeId, d.val⟩ ∧ r.ver.committed = none ∧ r.ver.domain = 0 := by
  obtain ⟨links, hw, -⟩ := writeLink_own p age hf
  have hok : (writeLink ⟨⟨s.nodeId, d.val⟩, 0, none, p, age⟩ s).2 = true := by rw [hw]
  clear hw
  unfold writeLink at hok ⊢
  dsimp only at hok ⊢
  split at hok
  case h_1 i r hk =>
    split at hok
    · cases hok
    · rename_i hd
      rw [if_neg hd]
      have hdom : r.ver.domain = 0 := by simpa using hd
      have hcom : r.ver.committed = none := hc _ (List.mem_of_find?_eq_some hk)
      exact ⟨i, _, rfl, (key_of_findLink hk : r.key = _), hcom, hdom⟩
  case h_2 hk =>
    split at hok
    · cases hok
    · rename_i h1
      rw [if_neg h1]
      split at hok
      · cases hok
      · rename_i h2
        rw [if_neg h2]
        split at hok
        · cases hok
        · rename_i h3
          rw [if_neg h3]
          split at hok
          · cases hok
          · rename_i i hi
            exact ⟨i, _, rfl, rfl, rfl, rfl⟩

theorem OwnRecords.writeLink (h : OwnRecords ds s) (hl : ds.length < 2048) (p : Part LinkContent) (age : Nat) :
    OwnRecords (d :: ds) (writeLink ⟨⟨s.nodeId, d.val⟩, 0, none, p, age⟩ s).1 ∧
      Traffic [.sequence] [] s (Machine.writeLink ⟨⟨s.nodeId, d.val⟩, 0, none, p, age⟩ s).1 := by
  obtain ⟨i, r, hw, hk, hc, hd⟩ := writeLink_uncommitted p age (h.fits hl d) fun e he => (h.links e he).1
  rw [hw]
  refine ⟨⟨h.nodes, fun e he => ?_, h.incomplete, (length_tput_le _ _ _).trans (Nat.succ_le_succ h.length), ?_⟩,
    Traffic.of_eq rfl rfl⟩
  · rcases mem_tput_of_mem he with rfl | he
    · exact ⟨hc, hd, d, List.mem_cons_self, hk⟩
    · obtain ⟨h1, h2, d', hd', h3⟩ := h.links e he
      exact ⟨h1, h2, d', List.mem_cons_of_mem _ hd', h3⟩
  · refine FloodIdle.afterWrite h.idle ?_ _
    rfl

theorem OwnRecords.mono {ds' : List Degree} (h : OwnRecords ds s) (hs : ds ⊆ ds') (hl : ds.length ≤ ds'.length) : OwnRecords ds' s :=
  { h with
    links := fun e he => by
      obtain ⟨h1, h2, d, hd, h3⟩ := h.links e he
      exact ⟨h1, h2, d, hs hd, h3⟩
    length := h.length.trans hl }

theorem OwnRecords.raise (h : OwnRecords ds s) : OwnRecords ds (raise .sequence [.exhausted] s) := h.of_eq rfl rfl h.idle

/-- The origination of an own link record, live or exhausted, among own records alone. -/
theorem OwnRecords.originateLink (h : OwnRecords ds s) (hl : ds.length < 2048) (d : Degree) :
    OwnRecords (d :: ds) (originateLink d s) ∧ Traffic [.sequence] [] s (Machine.originateLink d s) := by
  rcases Nat.lt_or_ge 0xFFFFFFF0 s.fle.seq with hs | hs
  · rw [originateLink_spent hs]
    have hr : Traffic [.sequence] [] s (Machine.raise .sequence [.exhausted] s) := Traffic.raise (Or.inl (by simp)) _ _
    split
    · exact ⟨h.raise.mono (List.subset_cons_self _ _) (Nat.le_succ _), hr⟩
    · obtain ⟨hw, ht⟩ := h.raise.writeLink (d := d) hl _ _
      exact ⟨hw, hr.trans ht⟩
  · rw [originateLink_live (live_iff.2 hs)]
    obtain ⟨hw, ht⟩ := (h.of_eq (t := takeSeq s) rfl rfl h.idle).writeLink (d := d) hl (ownLinkPart d s) (ownLinkAge d s)
    have ht' := (Traffic.of_eq (is := [.sequence]) (ps := []) (t := takeSeq s) rfl rfl).trans ht
    split
    · exact ⟨hw.of_eq rfl rfl (hw.idle.addKeyUp _ _), ht'.trans (Traffic.of_eq rfl rfl)⟩
    · exact ⟨hw, ht'⟩

theorem OwnRecords.originateLinks {l : List Degree} (h : OwnRecords ds s) (hl : ds.length + l.length < 2048) :
    OwnRecords (l.reverse ++ ds) (originateLinks l s) ∧ Traffic [.sequence] [] s (Machine.originateLinks l s) := by
  induction l generalizing ds s with
  | nil => exact ⟨h, Traffic.refl _ _ _⟩
  | cons d l ih =>
    rw [List.length_cons] at hl
    obtain ⟨hd, ht⟩ := h.originateLink (by omega) d
    obtain ⟨hr, ht'⟩ := ih hd (by rw [List.length_cons]; omega)
    rw [List.reverse_cons, List.append_assoc]
    exact ⟨hr, ht.trans ht'⟩

/-! ## The origination of the own node record -/

theorem nodes_firstNode (s : State) (p : Part NodeContent) :
    (s.firstNode p).tdb.nodes = [(0, ⟨s.nodeId, Versions.insert 0 p Config.fullAge none, false⟩)] := rfl

theorem OwnRecords.firstNode (h : NoRecords s) (hi : FloodIdle s) (p : Part NodeContent) : OwnRecords [] (s.firstNode p) where
  nodes := fun e he => by
    rw [nodes_firstNode, List.mem_singleton] at he
    subst he
    exact ⟨rfl, rfl, rfl⟩
  links := fun e he => by
    rw [show (s.firstNode p).tdb.links = s.tdb.links from rfl, h.links] at he
    cases he
  incomplete := rfl
  length := (congrArg List.length h.links).le
  idle := by
    rw [State.firstNode]
    refine FloodIdle.afterWrite hi ?_ _
    rfl

/-- The part of the own node record originated in empty tables (R84, R85). -/
def firstNodePart (s : State) : Part NodeContent := ⟨min s.fle.seq 0xFFFFFFF0, .active, ownNodeContent s⟩

theorem nodeStored_firstNode (s : State) (p : Part NodeContent) : NodeStored s.nodeId p (s.firstNode p).tdb.nodes :=
  ⟨0, ⟨0, none, none, none, 0, none⟩, false, by
    rw [nodes_firstNode]
    simp [Versions.insert, Config.fullAge], rfl⟩

theorem OwnRecords.originateNode (h : NoRecords s) (hi : FloodIdle s) : OwnRecords [] (originateNode s) ∧
    Traffic [.sequence] [] s (Machine.originateNode s) ∧ NodeStored s.nodeId (firstNodePart s) (Machine.originateNode s).tdb.nodes := by
  by_cases hl : s.fle.seq ≤ 0xFFFFFFF0
  · have hw := OwnRecords.firstNode (s := takeSeq s) ⟨h.1, h.2, h.3⟩ hi ⟨s.fle.seq, .active, ownNodeContent s⟩
    have hn := nodeStored_firstNode (takeSeq s) ⟨s.fle.seq, .active, ownNodeContent s⟩
    rw [originateNode_first_live h hl, firstNodePart, min_eq_left hl]
    exact ⟨hw.of_eq rfl rfl (hw.idle.addKeyUp _ _), Traffic.of_eq rfl rfl, hn⟩
  · have hw := OwnRecords.firstNode (s := Machine.raise .sequence [.exhausted] s) ⟨h.1, h.2, h.3⟩ hi
      ⟨Config.lastSequence, .active, ownNodeContent s⟩
    have hn := nodeStored_firstNode (Machine.raise .sequence [.exhausted] s) ⟨Config.lastSequence, .active, ownNodeContent s⟩
    rw [originateNode_first_exhausted h hl, firstNodePart, min_eq_right (Nat.le_of_not_le hl)]
    exact ⟨hw, (Traffic.raise (Or.inl (by simp)) _ _).trans (Traffic.of_eq rfl rfl), hn⟩

end

/-! ## All own records originated in emptied tables -/

section
variable {s : State} (h : NoRecords s) (hi : FloodIdle s)
include h hi

theorem ownRecords_originateAll : OwnRecords s.upDegrees.reverse (originateAll s) ∧ Traffic [.sequence] [] s (originateAll s) ∧
    NodeStored s.nodeId (firstNodePart s) (originateAll s).tdb.nodes := by
  obtain ⟨hn, ht, hp⟩ := OwnRecords.originateNode h hi
  have hlen := length_upDegrees_le s
  obtain ⟨hr, ht'⟩ := hn.originateLinks (l := s.upDegrees) (by rw [List.length_nil]; omega)
  have hid := nodeId_of_beside (beside_originateNode s)
  rw [List.append_nil] at hr
  rw [← hid] at hp ⊢
  exact ⟨hr, ht.trans ht', hp.originateLinks⟩

end

end Sys2Proof.Machine
end

section
/-! SUPPORT. The restart of a flush: the own link records, a round on every UP degree and the normal request (R84, R97, R104, R107,
R109, R120). -/

namespace Sys2Proof.Machine

/-! ## The own link records in emptied tables -/

section
variable {e : Degree} {c : LinkContent} {s : State} (h : NoRecords s)
include h

theorem findLink_of_noRecords (k : LinkKey) : s.tdb.findLink k = none := by rw [Tdb.findLink, h.links]; rfl

theorem ownLinkFits_of_noRecords (e : Degree) : OwnLinkFits e s := by
  rw [OwnLinkFits, findLink_of_noRecords h, Tdb.findNode, h.nodes, h.links]
  exact ⟨fun e he => by simp at he, by simp⟩

/-- The own link record of a degree in UP with its neighbour known, originated in emptied tables with the counter exhausted (R84). -/
theorem originateAll_link_exhausted (hi : FloodIdle s) (ht : TablesOk s) (hup : s.isUp e = true) (hc : ownLinkContent s e = some c)
    (hl : 0xFFFFFFF0 < s.fle.seq) :
    LinkStored ⟨s.nodeId, e.val⟩ ⟨0xFFFFFFF0, .active, c⟩ 3600 (originateAll s).tdb.links := by
  have hpre := length_before_le s e
  have hnotPre : e ∉ s.upDegrees.filter (· < e) := by simp
  have hnotPost : e ∉ s.upDegrees.filter (e < ·) := by simp
  rw [originateAll_around hup]
  generalize s.upDegrees.filter (· < e) = pre at *
  generalize s.upDegrees.filter (e < ·) = post at *
  have hb0 := beside_originateNode s
  have hseq0 : 0xFFFFFFF0 < (originateNode s).fle.seq := by rw [(originateNode_exhausted hl).1]; exact hl
  have ht0 := (Sound.originateNode s).tables ht
  have ho0 := (OwnRecords.originateNode h hi).1
  generalize originateNode s = s0 at *
  have hb1 := (linksOriginated_originateLinks pre s0).beside.trans hb0
  have hseq1 : 0xFFFFFFF0 < (originateLinks pre s0).fle.seq := by rw [(originateLinks_exhausted pre hseq0).1]; exact hseq0
  have ht1 := (linksOriginated_originateLinks pre s0).sound.tables ht0
  have hown := (ho0.originateLinks (l := pre) (by rw [List.length_nil]; omega)).1
  rw [List.append_nil] at hown
  generalize originateLinks pre s0 = s1 at *
  have hn1 := nodeId_of_beside hb1
  have hc1 := (ownLinkContent_of_beside hb1 e).trans hc
  have hnone := hown.findLink_none (d := e) (by rwa [List.mem_reverse])
  have hpart : spentLinkPart e s1 = some ⟨0xFFFFFFF0, .active, c⟩ := by rw [spentLinkPart, hnone, hc1]; rfl
  have hfits := hown.fits (by rw [List.length_reverse]; omega) e
  have hstored : LinkStored ⟨s1.nodeId, e.val⟩ ⟨0xFFFFFFF0, .active, c⟩ 3600 (originateLink e s1).tdb.links := by
    obtain ⟨links, hw, hs, -⟩ := writeLink_own (s := raise .sequence [.exhausted] s1) ⟨0xFFFFFFF0, .active, c⟩ 3600 hfits
    rw [originateLink_spent hseq1, hpart]
    exact (congrArg (fun r : State × Bool => LinkStored ⟨s1.nodeId, e.val⟩ ⟨0xFFFFFFF0, .active, c⟩ 3600 r.1.tdb.links) hw).mpr hs
  have ho2 := linksOriginated_originateLink e s1
  have hkeep := (linksOriginated_originateLinks post (originateLink e s1)).link (ho2.sound.tables ht1) ⟨s1.nodeId, e.val⟩
    (by rw [nodeId_of_beside ho2.beside]; exact ownKey_not_mem hnotPost)
  rw [← hn1]
  obtain ⟨i, v, hfind, hv⟩ := hstored
  exact ⟨i, v, hkeep.trans hfind, hv⟩

end

/-! ## A round on every degree of a list -/

/-- A tally round started on every degree of a list. -/
def startRounds (l : List Degree) (s : State) : State := l.foldl (fun t d => startRound d t) s

theorem startRounds_eq (l : List Degree) (s : State) :
    startRounds l s = { s with fle := { s.fle with degrees := (startRounds l s).fle.degrees } } := by
  induction l generalizing s with
  | nil => rfl
  | cons d l ih => exact ih (startRound d s)

/-- A degree's lists with a tally round started. -/
def FleDegree.started (s : State) (x : FleDegree) : FleDegree :=
  { x with round := some 1, tallyTimer := some (s.now + s.cfu.params.tallyInterval * 1000) }

theorem flood_startRounds (l : List Degree) (s : State) (e : Degree) :
    (startRounds l s).flood e = if e ∈ l then (s.flood e).started s else s.flood e := by
  induction l generalizing s with
  | nil => rfl
  | cons d l ih =>
    have hd : (startRound d s).flood e = if d = e then (s.flood d).started s else s.flood e := flood_setFlood _ _ _ _
    have hstarted (x : FleDegree) : x.started (startRound d s) = x.started s := rfl
    refine (ih (startRound d s)).trans ?_
    rw [hd, hstarted]
    by_cases hde : d = e
    · subst hde
      have : ((s.flood d).started s).started s = (s.flood d).started s := rfl
      simp [this]
    · simp [hde, Ne.symm hde]

/-! ## The normal request -/

theorem cmc_normalRequest_kept (s : State) : (normalRequest s).cmc.urgentReq = s.cmc.urgentReq ∧
    (normalRequest s).cmc.freeze = s.cmc.freeze ∧ (normalRequest s).cmc.changedLinks = s.cmc.changedLinks := by
  unfold normalRequest
  dsimp only
  split
  · split
    · exact ⟨rfl, rfl, rfl⟩
    · exact ⟨rfl, rfl, rfl⟩
  · exact ⟨rfl, rfl, rfl⟩
  · exact ⟨rfl, rfl, rfl⟩

theorem state_normalRequest_frozen {s : State} (hi : s.cmc.state = .idle) (hf : s.cmc.freeze = true) :
    (normalRequest s).cmc.state = .idle := by
  have hfrozen : s.cmc.frozen = true := by rw [Cmc.frozen, hf]; rfl
  have hn : normalRequest s = { s with cmc := { s.cmc with normalReq := true } } := by
    simp only [normalRequest, hi]
    exact if_pos hfrozen
  rw [hn]; exact hi

/-! ## The restart -/

/-- What the restart of a flush leaves of the emptied part, and of the part with the own records originated. -/
structure Restarted (z x y : State) : Prop where
  adm : y.adm = z.adm
  cfu : y.cfu = z.cfu
  dtu : y.dtu = z.dtu
  rqu : y.rqu = z.rqu
  rsv : y.rsv = z.rsv
  shu : y.shu = z.shu
  fwd : y.fsw.fwd = z.fsw.fwd
  fwdGen : y.fsw.fwdGen = z.fsw.fwdGen
  exclusions : y.tdb.exclusions = z.tdb.exclusions
  watches : y.ntu.watches = z.ntu.watches
  slotMaps : y.fle.slotMaps = z.fle.slotMaps
  refresh : y.fle.refreshTimer = some (z.now + z.cfu.params.refreshInterval * 1000)
  seq : y.fle.seq = x.fle.seq
  tdb : y.tdb = x.tdb
  gen : y.cmc.gen = z.cmc.gen
  normalReq : y.cmc.normalReq = true
  urgentReq : y.cmc.urgentReq = z.cmc.urgentReq
  freeze : y.cmc.freeze = z.cmc.freeze
  changedLinks : y.cmc.changedLinks = z.cmc.changedLinks
  settling : z.cmc.state = .idle → z.cmc.frozen = false → y.cmc.state = .settling
  idle : z.cmc.state = .idle → z.cmc.freeze = true → y.cmc.state = .idle
  flood : ∀ d, y.flood d = if z.isUp d = true then (x.flood d).started z else x.flood d
  grows : ClaimsGrow z y
  keeps : Keeps x y
  traffic : Traffic [] [] x y

/-- The own records originated, the refresh timer restarted and a round started on every UP degree. -/
def State.restarted (z : State) : State := startRounds z.upDegrees (originateAll z).refreshed

theorem flushRestart_eq_restarted (z : State) : flushRestart z = normalRequest z.restarted := by
  have hups : (originateAll z).refreshed.upDegrees = z.upDegrees := (congrArg State.upDegrees (beside_originateAll z) :)
  rw [State.restarted, ← hups]
  rfl

theorem restarted_flushRestart (z : State) : Restarted z (originateAll z) (flushRestart z) := by
  rw [flushRestart_eq_restarted, State.restarted]
  have hb := beside_originateAll z
  have hflood := flood_startRounds z.upDegrees (originateAll z).refreshed
  have hups (d : Degree) : d ∈ z.upDegrees ↔ z.isUp d = true := mem_upDegrees
  generalize z.upDegrees = ups at *
  have hr := startRounds_eq ups (originateAll z).refreshed
  generalize startRounds ups (originateAll z).refreshed = v at *
  generalize originateAll z = x at *
  have field {α : Type} (π : State → α) : π x.besideRecords = π z.besideRecords := congrArg π hb
  have hfsw : v.fsw = x.fsw := by rw [hr]; rfl
  have hntu : v.ntu = x.ntu := by rw [hr]; rfl
  have hcmc : v.cmc = x.cmc := by rw [hr]; rfl
  have hclaims : v.claims = x.claims := by rw [hr]; rfl
  have hstate : v.cmc.state = z.cmc.state := by rw [hcmc]; exact field fun s => s.cmc.state
  have hfrozen : v.cmc.frozen = z.cmc.frozen := by rw [hcmc]; exact field fun s => s.cmc.frozen
  have hfreeze : v.cmc.freeze = z.cmc.freeze := by rw [hcmc]; exact field fun s => s.cmc.freeze
  have hnow : x.now = z.now := field State.now
  have hcfu : x.cfu = z.cfu := field State.cfu
  have hgen := gen_normalRequest v
  have hnr := normalReq_normalRequest v
  obtain ⟨hu, hf, hl⟩ := cmc_normalRequest_kept v
  have heq := normalRequest_eq v
  have hsettling (hi : v.cmc.state = .idle) (hf : v.cmc.frozen = false) : (normalRequest v).cmc.state = .settling := by
    rw [normalRequest_idle hi hf]; rfl
  have hidle := @state_normalRequest_frozen v
  have hkeeps := Keeps.normalRequest v
  have htraffic := Traffic.normalRequest (is := []) (ps := []) v
  have hfl := flood_normalRequest v
  generalize normalRequest v = y at *
  exact
  { adm := by rw [heq, hr]; exact field State.adm
    cfu := by rw [heq, hr]; exact hcfu
    dtu := by rw [heq, hr]; exact field State.dtu
    rqu := by rw [heq, hr]; exact field State.rqu
    rsv := by rw [heq, hr]; exact field State.rsv
    shu := by rw [heq, hr]; exact field State.shu
    fwd := by rw [heq, hr]; exact field fun s => s.fsw.fwd
    fwdGen := by rw [heq, hr]; exact field fun s => s.fsw.fwdGen
    exclusions := by rw [heq, hr]; exact field fun s => s.tdb.exclusions
    watches := by rw [heq, hr]; exact field fun s => s.ntu.watches
    slotMaps := by rw [heq, hr]; exact field fun s => s.fle.slotMaps
    refresh := by
      rw [heq, hr]
      show some (x.now + x.cfu.params.refreshInterval * 1000) = _
      rw [hnow, hcfu]
    seq := by rw [heq, hr]; rfl
    tdb := by rw [heq, hr]; rfl
    gen := by rw [hgen, hcmc]; exact field fun s => s.cmc.gen
    normalReq := hnr
    urgentReq := by rw [hu, hcmc]; exact field fun s => s.cmc.urgentReq
    freeze := hf.trans hfreeze
    changedLinks := by rw [hl, hcmc]; exact field fun s => s.cmc.changedLinks
    settling := fun hi hn => hsettling (hstate.trans hi) (hfrozen.trans hn)
    idle := fun hi hn => hidle (hstate.trans hi) (hfreeze.trans hn)
    flood := fun d => by
      rw [hfl, hflood, FleDegree.started]
      simp only [hups d]
      show (if _ then { x.flood d with round := _, tallyTimer := some (x.now + x.cfu.params.tallyInterval * 1000) } else x.flood d) = _
      rw [hnow, hcfu]
      rfl
    grows := (ClaimsGrow.of_beside hb).trans ((ClaimsGrow.of_eq hclaims hntu).trans (ClaimsGrow.of_keeps (by rw [heq]) hkeeps))
    keeps := (Keeps.of_eq hntu).trans hkeeps
    traffic := (Traffic.of_eq hfsw hntu).trans htraffic }

end Sys2Proof.Machine
end

section
/-! SUPPORT. A flush command from its start to the end of its event (R80, R104, R107, R120, R121, R140, R188, R199). -/

namespace Sys2Proof.Machine

/-! ## What the emptied part keeps and raises -/

section
variable (u : State)

theorem cmc_handed : u.handed.cmc = u.cmc.flushed (flushedLinks u.tdb) := (cmc_of_blocks (blocks_handed u)).trans rfl

theorem fwdGen_handed : u.handed.fsw.fwdGen = 0 := (fwdGen_of_blocks (blocks_handed u)).trans rfl

theorem now_handed : u.handed.now = u.now := (now_of_blocks (blocks_handed u)).trans rfl

theorem nodeId_handed : u.handed.nodeId = u.nodeId := by
  obtain ⟨-, hcfu, -⟩ := handed_keeps u
  rw [State.nodeId, hcfu]; rfl

theorem upDegrees_handed : u.handed.upDegrees = u.upDegrees := by
  rw [State.upDegrees, State.upDegrees, funext (isUp_handed u)]

theorem floodIdle_handed : FloodIdle u.handed := fun d => by
  obtain ⟨-, -, -, -, -, hfle, -⟩ := handed_keeps u
  have : u.handed.flood d = FleDegree.reset := by
    rw [State.flood, hfle]
    exact vget_replicate _ _
  rw [this]
  exact ⟨rfl, rfl, rfl⟩

theorem tablesOk_handed : TablesOk u.handed := by
  obtain ⟨-, -, -, htdb, -, -, -, -, hshu, hfwd, -⟩ := handed_keeps u
  have none {α : Type} (cap : Nat) : TableOk cap ([] : List (Nat × α)) := ⟨rfl, fun e he => by cases he⟩
  rw [TablesOk, htdb, hshu, hfwd]
  exact ⟨none _, none _, none _, none _, none _⟩

/-- The emptying of the tables is no traffic: the forwarding table is not a port. -/
theorem traffic_flushTables {is : List NoticeId} {ps : List Port} (s : State) (c : Cmc) :
    Traffic is ps s { flushTables s with cmc := c } := by
  refine ⟨fun p _ => ?_, fun i _ _ => rfl⟩
  have hp : ({ flushTables s with cmc := c } : State).port p = s.port p := by cases p <;> rfl
  rw [hp]; exact PortGrows.refl _

theorem traffic_emptied {is : List NoticeId} {ps : List Port} : Traffic is ps u u.emptied := by
  have requests : Traffic is ps u (flushRequests u) := by
    unfold flushRequests
    exact (Traffic.of_eq rfl rfl).trans (Traffic.foldl (fun t (q : Request) => answerNow .rqu q.requester q.body.tag .aborted t)
      (fun t q => Traffic.answerNow _ _ _ _ t) _ _)
  exact requests.trans (traffic_flushTables _ _)

theorem traffic_handTree {is : List NoticeId} {ps : List Port} (s : State) : Traffic is ps s (handTree s) := by
  unfold handTree startTree
  dsimp only
  split
  · exact Traffic.of_eq rfl rfl
  · exact Traffic.of_eq rfl rfl

theorem traffic_flushResults {is : List NoticeId} {ps : List Port} (s : State) : Traffic is ps s (flushResults s) := by
  have reset (t : State) : Traffic is ps t { t with shu := Shu.reset } := Traffic.of_eq rfl rfl
  exact (Traffic.foldl (fun t (e : Nat × Result) => answerNow .shu e.2.requester e.2.tag .stale t)
    (fun t e => Traffic.answerNow _ _ _ _ t) s.shu.results s).trans (reset _)

theorem traffic_forced_handed {is : List NoticeId} {ps : List Port} (h : NoticeId.watch ∈ is) : Traffic is ps u.forced u.handed :=
  (traffic_flushResults _).trans ((Traffic.raiseWatches _ _ _ h).trans (traffic_handTree _))

theorem traffic_handed {is : List NoticeId} {ps : List Port} (hc : NoticeId.commit ∈ is) (hw : NoticeId.watch ∈ is) :
    Traffic is ps u u.handed :=
  (traffic_emptied u).trans ((Traffic.raiseCommit hc _ _ _).trans (traffic_forced_handed u hw))

end

/-- COMMIT as a flush raises it stands while other sources alone are raised. -/
theorem commit_of_forced {u t : State} (h : Traffic [.watch, .sequence] [] u.forced t) :
    (t.ntu.source .commit).gen = some (u.cmc.gen + 1) ∧ Raised .commit .forced t := by
  have hg : u.emptied.cmc.gen = u.cmc.gen + 1 := congrArg Cmc.gen (cmc_of_blocks (blocks_emptied u))
  have hs : u.forced.ntu.source .commit = (u.emptied.ntu.source .commit).raise [.forced] (some (u.cmc.gen + 1)) := by
    rw [State.forced, hg]
    simp [raiseCommit]
  have heq := h.2 .commit (by decide) (by decide)
  rw [hs] at heq
  refine ⟨(congrArg NoticeSource.gen heq :).trans ?_, (congrArg NoticeSource.pending heq :).trans ?_, ?_⟩
  · unfold NoticeSource.raise; split <;> rfl
  · unfold NoticeSource.raise; split
    · assumption
    · rfl
  · rw [show (t.ntu.source .commit).detail = _ from (congrArg NoticeSource.detail heq :)]
    unfold NoticeSource.raise
    split <;> exact mem_addMembers _ _ _ (List.mem_singleton_self _)

/-! ## The event of a flush -/

/-- The state in which the event of a flush command ends. -/
def flushEnd (who : NodeId) (tag : Nat) (r : Reply) (u : State) : State := finish (answerMgmt who tag r (flush u))

theorem restarted_flush (u : State) : Restarted u.handed (originateAll u.handed) (flush u) := by
  rw [flush_eq]; exact restarted_flushRestart _

section
variable (who : NodeId) (tag : Nat) (r : Reply) (u : State)

theorem steady_flushEnd : (flushEnd who tag r u).steady = (flush u).steady := steady_answered who tag r _

/-- What the event keeps of the part, and what it empties (R80, R104, R120). -/
theorem flushEnd_keeps : (flushEnd who tag r u).adm = u.adm ∧ (flushEnd who tag r u).dtu = u.dtu ∧
    (flushEnd who tag r u).cfu = u.cfu ∧ (flushEnd who tag r u).ntu.watches = u.ntu.watches ∧
    (flushEnd who tag r u).tdb.exclusions = u.tdb.exclusions ∧ (flushEnd who tag r u).fle.slotMaps = u.fle.slotMaps ∧
    (flushEnd who tag r u).rqu = { u.rqu with queue := [] } ∧ (flushEnd who tag r u).shu = Shu.reset ∧
    (flushEnd who tag r u).fsw.fwd = [] ∧ (flushEnd who tag r u).fsw.fwdGen = 0 ∧
    (flushEnd who tag r u).fle.refreshTimer = some (u.now + u.cfu.params.refreshInterval * 1000) ∧
    (flushEnd who tag r u).rsv =
      ⟨{ u.rsv.l0.finish .aborted with work := .tree (u.cmc.gen + 1) }, u.rsv.l1.finish .aborted, none⟩ := by
  have hst := steady_flushEnd who tag r u
  have h := restarted_flush u
  obtain ⟨hadm, hcfu, hdtu, htdb, hw, hfle, -, hrqu, hshu, hfwd, hrsv⟩ := handed_keeps u
  refine ⟨(adm_of_steady hst).trans (h.adm.trans hadm), (dtu_of_steady hst).trans (h.dtu.trans hdtu),
    (cfu_of_steady hst).trans (h.cfu.trans hcfu), (watches_of_steady hst).trans (h.watches.trans hw), ?_,
    (slotMaps_of_steady hst).trans (h.slotMaps.trans ?_), (rqu_of_steady hst).trans (h.rqu.trans hrqu),
    (shu_of_steady hst).trans (h.shu.trans hshu), (fwd_of_steady hst).trans (h.fwd.trans hfwd),
    (fwdGen_of_steady hst).trans (h.fwdGen.trans (fwdGen_handed u)), (refresh_of_steady hst).trans (h.refresh.trans ?_),
    (rsv_of_steady hst).trans (h.rsv.trans hrsv)⟩
  · rw [tdb_of_steady hst, h.exclusions, htdb]
  · rw [hfle]
  · rw [now_handed, hcfu]

theorem nodeId_flushEnd : (flushEnd who tag r u).nodeId = u.nodeId := by
  obtain ⟨-, -, hcfu, -⟩ := flushEnd_keeps who tag r u
  rw [State.nodeId, hcfu]; rfl

/-- CMC's own state: the forced promotion and the normal request after it (R107, R109, R120, R121). -/
theorem flushEnd_cmc : (flushEnd who tag r u).cmc.gen = u.cmc.gen + 1 ∧ (flushEnd who tag r u).cmc.normalReq = true ∧
    (flushEnd who tag r u).cmc.urgentReq = false ∧ (flushEnd who tag r u).cmc.freeze = u.cmc.freeze ∧
    (u.cmc.freeze = false → u.cmc.gen + 1 ≠ 0xFFFFFFFF → (flushEnd who tag r u).cmc.state = .settling) ∧
    (u.cmc.freeze = true → (flushEnd who tag r u).cmc.state = .idle) ∧
    (flushEnd who tag r u).cmc.changedLinks = flushedLinks u.tdb := by
  have h := restarted_flush u
  have hc := cmc_handed u
  rw [cmc_of_steady (steady_flushEnd who tag r u)]
  have hidle : u.handed.cmc.state = .idle := by rw [hc]; rfl
  refine ⟨h.gen.trans (by rw [hc]; rfl), h.normalReq, h.urgentReq.trans (by rw [hc]; rfl), h.freeze.trans (by rw [hc]; rfl),
    fun hf hg => h.settling hidle ?_, fun hf => h.idle hidle ?_, h.changedLinks.trans (by rw [hc]; rfl)⟩
  · rw [hc]
    show (u.cmc.freeze || u.cmc.gen + 1 == Config.lastGeneration) = false
    simp [hf, Config.lastGeneration]
    exact fun h => hg (by rw [h])
  · rw [hc]; exact hf

theorem mem_flushedLinks {t : Tdb} {k : LinkKey} :
    k ∈ flushedLinks t ↔ ∃ e ∈ t.links, e.2.key = k ∧ e.2.ver.committed.isSome = true := by
  simp only [flushedLinks, mem_sortBy_keyLt, List.mem_map, List.mem_filter]
  exact ⟨fun ⟨e, ⟨he, hc⟩, hk⟩ => ⟨e, he, hk, hc⟩, fun ⟨e, he, hk, hc⟩ => ⟨e, ⟨he, hc⟩, hk⟩⟩

theorem tdb_flushEnd : (flushEnd who tag r u).tdb = (originateAll u.handed).tdb :=
  (tdb_of_steady (steady_flushEnd who tag r u)).trans (restarted_flush u).tdb

/-- Nothing is held but what is originated (R80, R104). -/
theorem flushEnd_records : (∀ e ∈ (flushEnd who tag r u).tdb.nodes, e.2.ver.committed = none ∧ e.2.id = u.nodeId) ∧
    (∀ e ∈ (flushEnd who tag r u).tdb.links, e.2.ver.committed = none ∧ e.2.key.origin = u.nodeId ∧
      ∃ d, u.isUp d = true ∧ e.2.key.num = d.val) ∧ (flushEnd who tag r u).tdb.incomplete = [] := by
  obtain ⟨hown, -⟩ := ownRecords_originateAll (noRecords_handed u) (floodIdle_handed u)
  have hid := (nodeId_of_beside (beside_originateAll u.handed)).trans (nodeId_handed u)
  rw [tdb_flushEnd]
  refine ⟨fun e he => ?_, fun e he => ?_, hown.incomplete⟩
  · obtain ⟨h1, h2, -⟩ := hown.nodes e he
    exact ⟨h2, h1.trans hid⟩
  · obtain ⟨h1, -, d, hd, h3⟩ := hown.links e he
    rw [List.mem_reverse, mem_upDegrees, isUp_handed] at hd
    rw [h3, hid]
    exact ⟨h1, rfl, d, hd, rfl⟩

theorem traffic_handed_flushEnd {is : List NoticeId} (hs : NoticeId.sequence ∈ is) :
    Traffic is [] u.handed (flushEnd who tag r u) := by
  obtain ⟨-, ht, -⟩ := ownRecords_originateAll (noRecords_handed u) (floodIdle_handed u)
  have h : Traffic [.sequence] [] u.handed (flushEnd who tag r u) :=
    (ht.trans ⟨(restarted_flush u).traffic.1, fun i _ hc => (restarted_flush u).traffic.2 i List.not_mem_nil hc⟩).trans
      ⟨(traffic_answered who tag r (flush u)).1, fun i _ hc => (traffic_answered who tag r (flush u)).2 i List.not_mem_nil hc⟩
  exact ⟨h.1, fun i hi => h.2 i fun k => hi (List.mem_singleton.1 k ▸ hs)⟩

theorem traffic_flushEnd : Traffic [.commit, .watch, .sequence] [] u (flushEnd who tag r u) :=
  (traffic_handed u (by simp) (by simp)).trans (traffic_handed_flushEnd who tag r u (by simp))

theorem commit_flushEnd : ((flushEnd who tag r u).ntu.source .commit).gen = some (u.cmc.gen + 1) ∧
    Raised .commit .forced (flushEnd who tag r u) :=
  commit_of_forced ((traffic_forced_handed u (by simp)).trans (traffic_handed_flushEnd who tag r u (by simp)))

/-! ## The flood lists -/

theorem flood_flush (d : Degree) : (flush u).flood d =
    if u.isUp d = true then ((originateAll u.handed).flood d).started u.handed else (originateAll u.handed).flood d := by
  rw [(restarted_flush u).flood, isUp_handed]

theorem sendList_flush (d : Degree) : ((flush u).flood d).sendList = ((originateAll u.handed).flood d).sendList := by
  rw [flood_flush]
  generalize (originateAll u.handed).flood d = x
  split
  · rfl
  · rfl

theorem flushEnd_flood (d : Degree) : ((flushEnd who tag r u).flood d).pulls = [] ∧ ((flushEnd who tag r u).flood d).waiting = [] ∧
    (u.isUp d = true → RoundStarted d (flushEnd who tag r u)) ∧
    (u.isUp d = false → ((flushEnd who tag r u).flood d).round = none) := by
  obtain ⟨hown, -⟩ := ownRecords_originateAll (noRecords_handed u) (floodIdle_handed u)
  obtain ⟨hpulls, hwaiting, hround⟩ := hown.idle d
  have hfl := flood_flush u d
  generalize (originateAll u.handed).flood d = x at *
  have hadm : (flush u).adm = u.adm := by
    obtain ⟨hadm, -⟩ := handed_keeps u
    exact (restarted_flush u).adm.trans hadm
  unfold flushEnd
  generalize flush u = y at *
  have hans : (answerMgmt who tag r y).flood d = y.flood d := congrArg (fun f : Fle => vget f.degrees d) (fle_answerMgmt who tag r y)
  have hup : (answerMgmt who tag r y).isUp d = u.isUp d := by
    rw [State.isUp, State.adjacency, adm_of_blocks (blocks_answerMgmt _ _ _ _), hadm]; rfl
  have hp : (y.flood d).pulls = [] := by rw [hfl]; split <;> exact hpulls
  have hw : (y.flood d).waiting = [] := by rw [hfl]; split <;> exact hwaiting
  obtain ⟨h1, h2⟩ := pulls_finish (e := d) (s := answerMgmt who tag r y) fun _ => by rw [hans]; exact hw
  refine ⟨h1.trans (by rw [hans]; exact hp), h2.trans (by rw [hans]; exact hw), fun hu => ?_, fun hu => ?_⟩
  · refine roundStarted_finish (Or.inl ?_)
    rw [hans, hfl, if_pos hu]; rfl
  · rw [flood_finish_of_not_up (hup.trans hu), hans, hfl, if_neg (by simp [hu])]
    exact hround

/-! ## The own records -/

theorem seq_flushEnd : (flushEnd who tag r u).fle.seq = (originateAll u.handed).fle.seq :=
  (seq_of_steady (steady_flushEnd who tag r u)).trans (restarted_flush u).seq

theorem seq_handed : u.handed.fle.seq = u.fle.seq := by
  obtain ⟨-, -, -, -, -, hfle, -⟩ := handed_keeps u
  rw [hfle]

/-- The own node record, with the sequence of its turn or, exhausted, the last (R84, R85). -/
theorem flushEnd_node : OwnNodeHeld (min u.fle.seq 0xFFFFFFF0) (flushEnd who tag r u) := by
  obtain ⟨-, -, hn⟩ := ownRecords_originateAll (noRecords_handed u) (floodIdle_handed u)
  obtain ⟨-, -, hcfu, -⟩ := flushEnd_keeps who tag r u
  obtain ⟨-, zcfu, -⟩ := handed_keeps u
  refine NodeStored.held ?_
  rw [nodeId_flushEnd, tdb_flushEnd, ← seq_handed, ← nodeId_handed, ownNodeContent, hcfu, ← zcfu]
  exact hn

/-- A key that is in the send list before the event ends is flooded. -/
theorem floods_flushEnd {d : Degree} {k : RecordKey} {a : AdvertBody} (ha : keyAdvert (flush u) k = some a)
    (hk : k ∈ ((originateAll u.handed).flood d).sendList) : Floods d k (flushEnd who tag r u) :=
  floods_answered who tag r ha (by rw [sendList_flush]; exact hk)

/-- The content of an own link record that the flush originates, as it is read when the event has ended. -/
theorem ownLinkContent_flushEnd {e : Degree} {b : Neighbour} (hup : u.isUp e = true) (hb : (u.adjacency e).nbr = some b) :
    ownLinkContent u.handed e = some (upContent e b (flushEnd who tag r u)) := by
  obtain ⟨-, -, hcfu, -, -, hmaps, -⟩ := flushEnd_keeps who tag r u
  obtain ⟨zadm, zcfu, -, -, -, zfle, -⟩ := handed_keeps u
  have hb' : (u.handed.adjacency e).nbr = some b := by rw [State.adjacency, zadm]; exact hb
  have hzmaps : u.handed.fle.slotMaps = u.fle.slotMaps := by rw [zfle]
  rw [ownLinkContent_of_up ((isUp_handed u e).trans hup) hb', upContent, hcfu, hmaps, zcfu, hzmaps]

section
variable (hl : u.fle.seq + 9 ≤ 0xFFFFFFF0)
include hl

theorem seq_flush_live : (flush u).fle.seq = u.fle.seq + 1 + u.upDegrees.length := by
  rw [(restarted_flush u).seq, seq_originateAll (by rw [seq_handed]; exact hl), seq_handed, upDegrees_handed]

theorem flush_live : (flush u).fle.seq ≤ 0xFFFFFFF0 := by
  have h := length_upDegrees_le u
  rw [seq_flush_live u hl]; omega

theorem flushEnd_floods_node {f : Degree} (hf : u.isUp f = true) : Floods f (.node u.nodeId) (flushEnd who tag r u) := by
  obtain ⟨hs, hm⟩ := originateAll_node (s := u.handed) (by rw [seq_handed]; omega) (ownNodeFits_of_noRecords (noRecords_handed u))
  rw [← (restarted_flush u).tdb] at hs
  rw [nodeId_handed] at hs hm
  obtain ⟨a, ha⟩ := NodeStored.advert hs (flush_live u hl)
  exact floods_flushEnd who tag r u ha (hm f ((isUp_handed u f).trans hf))

theorem flushEnd_link {e : Degree} {b : Neighbour} (hup : u.isUp e = true) (hb : (u.adjacency e).nbr = some b) :
    OwnLinkHeld e ⟨u.fle.seq + 1 + (u.upDegrees.filter (· < e)).length, .active, upContent e b (flushEnd who tag r u)⟩
      (flushEnd who tag r u) ∧
    ∀ f, u.isUp f = true → Floods f (.link ⟨u.nodeId, e.val⟩) (flushEnd who tag r u) := by
  have hno := noRecords_handed u
  obtain ⟨hs, hm⟩ := originateAll_link ((isUp_handed u e).trans hup) (ownLinkContent_flushEnd who tag r u hup hb)
    (by rw [seq_handed]; exact hl) (tablesOk_handed u) (ownLinkFits_of_noRecords hno e) fun _ => by rw [hno.links]; simp
  rw [nodeId_handed] at hs hm
  rw [seq_handed, upDegrees_handed] at hs
  have hadvert : ∃ a, keyAdvert (flush u) (.link ⟨u.nodeId, e.val⟩) = some a := by
    rw [← (restarted_flush u).tdb] at hs
    exact LinkStored.advert hs (flush_live u hl)
  obtain ⟨a, ha⟩ := hadvert
  refine ⟨LinkStored.held ?_, fun f hf => floods_flushEnd who tag r u ha (hm f ((isUp_handed u f).trans hf))⟩
  rw [nodeId_flushEnd, tdb_flushEnd]
  exact hs

end

/-- The own link record of a degree in UP, originated with the counter exhausted (R84). -/
theorem flushEnd_link_exhausted (hl : 0xFFFFFFF0 < u.fle.seq) {e : Degree} {b : Neighbour} (hup : u.isUp e = true)
    (hb : (u.adjacency e).nbr = some b) :
    OwnLinkHeld e ⟨0xFFFFFFF0, .active, upContent e b (flushEnd who tag r u)⟩ (flushEnd who tag r u) := by
  have hs := originateAll_link_exhausted (noRecords_handed u) (floodIdle_handed u) (tablesOk_handed u) ((isUp_handed u e).trans hup)
    (ownLinkContent_flushEnd who tag r u hup hb) (by rw [seq_handed]; exact hl)
  refine LinkStored.held ?_
  rw [nodeId_flushEnd, tdb_flushEnd, ← nodeId_handed]
  exact hs

theorem flushEnd_exhausted (hl : 0xFFFFFFF0 < u.fle.seq) :
    (flushEnd who tag r u).fle.seq = u.fle.seq ∧ Raised .sequence .exhausted (flushEnd who tag r u) := by
  obtain ⟨hseq, hr⟩ := originateAll_exhausted (s := u.handed) (by rw [seq_handed]; exact hl)
  refine ⟨(seq_flushEnd who tag r u).trans (hseq.trans (seq_handed u)), hr.keeps ((restarted_flush u).keeps.trans ?_)⟩
  exact (Keeps.placeOwn _ _ _).trans (Keeps.finish _)

/-! ## The answers of the flush -/

theorem claimsGrow_flushEnd : ClaimsGrow u.handed (answerMgmt who tag r (flush u)) :=
  (restarted_flush u).grows.trans (ClaimsGrow.placeOwn _ _ _)

theorem flushAnswered_flushEnd : FlushAnswered u u (flushEnd who tag r u) := by
  obtain ⟨hadm, -, hcfu, -, -, -, -, -, hfwd, -, -, hrsv⟩ := flushEnd_keeps who tag r u
  have hid := nodeId_flushEnd who tag r u
  have hroutes : ∀ n, routeOwn (flushEnd who tag r u) n = routeOwn u.cleared n :=
    routeOwn_congr (by rw [hid]; rfl) hfwd fun d => by rw [State.adjacency, hadm]; rfl
  have hidle : ({ u.rsv.l0.finish .aborted with work := .idle } : Lane) = u.rsv.l0.finish .aborted := by
    rw [← work_finish .aborted u.rsv.l0]
  rw [FlushAnswered, hrsv]
  refine ⟨?lane, laneAborted_finish _, rfl, rfl, fun rs hrs q hq => ?aborted, fun e he => ?stale⟩
  case lane => exact hidle ▸ laneAborted_finish u.rsv.l0
  case aborted =>
    rw [← requests_of_lanesHold hrs] at hq
    have hp := ((claimedBy_requests u q hq).grows (claimsGrow_flushEnd who tag r u)).finish
    rwa [routeaFrame_eq, ← hid] at hp
  case stale =>
    have hp := (((claimedBy_results u e he).routed hroutes).grows (claimsGrow_flushEnd who tag r u)).finish
    rw [routeaFrame_eq, ← hid] at hp
    exact hp

end

theorem doFlush_refused {u : State} (h : u.cfu.start ≠ .running ∨ u.cmc.gen = 0xFFFFFFFF) : doFlush u = refuse .notReady u := by
  refine if_neg ?_
  rw [Bool.and_eq_true, beq_iff_eq, bne_iff_ne]
  exact fun ⟨h1, h2⟩ => h.elim (fun k => k h1) h2

theorem doFlush_accepted {u : State} (h1 : u.cfu.start = .running) (h2 : u.cmc.gen ≠ 0xFFFFFFFF) :
    doFlush u = (flush u, ⟨.ok, commitData (flush u)⟩) := by
  refine if_pos ?_
  rw [Bool.and_eq_true, beq_iff_eq, bne_iff_ne]
  exact ⟨h1, h2⟩

end Sys2Proof.Machine

open Sys2Proof Sys2Proof.Machine

/-- Settles O45, by the refusal, and by the steps of an accepted flush: the part emptied, the own records originated in its empty
tables, the rounds and the normal request. -/
theorem flushEmptiesAndPromotes : Obligations.FlushEmptiesAndPromotes := by
  intro m s u hu hm
  refine ⟨fun h => commanded_refused hu hm (doFlush_refused h), fun hstart hg => ?_⟩
  have run : exec (.flush m) s = .next (flushEnd (identity m.port m.src) m.tag ⟨.ok, commitData (flush u)⟩ u) :=
    commanded_run hu hm (doFlush_accepted hstart hg)
  have answered : Answered m .ok (commitData (flush u)) (flushEnd (identity m.port m.src) m.tag ⟨.ok, commitData (flush u)⟩ u) :=
    answered_answerMgmt m ⟨.ok, commitData (flush u)⟩ (flush u) (identity_ne m u hm.2.1)
  generalize hr : (⟨.ok, commitData (flush u)⟩ : Reply) = r at *
  generalize identity m.port m.src = who at *
  have hcmc := cmc_of_steady (steady_flushEnd who m.tag r u)
  obtain ⟨hadm, hdtu, hcfu, hwatch, hexcl, hmaps, hrqu, hshu, hfwd, hfwdGen, hrefresh, hrsv⟩ := flushEnd_keeps who m.tag r u
  obtain ⟨hgen, hnormal, hurgent, hfreeze, hsettling, hidle, hchanged⟩ := flushEnd_cmc who m.tag r u
  obtain ⟨hnodes, hlinks, hinc⟩ := flushEnd_records who m.tag r u
  obtain ⟨hcommit, hforced⟩ := commit_flushEnd who m.tag r u
  have hnode := flushEnd_node who m.tag r u
  refine ⟨_, run, ?answered, hgen, hnormal, hurgent, hfreeze, hsettling, hidle, hnodes, hlinks, hinc, hexcl, fun k => ?changed, hfwd,
    hfwdGen, hshu, hrqu, ?tree, ?lane, ?job, flushAnswered_flushEnd who m.tag r u, fun hl => ?node, ⟨fun hl => ?live, fun hl => ?spent⟩,
    fun d => flushEnd_flood who m.tag r u d, hmaps, hrefresh, hcommit, hforced, hadm, hdtu, hcfu, hwatch, traffic_flushEnd who m.tag r u⟩
  case answered => rwa [commitData, ← hcmc, hgen] at answered
  case changed => rw [hchanged]; exact mem_flushedLinks
  case tree => rw [hrsv]
  case lane => rw [hrsv]; exact work_finish _ _
  case job => rw [hrsv]
  case node => rwa [min_eq_left hl] at hnode
  case live =>
    exact ⟨(seq_of_steady (steady_flushEnd who m.tag r u)).trans (seq_flush_live u hl),
      fun f hf => flushEnd_floods_node who m.tag r u hl hf, fun e b hup hb => flushEnd_link who m.tag r u hl hup hb⟩
  case spent =>
    rw [min_eq_right (Nat.le_of_lt hl)] at hnode
    obtain ⟨hseq, hraised⟩ := flushEnd_exhausted who m.tag r u hl
    exact ⟨hseq, hraised, hnode, fun e b hup hb => flushEnd_link_exhausted who m.tag r u hl hup hb⟩

end

section
/-! SUPPORT. One own record re-originated, live or with the counter exhausted, and what it leaves when its event has ended (R83 to R86,
R92, R94). -/

namespace Sys2Proof.Machine

/-! ## Own keys (R63, R92) -/

/-- A key that the part originates a record for: its own node ID, or the own link of one of its degrees. -/
def OwnNamed (self : NodeId) (k : RecordKey) : Prop := k = .node self ∨ ∃ e : Degree, k = .link ⟨self, e.val⟩

theorem isOwnKey_of_named {self : NodeId} {k : RecordKey} (h : OwnNamed self k) : isOwnKey self k = true := by
  rcases h with rfl | ⟨e, rfl⟩
  · simp [isOwnKey]
  · have : e.val ≤ 7 := by omega
    simp [isOwnKey, this]

section
variable {k : RecordKey} {s : State} (ho : keyOrigin k = s.nodeId) (hk : ¬ OwnNamed s.nodeId k)
include ho hk

/-- An own-origin key that is not named is that of a link number above 7. -/
theorem unnamed_link : ∃ n, 7 < n ∧ k = .link ⟨s.nodeId, n⟩ := by
  cases k with
  | node id => exact absurd (Or.inl (congrArg RecordKey.node ho)) hk
  | link key =>
    obtain ⟨o, n⟩ := key
    obtain rfl : o = s.nodeId := ho
    refine ⟨n, ?_, rfl⟩
    by_contra h
    exact hk (Or.inr ⟨⟨n, by omega⟩, rfl⟩)

theorem isOwnKey_of_unnamed : isOwnKey s.nodeId k = false := by
  obtain ⟨n, hn, rfl⟩ := unnamed_link ho hk
  simp [isOwnKey, hn]

/-- Nothing is originated for a key that names no degree (R92). -/
theorem reoriginate_unnamed (v : State) : reoriginate k v = v := by
  obtain ⟨n, hn, rfl⟩ := unnamed_link ho hk
  have h8 : ¬ n < 8 := by omega
  simp [reoriginate, degree?, h8]

end

theorem reoriginate_node (id : NodeId) (s : State) : reoriginate (.node id) s = originateNode s := rfl

theorem reoriginate_link (o : NodeId) (e : Degree) (s : State) : reoriginate (.link ⟨o, e.val⟩) s = originateLink e s := by
  simp [reoriginate, degree?_val]

/-! ## What a re-origination keeps -/

theorem beside_reoriginate (k : RecordKey) (s : State) : (reoriginate k s).besideRecords = s.besideRecords := by
  unfold reoriginate
  split
  · exact beside_originateNode s
  · split
    · exact beside_originateLink _ s
    · rfl

theorem beside_jump (q : Nat) (s : State) : (jump q s).besideRecords = s.besideRecords := beside_raise_sequence _ _

theorem beside_takeOwn (d : Degree) (w : RecordWrite) (s : State) : (takeOwn d w s).besideRecords = s.besideRecords := by
  unfold takeOwn
  dsimp only
  split
  · split
    · exact (beside_reoriginate _ _).trans (beside_jump _ _)
    · exact (beside_raise_sequence _ _).trans (beside_jump _ _)
  · split
    · exact beside_reoriginate _ _
    · split
      · rfl
      · split
        · rfl
        · exact beside_reoriginate _ _

/-- What an event leaves that changes records, FLE's counter and lists, and the sources SEQUENCE and TABLE_FULL alone. -/
theorem recordsEvent_keeps {s v : State} (h : v.besideRecords = s.besideRecords) :
    Traffic [.sequence, .tableFull] [] s (finish v) ∧ (finish v).adm = s.adm ∧ (finish v).dtu = s.dtu ∧
      (finish v).rqu = s.rqu ∧ (finish v).rsv = s.rsv ∧ (finish v).shu = s.shu ∧ (finish v).cfu = s.cfu ∧
      (finish v).fsw.fwd = s.fsw.fwd := by
  have field {α : Type} (π : State → α) : π v.besideRecords = π s.besideRecords := congrArg π h
  exact ⟨(Traffic.of_beside h (by simp) (by simp)).trans (Traffic.finish v), (adm_finish v).trans (field State.adm),
    (dtu_finish v).trans (field State.dtu), (rqu_finish v).trans (field State.rqu), (rsv_finish v).trans (field State.rsv),
    (shu_finish v).trans (field State.shu), (cfu_finish v).trans (field State.cfu), (fwd_finish v).trans (field fun x => x.fsw.fwd)⟩

/-! ## A re-origination with the counter live (R83, R85, R86, R94) -/

theorem Keeps.originateNode (s : State) : Keeps s (Machine.originateNode s) := by
  rcases Nat.lt_or_ge 0xFFFFFFF0 s.fle.seq with h | h
  · rw [originateNode_spent h]
    split
    · exact Keeps.raise _ _ _
    · exact (Keeps.raise _ _ _).trans (Keeps.writeNode _ _)
  · rw [originateNode_live (live_iff.2 h)]
    have key := fun w => (Keeps.of_eq (s := s) (t := takeSeq s) rfl).trans (Keeps.writeNode w (takeSeq s))
    split
    · exact (key _).trans (Keeps.of_eq rfl)
    · exact key _

theorem Keeps.originateLink (d : Degree) (s : State) : Keeps s (Machine.originateLink d s) := by
  rcases Nat.lt_or_ge 0xFFFFFFF0 s.fle.seq with h | h
  · exact (originateLink_exhausted d h).2
  · rw [originateLink_live (live_iff.2 h)]
    have key := fun w => (Keeps.of_eq (s := s) (t := takeSeq s) rfl).trans (Keeps.writeLink w (takeSeq s))
    split
    · exact (key _).trans (Keeps.of_eq rfl)
    · exact key _

theorem Keeps.reoriginate (k : RecordKey) (s : State) : Keeps s (Machine.reoriginate k s) := by
  unfold Machine.reoriginate
  split
  · exact Keeps.originateNode s
  · split
    · exact Keeps.originateLink _ s
    · exact Keeps.refl s

/-- The part an own link record is originated with: the truth of an UP degree with a neighbour record, and the withdrawal of a degree
that is not UP. -/
theorem ownLinkPart_up {d : Degree} {s : State} {n : Neighbour} (hu : s.isUp d = true) (hn : (s.adjacency d).nbr = some n) :
    ownLinkPart d s = ⟨s.fle.seq, .active, upContent d n s⟩ := by
  rw [ownLinkPart, ownLinkContent_of_up hu hn]; rfl

theorem ownLinkPart_not_up {d : Degree} {s : State} (hu : s.isUp d = false) :
    ownLinkPart d s = ⟨s.fle.seq, .withdrawn, withdrawalContent s ⟨s.nodeId, d.val⟩⟩ := by
  simp [ownLinkPart, ownLinkContent, hu]

/-- An own link record that fits, originated while the counter is live, when its event has ended. -/
theorem ownLinkHeld_originateLink {d : Degree} {s : State} (hl : s.fle.seq ≤ 0xFFFFFFF0) (hf : OwnLinkFits d s) :
    OwnLinkHeld d (ownLinkPart d s) (finish (originateLink d s)) ∧
      (s.fle.seq < 0xFFFFFFF0 → ∀ e, s.isUp e = true → Floods e (.link ⟨s.nodeId, d.val⟩) (finish (originateLink d s))) := by
  obtain ⟨links, ho, hs, -⟩ := originateLink_own hl hf
  have hlinks : (originateLink d s).tdb.links = links := by rw [ho]; rfl
  have hn : (finish (originateLink d s)).nodeId = s.nodeId := by
    rw [State.nodeId, cfu_finish]; exact nodeId_of_beside (beside_originateLink d s)
  refine ⟨LinkStored.held ?_, fun hlt e he => ?_⟩
  · rw [hn, tdb_finish, hlinks]; exact hs
  · have hseq := seq_originateLink (d := d) hl
    obtain ⟨a, ha⟩ := LinkStored.advert (t := originateLink d s) (by rw [hlinks]; exact hs) (by omega)
    exact floods_finish ha (Or.inl (mem_sendList_originateLink hl hf he))

/-- What the re-origination of a named own key leaves when its event has ended: the counter taken, and the own node record or the own
link record of a degree written and flooded where it fits. -/
def Reoriginated (k : RecordKey) (q : Nat) (s t : State) : Prop :=
  t.fle.seq = q + 1 ∧
  (k = .node s.nodeId → OwnNodeFits s → OwnNodeHeld q t ∧ (q < 0xFFFFFFF0 → ∀ f, s.isUp f = true → Floods f k t)) ∧
  ∀ e : Degree, k = .link ⟨s.nodeId, e.val⟩ → OwnLinkFits e s → (q < 0xFFFFFFF0 → ∀ f, s.isUp f = true → Floods f k t) ∧
    (∀ n, s.isUp e = true → (s.adjacency e).nbr = some n → OwnLinkHeld e ⟨q, .active, upContent e n t⟩ t) ∧
    (s.isUp e = false → OwnLinkWithdrawn e q s t)

theorem reoriginated_finish {k : RecordKey} {s : State} (hk : OwnNamed s.nodeId k) (hl : s.fle.seq ≤ 0xFFFFFFF0) :
    Reoriginated k s.fle.seq s (finish (reoriginate k s)) := by
  have hb := beside_reoriginate k s
  rcases hk with rfl | ⟨d, rfl⟩
  · rw [reoriginate_node] at hb ⊢
    refine ⟨(seq_finish _).trans (seq_originateNode hl), fun _ hf => ⟨?_, fun hlt f hup => ?_⟩, nofun⟩
    · exact ownNodeHeld_of_originate hl hf (tdb_finish _) ((cfu_finish _).trans (congrArg State.cfu hb :))
    · obtain ⟨⟨a, ha⟩, hsend⟩ := originateNode_sendable hlt hf
      exact floods_finish ha (Or.inl (hsend f hup))
  · rw [reoriginate_link] at hb ⊢
    refine ⟨(seq_finish _).trans (seq_originateLink hl), nofun, fun e he hf => ?_⟩
    obtain rfl : d = e := by simpa [Fin.ext_iff] using he
    obtain ⟨hheld, hfloods⟩ := ownLinkHeld_originateLink hl hf
    refine ⟨hfloods, fun n hup hn => ?_, fun hup => ?_⟩
    · have hc : upContent d n (finish (originateLink d s)) = upContent d n s := by
        rw [upContent, cfu_finish, slotMaps_finish]
        exact (congrArg (upContent d n) hb :)
      rw [hc, ← ownLinkPart_up hup hn]
      exact hheld
    · rw [ownLinkPart_not_up hup] at hheld
      exact ⟨_, hheld, fun e q he hq => withdrawalContent_held he hq, withdrawalContent_none⟩

/-! ## A re-origination with the counter exhausted (R84, R92, R192) -/

/-- What an event step leaves that met the counter exhausted: SEQUENCE raised with EXHAUSTED, and then no source but TABLE_FULL. -/
structure SpentFrom (s v : State) : Prop where
  seq : v.fle.seq = s.fle.seq
  traffic : Traffic [.tableFull] [] (raise .sequence [.exhausted] s) v
  keeps : Keeps (raise .sequence [.exhausted] s) v

theorem SpentFrom.raise (s : State) : SpentFrom s (Machine.raise .sequence [.exhausted] s) := ⟨rfl, Traffic.refl _ _ _, Keeps.refl _⟩

theorem spentFrom_reoriginate {k : RecordKey} {s : State} (hk : OwnNamed s.nodeId k) (h : 0xFFFFFFF0 < s.fle.seq) :
    SpentFrom s (reoriginate k s) := by
  rcases hk with rfl | ⟨d, rfl⟩
  · rw [reoriginate_node, originateNode_spent h]
    split
    · exact .raise s
    · exact ⟨seq_writeNode _ _, Traffic.writeNode (by simp) _ _, Keeps.writeNode _ _⟩
  · rw [reoriginate_link, originateLink_spent h]
    split
    · exact .raise s
    · exact ⟨seq_writeLink _ _, Traffic.writeLink (by simp) _ _, Keeps.writeLink _ _⟩

theorem overrun_raise {i : NoticeId} (ms : List Member) {s : State} (h : (s.ntu.source i).pending = true) :
    ((raise i ms s).ntu.source i).overrun = true := by
  simp [raise, NoticeSource.raise, h]

/-- A second event in the episode of SEQUENCE, EXHAUSTED, when its event has ended. -/
theorem SpentFrom.finish {s v : State} (h : SpentFrom s v) (hp : (s.ntu.source .sequence).pending = true) :
    Keeps s (finish v) ∧ Raised .sequence .exhausted (finish v) ∧ ((finish v).ntu.source .sequence).overrun = true := by
  have hk : Keeps (Machine.raise .sequence [.exhausted] s) (Machine.finish v) := h.keeps.trans (Keeps.finish v)
  refine ⟨(Keeps.raise _ _ s).trans hk, (raised_raise (List.mem_singleton_self _) s).keeps hk, ?_⟩
  have hs := (h.traffic.trans (Traffic.finish v)).2 .sequence (by simp) (by simp)
  exact (congrArg NoticeSource.overrun hs :).trans (overrun_raise _ hp)

end Sys2Proof.Machine
end

section
/-! SUPPORT. An own-origin ADVERT: a jump of the counter, or the comparison with the sequence held (R90, R92). -/

namespace Sys2Proof.Machine

theorem seq_nativeWrite (d : Degree) (a : AdvertBody) : (nativeWrite d a).seq = a.seq := by
  unfold nativeWrite
  split <;> rfl

/-- A native ADVERT of own origin is taken as a record of own origin. -/
theorem exec_own_advert {d : Degree} {a : AdvertBody} {s u : State} (hu : u = settle s) (ht : takesInput u (.deg d) = true)
    (hup : u.isUp d = true) (hf : a.formOk = true) (hd : a.domain = 0) (ho : keyOrigin (nativeWrite d a).key = u.nodeId) :
    exec (.advert d a) s = .next (finish (takeOwn d (nativeWrite d a) u)) := by
  have htake : takeAdvert d a u = takeOwn d (nativeWrite d a) u := by
    rw [takeAdvert, if_pos (by simpa using hd), takeRecord, if_pos (by simpa using ho)]
  rw [← htake]; exact exec_advert hu ht hup hf

section
variable {d : Degree} {w : RecordWrite} {s : State}

/-! ## At or above the own counter -/

section
variable (hs : s.fle.seq ≤ w.seq)
include hs

theorem takeOwn_jump_live (hl : w.seq < 0xFFFFFFF0) : takeOwn d w s = reoriginate w.key (jump w.seq s) := by
  have hlive : (jump w.seq s).fle.live = true := live_iff.2 hl
  simp [takeOwn, hs, hlive]

theorem takeOwn_jump_spent (hl : 0xFFFFFFF0 ≤ w.seq) (ho : keyOrigin w.key = s.nodeId) :
    SpentFrom (jump w.seq s) (takeOwn d w s) := by
  have hspent : 0xFFFFFFF0 < (jump w.seq s).fle.seq := Nat.lt_succ_of_le hl
  have hlive : (jump w.seq s).fle.live = false := not_live_iff.2 hspent
  by_cases hk : OwnNamed s.nodeId w.key
  · have htake : takeOwn d w s = reoriginate w.key (jump w.seq s) := by simp [takeOwn, hs, isOwnKey_of_named hk]
    rw [htake]
    exact spentFrom_reoriginate hk hspent
  · have htake : takeOwn d w s = raise .sequence [.exhausted] (jump w.seq s) := by
      simp [takeOwn, hs, hlive, isOwnKey_of_unnamed ho hk]
    rw [htake]
    exact .raise _

/-- A jump for a key that names no degree writes no record. -/
theorem tdb_takeOwn_unnamed (ho : keyOrigin w.key = s.nodeId) (hk : ¬ OwnNamed s.nodeId w.key) : (takeOwn d w s).tdb = s.tdb := by
  simp only [takeOwn, if_pos hs, reoriginate_unnamed ho hk]
  split <;> rfl

end

theorem raised_jump (q : Nat) (s : State) : Raised .sequence .jumped (jump q s) := raised_raise (List.mem_singleton_self _) _

/-! ## Below the own counter -/

section
variable (hs : w.seq < s.fle.seq)
include hs

theorem takeOwn_equal (hh : s.tdb.heldSeq w.key = some w.seq) : takeOwn d w s = s := by
  simp [takeOwn, Nat.not_le.2 hs, hh]

theorem takeOwn_older {h : Nat} (hh : s.tdb.heldSeq w.key = some h) (hlt : w.seq < h) : takeOwn d w s = addKey d w.key s := by
  simp [takeOwn, Nat.not_le.2 hs, hh, hlt]

theorem takeOwn_newer (hh : s.tdb.heldSeq w.key = none ∨ ∃ h, s.tdb.heldSeq w.key = some h ∧ h < w.seq) :
    takeOwn d w s = reoriginate w.key s := by
  rcases hh with hh | ⟨h, hh, hlt⟩
  · simp [takeOwn, Nat.not_le.2 hs, hh]
  · simp [takeOwn, Nat.not_le.2 hs, hh, Nat.not_lt.2 (Nat.le_of_lt hlt), Nat.ne_of_gt hlt]

end

end

end Sys2Proof.Machine

open Sys2Proof Sys2Proof.Machine

/-- Settles O33, by the ADVERT's sequence against the own counter: a jump with the counter left live or exhausted, or else the sequence
held under the key; and by whether the key names a record of the part's own. -/
theorem ownOriginAdvertRaisesSequence : Obligations.OwnOriginAdvertRaisesSequence := by
  intro d a k s u hu htakes hup hform hdom horigin hrecord after named reaches again nothing
  have hf : FloodDone u := hu ▸ floodDone_settle s
  have hc : u.claims = [] := hu ▸ claims_settle s
  have hseq : (nativeWrite d a).seq = a.seq := seq_nativeWrite d a
  have hkey : (nativeWrite d a).key = k ∧ keyOrigin k = u.nodeId := by
    rcases hrecord with ⟨regen, transit, hr, rfl⟩ | ⟨num, far, flags, farNum, cost, imp, used, blocked, hr, rfl⟩
    · exact ⟨by rw [nativeWrite, hr, ← horigin]; rfl, rfl⟩
    · exact ⟨by rw [nativeWrite, hr, ← horigin]; rfl, rfl⟩
  obtain ⟨hkey, ho⟩ := hkey
  have run := exec_own_advert hu htakes hup hform hdom (by rw [hkey]; exact ho)
  generalize nativeWrite d a = w at hseq hkey run
  subst hkey
  rw [← hseq]
  obtain ⟨htr, hadm, hdtu, hrqu, hrsv, hshu, hcfu, hfwd⟩ := recordsEvent_keeps (beside_takeOwn d w u)
  have hafter : after (finish (takeOwn d w u)) := ⟨run, htr, hadm, hdtu, hrqu, hrsv, hshu, hcfu, hfwd⟩
  have dropped (h : takeOwn d w u = u) : nothing := by
    rw [h] at run; exact ⟨_, run, hf.blocks_finish, Traffic.finish u⟩
  refine ⟨fun hs => ⟨fun hk hlt => ?live, fun hk hlast => ?spent, fun hk => ?unnamed⟩, fun hs => ⟨fun h hh => ⟨fun he => ?equal,
    fun hq hlt => ?older⟩, fun hh => ⟨fun hk hl => ?newer, fun hk => ?ignored⟩⟩⟩
  case live =>
    have hjump : takeOwn d w u = reoriginate w.key (jump w.seq u) := takeOwn_jump_live hs hlt
    refine ⟨_, hafter, ?_⟩
    rw [hjump]
    exact ⟨(raised_jump _ _).keeps ((Keeps.reoriginate _ _).trans (Keeps.finish _)),
      (reoriginated_finish (s := jump w.seq u) hk hlt :)⟩
  case spent =>
    have hspent := takeOwn_jump_spent (d := d) hs (Nat.le_of_eq hlast.symm) ho
    obtain ⟨hkeeps, hexhausted, hoverrun⟩ := hspent.finish (raised_jump _ _).1
    refine ⟨_, hafter, ?_, (raised_jump _ _).keeps hkeeps, hexhausted, hoverrun⟩
    exact (seq_finish _).trans (hspent.seq.trans (congrArg (· + 1) hlast))
  case unnamed =>
    have htdb := (tdb_finish _).trans (tdb_takeOwn_unnamed (d := d) hs ho hk)
    rcases Nat.lt_or_ge w.seq 0xFFFFFFF0 with hlt | hge
    · have hjump : takeOwn d w u = jump w.seq u := by rw [takeOwn_jump_live hs hlt, reoriginate_unnamed ho hk]
      refine ⟨_, hafter, ?_, ?_, htdb, fun hlast => absurd hlast (Nat.ne_of_lt hlt)⟩
      · rw [seq_finish, hjump]; rfl
      · rw [hjump]; exact (raised_jump _ _).keeps (Keeps.finish _)
    · have hspent := takeOwn_jump_spent (d := d) hs hge ho
      obtain ⟨hkeeps, hexhausted, hoverrun⟩ := hspent.finish (raised_jump _ _).1
      exact ⟨_, hafter, (seq_finish _).trans hspent.seq, (raised_jump _ _).keeps hkeeps, htdb, fun _ => ⟨hexhausted, hoverrun⟩⟩
  case equal => exact dropped (takeOwn_equal hs (hh.trans (congrArg some he.symm)))
  case older =>
    rw [takeOwn_older hs hh hlt] at run
    exact ⟨_, run, corrected_finish hq hc⟩
  case newer =>
    refine ⟨_, hafter, ?_⟩
    rw [takeOwn_newer hs hh]
    exact reoriginated_finish hk hl
  case ignored => exact dropped ((takeOwn_newer hs hh).trans (reoriginate_unnamed ho hk u))

end

section
/-! SUPPORT. Keys that join a send list and origins that join a pull list, one after another, at one degree (R94, R98 to R100). -/

namespace Sys2Proof.Machine

/-! ## Operations on the lists of one degree -/

theorem setFlood_flood (s : State) (d : Degree) : s.setFlood d (s.flood d) = s := by simp [State.setFlood, State.flood]

/-- Steps that each rewrite the lists of one degree rewrite them together. -/
theorem foldl_setFlood {β : Type} {d : Degree} {s : State} {f : State → β → State} {g : FleDegree → β → FleDegree}
    (h : ∀ x b, f (s.setFlood d x) b = s.setFlood d (g x b)) (l : List β) (x : FleDegree) :
    l.foldl f (s.setFlood d x) = s.setFlood d (l.foldl g x) := by
  induction l generalizing x with
  | nil => rfl
  | cons b l ih => rw [List.foldl_cons, h, ih, List.foldl_cons]

/-- At rest, an event that rewrites the lists of one degree leaves them so, and its ports offer what they can. -/
theorem setFlood_event {u : State} (hq : Quiet u) (hc : u.claims = []) (d : Degree) (x : FleDegree) :
    Traffic [] [] u (finish (u.setFlood d x)) ∧ (finish (u.setFlood d x)).flood d = x ∧
      (finish (u.setFlood d x)).blocks = (u.setFlood d x).blocks := by
  have hr : Rested (u.setFlood d x) := ⟨hq.of_ntu rfl, hc⟩
  rw [hr.finish_eq]
  refine ⟨(Traffic.of_eq (t := u.setFlood d x) rfl rfl).trans (Traffic.offerAll _), ?_, blocks_offerAll _⟩
  rw [State.flood, fle_offerAll]
  exact vget_vset_same _ _ _

/-! ## Keys that join a send list (R94) -/

/-- A list that keeps its entries at its front and takes exactly the keys that meet a test. -/
def Joined (P : RecordKey → Prop) (l l' : List RecordKey) : Prop := l <+: l' ∧ ∀ k, k ∈ l' ↔ k ∈ l ∨ P k

section
variable {P Q : RecordKey → Prop} {l m n : List RecordKey}

theorem Joined.none (l : List RecordKey) : Joined (fun _ => False) l l := ⟨List.prefix_refl l, by simp⟩

theorem Joined.trans (h : Joined P l m) (k : Joined Q m n) : Joined (fun x => P x ∨ Q x) l n :=
  ⟨h.1.trans k.1, fun x => by rw [k.2, h.2, or_assoc]⟩

theorem Joined.congr (h : Joined P l m) (e : ∀ k, P k ↔ Q k) : Joined Q l m := ⟨h.1, fun k => by rw [h.2, e]⟩

theorem Joined.foldl {β : Type} {f : FleDegree → β → FleDegree} {P : β → RecordKey → Prop}
    (h : ∀ x b, Joined (P b) x.sendList (f x b).sendList) (l : List β) (x : FleDegree) :
    Joined (fun k => ∃ b ∈ l, P b k) x.sendList (l.foldl f x).sendList := by
  induction l generalizing x with
  | nil => exact (Joined.none _).congr (by simp)
  | cons b l ih => exact ((h x b).trans (ih _)).congr (by simp)

end

theorem joined_addKey (k : RecordKey) (x : FleDegree) : Joined (· = k) x.sendList (x.addKey k).sendList := by
  rw [addKey_eq]
  by_cases h : k ∈ x.sendList
  · refine ⟨by simp [h], fun j => ?_⟩
    have : j = k → j ∈ x.sendList := by rintro rfl; exact h
    simp [h, or_iff_left_of_imp this]
  · exact ⟨by simp [h], by simp [h]⟩

/-- Keys join a send list in their order. -/
def FleDegree.addKeys (ks : List RecordKey) (x : FleDegree) : FleDegree := ks.foldl (fun y k => y.addKey k) x

theorem joined_addKeys (ks : List RecordKey) (x : FleDegree) : Joined (· ∈ ks) x.sendList (x.addKeys ks).sendList :=
  (Joined.foldl (fun y k => joined_addKey k y) ks x).congr (by simp)

theorem addKey_setFlood (d : Degree) (k : RecordKey) (s : State) (x : FleDegree) :
    addKey d k (s.setFlood d x) = s.setFlood d (x.addKey k) := by
  rw [addKey, flood_setFlood, if_pos rfl, setFlood_setFlood]

theorem pushOrigin_setFlood (d : Degree) (o : NodeId) (s : State) (x : FleDegree) :
    pushOrigin d o (s.setFlood d x) = s.setFlood d (x.addKeys (s.tdb.keysOf o)) :=
  foldl_setFlood (fun y k => addKey_setFlood d k s y) _ _

/-- The lists of a degree beside its send list. -/
def FleDegree.besideSends (x : FleDegree) : FleDegree := { x with sendList := [] }

theorem besideSends_addKeys (ks : List RecordKey) (x : FleDegree) : (x.addKeys ks).besideSends = x.besideSends := by
  induction ks generalizing x with
  | nil => rfl
  | cons k ks ih => rw [FleDegree.addKeys, List.foldl_cons, ← FleDegree.addKeys, ih, addKey_eq]; rfl

/-! ## A PULL taken (R102) -/

/-- The lists of a degree that pushed some origins. -/
def FleDegree.answered (t : Tdb) (os : List NodeId) (x : FleDegree) : FleDegree := os.foldl (fun y o => y.addKeys (t.keysOf o)) x

theorem takePull_eq (d : Degree) (os : List NodeId) (s : State) :
    takePull d os s = s.setFlood d ((s.flood d).answered s.tdb os) := by
  conv_lhs => rw [← setFlood_flood s d]
  exact foldl_setFlood (fun x o => pushOrigin_setFlood d o s x) os _

theorem joined_answered (t : Tdb) (os : List NodeId) (x : FleDegree) :
    Joined (fun k => ∃ o ∈ os, k ∈ t.keysOf o) x.sendList (x.answered t os).sendList :=
  Joined.foldl (fun y o => joined_addKeys (t.keysOf o) y) os x

theorem besideSends_answered (t : Tdb) (os : List NodeId) (x : FleDegree) : (x.answered t os).besideSends = x.besideSends := by
  induction os generalizing x with
  | nil => rfl
  | cons o os ih =>
    rw [FleDegree.answered, List.foldl_cons, ← FleDegree.answered, ih, besideSends_addKeys]

theorem eq_of_besideSends {x y : FleDegree} (h : y.besideSends = x.besideSends) : y = { x with sendList := y.sendList } := by
  obtain ⟨l, ps, w, r, m⟩ := x
  obtain ⟨l', ps', w', r', m'⟩ := y
  obtain ⟨-, rfl, rfl, rfl, rfl⟩ := FleDegree.mk.inj h
  rfl

/-! ## Origins that join a pull list (R99, R100) -/

/-- An origin is listed in a pull list. -/
def listedIn (ps : List PullEntry) (o : NodeId) : Bool := ps.any fun p => p.origin == o

/-- A pull made of an origin: its entry refreshed or created and marked for the waiting PULL, or not made where 32 others are listed. -/
def FleDegree.pull (p : PullEntry) (x : FleDegree) : FleDegree :=
  if listedIn x.pulls p.origin then
    { x with pulls := x.pulls.map (fun y => if y.origin == p.origin then p else y), waiting := insertBy natLt p.origin x.waiting }
  else if x.pulls.length < 32 then { x with pulls := x.pulls ++ [p], waiting := insertBy natLt p.origin x.waiting }
  else x

/-- The pull-list entry of a neighbour's summary, with its deadline. -/
def State.wanted (s : State) (e : TallyEntry) : PullEntry :=
  ⟨e.origin, e.highest, e.count, e.sum, s.now + s.cfu.params.pullWait⟩

theorem pullOrigin_setFlood (d : Degree) (e : TallyEntry) (s : State) (x : FleDegree) :
    pullOrigin d e (s.setFlood d x) = s.setFlood d (x.pull (s.wanted e)) := by
  unfold pullOrigin FleDegree.pull listedIn State.wanted
  simp only [flood_setFlood, if_true, setFlood_setFlood]
  split
  · rfl
  · split
    · rename_i h
      rw [if_pos (show x.pulls.length < 32 from h)]; rfl
    · rename_i h
      rw [if_neg (show ¬ x.pulls.length < 32 from h)]

section
variable (w : TallyEntry → PullEntry)

/-- The summaries whose origins a pull list holds: their entries are refreshed. -/
def refreshedBy (ps : List PullEntry) (es : List TallyEntry) : List TallyEntry := es.filter fun e => listedIn ps e.origin

/-- The summaries that find a place in a pull list which does not hold their origins. -/
def createdBy (ps : List PullEntry) (es : List TallyEntry) : List TallyEntry :=
  (es.filter fun e => !listedIn ps e.origin).take (32 - ps.length)

/-- A pull list with the entries of some origins replaced. -/
def refreshPulls (rs : List TallyEntry) (ps : List PullEntry) : List PullEntry :=
  ps.map fun x => (rs.find? fun e => e.origin == x.origin).elim x w

/-- What pulls of several origins, one after another, make of the lists of a degree. -/
structure PullsMade (es : List TallyEntry) (x y : FleDegree) : Prop where
  pulls : y.pulls = refreshPulls w (refreshedBy x.pulls es) x.pulls ++ (createdBy x.pulls es).map w
  waiting : ∀ o, o ∈ y.waiting ↔ o ∈ x.waiting ∨ ∃ e ∈ refreshedBy x.pulls es ++ createdBy x.pulls es, e.origin = o
  round : y.round = x.round
  tallyTimer : y.tallyTimer = x.tallyTimer

variable {w} (hw : ∀ e, (w e).origin = e.origin)

section
variable {e : TallyEntry} {es : List TallyEntry} {ps : List PullEntry}

theorem refreshedBy_cons_listed (h : listedIn ps e.origin = true) : refreshedBy ps (e :: es) = e :: refreshedBy ps es := by
  simp [refreshedBy, h]

theorem refreshedBy_cons_unlisted (h : listedIn ps e.origin = false) : refreshedBy ps (e :: es) = refreshedBy ps es := by
  simp [refreshedBy, h]

theorem createdBy_cons_listed (h : listedIn ps e.origin = true) : createdBy ps (e :: es) = createdBy ps es := by
  simp [createdBy, h]

theorem createdBy_cons_room (h : listedIn ps e.origin = false) (hl : ps.length < 32) : createdBy ps (e :: es) =
    e :: (es.filter fun e => !listedIn ps e.origin).take (32 - (ps.length + 1)) := by
  have : 32 - ps.length = (32 - (ps.length + 1)) + 1 := by omega
  simp [createdBy, h, this]

theorem createdBy_full (hl : ¬ ps.length < 32) : createdBy ps es = [] := by
  have : 32 - ps.length = 0 := by omega
  simp [createdBy, this]

/-- Origins behind one in ascending order are not its origin. -/
theorem find_behind (he : ∀ f ∈ es, e.origin < f.origin) {o : NodeId} (ho : o = e.origin) :
    (refreshedBy ps es).find? (fun f => f.origin == o) = none := by
  rw [List.find?_eq_none]
  exact fun f hf hfo => Nat.ne_of_gt (he f (List.mem_of_mem_filter hf)) ((beq_iff_eq.1 hfo).trans ho)

include hw

/-- A pull of an origin that is listed. -/
theorem PullsMade.refresh (he : ∀ f ∈ es, e.origin < f.origin) {x y : FleDegree} (h : listedIn x.pulls e.origin = true)
    (hr : PullsMade w es (x.pull (w e)) y) : PullsMade w (e :: es) x y := by
  have hx : x.pull (w e) = { x with
      pulls := x.pulls.map (fun y => if y.origin == e.origin then w e else y), waiting := insertBy natLt e.origin x.waiting } := by
    rw [FleDegree.pull, hw, if_pos h]
  rw [hx] at hr
  obtain ⟨hpulls, hwaiting, hround, htimer⟩ := hr
  have hsame (o : NodeId) : listedIn (x.pulls.map fun y => if y.origin == e.origin then w e else y) o = listedIn x.pulls o := by
    rw [listedIn, listedIn, List.any_map]
    congr 1
    funext p
    by_cases hp : p.origin = e.origin <;> simp [hp, hw]
  simp only [refreshedBy, createdBy, hsame, List.length_map] at hpulls hwaiting
  refine ⟨?_, fun o => ?_, hround, htimer⟩
  · rw [hpulls, refreshedBy_cons_listed h, createdBy_cons_listed h]
    refine congrArg (· ++ _) ?_
    rw [refreshPulls, refreshPulls, List.map_map]
    refine List.map_congr_left fun p _ => ?_
    rw [Function.comp_apply]
    by_cases hp : p.origin = e.origin
    · have hnone : List.find? _ (es.filter fun f => listedIn x.pulls f.origin) = none := find_behind he (hw e)
      rw [if_pos (beq_iff_eq.2 hp), hnone, List.find?_cons_of_pos (p := fun f : TallyEntry => f.origin == p.origin) (beq_iff_eq.2 hp.symm)]
      rfl
    · have hp' : ¬ (e.origin == p.origin) = true := fun c => hp (beq_iff_eq.1 c).symm
      rw [if_neg (mt beq_iff_eq.1 hp), List.find?_cons_of_neg (p := fun f : TallyEntry => f.origin == p.origin) hp']
      rfl
  · rw [hwaiting, mem_insertBy_natLt, refreshedBy_cons_listed h, createdBy_cons_listed h, List.cons_append]
    simp only [List.mem_cons, exists_eq_or_imp, refreshedBy, createdBy]
    rw [eq_comm (a := o), or_comm (a := e.origin = o), or_assoc]

/-- A pull of an origin that is not listed, where there is room. -/
theorem PullsMade.create (he : ∀ f ∈ es, e.origin < f.origin) {x y : FleDegree} (h : listedIn x.pulls e.origin = false)
    (hl : x.pulls.length < 32) (hr : PullsMade w es (x.pull (w e)) y) : PullsMade w (e :: es) x y := by
  have hx : x.pull (w e) = { x with pulls := x.pulls ++ [w e], waiting := insertBy natLt e.origin x.waiting } := by
    rw [FleDegree.pull, hw, h, if_neg Bool.false_ne_true, if_pos hl]
  rw [hx] at hr
  obtain ⟨hpulls, hwaiting, hround, htimer⟩ := hr
  have hsame : ∀ f ∈ es, listedIn (x.pulls ++ [w e]) f.origin = listedIn x.pulls f.origin := fun f hf => by
    have hne : e.origin ≠ f.origin := Nat.ne_of_lt (he f hf)
    simp [listedIn, hw, hne]
  have hrefreshed : refreshedBy (x.pulls ++ [w e]) es = refreshedBy x.pulls es := List.filter_congr hsame
  have hcreated : e :: createdBy (x.pulls ++ [w e]) es = createdBy x.pulls (e :: es) := by
    rw [createdBy_cons_room h hl, createdBy, List.length_append, List.length_singleton]
    exact congrArg (fun l => e :: List.take _ l) (List.filter_congr fun f hf => by rw [hsame f hf])
  simp only [hrefreshed] at hpulls hwaiting
  refine ⟨?_, fun o => ?_, hround, htimer⟩
  · rw [hpulls, refreshedBy_cons_unlisted h, ← hcreated, refreshPulls, List.map_append, List.append_assoc]
    simp [find_behind he (hw e), refreshPulls]
  · rw [hwaiting, mem_insertBy_natLt, refreshedBy_cons_unlisted h, ← hcreated]
    simp only [List.mem_append, List.mem_cons]
    constructor
    · rintro ((rfl | ho) | ⟨f, hf | hf, hfo⟩)
      · exact Or.inr ⟨e, Or.inr (Or.inl rfl), rfl⟩
      · exact Or.inl ho
      · exact Or.inr ⟨f, Or.inl hf, hfo⟩
      · exact Or.inr ⟨f, Or.inr (Or.inr hf), hfo⟩
    · rintro (ho | ⟨f, hf | rfl | hf, rfl⟩)
      · exact Or.inl (Or.inr ho)
      · exact Or.inr ⟨f, Or.inl hf, rfl⟩
      · exact Or.inl (Or.inl rfl)
      · exact Or.inr ⟨f, Or.inr hf, rfl⟩

/-- A pull of an origin that is not listed, where 32 others are. -/
theorem PullsMade.skip {x y : FleDegree} (h : listedIn x.pulls e.origin = false) (hl : ¬ x.pulls.length < 32)
    (hr : PullsMade w es (x.pull (w e)) y) : PullsMade w (e :: es) x y := by
  have hx : x.pull (w e) = x := by rw [FleDegree.pull, hw, h, if_neg Bool.false_ne_true, if_neg hl]
  rw [hx] at hr
  obtain ⟨hpulls, hwaiting, hround, htimer⟩ := hr
  rw [createdBy_full hl] at hpulls
  simp only [createdBy_full hl] at hwaiting
  refine ⟨?_, fun o => ?_, hround, htimer⟩
  · rw [hpulls, refreshedBy_cons_unlisted h, createdBy_full hl]
  · rw [hwaiting, refreshedBy_cons_unlisted h, createdBy_full hl]

end

include hw

/-- Pulls of origins in ascending order: those listed are refreshed in place, the others created while there is room. -/
theorem pullsMade_foldl {es : List TallyEntry} (hs : es.Pairwise fun e f => e.origin < f.origin) (x : FleDegree) :
    PullsMade w es x (es.foldl (fun y e => y.pull (w e)) x) := by
  induction es generalizing x with
  | nil => exact ⟨by simp [refreshPulls, refreshedBy, createdBy], by simp [refreshedBy, createdBy], rfl, rfl⟩
  | cons e es ih =>
    obtain ⟨he, hes⟩ := List.pairwise_cons.1 hs
    have hr := ih hes (x.pull (w e))
    cases h : listedIn x.pulls e.origin with
    | true => exact hr.refresh hw he h
    | false =>
      by_cases hl : x.pulls.length < 32
      · exact hr.create hw he h hl
      · exact hr.skip hw h hl

end

end Sys2Proof.Machine
end

section
/-! SUPPORT. A TALLY compared origin by origin (R97, R98). -/

namespace Sys2Proof.Machine

/-! ## The entries of a TALLY (R7, R97) -/

theorem ascending_spec {last low : Nat} {l : List Nat} (h : ascending last l low = true) :
    l.Pairwise (· < ·) ∧ ∀ o ∈ l, low ≤ o ∧ o ≤ last := by
  induction l generalizing low with
  | nil => simp
  | cons o l ih =>
    simp only [ascending, Bool.and_eq_true, decide_eq_true_eq] at h
    obtain ⟨⟨hlow, hlast⟩, hl⟩ := h
    obtain ⟨hp, hb⟩ := ih hl
    refine ⟨List.pairwise_cons.2 ⟨fun p hp => (hb p hp).1, hp⟩, fun p hm => ?_⟩
    rcases List.mem_cons.1 hm with rfl | hm
    · exact ⟨hlow, hlast⟩
    · have := hb p hm; omega

/-- The entries of a TALLY that passed the form check: their origins ascend within its range. -/
theorem TallyBody.entries_of_formOk {t : TallyBody} (h : t.formOk = true) :
    (t.entries.Pairwise fun e f => e.origin < f.origin) ∧ ∀ e ∈ t.entries, t.first ≤ e.origin ∧ e.origin ≤ t.last := by
  simp only [TallyBody.formOk, Bool.and_eq_true] at h
  obtain ⟨hp, hb⟩ := ascending_spec h.2
  exact ⟨List.pairwise_map.1 hp, fun e he => hb _ (List.mem_map_of_mem he)⟩

section
variable {es : List TallyEntry} (hs : es.Pairwise fun e f => e.origin < f.origin)
include hs

theorem find_origin_iff {e : TallyEntry} {o : NodeId} : es.find? (fun f => f.origin == o) = some e ↔ e ∈ es ∧ e.origin = o := by
  induction es with
  | nil => simp
  | cons f es ih =>
    obtain ⟨hf, hes⟩ := List.pairwise_cons.1 hs
    rw [List.find?_cons]
    cases ho : f.origin == o with
    | true =>
      have ho : f.origin = o := by simpa using ho
      constructor
      · rintro ⟨⟩; exact ⟨List.mem_cons_self, ho⟩
      · rintro ⟨hm, heo⟩
        rcases List.mem_cons.1 hm with rfl | hm
        · rfl
        · exact absurd (ho.trans heo.symm) (Nat.ne_of_lt (hf e hm))
    | false =>
      have ho : f.origin ≠ o := by simpa using ho
      refine (ih hes).trans ⟨fun ⟨hm, heo⟩ => ⟨List.mem_cons_of_mem _ hm, heo⟩, fun ⟨hm, heo⟩ => ⟨?_, heo⟩⟩
      rcases List.mem_cons.1 hm with rfl | hm
      · exact absurd heo ho
      · exact hm

/-- The entries that pass a test, met by their origins in ascending order. -/
theorem filterMap_find_origin {os : List NodeId} (ho : os.Pairwise (· < ·)) (hm : ∀ e ∈ es, e.origin ∈ os)
    (p : TallyEntry → Bool) :
    os.filterMap (fun o => (es.find? fun e => e.origin == o).filter p) = es.filter p := by
  have hleft : (os.filterMap fun o => (es.find? fun e => e.origin == o).filter p).Pairwise fun e f => e.origin < f.origin := by
    refine ho.filterMap _ fun a b hab e he f hf => ?_
    rw [Option.filter_eq_some_iff, find_origin_iff hs] at he hf
    rw [he.1.2, hf.1.2]; exact hab
  have hright : (es.filter p).Pairwise fun e f => e.origin < f.origin := hs.filter p
  have nodup {l : List TallyEntry} (h : l.Pairwise fun e f => e.origin < f.origin) : l.Nodup :=
    List.nodup_iff_pairwise_ne.2 (h.imp fun hlt heq => absurd (congrArg TallyEntry.origin heq) (Nat.ne_of_lt hlt))
  refine List.Perm.eq_of_pairwise (fun a b _ _ hab hba => absurd hba (Nat.lt_asymm hab)) hleft hright
    ((List.perm_ext_iff_of_nodup (nodup hleft) (nodup hright)).2 fun e => ?_)
  simp only [List.mem_filterMap, Option.filter_eq_some_iff, find_origin_iff hs, List.mem_filter]
  constructor
  · rintro ⟨o, -, ⟨he, -⟩, hp⟩; exact ⟨he, hp⟩
  · rintro ⟨he, hp⟩; exact ⟨e.origin, hm e he, ⟨he, rfl⟩, hp⟩

end

/-! ## What the comparison of one origin calls for (R98) -/

/-- Two summaries of one origin with equal highest sequence and different count or sum. -/
def summariesDiffer (e w : TallyEntry) : Bool := w.highest == e.highest && (w.count != e.count || w.sum != e.sum)

/-- A neighbour's summary calls for a pull: the origin is not INCOMPLETE, and the part lacks it, is behind, or differs. -/
def Tdb.pullsFor (t : Tdb) (e : TallyEntry) : Bool :=
  !t.isIncomplete e.origin && (t.summary e.origin).all fun w => decide (w.highest < e.highest) || summariesDiffer e w

theorem pull_of_tallyActions (ours : Option TallyEntry) (e : TallyEntry) : (tallyActions ours (some e)).1 =
    if (ours.all fun w => decide (w.highest < e.highest) || summariesDiffer e w) = true then some e else none := by
  cases ours with
  | none => rfl
  | some w =>
    simp only [tallyActions, Option.all_some, summariesDiffer]
    rcases Nat.lt_trichotomy w.highest e.highest with h | h | h
    · simp [h]
    · rw [bne_comm (a := e.count), bne_comm (a := e.sum)]
      by_cases hd : (w.count != e.count || w.sum != e.sum) = true <;> simp only [h, hd] <;> simp
    · simp [h, Nat.lt_asymm h, Nat.ne_of_gt h]

theorem push_of_tallyActions (ours theirs : Option TallyEntry) : (tallyActions ours theirs).2 = true ↔
    ∃ w, ours = some w ∧ ∀ e, theirs = some e → e.highest < w.highest ∨ summariesDiffer e w = true := by
  cases ours with
  | none => cases theirs <;> simp [tallyActions]
  | some w =>
    cases theirs with
    | none => simp [tallyActions]
    | some e =>
      simp only [tallyActions, Option.some.injEq, exists_eq_left', forall_eq', summariesDiffer]
      rw [bne_comm (a := e.count), bne_comm (a := e.sum)]
      generalize (w.count != e.count || w.sum != e.sum) = differ
      rcases Nat.lt_trichotomy w.highest e.highest with h | h | h
      · simp [h, Nat.lt_asymm h, Nat.ne_of_lt h]
      · cases differ <;> simp [h]
      · simp [h, Nat.lt_asymm h]

/-- The pull that a TALLY calls for at an origin. -/
def Tdb.pullAt (t : Tdb) (b : TallyBody) (o : NodeId) : Option TallyEntry :=
  (b.entries.find? fun e => e.origin == o).filter t.pullsFor

/-- A TALLY calls for a push at an origin. -/
def Tdb.pushAt (t : Tdb) (b : TallyBody) (o : NodeId) : Bool :=
  (tallyActions (t.summary o) (b.entries.find? fun e => e.origin == o)).2

theorem pullAt_eq (t : Tdb) (b : TallyBody) (o : NodeId) : t.pullAt b o =
    if t.isIncomplete o then none else (tallyActions (t.summary o) (b.entries.find? fun e => e.origin == o)).1 := by
  unfold Tdb.pullAt
  cases h : b.entries.find? fun e => e.origin == o with
  | none => cases t.summary o <;> simp [tallyActions]
  | some e =>
    obtain rfl : e.origin = o := by simpa using List.find?_some h
    rw [pull_of_tallyActions]
    cases hi : t.isIncomplete e.origin <;> simp [Option.filter, Tdb.pullsFor, hi]

theorem pushAt_iff {t : Tdb} {b : TallyBody} (hs : b.entries.Pairwise fun e f => e.origin < f.origin) (o : NodeId) :
    t.pushAt b o = true ↔ ∃ w, t.summary o = some w ∧
      ∀ e ∈ b.entries, e.origin = o → e.highest < w.highest ∨ summariesDiffer e w = true := by
  rw [Tdb.pushAt, push_of_tallyActions]
  simp only [find_origin_iff hs, and_imp]

/-! ## The lists after a TALLY (R98) -/

/-- The lists of a degree after one origin of a TALLY. -/
def FleDegree.compared (s : State) (b : TallyBody) (x : FleDegree) (o : NodeId) : FleDegree :=
  FleDegree.addKeys (if s.tdb.pushAt b o then s.tdb.keysOf o else []) ((s.tdb.pullAt b o).elim x fun e => x.pull (s.wanted e))

theorem compareOrigin_setFlood (d : Degree) (b : TallyBody) (o : NodeId) (s : State) (x : FleDegree) :
    compareOrigin d b o (s.setFlood d x) = s.setFlood d (x.compared s b o) := by
  have push (y : FleDegree) : (if s.tdb.pushAt b o = true then pushOrigin d o (s.setFlood d y) else s.setFlood d y) =
      s.setFlood d (y.addKeys (if s.tdb.pushAt b o then s.tdb.keysOf o else [])) := by
    split
    · exact pushOrigin_setFlood d o s y
    · rfl
  rw [FleDegree.compared, pullAt_eq, ← push]
  unfold compareOrigin Tdb.pushAt
  rw [tdb_setFlood]
  dsimp only
  cases (tallyActions (s.tdb.summary o) (b.entries.find? fun e => e.origin == o)).1 with
  | none => rw [ite_self]; rfl
  | some e =>
    cases s.tdb.isIncomplete o with
    | true => rfl
    | false => simp only [pullOrigin_setFlood]; rfl

/-- The lists of a degree after a TALLY. -/
def FleDegree.tallied (s : State) (b : TallyBody) (x : FleDegree) : FleDegree :=
  (tallyOrigins b s.tdb).foldl (FleDegree.compared s b) x

theorem takeTally_eq (d : Degree) (b : TallyBody) (s : State) : takeTally d b s = s.setFlood d ((s.flood d).tallied s b) := by
  conv_lhs => rw [takeTally, ← setFlood_flood s d]
  exact foldl_setFlood (fun x o => compareOrigin_setFlood d b o s x) _ _

theorem besideSends_pull (p : PullEntry) (x : FleDegree) : (x.pull p).besideSends = x.besideSends.pull p := by
  unfold FleDegree.pull FleDegree.besideSends
  dsimp only
  split
  · rfl
  · split <;> rfl

theorem sendList_pull (p : PullEntry) (x : FleDegree) : (x.pull p).sendList = x.sendList := by
  unfold FleDegree.pull
  split
  · rfl
  · split <;> rfl

/-- The origins whose keys a TALLY pushes join the send list, whatever is pulled. -/
theorem joined_tallied (s : State) (b : TallyBody) (x : FleDegree) :
    Joined (fun k => ∃ o ∈ tallyOrigins b s.tdb, s.tdb.pushAt b o = true ∧ k ∈ s.tdb.keysOf o) x.sendList
      (x.tallied s b).sendList := by
  refine Joined.foldl (fun y o => ?_) _ _
  have hpull : ((s.tdb.pullAt b o).elim y fun e => y.pull (s.wanted e)).sendList = y.sendList := by
    cases s.tdb.pullAt b o with
    | none => rfl
    | some e => exact sendList_pull _ _
  rw [← hpull]
  exact (joined_addKeys _ _).congr fun k => by split <;> simp [*]

/-- The pulls that a TALLY makes, whatever is pushed. -/
theorem besideSends_tallied (s : State) (b : TallyBody) (x : FleDegree) : (x.tallied s b).besideSends =
    ((tallyOrigins b s.tdb).filterMap (s.tdb.pullAt b)).foldl (fun y e => y.pull (s.wanted e)) x.besideSends := by
  unfold FleDegree.tallied
  induction tallyOrigins b s.tdb generalizing x with
  | nil => rfl
  | cons o os ih =>
    rw [List.foldl_cons, ih, FleDegree.compared, besideSends_addKeys, List.filterMap_cons]
    cases s.tdb.pullAt b o with
    | none => rfl
    | some e => rw [Option.elim_some, besideSends_pull]; rfl

theorem mem_tallyOrigins {b : TallyBody} {t : Tdb} {o : NodeId} : o ∈ tallyOrigins b t ↔
    (∃ e ∈ b.entries, e.origin = o) ∨ o ∈ t.origins ∧ b.first ≤ o ∧ o ≤ b.last := by
  simp [tallyOrigins, mem_sortBy_natLt]

theorem mem_origins_of_mem_keysOf {t : Tdb} {o : NodeId} {k : RecordKey} (h : k ∈ t.keysOf o) : o ∈ t.origins := by
  rw [Tdb.origins, mem_sortBy_natLt, List.mem_append, List.mem_map, List.mem_map]
  rw [Tdb.keysOf, List.mem_append] at h
  rcases h with h | h
  · obtain ⟨e, he, -⟩ := List.mem_map.1 h
    obtain ⟨hm, ho⟩ := List.mem_filter.1 he
    exact Or.inl ⟨e, hm, beq_iff_eq.1 ho⟩
  · obtain ⟨j, hj, -⟩ := List.mem_map.1 h
    obtain ⟨e, he, -⟩ := List.mem_map.1 (mem_sortBy_keyLt.1 hj)
    obtain ⟨hm, ho⟩ := List.mem_filter.1 he
    exact Or.inr ⟨e, hm, beq_iff_eq.1 ho⟩

section
variable {b : TallyBody} (hform : b.formOk = true)
include hform

/-- The pulls a TALLY calls for, in the order of its entries. -/
theorem filterMap_pullAt (t : Tdb) : (tallyOrigins b t).filterMap (t.pullAt b) = b.entries.filter t.pullsFor := by
  obtain ⟨hs, -⟩ := TallyBody.entries_of_formOk hform
  exact filterMap_find_origin hs (pairwise_sortBy_natLt _) (fun e he => mem_tallyOrigins.2 (Or.inl ⟨e, he, rfl⟩)) _

theorem pullsMade_tallied (s : State) (x : FleDegree) : PullsMade s.wanted (b.entries.filter s.tdb.pullsFor) x (x.tallied s b) := by
  obtain ⟨hs, -⟩ := TallyBody.entries_of_formOk hform
  have h := pullsMade_foldl (w := s.wanted) (fun _ => rfl) (hs.filter s.tdb.pullsFor) x.besideSends
  rw [← filterMap_pullAt hform, ← besideSends_tallied, filterMap_pullAt hform] at h
  exact ⟨h.pulls, h.waiting, h.round, h.tallyTimer⟩

/-- The origins a TALLY calls to push are those of its range that the comparison calls to push. -/
theorem pushed_iff {t : Tdb} {k : RecordKey} : (∃ o ∈ tallyOrigins b t, t.pushAt b o = true ∧ k ∈ t.keysOf o) ↔
    ∃ o, (b.first ≤ o ∧ o ≤ b.last ∧ t.pushAt b o = true) ∧ k ∈ t.keysOf o := by
  obtain ⟨-, hrange⟩ := TallyBody.entries_of_formOk hform
  constructor
  · rintro ⟨o, ho, hp, hk⟩
    rcases mem_tallyOrigins.1 ho with ⟨e, he, rfl⟩ | ⟨-, hfirst, hlast⟩
    · exact ⟨_, ⟨(hrange e he).1, (hrange e he).2, hp⟩, hk⟩
    · exact ⟨o, ⟨hfirst, hlast, hp⟩, hk⟩
  · rintro ⟨o, ⟨hfirst, hlast, hp⟩, hk⟩
    exact ⟨o, mem_tallyOrigins.2 (Or.inr ⟨mem_origins_of_mem_keysOf hk, hfirst, hlast⟩), hp, hk⟩

end

/-! ## The events (R11) -/

section
variable {d : Degree} {s u : State} (hu : u = settle s) (ht : takesInput u (.deg d) = true) (hup : u.isUp d = true)
include hu ht hup

theorem exec_tally {b : TallyBody} (hf : b.formOk = true) :
    exec (.tally d b) s = .next (finish (u.setFlood d ((u.flood d).tallied u b))) := by
  have h : takeBody (.deg d) 0 true (.tally b) u = takeTally d b u := by
    have hform : (Handled.tally b).formOk = true := hf
    simp only [takeBody, ht, if_true, passOn, hform, Bool.not_true, Bool.false_eq_true, if_false, passFromDegree, toFlood, hup]
  rw [← takeTally_eq, ← h]; exact event_eq hu

theorem exec_pull {os : List NodeId} (hf : pullFormOk os = true) :
    exec (.pull d os) s = .next (finish (u.setFlood d ((u.flood d).answered u.tdb os))) := by
  have h : takeBody (.deg d) 0 true (.pull os) u = takePull d os u := by
    have hform : (Handled.pull os).formOk = true := hf
    simp only [takeBody, ht, if_true, passOn, hform, Bool.not_true, Bool.false_eq_true, if_false, passFromDegree, toFlood, hup]
  rw [← takePull_eq, ← h]; exact event_eq hu

end

end Sys2Proof.Machine

open Sys2Proof Sys2Proof.Machine

/-- Settles O35: a TALLY by the pulls its entries call for, in their order, and the pushes of its range, which do not meet; a PULL by
the keys of its origins. -/
theorem tallyAndPullFillTheLists : Obligations.TallyAndPullFillTheLists := by
  refine ⟨fun d b s u hu ht hup hq hform => ?tally, fun d os s u hu ht hup hq hform => ?pull⟩
  case tally =>
    intro differ pulls pushes entry listed created refreshed
    have run := exec_tally hu ht hup hform
    have hmade := pullsMade_tallied hform u (u.flood d)
    have hjoined := joined_tallied u b (u.flood d)
    have hrefreshed : refreshed = refreshedBy (u.flood d).pulls (b.entries.filter u.tdb.pullsFor) := by
      rw [refreshedBy, List.filter_filter]
      exact List.filter_congr fun e _ => Bool.and_comm _ _
    have hcreated : created = createdBy (u.flood d).pulls (b.entries.filter u.tdb.pullsFor) := by
      rw [createdBy, List.filter_filter]
      exact congrArg (List.take _) (List.filter_congr fun e _ => Bool.and_comm _ _)
    obtain ⟨htr, hflood, hblocks⟩ := setFlood_event hq (hu ▸ claims_settle s) d ((u.flood d).tallied u b)
    refine ⟨_, run, htr, ?_⟩
    rw [hflood, hrefreshed, hcreated]
    refine ⟨hblocks, hmade.pulls.trans (congrArg (· ++ _) (List.map_congr_left fun x _ => ?_)), hmade.waiting, hmade.round,
      hmade.tallyTimer, hjoined.1, fun k => ?_⟩
    · cases (refreshedBy (u.flood d).pulls (b.entries.filter u.tdb.pullsFor)).find? fun e => e.origin == x.origin <;> rfl
    · refine (hjoined.2 k).trans (or_congr_right ((pushed_iff hform).trans ?_))
      simp only [pushAt_iff (TallyBody.entries_of_formOk hform).1]
      exact Iff.rfl
  case pull =>
    have run := exec_pull hu ht hup hform
    have hjoined := joined_answered u.tdb os (u.flood d)
    obtain ⟨htr, hflood, hblocks⟩ := setFlood_event hq (hu ▸ claims_settle s) d ((u.flood d).answered u.tdb os)
    refine ⟨_, run, htr, ?_⟩
    rw [hflood, ← eq_of_besideSends (besideSends_answered u.tdb os (u.flood d))]
    exact ⟨hjoined.1, hblocks, hjoined.2⟩

end

section
/-! SUPPORT. The commit controller's timers (R107, R110, R111) and its commands COMMIT, FREEZE and THAW (R117 to R119): each writes CMC
alone, or writes CMC and takes the abort of an urgent drain. -/

namespace Sys2Proof.Machine

/-! ## Events that write CMC -/

/-- An event that moves the clock and writes CMC. -/
theorem commit_event {u : State} (h : FloodDone u) (n : Moment) (c : Cmc) :
    Traffic [] [] u (finish { u with now := n, cmc := c }) ∧
      (finish { u with now := n, cmc := c }).blocks = State.blocks { u with now := n, cmc := c } :=
  ⟨(Traffic.of_eq rfl rfl).trans (Traffic.finish _), FloodDone.blocks_finish (h.shrinks (FloodShrinks.of_eq rfl rfl rfl))⟩

/-- An abort gives FLE nothing to place. -/
theorem floodShrinks_abort (s : State) : FloodShrinks s (abort s) := by
  have hb := blocks_abort s
  exact FloodShrinks.of_queues ((adm_of_blocks hb).trans rfl) ((fle_of_blocks hb).trans rfl) fun d =>
    queue_le_of_traffic (Traffic.abort s) _

section
variable {m : MgmtFrom} {view : State → State} {f : State → Done} {s u : State} {c : Cmc}
variable (hu : u = settle s) (hm : Commanded m u) (hf : f u = (view u, ⟨.ok, commitData (view u)⟩))
include hu hm hf

/-- A command that writes CMC and answers with its commit state and G. -/
theorem commanded_commit (hv : view u = { u with cmc := c }) (hg : c.gen = u.cmc.gen) :
    ∃ t, event (manageFrom m f) s = .next t ∧ Traffic [] [] u t ∧ Answered m .ok (.commit t.cmc.report u.cmc.gen) t ∧
      t.blocks = State.blocks { u with cmc := c } := by
  rw [hv] at hf
  obtain ⟨t, ht, ha, htr, hb⟩ := commanded_aside hu hm hf rfl rfl rfl rfl
  have hc : t.cmc = c := cmc_of_blocks hb
  refine ⟨t, ht, htr, ?_, hb⟩
  rwa [hc, ← hg]

/-- A command that writes CMC, takes the abort of an urgent drain and answers with the drain and G (R112, R118). -/
theorem commanded_urgent (hv : view u = abort { u with cmc := c }) (hg : c.gen = u.cmc.gen) (hr : c.report = .drainingUrgent) :
    ∃ t, event (manageFrom m f) s = .next t ∧ Traffic [] [] u t ∧ AbortTaken u t ∧ t.rsv.l0.work = .idle ∧
      t.rsv.l1.work = .idle ∧ t.blocks = State.blocks { u with rqu := t.rqu, rsv := t.rsv, cmc := c } ∧
      Answered m .ok (.commit .drainingUrgent u.cmc.gen) t := by
  have hdata : commitData (abort { u with cmc := c }) = .commit .drainingUrgent u.cmc.gen := by
    rw [commitData, cmc_abort, hr, hg]
  rw [hv, hdata] at hf
  have ends := ends_answerMgmt (identity m.port m.src) m.tag ⟨.ok, .commit .drainingUrgent u.cmc.gen⟩ (abort { u with cmc := c })
  have hrsv := ends.1.trans (rsv_abort _)
  have hd : FloodDone u := hu ▸ floodDone_settle s
  have hd' : FloodDone (abort { u with cmc := c }) :=
    hd.shrinks ((FloodShrinks.of_eq (t := { u with cmc := c }) rfl rfl rfl).trans (floodShrinks_abort _))
  refine ⟨_, commanded_run hu hm hf, ?_, abortTaken_of_ends (v := { u with cmc := c }) rfl rfl hg rfl ends, ?_, ?_, ?_,
    answered_answerMgmt m _ _ (identity_ne m u hm.2.1)⟩
  · exact (Traffic.of_eq (t := { u with cmc := c }) rfl rfl).trans ((Traffic.abort _).trans (traffic_answered _ _ _ _))
  · rw [hrsv]; exact work_finish _ _
  · rw [hrsv]; exact work_finish _ _
  · rw [blocks_answered _ _ _ hd', blocks_abort, ends.2.1, hrsv]

end

/-! ## A normal request (R109, R115) -/

/-- CMC on entry to SETTLING (R110). -/
def Cmc.settlingAt (now : Moment) (c : Cmc) : Cmc :=
  { c with state := .settling, settle := 0, checks := 0, changed := false, checkTimer := some (now + 100) }

theorem not_frozen_iff {c : Cmc} : c.frozen = false ↔ c.freeze = false ∧ c.gen ≠ 0xFFFFFFFF := by
  simp [Cmc.frozen, Config.lastGeneration]

section
variable {s : State}

/-- An idle CMC, neither frozen nor at its last generation, starts to settle. -/
theorem normalRequest_starts (h : s.cmc.state = .idle ∧ s.cmc.freeze = false ∧ s.cmc.gen ≠ 0xFFFFFFFF) :
    normalRequest s = { s with cmc := { s.cmc with normalReq := true }.settlingAt s.now } :=
  normalRequest_idle h.1 (not_frozen_iff.2 h.2)

/-- Any other CMC keeps the request for later. -/
theorem normalRequest_waits (h : ¬ (s.cmc.state = .idle ∧ s.cmc.freeze = false ∧ s.cmc.gen ≠ 0xFFFFFFFF)) :
    normalRequest s = { s with cmc := { s.cmc with normalReq := true } } := by
  cases hs : s.cmc.state with
  | idle =>
    have hz : s.cmc.frozen = true := by
      rw [← Bool.not_eq_false, not_frozen_iff]; exact fun k => h ⟨hs, k⟩
    simp only [normalRequest, hs]
    exact if_pos hz
  | settling => simp only [normalRequest, hs]
  | draining => simp only [normalRequest, hs]

/-! ## The quiet check (R110, R111) -/

theorem quietBlocked_iff : quietBlocked s = true ↔
    ∃ d, (s.isUp d = true ∧ (s.flood d).pulls ≠ []) ∨ (s.adjacency d).state = .qualify := by
  simp [quietBlocked, mem_allDegrees]

/-- The settle count that a quiet check reaches. -/
def State.nextSettle (s : State) : Nat :=
  if s.cmc.changed then 0 else if quietBlocked s then s.cmc.settle else s.cmc.settle + 1

theorem nextSettle_eq {k : Nat}
    (h : (s.cmc.changed = true ∧ k = 0) ∨ (s.cmc.changed = false ∧ quietBlocked s = true ∧ k = s.cmc.settle) ∨
      (s.cmc.changed = false ∧ ¬ quietBlocked s = true ∧ k = s.cmc.settle + 1)) : s.nextSettle = k := by
  rcases h with ⟨hc, rfl⟩ | ⟨hc, hq, rfl⟩ | ⟨hc, hq, rfl⟩
  · rw [State.nextSettle, if_pos hc]
  · rw [State.nextSettle, hc, if_neg (by decide), if_pos hq]
  · rw [State.nextSettle, hc, if_neg (by decide), if_neg hq]

/-- CMC on entry to DRAINING-NORMAL. -/
def Cmc.drainsNormally (forced : Bool) (c : Cmc) : Cmc :=
  { c with state := .draining, mode := .normal, forced := forced, checkTimer := none }

/-- CMC after a quiet check that reaches a settle count `k`. -/
def Cmc.quietChecked (now : Moment) (count k : Nat) (c : Cmc) : Cmc :=
  let checked := { c with settle := k, checks := c.checks + 1, changed := false }
  if count ≤ k then checked.drainsNormally false
  else if 20 * count ≤ c.checks + 1 then checked.drainsNormally true
  else { checked with checkTimer := some (now + 100) }

theorem quietCheck_eq (s : State) :
    quietCheck s = { s with cmc := s.cmc.quietChecked s.now s.cfu.params.settleCount s.nextSettle } := by
  change (if s.cfu.params.settleCount ≤ s.nextSettle then _ else _) = _
  unfold Cmc.quietChecked
  dsimp only
  split
  · rfl
  · split <;> rfl

theorem expireCheck_settling {m : Moment} (h : s.cmc.state = .settling) (hm : s.cmc.checkTimer = some m) :
    expireCheck s = { s with
      now := max s.now m, cmc := s.cmc.quietChecked (max s.now m) s.cfu.params.settleCount s.nextSettle } := by
  rw [expireCheck, h, hm]
  exact quietCheck_eq (s.reach m)

/-! ## The auto-commit timer (R107) -/

theorem anyPending_iff {t : Tdb} : t.anyPending = true ↔
    (∃ e ∈ t.nodes, e.2.ver.pending.isSome = true) ∨ ∃ e ∈ t.links, e.2.ver.pending.isSome = true := by
  rw [Tdb.anyPending, Bool.or_eq_true, List.any_eq_true, List.any_eq_true]

/-- The part at an expiry of the auto-commit timer, which restarts. -/
def State.autoRestarted (m : Moment) (s : State) : State :=
  { s with now := max s.now m, cmc := { s.cmc with autoTimer := some (max s.now m + s.cfu.params.autoCommit * 1000) } }

theorem expireAuto_some {m : Moment} (hm : s.cmc.autoTimer = some m) :
    expireAuto s = if s.tdb.anyPending = true then normalRequest (s.autoRestarted m) else s.autoRestarted m := by
  rw [expireAuto, hm]; rfl

/-! ## COMMIT, FREEZE and THAW (R115, R117 to R119) -/

theorem doCommit_running (h : s.cfu.start = .running) : doCommit s = (normalRequest s, ⟨.ok, commitData (normalRequest s)⟩) := by
  simp [doCommit, h]

theorem doCommit_refused (h : s.cfu.start ≠ .running) : doCommit s = refuse .notReady s := by simp [doCommit, h]

/-- FREEZE sets the flag; a CMC that settles stops (R117). -/
theorem freezeView_eq (s : State) : freezeView s = { s with cmc :=
    if s.cmc.freeze = false ∧ s.cmc.state = .settling then
      { s.cmc with freeze := true, checkTimer := none, settle := 0, checks := 0, state := .idle }
    else { s.cmc with freeze := true } } := by
  unfold freezeView
  split
  · rename_i hz
    rw [if_neg (by simp [hz]), ← hz]
  · rename_i hz
    have hz : s.cmc.freeze = false := by simpa using hz
    split <;> rename_i hs
    · rw [if_neg (by simp [hs])]
    · rw [if_pos ⟨hz, hs⟩]
    · rw [if_neg (by simp [hs])]

theorem thawView_not_frozen (h : s.cmc.freeze = false) : thawView s = s := by simp [thawView, h]

section
variable (h : s.cmc.freeze = true)
include h

theorem thawView_exhausted (hg : s.cmc.gen = 0xFFFFFFFF) : thawView s = { s with cmc := { s.cmc with freeze := false } } := by
  simp [thawView, h, hg, Config.lastGeneration]

variable (hg : s.cmc.gen ≠ 0xFFFFFFFF)
include hg

/-- An idle CMC that thaws takes the urgent request first, then the normal one (R118). -/
theorem thawView_idle (hs : s.cmc.state = .idle) : thawView s =
    if s.cmc.urgentReq = true then startUrgent { s with cmc := { s.cmc with freeze := false } }
    else { s with cmc := if s.cmc.normalReq = true then { s.cmc with freeze := false }.settlingAt s.now
      else { s.cmc with freeze := false } } := by
  simp only [thawView, h, Config.lastGeneration, beq_iff_eq, hg, hs, if_false, Bool.not_true, Bool.false_eq_true]
  split
  · rfl
  · split <;> rfl

/-- A drain that thaws is upgraded by an urgent request (R118). -/
theorem thawView_draining (hs : s.cmc.state = .draining) : thawView s =
    if s.cmc.mode = .normal ∧ s.cmc.urgentReq = true then upgradeUrgent { s with cmc := { s.cmc with freeze := false } }
    else { s with cmc := { s.cmc with freeze := false } } := by
  cases hmode : s.cmc.mode with
  | normal => simp [thawView, h, hg, hs, hmode, Config.lastGeneration]
  | urgent => simp [thawView, h, hg, hs, hmode, Config.lastGeneration]

end

end

/-- A THAW that clears the freeze flag and starts nothing answers with the commit state before it. -/
theorem commanded_thawed {m : MgmtFrom} {s u : State} (hu : u = settle s) (hm : Commanded m u)
    (hv : thawView u = { u with cmc := { u.cmc with freeze := false } }) :
    ∃ t, event (manageFrom m doThaw) s = .next t ∧ Traffic [] [] u t ∧ Answered m .ok (.commit u.cmc.report u.cmc.gen) t ∧
      t.blocks = State.blocks { u with cmc := { u.cmc with freeze := false } } := by
  obtain ⟨t, ht, htr, ha, hb⟩ := commanded_commit (f := doThaw) hu hm rfl hv rfl
  rw [cmc_of_blocks hb] at ha
  exact ⟨t, ht, htr, ha, hb⟩

end Sys2Proof.Machine

open Sys2Proof Sys2Proof.Machine

/-- Settles O42: the quiet check by the settle count it reaches, the auto-commit timer by what a normal request does. -/
theorem quietCheckAndAutoCommitExpiries : Obligations.QuietCheckAndAutoCommitExpiries := by
  refine ⟨fun m k s u hu hs hm => ?quiet, fun m s u hu hm => ?auto⟩
  case quiet =>
    intro open' hk count c after
    have run : exec .quietCheck s = .next (finish (expireCheck u)) := event_eq hu
    have hnext : u.nextSettle = k := nextSettle_eq (by rw [quietBlocked_iff]; exact hk)
    rw [expireCheck_settling hs hm, hnext] at run
    obtain ⟨htr, hb⟩ := commit_event (hu ▸ floodDone_settle s) (max u.now m) (u.cmc.quietChecked (max u.now m) count k)
    refine ⟨_, run, htr, fun settled => ?_, fun more limit => ?_, fun more again => ?_⟩
    · rw [hb, Cmc.quietChecked, if_pos settled]; rfl
    · rw [hb, Cmc.quietChecked, if_neg more.not_ge, if_pos limit]; rfl
    · rw [hb, Cmc.quietChecked, if_neg more.not_ge, if_neg again.not_ge]
  case auto =>
    intro n c some'
    have run : exec .autoCommitTimerExpiry s = .next (finish (expireAuto u)) := event_eq hu
    rw [expireAuto_some hm] at run
    have wrote (x : Cmc) := commit_event (hu ▸ floodDone_settle s : FloodDone u) n x
    refine ⟨fun none' => ?_, fun any idle hz hg => ?_, fun any busy => ?_⟩
    · rw [if_neg (mt anyPending_iff.1 none')] at run
      exact ⟨_, run, wrote _⟩
    · rw [if_pos (anyPending_iff.2 any), normalRequest_starts (s := u.autoRestarted m) ⟨idle, hz, hg⟩] at run
      exact ⟨_, run, wrote _⟩
    · have waits : ¬ (u.cmc.state = .idle ∧ u.cmc.freeze = false ∧ u.cmc.gen ≠ 0xFFFFFFFF) := by
        rintro ⟨idle, hz, hg⟩
        simp [idle, hz, hg] at busy
      rw [if_pos (anyPending_iff.2 any), normalRequest_waits (s := u.autoRestarted m) waits] at run
      exact ⟨_, run, wrote _⟩

/-- Settles O43, command by command; THAW by the state it thaws and the requests it finds. -/
theorem commitFreezeThaw : Obligations.CommitFreezeThaw := by
  intro m s u hu hm settling
  refine ⟨fun h => ?refused, fun h => ?commit, ?freeze, fun hz => ?notFrozen, fun hz hg => ?exhausted,
    fun hz hg => ⟨fun hs hur => ?startsUrgent, fun hs hur => ?startsNormal, fun hs hmode hur => ?upgrades, fun hs h => ?drainsOn⟩⟩
  case refused =>
    exact commanded_refused hu hm (doCommit_refused h)
  case commit =>
    by_cases hi : u.cmc.state = .idle ∧ u.cmc.freeze = false ∧ u.cmc.gen ≠ 0xFFFFFFFF
    · rw [if_pos hi]
      exact commanded_commit hu hm (doCommit_running h) (normalRequest_starts hi) rfl
    · rw [if_neg hi]
      exact commanded_commit hu hm (doCommit_running h) (normalRequest_waits hi) rfl
  case freeze =>
    exact commanded_commit (f := doFreeze) hu hm rfl (freezeView_eq u) (by split <;> rfl)
  case notFrozen =>
    have hd : doThaw u = (u, ⟨.ok, commitData u⟩) := by rw [doThaw, thawView_not_frozen hz]
    obtain ⟨t, ht, ha, htr, hb⟩ := commanded_aside hu hm hd rfl rfl rfl rfl
    exact ⟨t, ht, htr, hb, ha⟩
  case exhausted =>
    exact commanded_thawed hu hm (thawView_exhausted hz hg)
  case startsUrgent =>
    have hv := thawView_idle hz hg hs
    rw [if_pos hur] at hv
    exact commanded_urgent (f := doThaw) hu hm rfl hv rfl rfl
  case startsNormal =>
    have hv := thawView_idle hz hg hs
    rw [if_neg (by simp [hur])] at hv
    exact commanded_commit (f := doThaw) hu hm rfl hv (by split <;> rfl)
  case upgrades =>
    have hv := thawView_draining hz hg hs
    rw [if_pos ⟨hmode, hur⟩] at hv
    exact commanded_urgent (f := doThaw) hu hm rfl hv rfl (by simp [Cmc.report, hs])
  case drainsOn =>
    have hv := thawView_draining hz hg hs
    rw [if_neg (by rintro ⟨hmode, hur⟩; simp [hmode, hur] at h)] at hv
    exact commanded_thawed hu hm hv

end

section
/-! SUPPORT. Frames and answers that RQU and SHU originate, with the end of their event, and the commands ROUTEQ and ROUTEA as they reach
the request unit (R12, R16, R123, R178). -/

namespace Sys2Proof.Machine

/-! ## A frame placed and its event ended (R16, R20) -/

section
variable {w : State} (hw : FloodDone w) (b : OwnBlock)
include hw

/-- An own frame of RQU or SHU over a part in which FLE has nothing to place. -/
theorem placed_event (f : Frame) : Placed f (finish (placeOwn b f w)) ∧ Traffic [] [] w (finish (placeOwn b f w)) ∧
    (finish (placeOwn b f w)).blocks = w.blocks :=
  ⟨(claimed_placeOwn b f w).finish, (Traffic.placeOwn _ _ _).trans (Traffic.finish _),
    blocks_finish_of_blocks hw (blocks_placeOwn _ _ _) (queue_le_of_traffic (Traffic.placeOwn _ _ _))⟩

theorem routeAnswer_event (who : NodeId) (tag : Nat) (o : RouteOutcome) (g : Nat) (xs : List PathResult) :
    RouteAnswered who tag o g xs (finish (answer b who tag o g xs w)) ∧ Traffic [] [] w (finish (answer b who tag o g xs w)) ∧
      (finish (answer b who tag o g xs w)).blocks = w.blocks :=
  ⟨routeAnswered_answer _ _ _ _ _ _ _, (placed_event hw b _).2⟩

theorem FloodDone.answerNow (who : NodeId) (tag : Nat) (o : RouteOutcome) : FloodDone (Machine.answerNow b who tag o w) :=
  hw.shrinks (FloodShrinks.of_queues (by simp) (by simp) fun _ => queue_le_of_traffic (Traffic.answerNow _ _ _ _ _) _)

end

/-- An answer stays claimed for when a source is raised after it. -/
theorem routeAnswered_raise (i : NoticeId) (ms : List Member) (b : OwnBlock) (who : NodeId) (tag : Nat) (o : RouteOutcome) (s : State) :
    RouteAnswered who tag o s.cmc.gen [] (finish (raise i ms (answerNow b who tag o s))) :=
  routeAnswered_finish (s := s) ((claimed_placeOwn b _ s).grows (routeOwn_of_steady (steady_of_blocks (blocks_raise _ _ _)) _)
    (fun _ h => h) (Keeps.raise i ms _)) (by simp [State.nodeId])

/-! ## Senders (R12, R123) -/

theorem badSender_deg_iff {s : State} {d : Degree} {src : NodeId} :
    badSender s (.deg d) src = true ↔ src = 0 ∨ src = 65535 ∨ src = s.nodeId := by
  simp [badSender, or_assoc]

theorem badSender_eq_false {s : State} {p : Port} {src : NodeId} (h : p = .np ∨ (src ≠ 0 ∧ src ≠ 65535 ∧ src ≠ s.nodeId)) :
    badSender s p src = false := by
  cases p with
  | np => rfl
  | deg d => obtain h | h := h <;> simp_all [badSender]

theorem fromSender_bad {p : Port} {src : NodeId} {f : NodeId → State → State} {s : State} (h : badSender s p src = true) :
    fromSender p src f s = frameError p s := if_pos h

theorem fromSender_good {p : Port} {src : NodeId} {f : NodeId → State → State} {s : State} (h : badSender s p src = false) :
    fromSender p src f s = f (identity p src) s := if_neg (by simp [h])

section
variable {p : Port} {src : NodeId} {s u : State} (hu : u = settle s) (ht : takesInput u p = true)
include hu ht

theorem exec_routeq (q : RouteqBody) : exec (.routeq p src q) s = .next (finish (fromSender p src (takeRouteq q) u)) := by
  have h : takeBody p src false (.routeq q) u = fromSender p src (takeRouteq q) u := by
    rw [takeBody, if_pos ht]; cases p <;> rfl
  rw [← h]; exact event_eq hu

/-- A ROUTEA in the form of R7. -/
theorem exec_routea {a : RouteaBody} (hp : a.paths.length ≤ 2) (hh : ∀ b ∈ a.paths, 1 ≤ b.hops.length ∧ b.hops.length ≤ 32) :
    exec (.routea p src a) s = .next (finish (fromSender p src (takeRoutea a) u)) := by
  have form : (Handled.routea a).formOk = true := by
    simp only [Handled.formOk, Bool.and_eq_true, List.all_eq_true, decide_eq_true_eq]
    exact ⟨hp, hh⟩
  have h : takeBody p src false (.routea a) u = fromSender p src (takeRoutea a) u := by
    simp only [takeBody, ht, if_true, passOn, form, Bool.not_true, Bool.false_eq_true, if_false]; cases p <;> rfl
  rw [← h]; exact event_eq hu

end

end Sys2Proof.Machine
end

section
/-! SUPPORT. A ROUTEQ by the steps of admission up to the queue (R124 to R128). -/

namespace Sys2Proof.Machine

/-! ## What the steps test (R125, R126) -/

/-- A field of a ROUTEQ is out of the range R5 and R125 give it. -/
def FieldsOutOfRange (q : RouteqBody) : Prop :=
  2 < q.cls ∨ 1 < q.kind ∨ q.width = 0 ∨ 32 < q.width ∨ q.maxHops = 0 ∨ 32 < q.maxHops ∨
    q.src = 0 ∨ q.src = 65535 ∨ q.dst = 0 ∨ q.dst = 65535 ∨ q.src = q.dst ∨
    q.waypoint = 65535 ∨ (q.waypoint ≠ 0 ∧ (q.waypoint = q.src ∨ q.waypoint = q.dst)) ∨
    (q.flags.getLsbD 3 = true ∧ (383 < q.rangeFirst ∨ 383 < q.rangeLast ∨ q.rangeLast < q.rangeFirst ∨
      q.rangeLast < q.rangeFirst + q.width - 1)) ∨
    (q.flags.getLsbD 2 = true ∧ q.kind = 0)

theorem fieldsOutOfRange_iff {q : RouteqBody} : FieldsOutOfRange q ↔ q.fieldsOk = false := by
  rw [← not_iff_not, Bool.not_eq_false]
  simp only [RouteqBody.fieldsOk, RouteqBody.slotRange, RouteqBody.nodeDisjoint, RouteqBody.isPair, FieldsOutOfRange,
    Bool.and_eq_true, Bool.or_eq_true, Bool.not_eq_true', decide_eq_true_eq, bne_iff_ne, beq_iff_eq, ne_eq]
  grind

theorem present_iff {s : State} {who : NodeId} {tag : Nat} : present s who tag = true ↔
    (∃ r ∈ s.rqu.queue, r.requester = who ∧ r.body.tag = tag) ∨
    (∃ r ∈ s.rsv.requests, r.requester = who ∧ r.body.tag = tag) ∨
    (∃ i r, vget s.rqu.referrals i = some r ∧ r.requester = who ∧ r.tag = tag) ∨
    ∃ e ∈ s.shu.results, e.2.requester = who ∧ e.2.tag = tag := by
  have listed : (∃ x ∈ s.rqu.referrals.toList, ∃ r, x = some r ∧ r.requester = who ∧ r.tag = tag) ↔
      ∃ i r, vget s.rqu.referrals i = some r ∧ r.requester = who ∧ r.tag = tag := by
    simp only [vget, Vector.mem_toList_iff, Vector.mem_iff_getElem, Fin.exists_iff]
    exact ⟨fun ⟨_, ⟨i, hi, e⟩, r, hr, k⟩ => ⟨i, hi, r, e.trans hr, k⟩, fun ⟨i, hi, r, e, k⟩ => ⟨_, ⟨i, hi, e⟩, r, rfl, k⟩⟩
  simp only [present, Request.named, Bool.or_eq_true, List.any_eq_true, Option.any_eq_true, Bool.and_eq_true, beq_iff_eq, or_assoc,
    ← listed]

theorem queueRoom_iff {s : State} : queueRoom s = true ↔ s.rqu.queue.length + s.rsv.requests.length < 64 := by
  rw [queueRoom, decide_eq_true_eq]; rfl

/-! ## The steps (R124) -/

section
variable {q : RouteqBody} {who : NodeId} {s : State}

theorem takeRouteq_not_ready (h : s.cmc.gen = 0) : takeRouteq q who s = answerNow .rqu who q.tag .refusedNotReady s := by
  simp [takeRouteq, h]

variable (hg : s.cmc.gen ≠ 0)
include hg

theorem takeRouteq_bad (h : q.fieldsOk = false) : takeRouteq q who s = answerNow .rqu who q.tag .refusedParam s := by
  simp [takeRouteq, hg, h]

variable (hq : q.fieldsOk = true)
include hq

theorem takeRouteq_present (h : present s who q.tag = true) : takeRouteq q who s = answerNow .rqu who q.tag .refusedDup s := by
  simp [takeRouteq, hg, hq, h]

variable (hp : present s who q.tag = false)
include hp

theorem takeRouteq_referred {peer : NodeId} (h : referralPeer s who q = some peer) : takeRouteq q who s = refer who peer q s := by
  simp [takeRouteq, hg, hq, hp, h]

variable (hr : referralPeer s who q = none)
include hr

theorem takeRouteq_full (h : queueRoom s = false) : takeRouteq q who s = answerNow .rqu who q.tag .refusedFull s := by
  simp [takeRouteq, hg, hq, hp, hr, h]

theorem takeRouteq_queued (h : queueRoom s = true) : takeRouteq q who s = enqueueRequest who q s := by
  simp [takeRouteq, hg, hq, hp, hr, h]

end

theorem forget_eq (who : NodeId) (tag : Nat) (t : Shu) :
    t.forget who tag = { t with expired := t.expired.filter (· ≠ (who, tag)) } := by
  have h : (fun x => x != (who, tag)) = fun x : NodeId × Nat => decide (x ≠ (who, tag)) :=
    funext fun x => Bool.eq_iff_iff.2 (by simp)
  rw [Shu.forget, h]

end Sys2Proof.Machine

open Sys2Proof Sys2Proof.Machine

/-- Settles O49: a bad sender is discarded; every other request is answered or queued by the first of the steps that decides it. -/
theorem routeqAdmission : Obligations.RouteqAdmission := by
  intro p src q s u hu ht who refused bad pair
  have hf : FloodDone u := hu ▸ floodDone_settle s
  have run := exec_routeq (src := src) hu ht q
  refine ⟨fun ⟨d, hd⟩ hsrc => ?discarded, fun hsrc => ?_⟩
  case discarded =>
    subst hd
    rw [fromSender_bad (badSender_deg_iff.2 hsrc)] at run
    exact ⟨_, run, discard_event hf _⟩
  rw [fromSender_good (badSender_eq_false hsrc)] at run
  have answered {o : RouteOutcome} (h : takeRouteq q who u = answerNow .rqu who q.tag o u) : refused o := by
    rw [h] at run
    obtain ⟨ha, htr, hb⟩ := routeAnswer_event hf .rqu who q.tag o u.cmc.gen []
    exact ⟨_, run, hb, ha, htr⟩
  have inRange (h : ¬ bad) : q.fieldsOk = true := Bool.eq_true_of_not_eq_false (mt fieldsOutOfRange_iff.2 h)
  have absent (h : ¬ pair) : present u who q.tag = false := Bool.eq_false_iff.2 (mt present_iff.1 h)
  refine ⟨fun h0 => answered (takeRouteq_not_ready h0), fun hg hb => answered (takeRouteq_bad hg (fieldsOutOfRange_iff.1 hb)),
    fun hg hb hp => answered (takeRouteq_present hg (inRange hb) (present_iff.2 hp)), fun hg hb hp hr hl => ?full,
    fun hg hb hp hr hl => ?queued⟩
  case full =>
    exact answered (takeRouteq_full hg (inRange hb) (absent hp) hr (Bool.eq_false_iff.2 (mt queueRoom_iff.1 (Nat.not_lt.2 hl))))
  case queued =>
    rw [takeRouteq_queued hg (inRange hb) (absent hp) hr (queueRoom_iff.2 hl)] at run
    refine ⟨_, run, (Traffic.of_eq rfl rfl).trans (Traffic.finish _), ?_⟩
    have hd : FloodDone (enqueueRequest who q u) := hf.shrinks (FloodShrinks.of_eq rfl rfl rfl)
    rw [hd.blocks_finish, enqueueRequest, forgetExpired, forget_eq]
    rfl

end

section
/-! SUPPORT. Referrals: a ROUTEQ to a delegated domain, the relay of its ROUTEA, and a referral deadline (R135 to R139). -/

namespace Sys2Proof.Machine

/-! ## The peer and the entry (R135, R136) -/

/-- A destination in a domain delegated to a peer that is neither the requester nor this node. -/
theorem referralPeer_delegated {s : State} {who peer : NodeId} {q : RouteqBody} {j : Nat} {r : NodeRec} {k : Fin 16}
    (hn : s.tdb.findNode q.dst = some (j, r)) (ha : r.ver.committedActive = true) (hk : r.ver.domain = k.val) (h0 : k ≠ 0)
    (hd : vget s.rqu.delegation k = peer) (hp : peer ≠ 0) (hw : peer ≠ who) (hs : peer ≠ s.nodeId) :
    referralPeer s who q = some peer := by
  have foreign : k.val ≠ 0 := fun e => h0 (Fin.ext e)
  have given : vget? s.rqu.delegation k.val = some peer := by simp [vget?, hd]
  simp [referralPeer, hn, ha, hk, foreign, given, hp, hw, hs]

/-- No entry of the referral list is free. -/
theorem freeReferral_full {r : Rqu} (h : ∀ i, vget r.referrals i ≠ none) : freeReferral r = none := by
  simp [freeReferral, List.find?_eq_none, Option.isNone_iff_eq_none, h]

/-- The free entry first met after the cursor, wrapping; it is met within one round. -/
theorem freeReferral_first {r : Rqu} {n : Nat} {i : Fin 16} (hi : i.val = (r.cursor + 1 + n) % 16) (hf : vget r.referrals i = none)
    (hb : ∀ n', n' < n → ∀ i' : Fin 16, i'.val = (r.cursor + 1 + n') % 16 → vget r.referrals i' ≠ none) :
    freeReferral r = some i := by
  have round : n < 16 := by
    by_contra hn
    exact hb (n - 16) (by omega) i (by omega) hf
  have first : (List.range 16).find? (fun m => (vget r.referrals ⟨(r.cursor + 1 + m) % 16, Nat.mod_lt _ (by decide)⟩).isNone) =
      some n := by
    rw [List.find?_range_eq_some]
    refine ⟨?_, List.mem_range.2 round, fun m hm => ?_⟩
    · rw [← show i = ⟨(r.cursor + 1 + n) % 16, _⟩ from Fin.ext hi, hf]; rfl
    · simpa [Option.isSome_iff_ne_none] using hb m hm ⟨_, Nat.mod_lt _ (by decide)⟩ rfl
  rw [freeReferral, referralOrder, List.find?_map]
  simp only [Function.comp_def, first, Option.map_some]
  exact congrArg some (Fin.ext hi.symm)

/-! ## A request referred (R135 to R137) -/

section
variable {who peer : NodeId} {q : RouteqBody} {s : State}

theorem refer_unreachable (h : lookup s peer = none) :
    refer who peer q s = raise .referral [.unreachable] (answerNow .rqu who q.tag .referralUnreachable s) := by
  simp [refer, h]

variable (h : lookup s peer ≠ none)
include h

theorem refer_full (hf : freeReferral s.rqu = none) : refer who peer q s = answerNow .rqu who q.tag .refusedFull s := by
  obtain ⟨d, hd⟩ := Option.ne_none_iff_exists'.1 h
  simp [refer, hd, hf]

theorem refer_made {i : Fin 16} (hf : freeReferral s.rqu = some i) : refer who peer q s = makeReferral i who peer q s := by
  obtain ⟨d, hd⟩ := Option.ne_none_iff_exists'.1 h
  simp [refer, hd, hf]

end

/-- The part with a referral entry made, before its ROUTEQ is forwarded. -/
def State.withReferral (s : State) (i : Fin 16) (who peer : NodeId) (q : RouteqBody) : State :=
  { s with
    rqu := { s.rqu with
      referrals := vset s.rqu.referrals i (some ⟨who, q.tag, peer, q.hold, s.now + s.cfu.params.referralWait * 1000⟩)
      cursor := i.val }
    shu := { s.shu with expired := s.shu.expired.filter (· ≠ (who, q.tag)) } }

theorem makeReferral_eq (i : Fin 16) (who peer : NodeId) (q : RouteqBody) (s : State) : makeReferral i who peer q s =
    placeOwn .rqu (ownFrame s kindRouteq peer (.routeq (forwardedBody i q))) (s.withReferral i who peer q) := by
  rw [makeReferral, forgetExpired, forget_eq]
  rfl

/-- The flags forwarded have HOLD cleared and bits 1 to 3 as received. -/
theorem forwardedBody_flags (i : Fin 16) (q : RouteqBody) : (forwardedBody i q).flags.getLsbD 0 = false ∧
    ∀ b, 1 ≤ b → b ≤ 3 → (forwardedBody i q).flags.getLsbD b = q.flags.getLsbD b := by
  refine ⟨by simp [forwardedBody], fun b h1 h3 => ?_⟩
  have bit : (0x0E#8).getLsbD b = true := by interval_cases b <;> rfl
  rw [forwardedBody, BitVec.getLsbD_and, bit, Bool.and_true]

/-! ## The relay and the deadline (R138, R139) -/

theorem matchReferral_some_iff {s : State} {who : NodeId} {tag : Nat} {i : Fin 16} {r : Referral} :
    matchReferral s who tag = some (i, r) ↔ tag = i.val ∧ vget s.rqu.referrals i = some r ∧ r.peer = who := by
  unfold matchReferral
  split
  next ht =>
    split
    next x hx =>
      by_cases hp : x.peer = who
      · simp only [hp, beq_self_eq_true, if_true, Option.some.injEq, Prod.mk.injEq]
        constructor
        · rintro ⟨rfl, rfl⟩
          exact ⟨rfl, hx, hp⟩
        · rintro ⟨rfl, hr, -⟩
          exact ⟨rfl, Option.some.inj (hx.symm.trans hr)⟩
      · simp only [beq_iff_eq, hp, if_false, reduceCtorEq, false_iff]
        rintro ⟨rfl, hr, he⟩
        exact hp (Option.some.inj (hx.symm.trans hr) ▸ he)
    next hx =>
      simp only [reduceCtorEq, false_iff]
      rintro ⟨rfl, hr, -⟩
      exact absurd (hx.symm.trans hr) (by simp)
  next ht =>
    simp only [reduceCtorEq, false_iff]
    rintro ⟨rfl, -⟩
    exact ht i.isLt

theorem relayedOutcome_eq (asked : Bool) (o : Nat) :
    relayedOutcome asked o = if asked = true ∧ o = 0x00 then 0x01 else o := by
  simp [relayedOutcome, RouteOutcome.code]

theorem takeRoutea_matched {a : RouteaBody} {who : NodeId} {s : State} {i : Fin 16} {r : Referral} (ht : a.tag = i.val)
    (hr : vget s.rqu.referrals i = some r) (hp : r.peer = who) :
    takeRoutea a who s = placeOwn .rqu (ownFrame s kindRoutea r.requester
      (.routea ⟨r.tag, if r.holdAsked = true ∧ a.outcome = 0x00 then 0x01 else a.outcome, a.gen, a.paths⟩)) (setReferral i none s) := by
  simp only [takeRoutea, matchReferral_some_iff.2 ⟨ht, hr, hp⟩, relayedOutcome_eq]

theorem takeRoutea_late {a : RouteaBody} {who : NodeId} {s : State}
    (h : ∀ (i : Fin 16) r, a.tag = i.val → vget s.rqu.referrals i = some r → r.peer ≠ who) :
    takeRoutea a who s = raise .referral [.late] s := by
  have none' : matchReferral s who a.tag = none := by
    refine Option.eq_none_iff_forall_ne_some.2 fun ⟨i, r⟩ e => ?_
    obtain ⟨ht, hr, hp⟩ := matchReferral_some_iff.1 e
    exact h i r ht hr hp
  simp only [takeRoutea, none']

theorem expireReferral_used {i : Fin 16} {r : Referral} {s : State} (h : vget s.rqu.referrals i = some r) :
    expireReferral i.val s = answerNow .rqu r.requester r.tag .referralTimeout (setReferral i none (s.reach r.deadline)) := by
  simp [expireReferral, i.isLt, h]

end Sys2Proof.Machine

open Sys2Proof Sys2Proof.Machine

/-- Settles O50: the request passes admission as far as its delegated domain, and is then referred by what route and entry there is. -/
theorem referralIsMadeAndForwarded : Obligations.ReferralIsMadeAndForwarded := by
  intro p src peer q j r k s u hu ht hb hg hq hp hn ha hk h0 hd hz hw hs who
  have hf : FloodDone u := hu ▸ floodDone_settle s
  have run := exec_routeq (src := src) hu ht q
  rw [fromSender_good hb, takeRouteq_referred hg hq hp (referralPeer_delegated hn ha hk h0 hd hz hw hs)] at run
  refine ⟨fun hl => ?unreachable, fun hl full => ?full, fun hl n i hi hfree hbefore => ?made⟩
  case unreachable =>
    rw [refer_unreachable hl] at run
    obtain ⟨hr, htr, same⟩ := raised_event (u := u) .referral .unreachable (hf.answerNow .rqu who q.tag .referralUnreachable)
      (Traffic.answerNow _ _ _ _ _)
    exact ⟨_, run, same.trans (blocks_answerNow _ _ _ _ _), hr, routeAnswered_raise _ _ _ _ _ _ _, htr⟩
  case full =>
    rw [refer_full hl (freeReferral_full full)] at run
    obtain ⟨ha, htr, hb⟩ := routeAnswer_event hf .rqu who q.tag .refusedFull u.cmc.gen []
    exact ⟨_, run, hb, ha, htr⟩
  case made =>
    rw [refer_made hl (freeReferral_first hi hfree hbefore), makeReferral_eq] at run
    obtain ⟨hpl, htr, hb⟩ := placed_event (w := u.withReferral i who peer q) (hf.shrinks (FloodShrinks.of_eq rfl rfl rfl)) .rqu
      (ownFrame u kindRouteq peer (.routeq (forwardedBody i q)))
    obtain ⟨hhold, hbits⟩ := forwardedBody_flags i q
    refine ⟨_, _, run, (Traffic.of_eq rfl rfl).trans htr, hhold, hbits, ?_, hb⟩
    simpa [ownFrame, kindRouteq, neighbourDst, forwardedBody] using hpl

/-- Settles O51: a ROUTEA by whether it matches a used entry; a deadline of a used entry. -/
theorem referralIsRelayedOrTimesOut : Obligations.ReferralIsRelayedOrTimesOut := by
  refine ⟨fun p src a s u hu ht hb hp hh => ?_, fun i r s u hu hr => ?deadline⟩
  · have hf : FloodDone u := hu ▸ floodDone_settle s
    have run := exec_routea (src := src) hu ht hp hh
    rw [fromSender_good hb] at run
    refine ⟨fun i r htag hr hpeer => ?relayed, fun hlate => ?late⟩
    case relayed =>
      rw [takeRoutea_matched htag hr hpeer] at run
      obtain ⟨hpl, htr, hb⟩ := placed_event (w := setReferral i none u) (hf.shrinks (FloodShrinks.of_eq rfl rfl rfl)) .rqu
        (ownFrame u kindRoutea r.requester
          (.routea ⟨r.tag, if r.holdAsked = true ∧ a.outcome = 0x00 then 0x01 else a.outcome, a.gen, a.paths⟩))
      refine ⟨_, run, (Traffic.of_eq rfl rfl).trans htr, ?_, hb⟩
      simpa [ownFrame, kindRoutea, neighbourDst] using hpl
    case late =>
      rw [takeRoutea_late hlate] at run
      obtain ⟨hr, htr, hb⟩ := raised_event .referral .late hf (Traffic.refl _ _ _)
      exact ⟨_, run, hb, hr, htr⟩
  case deadline =>
    have hf : FloodDone u := hu ▸ floodDone_settle s
    have run : exec (.referralDeadlineExpiry i.val) s = .next (finish (expireReferral i.val u)) := event_eq hu
    rw [expireReferral_used hr] at run
    obtain ⟨ha, htr, hb⟩ := routeAnswer_event (w := setReferral i none (u.reach r.deadline))
      (hf.shrinks (FloodShrinks.of_eq rfl rfl rfl)) .rqu r.requester r.tag .referralTimeout u.cmc.gen []
    exact ⟨_, run, (Traffic.of_eq rfl rfl).trans htr, ha, hb⟩

end

section
/-! SUPPORT. Dispatch: when the head of the queue is blocked, and the lanes a request is given to (R129, R146). -/

namespace Sys2Proof.Machine

/-! ## The test (R129) -/

/-- A request at the head of the queue is blocked (R129). -/
def BlockedHead (s : State) (r : Request) : Prop :=
  s.cmc.state = .draining ∨ s.rsv.treeJob ≠ none ∨
  (r.body.kind = 1 ∧ (s.rsv.l0.work ≠ .idle ∨ s.rsv.l1.work ≠ .idle)) ∨ (s.rsv.l0.work ≠ .idle ∧ s.rsv.l1.work ≠ .idle)

theorem isIdle_iff {l : Lane} : l.isIdle = true ↔ l.work = .idle := beq_iff_eq

theorem isPair_iff {q : RouteqBody} : q.isPair = true ↔ q.kind = 1 := beq_iff_eq

theorem canDispatch_iff {s : State} {r : Request} : canDispatch s r = true ↔ ¬ BlockedHead s r := by
  by_cases hk : r.body.kind = 1
  · simp only [canDispatch, isPair_iff.2 hk, if_true, Bool.and_eq_true, bne_iff_ne, Option.isNone_iff_eq_none, isIdle_iff, BlockedHead, hk]
    tauto
  · have single : r.body.isPair = false := by simpa using mt isPair_iff.1 hk
    simp only [canDispatch, single, Bool.false_eq_true, if_false, Bool.and_eq_true, Bool.or_eq_true, bne_iff_ne,
      Option.isNone_iff_eq_none, isIdle_iff, BlockedHead, hk]
    tauto

/-! ## The lanes given (R129) -/

section
variable {r : Request} {cap : Capture} {v : Rsv}

theorem give_pair (h : r.body.kind = 1) :
    v.give r cap = { v with l0 := { v.l0 with work := .computing r cap }, l1 := { v.l1 with work := .computing r cap } } := by
  simp only [Rsv.give, isPair_iff.2 h, if_true]

theorem give_l0 (h : r.body.kind ≠ 1) (h0 : v.l0.work = .idle) :
    v.give r cap = { v with l0 := { v.l0 with work := .computing r cap } } := by
  simp only [Rsv.give, mt isPair_iff.1 h, isIdle_iff.2 h0, if_true, if_false, Bool.false_eq_true]

theorem give_l1 (h : r.body.kind ≠ 1) (h0 : v.l0.work ≠ .idle) :
    v.give r cap = { v with l1 := { v.l1 with work := .computing r cap } } := by
  simp only [Rsv.give, mt isPair_iff.1 h, mt isIdle_iff.1 h0, if_false, Bool.false_eq_true]

end

/-! ## One dispatch (R129, R146) -/

/-- The part after the head of the queue is given to its lanes. -/
def State.dispatched (s : State) (r : Request) (rest : List Request) : State :=
  { s with stamp := s.stamp + 1, rqu := { s.rqu with queue := rest }, rsv := s.rsv.give r (capture s) }

section
variable {s : State} {r : Request} {rest : List Request}

theorem dispatchHead_empty (h : s.rqu.queue = []) : dispatchHead s = s := by simp [dispatchHead, h]

theorem dispatchHead_blocked (h : s.rqu.queue = r :: rest) (hb : BlockedHead s r) : dispatchHead s = s := by
  simp [dispatchHead, h, mt canDispatch_iff.1 (not_not.2 hb)]

theorem dispatchHead_given (h : s.rqu.queue = r :: rest) (hb : ¬ BlockedHead s r) : dispatchHead s = s.dispatched r rest := by
  simp only [dispatchHead, h, canDispatch_iff.2 hb, if_true]
  rfl

/-- A dispatch after which the queue is empty or its head is blocked is the only one. -/
theorem dispatchAll_once (h : s.rqu.queue = r :: rest) (hb : ¬ BlockedHead s r)
    (hr : ∀ r' rest', rest = r' :: rest' → BlockedHead (s.dispatched r rest) r') : dispatchAll s = s.dispatched r rest := by
  rw [dispatchAll, dispatchHead_given h hb]
  cases rest with
  | nil => exact dispatchHead_empty rfl
  | cons r' rest' => exact dispatchHead_blocked rfl (hr r' rest' rfl)

/-- With both lanes at work nothing more is dispatched. -/
theorem blockedHead_busy (h0 : s.rsv.l0.work ≠ .idle) (h1 : s.rsv.l1.work ≠ .idle) : BlockedHead s r :=
  Or.inr (Or.inr (Or.inr ⟨h0, h1⟩))

/-- With a lane at work no PAIR is dispatched. -/
theorem blockedHead_pair (hk : r.body.kind = 1) (h0 : s.rsv.l0.work ≠ .idle) : BlockedHead s r :=
  Or.inr (Or.inr (Or.inl ⟨hk, Or.inl h0⟩))

end

end Sys2Proof.Machine

open Sys2Proof Sys2Proof.Machine

/-- Settles O54, by the head of the queue, its kind and the lanes that are IDLE. -/
theorem dispatchFillsTheLanes : Obligations.DispatchFillsTheLanes := by
  intro s v hv cap busy blocked
  have run : exec .dispatch s = .next (dispatchAll v) := by rw [hv]; rfl
  rw [run]
  refine ⟨fun hq => ?empty, fun r rest hq hb => ?blocked, fun r rest hq hb hk => ?pair, fun r rest hq hb hk h0 => ?second,
    fun r rest hq hb hk h0 hnext => ?first, fun r r' rest hq hb hk hk' h0 h1 => ?both⟩
  case empty => rw [dispatchAll, dispatchHead_empty hq, dispatchHead_empty hq]
  case blocked => rw [dispatchAll, dispatchHead_blocked hq hb, dispatchHead_blocked hq hb]
  case pair =>
    rw [dispatchAll_once hq hb fun r' rest' _ => ?_, State.dispatched, give_pair hk]
    · rfl
    · rw [State.dispatched, give_pair hk]
      exact blockedHead_busy (by simp) (by simp)
  case second =>
    rw [dispatchAll_once hq hb fun r' rest' _ => ?_, State.dispatched, give_l1 hk h0]
    · rfl
    · rw [State.dispatched, give_l1 hk h0]
      exact blockedHead_busy h0 (by simp)
  case first =>
    rw [dispatchAll_once hq hb fun r' rest' hr => ?_, State.dispatched, give_l0 hk h0]
    · rfl
    · rw [State.dispatched, give_l0 hk h0]
      obtain h1 | h | ⟨x, xs, h, hx⟩ := hnext
      · exact blockedHead_busy (by simp) h1
      · exact absurd (h.symm.trans hr) (by simp)
      · obtain ⟨rfl, -⟩ := List.cons.inj (h.symm.trans hr)
        exact blockedHead_pair hx (by simp)
  case both =>
    have given : v.dispatched r (r' :: rest) = { v with
        stamp := v.stamp + 1, rqu := { v.rqu with queue := r' :: rest }
        rsv := { v.rsv with l0 := { v.rsv.l0 with work := .computing r (cap 1) } } } := by
      rw [State.dispatched, give_l0 hk h0]
      rfl
    have free : ¬ BlockedHead (v.dispatched r (r' :: rest)) r' := by
      obtain ⟨hdrain, htree, -⟩ : _ ∧ _ ∧ _ := by simpa only [blocked, not_or] using hb
      rw [given]
      simpa [BlockedHead, hk', h1] using ⟨hdrain, not_not.1 htree⟩
    rw [dispatchAll, dispatchHead_given hq hb, dispatchHead_given (by rw [given]) free, given, State.dispatched, give_l1 hk' (by simp)]
    rfl

end

section
/-! SUPPORT. The completion of a computation: the lanes ended, the exclusion check, a request returned, and a FOUND result taken with its
conflict and room checks (R131, R160, R161, R174 to R177). -/

namespace Sys2Proof.Machine

/-! ## Room in a table of results or holds (R171, R172) -/

section
variable {α : Type} {cap : Nat} {t : List (Nat × α)} {i : Nat}

/-- A table in canonical form lists no more entries than it has indices. -/
theorem TableOk.length_le (h : TableOk cap t) : t.length ≤ cap := by
  have distinct : (t.map Prod.fst).Nodup := by
    have rising := (rising_iff_pairwise t).1 h.1
    rw [List.nodup_iff_pairwise_ne, List.pairwise_map]
    exact rising.imp Nat.ne_of_lt
  have below : t.map Prod.fst ⊆ List.range cap := fun n hn => by
    obtain ⟨e, he, rfl⟩ := List.mem_map.1 hn
    exact List.mem_range.2 (h.2 e he)
  simpa using (distinct.subperm below).length_le

theorem length_tput_free (a : α) (h : ∀ e ∈ t, e.1 ≠ i) : (tput t i a).length = t.length + 1 := by
  induction t with
  | nil => rfl
  | cons b t ih =>
    obtain ⟨j, y⟩ := b
    have hj : i ≠ j := fun e => h (j, y) (by simp) e.symm
    by_cases hlt : i < j
    · rw [tput, if_pos hlt]; rfl
    · rw [tput, if_neg hlt, if_neg hj, List.length_cons, ih fun e he => h e (by simp [he]), List.length_cons]

theorem lowestFree_free (h : TableOk cap t) (hi : lowestFree t cap = some i) : ∀ e ∈ t, e.1 ≠ i :=
  tget_eq_none_iff.1 (lowestFree_spec h.1 hi).2.1

/-- A table at its capacity has no free index. -/
theorem lowestFree_of_full (h : TableOk cap t) (hl : cap ≤ t.length) : lowestFree t cap = none := by
  cases t with
  | nil => simp_all [lowestFree]
  | cons b t =>
    refine Option.eq_none_iff_forall_ne_some.2 fun i hi => ?_
    have written := (h.tput_free hi b.2).length_le
    rw [length_tput_free b.2 (lowestFree_free h hi)] at written
    omega

end

/-- With room for every run, the holds keep their entries and each run takes one (R177). -/
theorem placeHolds_room (i : Nat) {runs : List HeldRun} {t : List (Nat × Hold)} (h : TableOk Config.holdSize t)
    (hl : t.length + runs.length ≤ Config.holdSize) : (∀ e ∈ t, e ∈ placeHolds i runs t) ∧
      (∀ run ∈ runs, ∃ j, (j, ⟨run, i⟩) ∈ placeHolds i runs t) ∧ (placeHolds i runs t).length = t.length + runs.length := by
  induction runs generalizing t with
  | nil => exact ⟨fun _ he => he, by simp, rfl⟩
  | cons r runs ih =>
    rw [List.length_cons] at hl
    have free := lowestFree_of_room (t := t) (cap := Config.holdSize) (by omega)
    generalize lowestFreeFrom t 0 = j at free
    have fresh := lowestFree_free h free
    have longer := length_tput_free (⟨r, i⟩ : Hold) fresh
    have placed : placeHolds i (r :: runs) t = placeHolds i runs (tput t j ⟨r, i⟩) := by
      simp only [placeHolds, List.foldl_cons, free]
    obtain ⟨kept, taken, count⟩ := ih (h.tput_free free ⟨r, i⟩) (by omega)
    rw [placed]
    refine ⟨fun e he => kept e (mem_tput_of_ne he (fresh e he)), fun run hrun => ?_, by rw [count, longer, List.length_cons]; omega⟩
    obtain rfl | hrun := List.mem_cons.1 hrun
    · exact ⟨j, kept _ (mem_tput_self _ _ _)⟩
    · exact taken run hrun

/-! ## The checks of a result (R161, R175) -/

theorem exclusionHit_iff {t : Tdb} {n : Nat} {runs : List HeldRun} : exclusionHit t n runs = true ↔
    ∃ x ∈ t.exclusions, n < x.stamp ∧ ∃ run ∈ runs, x.run.key = run.key ∧
      (x.run.count = 0 ∨ (x.run.first < run.start + run.width ∧ run.start < x.run.first + x.run.count)) := by
  simp [exclusionHit, coversRun]

theorem conflict_iff {t : Shu} {runs : List HeldRun} : t.conflict runs = true ↔
    ∃ run ∈ runs, ∃ h ∈ t.holds, h.2.run.key = run.key ∧
      run.start < h.2.run.start + h.2.run.width ∧ h.2.run.start < run.start + run.width := by
  simp only [Shu.conflict, HeldRun.overlaps, List.any_eq_true, Bool.and_eq_true, beq_iff_eq, decide_eq_true_eq, and_assoc]
  simp only [eq_comm]

/-! ## The end of a computation (R144, R145) -/

/-- The lanes after a computation has ended: both for a PAIR. -/
def Rsv.ended (l : LaneId) (r : Request) (e : WorkEnd) (v : Rsv) : Rsv :=
  if r.body.kind = 1 then v.finishAll e else v.setLane l ((v.lane l).finish e)

theorem endWork_eq {s : State} (h : s.rsv.treeJob = none) (l : LaneId) (r : Request) (e : WorkEnd) :
    endWork l r e s = { s with rsv := s.rsv.ended l r e } := by
  have waits : (s.rsv.ended l r e).treeJob = none := by
    rw [Rsv.ended]
    split
    · exact h
    · cases l <;> exact h
  have pair : (if r.body.isPair then s.rsv.finishAll e else s.rsv.setLane l ((s.rsv.lane l).finish e)) = s.rsv.ended l r e := by
    simp only [Rsv.ended, isPair_iff]
  simp only [endWork, pair, startTree, waits]

theorem finish_computing {l : Lane} {r : Request} {cap : Capture} (h : l.work = .computing r cap) (e : WorkEnd) :
    l.finish e = ⟨.idle, some ⟨e, cap.gen⟩, l.current⟩ := by
  simp [Lane.finish, Lane.isIdle, h, Work.gen]

theorem lane_ended {v : Rsv} {l : LaneId} {r : Request} {cap : Capture} (h : (v.lane l).work = .computing r cap) (e : WorkEnd) :
    (v.ended l r e).lane l = ⟨.idle, some ⟨e, cap.gen⟩, (v.lane l).current⟩ := by
  rw [← finish_computing h, Rsv.ended]
  split <;> cases l <;> rfl

/-! ## What a completion does (R160, R161) -/

section
variable {l : LaneId} {r : Request} {cap : Capture} {s : State} (hw : (s.rsv.lane l).work = .computing r cap)
  (hj : s.rsv.treeJob = none)
include hw hj

theorem complete_failed {e : WorkEnd} (h : solve s.tdb r.body cap = .failed e) : complete l s =
    answer .rqu r.requester r.body.tag (failedOutcome e) cap.gen [] { s with rsv := s.rsv.ended l r e } := by
  simp only [complete, hw, h, endWork_eq hj]

variable {paths : List PathResult} (h : solve s.tdb r.body cap = .found paths)
include h

theorem complete_excluded (hx : exclusionHit s.tdb cap.stamp (resultRuns r.body.width paths) = true) :
    complete l s = returnRequest r { s with rsv := s.rsv.ended l r .excluded } := by
  simp only [complete, hw, h, endWork_eq hj, hx, if_true]

theorem complete_found (hx : exclusionHit s.tdb cap.stamp (resultRuns r.body.width paths) = false) :
    complete l s = takeFound r cap.gen paths { s with rsv := s.rsv.ended l r .found } := by
  simp only [complete, hw, h, endWork_eq hj, hx, Bool.false_eq_true, if_false]

end

/-! ## A FOUND result taken (R174 to R177) -/

section
variable {r : Request} {g : Nat} {paths : List PathResult} {s : State}

theorem takeFound_unasked (h : r.body.hold = false) :
    takeFound r g paths s = answer .shu r.requester r.body.tag .found g paths s := by
  simp [takeFound, h]

variable (h : r.body.hold = true)
include h

theorem takeFound_conflict (hc : s.shu.conflict (resultRuns r.body.width paths) = true) :
    takeFound r g paths s = returnRequest r s := by
  simp [takeFound, h, hc]

variable (hc : s.shu.conflict (resultRuns r.body.width paths) = false)
include hc

theorem takeFound_no_room (hl : lowestFree s.shu.results Config.resultSize = none ∨
    ¬ s.shu.holds.length + (resultRuns r.body.width paths).length ≤ Config.holdSize) :
    takeFound r g paths s = answer .shu r.requester r.body.tag .foundUnheld g paths s := by
  cases hi : lowestFree s.shu.results Config.resultSize with
  | none => simp [takeFound, h, hc, hi]
  | some i => simp [takeFound, h, hc, hi, hl.resolve_left (by simp [hi])]

theorem takeFound_held {i : Nat} (hi : lowestFree s.shu.results Config.resultSize = some i)
    (hl : s.shu.holds.length + (resultRuns r.body.width paths).length ≤ Config.holdSize) :
    takeFound r g paths s = answer .shu r.requester r.body.tag .found g paths (createResult i r g paths s) := by
  simp [takeFound, h, hc, hi, hl]

end

/-! ## A request returned (R131) -/

theorem returnRequest_again {r : Request} (h : r.retries < 2) (s : State) : returnRequest r s =
    { s with rqu := { s.rqu with queue := joinHead { r with retries := r.retries + 1 } s.rqu.queue } } := if_pos h

theorem returnRequest_last {r : Request} (h : 2 ≤ r.retries) (s : State) :
    returnRequest r s = answerNow .rqu r.requester r.body.tag .aborted s := if_neg (Nat.not_lt.2 h)

theorem returnRequest_event {w : State} (hw : FloodDone w) (r : Request) :
    Traffic [] [] w (finish (returnRequest r w)) ∧ (finish (returnRequest r w)).rsv = w.rsv ∧
    (r.retries < 2 → (finish (returnRequest r w)).blocks = State.blocks { w with
      rqu := { w.rqu with queue := joinHead { r with retries := r.retries + 1 } w.rqu.queue } }) ∧
    (2 ≤ r.retries → (finish (returnRequest r w)).blocks = w.blocks ∧
      RouteAnswered r.requester r.body.tag .aborted w.cmc.gen [] (finish (returnRequest r w))) := by
  have lanes : (returnRequest r w).rsv = w.rsv := (rsv_of_blocks (blocks_returnRequest r w)).trans rfl
  refine ⟨(Traffic.returnRequest r w).trans (Traffic.finish _), by rw [rsv_finish, lanes], fun h => ?_, fun h => ?_⟩
  · rw [returnRequest_again h]
    exact FloodDone.blocks_finish (hw.shrinks (FloodShrinks.of_eq rfl rfl rfl))
  · rw [returnRequest_last h]
    obtain ⟨ha, -, hb⟩ := routeAnswer_event hw .rqu r.requester r.body.tag .aborted w.cmc.gen []
    exact ⟨hb, ha⟩

end Sys2Proof.Machine

open Sys2Proof Sys2Proof.Machine

/-- Settles O57, by what the solver gives and by the checks a FOUND result meets: exclusions, HOLD, holds, room. -/
theorem completionAnswersHoldsOrReturns : Obligations.CompletionAnswersHoldsOrReturns := by
  intro l r cap s u hu hw hj ends ended answered returned
  have hf : FloodDone u := hu ▸ floodDone_settle s
  have hend (e : WorkEnd) : FloodDone (ended e) := hf.shrinks (FloodShrinks.of_eq rfl rfl rfl)
  have htr (e : WorkEnd) : Traffic [] [] u (ended e) := Traffic.of_eq rfl rfl
  have run : exec (.completion l) s = .next (finish (complete l u)) := event_eq hu
  have returns {e : WorkEnd} (h : complete l u = returnRequest r (ended e)) : returned e := by
    rw [h] at run
    obtain ⟨ht, hl, again, last⟩ := returnRequest_event (hend e) r
    exact ⟨_, run, (htr e).trans ht, (congrArg (fun v => v.lane l) hl).trans (lane_ended hw e), again, last⟩
  refine ⟨fun e o ho hs => ?failed, ?_⟩
  case failed =>
    have outcome : failedOutcome e = o := by
      simp only [List.mem_cons, List.not_mem_nil, or_false, Prod.mk.injEq] at ho
      obtain ⟨rfl, rfl⟩ | ⟨rfl, rfl⟩ | ⟨rfl, rfl⟩ | ⟨rfl, rfl⟩ | ⟨rfl, rfl⟩ := ho <;> rfl
    rw [complete_failed hw hj hs, outcome] at run
    obtain ⟨ha, ht, hb⟩ := routeAnswer_event (hend e) .rqu r.requester r.body.tag o cap.gen []
    exact ⟨_, run, hb, ha, (congrArg (fun v => v.lane l) (rsv_of_blocks hb)).trans (lane_ended hw e), (htr e).trans ht⟩
  intro paths hs runs met conflict given
  have found (h : ¬ met) : complete l u = takeFound r cap.gen paths (ended .found) :=
    complete_found hw hj hs (Bool.eq_false_iff.2 (mt exclusionHit_iff.1 h))
  have free (h : ¬ conflict) : (ended .found).shu.conflict (resultRuns r.body.width paths) = false :=
    Bool.eq_false_iff.2 (mt conflict_iff.1 h)
  have gives {o : RouteOutcome} (h : complete l u = answer .shu r.requester r.body.tag o cap.gen paths (ended .found)) : given o := by
    rw [h] at run
    obtain ⟨ha, ht, hb⟩ := routeAnswer_event (hend .found) .shu r.requester r.body.tag o cap.gen paths
    exact ⟨_, run, hb, ha, (htr .found).trans ht⟩
  refine ⟨fun hm => returns (complete_excluded hw hj hs (exclusionHit_iff.2 hm)),
    fun hm hh => gives ((found hm).trans (takeFound_unasked hh)),
    fun hm hh hc => returns ((found hm).trans (takeFound_conflict hh (conflict_iff.2 hc))),
    fun hm hh hc ht hl => gives ((found hm).trans (takeFound_no_room hh (free hc) ?noRoom)),
    fun hm hh hc ht hres hholds => ?held⟩
  case noRoom =>
    obtain ⟨-, -, -, results, -⟩ := ht
    exact hl.imp (lowestFree_of_full results) Nat.not_le.2
  case held =>
    obtain ⟨-, -, -, results, holds⟩ := ht
    have hi := lowestFree_of_room hres
    generalize lowestFreeFrom u.shu.results 0 = i at hi
    obtain ⟨-, unused, lower⟩ := lowestFree_spec results.1 hi
    obtain ⟨kept, taken, count⟩ := placeHolds_room i holds hholds
    rw [(found hm).trans (takeFound_held hh (free hc) hi hholds)] at run
    obtain ⟨ha, ht, hb⟩ := routeAnswer_event (w := createResult i r cap.gen paths (ended .found))
      (hf.shrinks (FloodShrinks.of_eq rfl rfl rfl)) .shu r.requester r.body.tag .found cap.gen paths
    have placed := congrArg Shu.holds (shu_of_blocks hb)
    refine ⟨_, i, run, ha, (Traffic.of_eq rfl rfl).trans ht, unused, lower, ?_, ?_, ?_, ?_⟩
    · rw [placed]; exact kept
    · rw [placed]; exact taken
    · rw [placed]; exact count
    · rw [hb, placed]; rfl

end

section
/-! SUPPORT. The choice of a computation: the orders of candidates and of pair candidates, the first feasible member of a set, and the
pair candidates as R156 and R157 describe them (R150 to R158). -/

namespace Sys2Proof.Machine

/-! ## Orders with ties (R154, R157) -/

/-- A test that ranks: it is asymmetric, and "does not precede" is transitive.  Elements of one rank may differ. -/
structure Ranks {α : Type} (lt : α → α → Bool) : Prop where
  asymm : ∀ a b, lt a b = true → lt b a = false
  through : ∀ a b c, lt a b = false → lt b c = false → lt a c = false

section
variable {α β : Type} {lt : α → α → Bool}

theorem Ranks.irrefl (h : Ranks lt) (a : α) : lt a a = false :=
  Bool.eq_false_iff.2 fun e => Bool.noConfusion (e.symm.trans (h.asymm a a e))

/-- Elements ranked by a key of theirs. -/
theorem Ranks.on (h : Ranks lt) (f : β → α) : Ranks fun a b => lt (f a) (f b) :=
  ⟨fun a b => h.asymm (f a) (f b), fun a b c => h.through (f a) (f b) (f c)⟩

theorem keyThenRest_eq_false_iff {less more rest : Bool} :
    (if less then true else if more then false else rest) = false ↔ less = false ∧ (more = true ∨ rest = false) := by
  cases less <;> cases more <;> simp

/-- "Does not precede" composes over a first key and what decides after it. -/
theorem Ranks.through_then (h : Ranks lt) {a b c : α} {x y z : Bool} (rest : x = false → y = false → z = false)
    (hab : (if lt a b then true else if lt b a then false else x) = false)
    (hbc : (if lt b c then true else if lt c b then false else y) = false) :
    (if lt a c then true else if lt c a then false else z) = false := by
  rw [keyThenRest_eq_false_iff] at *
  obtain ⟨ab, ba⟩ := hab
  obtain ⟨bc, cb⟩ := hbc
  refine ⟨h.through a b c ab bc, ?_⟩
  by_cases ca : lt c a = true
  · exact Or.inl ca
  · have ca := Bool.eq_false_iff.2 ca
    have ba' := h.through b c a bc ca
    have cb' := h.through c a b ca ab
    exact Or.inr (rest (ba.resolve_left (by simp [ba'])) (cb.resolve_left (by simp [cb'])))

theorem ranks_firstDiffers_nil : Ranks fun _ _ : α => firstDiffers [] := ⟨fun _ _ _ => rfl, fun _ _ _ h _ => h⟩

/-- A further key in front of keys that rank. -/
theorem Ranks.firstDiffers_cons (h : Ranks lt) {rest : α → α → List (Bool × Bool)} (hr : Ranks fun a b => firstDiffers (rest a b)) :
    Ranks fun a b => firstDiffers ((lt a b, lt b a) :: rest a b) where
  asymm a b hab := by
    rw [firstDiffers] at hab ⊢
    by_cases l : lt a b = true
    · simp [l, h.asymm a b l]
    · by_cases m : lt b a = true
      · simp [l, m] at hab
      · simp only [l, m, Bool.false_eq_true, if_false] at hab ⊢
        exact hr.asymm a b hab
  through a b c := h.through_then (hr.through a b c)

theorem Ranks.lexLt (h : Ranks lt) : Ranks (lexLt lt) where
  asymm := lexLt_asymm h.asymm
  through a := by
    induction a with
    | nil =>
      intro b c hab hbc
      cases b with
      | nil => exact hbc
      | cons => cases hab
    | cons x a ih =>
      intro b c hab hbc
      cases c with
      | nil => rfl
      | cons z c =>
        cases b with
        | nil => cases hbc
        | cons y b => exact h.through_then (ih b c) hab hbc

/-- Sequences of which neither is smaller are equal, where this holds of their members. -/
theorem eq_of_not_lexLt (total : ∀ a b, lt a b = false → lt b a = false → a = b) {s t : List α} (hst : lexLt lt s t = false)
    (hts : lexLt lt t s = false) : s = t := by
  induction s generalizing t with
  | nil =>
    cases t with
    | nil => rfl
    | cons => cases hst
  | cons a s ih =>
    cases t with
    | nil => cases hts
    | cons b t =>
      rw [Machine.lexLt, keyThenRest_eq_false_iff] at hst hts
      obtain ⟨ab, st⟩ := hst
      obtain ⟨ba, ts⟩ := hts
      rw [total a b ab ba, ih (st.resolve_left (by simp [ba])) (ts.resolve_left (by simp [ab]))]

end

theorem ranks_natLt : Ranks natLt := by
  constructor <;> intros <;> simp only [natLt, decide_eq_true_eq, decide_eq_false_iff_not] at * <;> omega

theorem keyLt_eq_false_iff {o n o' n' : Nat} : keyLt ⟨o, n⟩ ⟨o', n'⟩ = false ↔ o' < o ∨ (o = o' ∧ n' ≤ n) := by
  change (decide (o < o') || (o == o' && decide (n < n'))) = false ↔ _
  simp only [Bool.or_eq_false_iff, Bool.and_eq_false_iff, decide_eq_false_iff_not, beq_eq_false_iff_ne]
  omega

theorem ranks_keyLt : Ranks keyLt where
  asymm := keyLt_asymm
  through := fun ⟨_, _⟩ ⟨_, _⟩ ⟨_, _⟩ hab hbc => by rw [keyLt_eq_false_iff] at *; omega

/-- Link keys of which neither precedes are equal. -/
theorem eq_of_not_keyLt : ∀ a b : LinkKey, keyLt a b = false → keyLt b a = false → a = b := by
  rintro ⟨o, n⟩ ⟨o', n'⟩ hab hba
  rw [keyLt_eq_false_iff] at hab hba
  exact congrArg₂ LinkKey.mk (Nat.le_antisymm (by omega) (by omega)) (by omega)

/-! ## The orders of candidates and pair candidates (R154, R157) -/

theorem ranks_paths : Ranks fun a b : Candidate => lexLt keyLt (linkKeys a.path) (linkKeys b.path) :=
  ranks_keyLt.lexLt.on fun c : Candidate => linkKeys c.path

theorem ranks_regs : Ranks fun a b : Candidate => lexLt natLt a.regs b.regs := ranks_natLt.lexLt.on Candidate.regs

theorem ranks_candidateLt (penalty : Nat) : Ranks (candidateLt penalty) :=
  (ranks_natLt.on fun c : Candidate => c.cost penalty).firstDiffers_cons <|
  (ranks_natLt.on fun c : Candidate => c.path.length).firstDiffers_cons <|
  (ranks_natLt.on fun c : Candidate => c.regs.length).firstDiffers_cons <|
  ranks_paths.firstDiffers_cons <| ranks_regs.firstDiffers_cons ranks_firstDiffers_nil

theorem ranks_pairLt (penalty : Nat) : Ranks (pairLt penalty) :=
  (ranks_natLt.on fun e : PairCandidate => e.w.cost penalty + e.p.cost penalty).firstDiffers_cons <|
  (ranks_natLt.on fun e : PairCandidate => max (e.w.cost penalty) (e.p.cost penalty)).firstDiffers_cons <|
  (ranks_paths.on PairCandidate.w).firstDiffers_cons <| (ranks_paths.on PairCandidate.p).firstDiffers_cons <|
  (ranks_natLt.on fun e : PairCandidate => e.w.regs.length + e.p.regs.length).firstDiffers_cons <|
  (ranks_regs.on PairCandidate.w).firstDiffers_cons <| (ranks_regs.on PairCandidate.p).firstDiffers_cons ranks_firstDiffers_nil

/-! ## The first feasible member of a set (R155, R158) -/

section
variable {α : Type} {lt : α → α → Bool} {l : List α}

theorem firstBy_eq_none_iff : firstBy lt l = none ↔ l = [] := by
  cases l with
  | nil => simp [firstBy]
  | cons a l =>
    rw [firstBy]
    split
    · simp
    · split <;> simp

/-- Nothing in the list precedes its first element. -/
theorem not_lt_firstBy (h : Ranks lt) {b : α} (hb : firstBy lt l = some b) : ∀ x ∈ l, lt x b = false := by
  induction l generalizing b with
  | nil => cases hb
  | cons a l ih =>
    rw [firstBy] at hb
    split at hb
    next hn =>
      cases hb
      rw [firstBy_eq_none_iff.1 hn]
      simpa using h.irrefl a
    next c hc =>
      split at hb
      next hca =>
        cases hb
        exact List.forall_mem_cons.2 ⟨h.asymm _ _ hca, ih hc⟩
      next hca =>
        cases hb
        exact List.forall_mem_cons.2 ⟨h.irrefl a, fun x hx => h.through x c a (ih hc x hx) (Bool.eq_false_iff.2 hca)⟩

/-- The tests that a SINGLE and a PAIR share, over the choices there are: none, none with spectrum, none within the budget, else
the first one that is feasible. -/
def firstFeasible (lt : α → α → Bool) (spectrum budget : α → Bool) (paths : α → List PathResult) (empty : WorkEnd) (l : List α) :
    Solution :=
  if l.isEmpty then .failed empty
  else if (l.filter spectrum).isEmpty then .failed .noSpectrum
  else (firstBy lt ((l.filter spectrum).filter budget)).elim (.failed .overBudget) fun a => .found (paths a)

variable {spectrum budget : α → Bool} {paths : α → List PathResult} {e : WorkEnd} {P S B : α → Prop} (hl : ∀ x, x ∈ l ↔ P x)
  (hs : ∀ x, spectrum x = true ↔ S x) (hb : ∀ x, budget x = true ↔ B x)

include hl

theorem firstFeasible_empty (h : ∀ x, ¬ P x) : firstFeasible lt spectrum budget paths e l = .failed e := by
  have empty : l = [] := List.eq_nil_iff_forall_not_mem.2 fun x hx => h x ((hl x).1 hx)
  rw [firstFeasible, empty]
  rfl

include hs

theorem firstFeasible_noSpectrum (h : ∃ x, P x) (hn : ∀ x, P x → ¬ S x) :
    firstFeasible lt spectrum budget paths e l = .failed .noSpectrum := by
  obtain ⟨x, hx⟩ := h
  have filled : l ≠ [] := List.ne_nil_of_mem ((hl x).2 hx)
  have unlit : l.filter spectrum = [] := List.filter_eq_nil_iff.2 fun y hy => mt (hs y).1 (hn y ((hl y).1 hy))
  simp [firstFeasible, filled, unlit]

/-- With a choice that has spectrum, what is within the budget decides. -/
theorem firstFeasible_of_spectrum (h : ∃ x, P x ∧ S x) : firstFeasible lt spectrum budget paths e l =
    (firstBy lt ((l.filter spectrum).filter budget)).elim (.failed .overBudget) fun a => .found (paths a) := by
  obtain ⟨x, hx, hsx⟩ := h
  have mem := (hl x).2 hx
  have filled : l ≠ [] := List.ne_nil_of_mem mem
  have lit : l.filter spectrum ≠ [] := List.ne_nil_of_mem (List.mem_filter.2 ⟨mem, (hs x).2 hsx⟩)
  rw [firstFeasible, if_neg (by simpa using filled), if_neg (by rwa [List.isEmpty_iff])]

include hb

theorem mem_feasible {x : α} : x ∈ (l.filter spectrum).filter budget ↔ P x ∧ S x ∧ B x := by
  rw [List.mem_filter, List.mem_filter, hl, hs, hb, and_assoc]

theorem firstFeasible_overBudget (h : ∃ x, P x ∧ S x) (hn : ∀ x, P x → S x → ¬ B x) :
    firstFeasible lt spectrum budget paths e l = .failed .overBudget := by
  have unfit : (l.filter spectrum).filter budget = [] := List.eq_nil_iff_forall_not_mem.2 fun x hx => by
    obtain ⟨hp, hsx, hbx⟩ := (mem_feasible hl hs hb).1 hx
    exact hn x hp hsx hbx
  rw [firstFeasible_of_spectrum hl hs h, unfit]
  rfl

theorem firstFeasible_found (hr : Ranks lt) (h : ∃ x, P x ∧ S x ∧ B x) :
    ∃ x, P x ∧ S x ∧ B x ∧ firstFeasible lt spectrum budget paths e l = .found (paths x) ∧
      ∀ y, P y → S y → B y → lt y x = false := by
  obtain ⟨x, hx⟩ := h
  have feasible : firstBy lt ((l.filter spectrum).filter budget) ≠ none :=
    mt firstBy_eq_none_iff.1 (List.ne_nil_of_mem ((mem_feasible hl hs hb).2 hx))
  obtain ⟨c, hc⟩ := Option.ne_none_iff_exists'.1 feasible
  obtain ⟨hp, hsc, hbc⟩ := (mem_feasible hl hs hb).1 (mem_of_firstBy hc)
  refine ⟨c, hp, hsc, hbc, ?_, fun y hpy hsy hby => not_lt_firstBy hr hc y ((mem_feasible hl hs hb).2 ⟨hpy, hsy, hby⟩)⟩
  rw [firstFeasible_of_spectrum hl hs ⟨c, hp, hsc⟩, hc, Option.elim_some]

end

/-! ## The tests of a candidate (R150, R152, R153) -/

section
variable {t : Tdb} {q : RouteqBody} {cap : Capture}

theorem viaWaypoint_iff {c : Candidate} :
    viaWaypoint q c = true ↔ q.waypoint = 0 ∨ q.waypoint ∈ c.path.dropLast.map (·.far) := by
  simp only [viaWaypoint, intermediate, Bool.or_eq_true, beq_iff_eq, List.contains_iff_mem]

theorem mem_filter_viaWaypoint {c : Candidate} : c ∈ (allCandidates t q cap).filter (viaWaypoint q) ↔
    c ∈ allCandidates t q cap ∧ (q.waypoint = 0 ∨ q.waypoint ∈ c.path.dropLast.map (·.far)) := by
  rw [List.mem_filter, viaWaypoint_iff]

theorem spectrumOk_iff {c : Candidate} : c.spectrumOk q = true ↔ ∀ seg ∈ c.segments, assignedStart q seg ≠ none := by
  simp only [Candidate.spectrumOk, List.all_eq_true, Option.isSome_iff_ne_none]

theorem budgetOk_iff {c : Candidate} :
    c.budgetOk q = true ↔ q.budget = 0 ∨ ∀ seg ∈ c.segments, (seg.map (·.imp)).sum ≤ q.budget := by
  simp only [Candidate.budgetOk, Bool.or_eq_true, beq_iff_eq, List.all_eq_true, decide_eq_true_eq]

theorem unknownNode_iff : unknownNode t q = true ↔
    t.nodeActive q.src = false ∨ t.nodeActive q.dst = false ∨ (q.waypoint ≠ 0 ∧ t.nodeActive q.waypoint = false) := by
  simp only [unknownNode, Bool.or_eq_true, Bool.and_eq_true, Bool.not_eq_true', bne_iff_ne, or_assoc]

/-- No path is empty (R148). -/
theorem ne_nil_of_mem_pathsFrom {es : List Edge} {through : NodeId → Bool} {dst : NodeId} {k : Nat} {node : NodeId}
    {seen : List NodeId} {p : Path} (h : p ∈ pathsFrom es through dst k node seen) : p ≠ [] := by
  cases k with
  | zero => cases h
  | succ k =>
    obtain ⟨e, -, he⟩ := List.mem_flatMap.1 h
    split at he
    · rw [List.mem_singleton.1 he]; exact List.cons_ne_nil _ _
    · split at he
      · obtain ⟨rest, -, rfl⟩ := List.mem_map.1 he; exact List.cons_ne_nil _ _
      · cases he

theorem path_ne_nil_of_mem_allCandidates {c : Candidate} (h : c ∈ allCandidates t q cap) : c.path ≠ [] := by
  obtain ⟨p, hp, hc⟩ := List.mem_flatMap.1 h
  obtain ⟨regs, -, rfl⟩ := List.mem_map.1 hc
  exact ne_nil_of_mem_pathsFrom hp

/-! ## Pair candidates (R156, R157) -/

/-- The conditions of R156 on two candidates. -/
def FormPair (t : Tdb) (q : RouteqBody) (a b : Candidate) : Prop :=
  (∀ k ∈ linkKeys a.path, k ∉ linkKeys b.path) ∧
  (q.flags.getLsbD 2 = true → ∀ n ∈ a.path.dropLast.map (·.far), n ∉ b.path.dropLast.map (·.far)) ∧
  ((q.waypoint = 0 ∨ q.waypoint ∈ a.path.dropLast.map (·.far)) ∨ (q.waypoint = 0 ∨ q.waypoint ∈ b.path.dropLast.map (·.far))) ∧
  ∀ n ∈ a.regenNodes, n ∈ b.regenNodes → 2 ≤ t.regenCount n

/-- A candidate is W beside another one (R157). -/
def PrecedesInPair (penalty : Nat) (a b : Candidate) : Prop :=
  a.cost penalty < b.cost penalty ∨
    (a.cost penalty = b.cost penalty ∧ lexLt keyLt (linkKeys a.path) (linkKeys b.path) = true)

theorem pairOk_iff {a b : Candidate} : pairOk t q a b = true ↔ FormPair t q a b := by
  simp only [pairOk, FormPair, Bool.and_eq_true, Bool.or_eq_true, List.all_eq_true, Bool.not_eq_true', viaWaypoint_iff,
    List.contains_eq_mem, decide_eq_true_eq, RouteqBody.nodeDisjoint, intermediate, ← imp_iff_not_or,
    ← Bool.not_eq_true, and_assoc]

theorem FormPair.symm {a b : Candidate} (h : FormPair t q a b) : FormPair t q b a := by
  obtain ⟨links, nodes, via, regens⟩ := h
  exact ⟨fun k hb ha => links k ha hb, fun hd n hb ha => nodes hd n ha hb, via.symm, fun n hb ha => regens n ha hb⟩

section
variable {penalty : Nat} {a b : Candidate}

theorem precedesInPair_iff :
    firstDiffers [natKey (a.cost penalty) (b.cost penalty), pathKey a b] = true ↔ PrecedesInPair penalty a b := by
  have last (x y : Bool) : firstDiffers [(x, y)] = x := by cases x <;> simp [firstDiffers]
  rw [firstDiffers_natKey, pathKey, last, PrecedesInPair]
  simp only [Bool.or_eq_true, Bool.and_eq_true, decide_eq_true_eq]

theorem PrecedesInPair.not_symm (h : PrecedesInPair penalty a b) : ¬ PrecedesInPair penalty b a := by
  rintro (hba | ⟨hc, hba⟩) <;> obtain hab | ⟨hd, hab⟩ := h
  · omega
  · omega
  · omega
  · exact Bool.noConfusion (hba.symm.trans (ranks_paths.asymm a b hab))

/-- Of two candidates without a common link one is W, since their link keys differ. -/
theorem precedesInPair_total (ha : a.path ≠ []) (links : ∀ k ∈ linkKeys a.path, k ∉ linkKeys b.path)
    (h : ¬ PrecedesInPair penalty a b) : PrecedesInPair penalty b a := by
  obtain ⟨e, path, he⟩ := List.exists_cons_of_ne_nil ha
  have differ : linkKeys a.path ≠ linkKeys b.path := fun k => by
    have mem : e.key ∈ linkKeys a.path := by simp [linkKeys, he]
    exact links e.key mem (k ▸ mem)
  obtain ⟨cost, keys⟩ : _ ∧ _ := not_or.1 h
  obtain lt | eq := Nat.lt_or_eq_of_le (Nat.not_lt.1 cost)
  · exact Or.inl lt
  · have ab := Bool.eq_false_iff.2 fun k => keys ⟨eq.symm, k⟩
    refine Or.inr ⟨eq, ?_⟩
    by_contra ba
    exact differ (eq_of_not_lexLt eq_of_not_keyLt ab (Bool.eq_false_iff.2 ba))

theorem orient_of_precedes (h : PrecedesInPair penalty a b) : orient penalty a b = ⟨a, b⟩ := by
  rw [orient, if_pos (precedesInPair_iff.2 h)]

theorem orient_of_not_precedes (h : ¬ PrecedesInPair penalty a b) : orient penalty a b = ⟨b, a⟩ := by
  rw [orient, if_neg (mt precedesInPair_iff.1 h)]

end

theorem mem_of_mem_pairsOf {l : List Candidate} {e : Candidate × Candidate} (h : e ∈ pairsOf l) : e.1 ∈ l ∧ e.2 ∈ l := by
  induction l with
  | nil => cases h
  | cons a l ih =>
    obtain h | h := List.mem_append.1 h
    · obtain ⟨b, hb, rfl⟩ := List.mem_map.1 h
      exact ⟨List.mem_cons_self, List.mem_cons_of_mem _ hb⟩
    · exact (ih h).imp (List.mem_cons_of_mem _) (List.mem_cons_of_mem _)

/-- Two different members of a list are one of its unordered pairs. -/
theorem mem_pairsOf_of_ne {l : List Candidate} {a b : Candidate} (ha : a ∈ l) (hb : b ∈ l) (hne : a ≠ b) :
    (a, b) ∈ pairsOf l ∨ (b, a) ∈ pairsOf l := by
  induction l with
  | nil => cases ha
  | cons c l ih =>
    simp only [pairsOf, List.mem_append, List.mem_map]
    obtain ha | ha := List.mem_cons.1 ha <;> obtain hb | hb := List.mem_cons.1 hb
    · exact absurd (ha.trans hb.symm) hne
    · exact Or.inl (Or.inl ⟨b, hb, ha ▸ rfl⟩)
    · exact Or.inr (Or.inl ⟨a, ha, hb ▸ rfl⟩)
    · exact (ih ha hb).imp Or.inr Or.inr

theorem mem_pairCandidates {e : PairCandidate} : e ∈ pairCandidates t q cap ↔
    (e.w ∈ allCandidates t q cap ∧ e.p ∈ allCandidates t q cap) ∧ FormPair t q e.w e.p ∧ PrecedesInPair cap.penalty e.w e.p := by
  have listed : e ∈ pairCandidates t q cap ↔
      ∃ x, (x ∈ pairsOf (allCandidates t q cap) ∧ FormPair t q x.1 x.2) ∧ orient cap.penalty x.1 x.2 = e := by
    simp only [pairCandidates, List.mem_map, List.mem_filter, pairOk_iff]
  rw [listed]
  constructor
  · rintro ⟨⟨a, b⟩, ⟨hx, hp⟩, rfl⟩
    obtain ⟨ha, hb⟩ := mem_of_mem_pairsOf hx
    by_cases h : PrecedesInPair cap.penalty a b
    · rw [orient_of_precedes h]
      exact ⟨⟨ha, hb⟩, hp, h⟩
    · rw [orient_of_not_precedes h]
      exact ⟨⟨hb, ha⟩, hp.symm, precedesInPair_total (path_ne_nil_of_mem_allCandidates ha) hp.1 h⟩
  · rintro ⟨⟨hw, hp⟩, hf, h⟩
    have differ : e.w ≠ e.p := fun k => h.not_symm (by rwa [← k] at h ⊢)
    obtain hx | hx := mem_pairsOf_of_ne hw hp differ
    · exact ⟨_, ⟨hx, hf⟩, orient_of_precedes h⟩
    · exact ⟨_, ⟨hx, hf.symm⟩, orient_of_not_precedes h.not_symm⟩

/-! ## The outcome (R155, R158) -/

theorem solve_unknownNode (h : unknownNode t q = true) : solve t q cap = .failed .unknownNode := by
  rw [solve]
  split
  · rw [solvePair, if_pos h]
  · rw [solveSingle, if_pos h]

theorem solve_noRoute (hu : ¬ unknownNode t q = true) (h : (allCandidates t q cap).filter (viaWaypoint q) = []) :
    solve t q cap = .failed .noRoute := by
  rw [solve]
  split
  · rw [solvePair, if_neg hu, h]; rfl
  · rw [solveSingle, if_neg hu, h]; rfl

theorem solve_single (hk : q.kind ≠ 1) (hu : ¬ unknownNode t q = true) : solve t q cap =
    firstFeasible (candidateLt cap.penalty) (Candidate.spectrumOk q) (Candidate.budgetOk q) (fun c => [c.result q cap.penalty])
      .noRoute ((allCandidates t q cap).filter (viaWaypoint q)) := by
  rw [solve, if_neg (mt isPair_iff.1 hk), solveSingle, if_neg hu, firstFeasible]
  generalize firstBy _ _ = chosen
  cases chosen <;> rfl

theorem solve_pair (hk : q.kind = 1) (hu : ¬ unknownNode t q = true) (h : (allCandidates t q cap).filter (viaWaypoint q) ≠ []) :
    solve t q cap = firstFeasible (pairLt cap.penalty) (fun e => e.w.spectrumOk q && e.p.spectrumOk q)
      (fun e => e.w.budgetOk q && e.p.budgetOk q) (fun e => [e.w.result q cap.penalty, e.p.result q cap.penalty])
      .noDisjoint (pairCandidates t q cap) := by
  rw [solve, if_pos (isPair_iff.2 hk), solvePair, if_neg hu, if_neg (by rwa [List.isEmpty_iff]), firstFeasible]
  generalize firstBy _ _ = chosen
  cases chosen <;> rfl

end

end Sys2Proof.Machine

open Sys2Proof Sys2Proof.Machine

/-- Settles O56: the tests before the kinds part, then the first feasible member of the candidates and of the pair candidates. -/
theorem computationTakesFirstFeasible : Obligations.ComputationTakesFirstFeasible := by
  intro t q cap unknown via candidate spectrum budget cost pair lit feasible
  have known (h : ¬ unknown) : ¬ unknownNode t q = true := mt unknownNode_iff.1 h
  have candidates (c : Candidate) : c ∈ (allCandidates t q cap).filter (viaWaypoint q) ↔ candidate c := mem_filter_viaWaypoint
  refine ⟨fun hu => solve_unknownNode (unknownNode_iff.2 hu), fun hu hn => ?noRoute, fun hk hu => ?single, fun hk hu hc => ?pair⟩
  case noRoute =>
    exact solve_noRoute (known hu) (List.eq_nil_iff_forall_not_mem.2 fun c hc => hn c ((candidates c).1 hc))
  case single =>
    have lights (c : Candidate) : c.spectrumOk q = true ↔ spectrum c := spectrumOk_iff
    have fits (c : Candidate) : c.budgetOk q = true ↔ budget c := budgetOk_iff
    rw [solve_single hk (known hu)]
    exact ⟨firstFeasible_noSpectrum candidates lights, firstFeasible_overBudget candidates lights fits,
      firstFeasible_found candidates lights fits (ranks_candidateLt cap.penalty)⟩
  case pair =>
    obtain ⟨c, hc⟩ := hc
    have pairs (e : PairCandidate) : e ∈ pairCandidates t q cap ↔ pair e := by
      rw [mem_pairCandidates]
      simp only [FormPair, and_assoc]
      rfl
    have lights (e : PairCandidate) : (e.w.spectrumOk q && e.p.spectrumOk q) = true ↔ spectrum e.w ∧ spectrum e.p :=
      Bool.and_eq_true_iff.trans (and_congr spectrumOk_iff spectrumOk_iff)
    have fits (e : PairCandidate) : (e.w.budgetOk q && e.p.budgetOk q) = true ↔ budget e.w ∧ budget e.p :=
      Bool.and_eq_true_iff.trans (and_congr budgetOk_iff budgetOk_iff)
    rw [solve_pair hk (known hu) (List.ne_nil_of_mem ((candidates c).2 hc))]
    refine ⟨firstFeasible_empty pairs, fun he hn => firstFeasible_noSpectrum pairs lights he fun e hp hs => hn e ⟨hp, hs⟩,
      fun hl hn => firstFeasible_overBudget pairs lights fits hl fun e hp hs hb => hn e ⟨⟨hp, hs⟩, hb⟩, fun ⟨e, ⟨hp, hs⟩, hb⟩ => ?_⟩
    obtain ⟨e, hp, hs, hb, found, first⟩ :=
      firstFeasible_found pairs lights fits (ranks_pairLt cap.penalty) ⟨e, hp, hs, hb⟩
    exact ⟨e, ⟨⟨hp, hs⟩, hb⟩, found, fun e' ⟨⟨hp, hs⟩, hb⟩ => first e' hp hs hb⟩

end

section
/-! SUPPORT. CLAIM and RELEASE: what they meet (R179) and what each match draws (R133, R180, R182). -/

namespace Sys2Proof.Machine

/-! ## What a CLAIM or RELEASE meets (R179) -/

section
variable {t : Shu} {who : NodeId} {tag : Nat}

theorem meets_result {i : Nat} {r : Result} (h : (t.results.find? fun e => e.2.requester == who && e.2.tag == tag) = some (i, r)) :
    t.meets who tag = .result i r := by
  simp only [Shu.meets, h]

variable (h : (t.results.find? fun e => e.2.requester == who && e.2.tag == tag) = none)
include h

theorem meets_expired (hx : (who, tag) ∈ t.expired) : t.meets who tag = .expired := by
  simp only [Shu.meets, h]
  exact if_pos (List.contains_iff_mem.2 hx)

/-- Without a result of the sender, a result with the tag is another's. -/
theorem heldByOther_iff : (t.results.any fun e => e.2.tag == tag && e.2.requester != who) = true ↔
    ∃ e ∈ t.results, e.2.tag = tag := by
  have foreign : ∀ e ∈ t.results, e.2.tag = tag → e.2.requester ≠ who := fun e he ht hw =>
    List.find?_eq_none.1 h e he (by simp [ht, hw])
  simp only [List.any_eq_true, Bool.and_eq_true, beq_iff_eq, bne_iff_ne]
  exact ⟨fun ⟨e, he, ht, _⟩ => ⟨e, he, ht⟩, fun ⟨e, he, ht⟩ => ⟨e, he, ht, foreign e he ht⟩⟩

variable (hx : (who, tag) ∉ t.expired)
include hx

theorem meets_notOwner (ho : ∃ e ∈ t.results, e.2.tag = tag) : t.meets who tag = .notOwner := by
  simp only [Shu.meets, h]
  rw [if_neg (mt List.contains_iff_mem.1 hx), if_pos ((heldByOther_iff h).2 ho)]

theorem meets_unknown (ho : ∀ e ∈ t.results, e.2.tag ≠ tag) : t.meets who tag = .unknown := by
  simp only [Shu.meets, h]
  rw [if_neg (mt List.contains_iff_mem.1 hx), if_neg (mt (heldByOther_iff h).1 fun ⟨e, he, ht⟩ => ho e he ht)]

end

/-! ## What the match draws (R133, R180, R182) -/

section
variable {who : NodeId} {tag : Nat} {s : State}

theorem takeClaim_held {i : Nat} {r : Result} (h : s.shu.meets who tag = .result i r) (hs : r.state = .held) :
    takeClaim who tag s = answerNow .shu who tag .claimed { s with shu := { s.shu with results := (tput s.shu.results i
      { r with
        state := .claimed, holdDeadline := none
        claimDeadline := some (s.now + s.cfu.params.claimTimeout * 1000) }) } } := by
  simp only [takeClaim, h, Result.claim, hs]

/-- A CLAIM of a CLAIMED result answers and changes nothing (R180). -/
theorem takeClaim_claimed {i : Nat} {r : Result} (ht : Table.rising s.shu.results = true) (hm : (i, r) ∈ s.shu.results)
    (h : s.shu.meets who tag = .result i r) (hs : r.state = .claimed) :
    takeClaim who tag s = answerNow .shu who tag .claimed s := by
  simp only [takeClaim, h, Result.claim, hs, tput_eq_self ht hm]

theorem takeRelease_queued (h : ∃ r ∈ s.rqu.queue, r.requester = who ∧ r.body.tag = tag) : takeRelease tag who s =
    answerNow .rqu who tag .cancelled { s with rqu := { s.rqu with
      queue := s.rqu.queue.filter fun r => !(r.requester == who && r.body.tag == tag) } } :=
  if_pos (by simpa [Request.named] using h)

theorem takeRelease_not_queued (h : ¬ ∃ r ∈ s.rqu.queue, r.requester = who ∧ r.body.tag = tag) :
    takeRelease tag who s = takeResultRelease who tag s :=
  if_neg (by simpa [Request.named] using h)

theorem takeResultRelease_result {i : Nat} {r : Result} (h : s.shu.meets who tag = .result i r) :
    takeResultRelease who tag s = answerNow .shu who tag .released (freeResult i s) := by
  simp only [takeResultRelease, h]

end

theorem unmatched_expired (who : NodeId) (tag : Nat) (s : State) : unmatched who tag .expired s = answerNow .shu who tag .expired
    { s with shu := { s.shu with expired := s.shu.expired.filter (· ≠ (who, tag)) } } := by
  rw [unmatched, forget_eq]

/-- A frame that meets no result of its sender is answered by R179 alone, whether it claims or releases. -/
theorem takeClaim_takeResultRelease_unmatched {who : NodeId} {tag : Nat} {s : State} {m : FrameMatch}
    (h : s.shu.meets who tag = m) (hm : ∀ i r, m ≠ .result i r) :
    takeClaim who tag s = unmatched who tag m s ∧ takeResultRelease who tag s = unmatched who tag m s := by
  cases m with
  | result i r => exact absurd rfl (hm i r)
  | expired => simp only [takeClaim, takeResultRelease, h, and_self]
  | notOwner => simp only [takeClaim, takeResultRelease, h, and_self]
  | unknown => simp only [takeClaim, takeResultRelease, h, and_self]

/-! ## The commands -/

section
variable {p : Port} {src : NodeId} {s u : State} (hu : u = settle s) (ht : takesInput u p = true)
  (hb : badSender u p src = false)
include hu ht hb

theorem exec_claim (tag : Nat) : exec (.claim p src tag) s = .next (finish (takeClaim (identity p src) tag u)) := by
  have h : takeBody p src false (.claim tag) u = fromSender p src (fun who => takeClaim who tag) u := by
    rw [takeBody, if_pos ht]; cases p <;> rfl
  rw [fromSender_good hb] at h
  rw [← h]; exact event_eq hu

theorem exec_release (tag : Nat) : exec (.release p src tag) s = .next (finish (takeRelease tag (identity p src) u)) := by
  have h : takeBody p src false (.release tag) u = fromSender p src (takeRelease tag) u := by
    rw [takeBody, if_pos ht]; cases p <;> rfl
  rw [fromSender_good hb] at h
  rw [← h]; exact event_eq hu

end

/-- An answer that ends an event in which RQU or SHU wrote its tables. -/
theorem answerNow_event {u v : State} (hf : FloodDone u) (hv : FloodShrinks u v) (htr : Traffic [] [] u v)
    (hg : v.cmc.gen = u.cmc.gen) (b : OwnBlock) (who : NodeId) (tag : Nat) (o : RouteOutcome) :
    (finish (answerNow b who tag o v)).blocks = v.blocks ∧
      RouteAnswered who tag o u.cmc.gen [] (finish (answerNow b who tag o v)) ∧
      Traffic [] [] u (finish (answerNow b who tag o v)) := by
  obtain ⟨ha, ht, hb⟩ := routeAnswer_event (hf.shrinks hv) b who tag o v.cmc.gen []
  exact ⟨hb, hg ▸ ha, htr.trans ht⟩

end Sys2Proof.Machine

open Sys2Proof Sys2Proof.Machine

/-- Settles O52: a result of the sender, by its state; a queued request; and what R179 answers without either. -/
theorem claimAndReleaseMatching : Obligations.ClaimAndReleaseMatching := by
  intro p src tag u hu ht hb who hit queued answered
  have hf : FloodDone u := hu ▸ floodDone_settle u
  have claims := exec_claim hu.symm ht hb tag
  have releases := exec_release hu.symm ht hb tag
  have answers {c : Instr} {b : OwnBlock} {o : RouteOutcome} {v : State}
      (run : exec c u = .next (finish (answerNow b who tag o v))) (hv : FloodShrinks u v) (htr : Traffic [] [] u v)
      (hg : v.cmc.gen = u.cmc.gen) : answered c o v :=
    ⟨_, run, answerNow_event hf hv htr hg b who tag o⟩
  have unchanged : FloodShrinks u u ∧ Traffic [] [] u u := ⟨FloodShrinks.refl u, Traffic.refl _ _ u⟩
  refine ⟨fun i r hr hs => ?held, fun htab i r hr hs => ?claimed, fun hq => ?cancelled, fun hq i r hr => ?released,
    fun c hc hn => ?unmatched⟩
  case held =>
    rw [takeClaim_held (meets_result hr) hs] at claims
    exact answers claims (FloodShrinks.of_eq rfl rfl rfl) (Traffic.of_eq rfl rfl) rfl
  case claimed =>
    obtain ⟨-, -, -, ⟨rising, -⟩, -⟩ := htab
    rw [takeClaim_claimed rising (List.mem_of_find?_eq_some hr) (meets_result hr) hs] at claims
    exact answers claims unchanged.1 unchanged.2 rfl
  case cancelled =>
    rw [takeRelease_queued hq] at releases
    exact answers releases (FloodShrinks.of_eq rfl rfl rfl) (Traffic.of_eq rfl rfl) rfl
  case released =>
    rw [takeRelease_not_queued hq, takeResultRelease_result (meets_result hr)] at releases
    exact answers releases (FloodShrinks.of_eq rfl rfl rfl) (Traffic.of_eq rfl rfl) rfl
  case unmatched =>
    have run {m : FrameMatch} {w : State} (h : u.shu.meets who tag = m) (hm : ∀ i r, m ≠ .result i r)
        (hw : unmatched who tag m u = w) : exec c u = .next (finish w) := by
      obtain ⟨hclaim, hrelease⟩ := takeClaim_takeResultRelease_unmatched h hm
      obtain rfl | ⟨rfl, hq⟩ := hc
      · rw [claims, hclaim, hw]
      · rw [releases, takeRelease_not_queued hq, hrelease, hw]
    refine ⟨fun hx => ?_, fun hx ho => ?_, fun hx ho => ?_⟩
    · exact answers (run (meets_expired hn hx) (by simp) (unmatched_expired who tag u))
        (FloodShrinks.of_eq rfl rfl rfl) (Traffic.of_eq rfl rfl) rfl
    · exact answers (run (meets_notOwner hn hx ho) (by simp) rfl) unchanged.1 unchanged.2 rfl
    · exact answers (run (meets_unknown hn hx ho) (by simp) rfl) unchanged.1 unchanged.2 rfl

end

section
/-! SUPPORT. The deadlines of a result (R181, R183), and the frames that join the ports at the end of an event that originates no
frame of its own. -/

namespace Sys2Proof.Machine

/-! ## Frames that join the ports (R17, R18, R193) -/

/-- No frame of a kind joined a queue or a backlog. -/
def NoneJoined (k : Nat) (s t : State) : Prop :=
  ∀ p, (∀ q ∈ (t.port p).queue, q ∈ (s.port p).queue ∨ q.frame.kind ≠ k) ∧
    ∀ f ∈ (t.port p).backlog, f ∈ (s.port p).backlog ∨ f.kind ≠ k

section
variable {k : Nat} {s t v : State}

theorem NoneJoined.of_ports (h : ∀ p, (t.port p).queue = (s.port p).queue ∧ (t.port p).backlog = (s.port p).backlog) :
    NoneJoined k s t := fun p => ⟨fun _ hq => .inl ((h p).1 ▸ hq), fun _ hf => .inl ((h p).2 ▸ hf)⟩

theorem NoneJoined.of_fsw (h : t.fsw = s.fsw) : NoneJoined k s t :=
  NoneJoined.of_ports fun p => by cases p <;> simp [State.port, h]

theorem NoneJoined.trans (h : NoneJoined k s t) (j : NoneJoined k t v) : NoneJoined k s v := fun p =>
  ⟨fun q hq => ((j p).1 q hq).elim ((h p).1 q) .inr, fun f hf => ((j p).2 f hf).elim ((h p).2 f) .inr⟩

theorem NoneJoined.setPort {p : Port} {o : OutPort} (hq : ∀ q ∈ o.queue, q ∈ (s.port p).queue ∨ q.frame.kind ≠ k)
    (hb : ∀ f ∈ o.backlog, f ∈ (s.port p).backlog ∨ f.kind ≠ k) : NoneJoined k s (s.setPort p o) := by
  intro p'
  by_cases e : p = p'
  · subst e; rw [port_setPort_same]; exact ⟨hq, hb⟩
  · rw [port_setPort_ne _ _ _ _ e]; exact ⟨fun _ => .inl, fun _ => .inl⟩

/-- A frame of another kind claims space in the queue, in the backlog, or in neither (R18). -/
theorem NoneJoined.claimOwn {f : Frame} (h : f.kind ≠ k) (p : Port) (s : State) : NoneJoined k s (Machine.claimOwn p f s) := by
  unfold Machine.claimOwn
  dsimp only
  split
  · refine NoneJoined.setPort (fun q hq => ?_) fun _ => .inl
    obtain hq | hq := List.mem_append.1 hq
    · exact .inl hq
    · exact .inr (List.mem_singleton.1 hq ▸ h)
  · split
    · refine NoneJoined.setPort (fun _ => .inl) fun g hg => ?_
      obtain hg | hg := List.mem_append.1 hg
      · exact .inl hg
      · exact .inr (List.mem_singleton.1 hg ▸ h)
    · exact NoneJoined.of_fsw rfl

variable (hk : k ≠ kindNotice)
include hk

/-- An emission with FLE done places NOTICEs alone (R193). -/
theorem NoneJoined.emitDue (hf : FloodDone s) : NoneJoined k s (Machine.emitDue s) := by
  have marked : FloodDone ((dueSources s).foldl markSent s) ∧ NoneJoined k s ((dueSources s).foldl markSent s) :=
    foldl_inv (fun t => FloodDone t ∧ NoneJoined k s t) _ _ _
      (fun _ _ ⟨hd, hj⟩ => ⟨hd.shrinks (FloodShrinks.of_eq rfl rfl rfl), hj.trans (NoneJoined.of_fsw rfl)⟩)
      ⟨hf, NoneJoined.of_fsw rfl⟩
  refine (List.foldlRecOn (motive := fun t => FloodDone t ∧ NoneJoined k s t) _ _ marked fun t ⟨hd, hj⟩ f hmem => ?_).2
  have notice : f.kind ≠ k := by
    obtain ⟨i, -, rfl⟩ := List.mem_map.1 hmem
    exact hk.symm
  rw [hd.claimDirect]
  exact ⟨hd.shrinks (FloodShrinks.claimOwn _ _ _), hj.trans (NoneJoined.claimOwn notice _ _)⟩

/-- The end of an event that originated no frame and in which FLE has nothing to place: NOTICEs alone join the ports. -/
theorem NoneJoined.finish (hf : FloodDone s) (hc : s.claims = []) : NoneJoined k s (Machine.finish s) := by
  have ends : Machine.endClaims s = Machine.emitDue (Machine.emitDue (Machine.emitDue s)) := by
    have same : ({ s with claims := [] } : State) = s := by rw [← hc]
    have nothing (b : OwnBlock) (t : State) : takeClaims b [] t = t := rfl
    simp only [endClaims, emit, hc, same, nothing]
  have first := hf.emitDue.2
  have offered : NoneJoined k (Machine.endClaims s) (Machine.finish s) := NoneJoined.of_ports fun p => by
    rw [Machine.finish, port_offerAll, OutPort.offerNext]
    split
    · split <;> exact ⟨rfl, rfl⟩
    · exact ⟨rfl, rfl⟩
  rw [ends] at offered
  have emitted := ((NoneJoined.emitDue hk hf).trans (NoneJoined.emitDue hk first)).trans (NoneJoined.emitDue hk first.emitDue.2)
  exact emitted.trans offered

end

/-! ## The deadlines (R173, R181, R183) -/

/-- A pair at the tail of the expired list, which keeps the 15 youngest others when it was full (R173). -/
def listExpired (who : NodeId) (tag : Nat) (l : List (NodeId × Nat)) : List (NodeId × Nat) :=
  let others := l.filter (· ≠ (who, tag))
  (if others.length < 16 then others else others.drop 1) ++ [(who, tag)]

theorem remember_eq (who : NodeId) (tag : Nat) (t : Shu) :
    t.remember who tag = { t with expired := listExpired who tag t.expired } := by
  have listed : t.expired.filter (· != (who, tag)) = t.expired.filter (· ≠ (who, tag)) :=
    congrArg Shu.expired (forget_eq who tag t)
  rw [Shu.remember, listed]
  rfl

section
variable {i : Nat} {r : Result} {m : Moment} {s : State} (h : tget s.shu.results i = some r)
include h

theorem expireHold_held (hs : r.state = .held) (hm : r.holdDeadline = some m) : expireHold i s =
    answerNow .shu r.requester r.tag .expired { s with
      now := max s.now m
      shu := ⟨s.shu.results.filter (fun e => e.1 != i), s.shu.holds.filter (fun e => e.2.result != i),
        listExpired r.requester r.tag s.shu.expired⟩ } := by
  simp only [expireHold, h, hs, hm, remember_eq]
  rfl

theorem expireClaim_claimed (hs : r.state = .claimed) (hm : r.claimDeadline = some m) :
    expireClaim i s = raise .claimUnseen [] (freeResult i (s.reach m)) := by
  simp only [expireClaim, h, hs, hm]

end

/-- An event that ends by raising CLAIM_UNSEEN over a part that originated no frame: no ROUTEA joins a port (R183). -/
theorem claimUnseen_event {w : State} (hf : FloodDone w) (hc : w.claims = []) :
    let t := finish (raise .claimUnseen [] w)
    (t.ntu.source .claimUnseen).pending = true ∧ NoneJoined kindRoutea w t ∧ Traffic [.claimUnseen] [] w t ∧
      t.blocks = w.blocks := by
  have done : FloodDone (raise .claimUnseen [] w) := hf.shrinks (FloodShrinks.of_eq rfl rfl rfl)
  exact ⟨(Keeps.finish _ _ (pending_raise_self _ _ _)).1, (NoneJoined.of_fsw rfl).trans (NoneJoined.finish (by decide) done hc),
    (Traffic.raise (by simp) _ _).trans (Traffic.finish _), done.blocks_finish.trans (blocks_raise _ _ _)⟩

end Sys2Proof.Machine

open Sys2Proof Sys2Proof.Machine

/-- Settles O53: the hold deadline of a HELD result and the claim deadline of a CLAIMED one. -/
theorem resultDeadlinesFreeTheResult : Obligations.ResultDeadlinesFreeTheResult := by
  intro i r m s u hu hr results holds others
  have hf : FloodDone u := hu ▸ floodDone_settle s
  have unclaimed : u.claims = [] := hu ▸ claims_settle s
  refine ⟨fun hs hm => ?held, fun hs hm => ?claimed⟩
  case held =>
    have run : exec (.holdDeadlineExpiry i) s = .next (finish (expireHold i u)) := event_eq hu
    rw [expireHold_held hr hs hm] at run
    obtain ⟨hb, ha, htr⟩ := answerNow_event
      (v := { u with now := max u.now m, shu := ⟨results, holds, listExpired r.requester r.tag u.shu.expired⟩ }) hf
      (FloodShrinks.of_eq rfl rfl rfl) (Traffic.of_eq rfl rfl) rfl .shu r.requester r.tag .expired
    exact ⟨_, run, htr, ha, hb⟩
  case claimed =>
    have run : exec (.claimDeadlineExpiry i) s = .next (finish (expireClaim i u)) := event_eq hu
    rw [expireClaim_claimed hr hs hm] at run
    obtain ⟨hp, hj, htr, hb⟩ := claimUnseen_event (w := freeResult i (u.reach m))
      (hf.shrinks (FloodShrinks.of_eq rfl rfl rfl)) unclaimed
    exact ⟨_, run, (Traffic.of_eq rfl rfl).trans htr, hp, (NoneJoined.of_fsw rfl).trans hj, hb⟩

end

section
/-! SUPPORT. READ_PARAM, STATUS and TABLE_READ: what each answers, by the checks of its operands (R209, R211, R212). -/

namespace Sys2Proof.Machine

section
variable {s : State}

theorem doReadParam_ok {p : ParamId} {sel : Option Nat} (h : targetOk ⟨some p, sel⟩ = true) :
    doReadParam ⟨some p, sel⟩ s = (s, ⟨.ok, .param ⟨some p, sel⟩ (getParam s.cfu.params p sel)⟩) := by simp [doReadParam, h]

theorem doReadParam_bad {p : Option ParamId} {sel : Option Nat} (h : targetOk ⟨p, sel⟩ = false) :
    doReadParam ⟨p, sel⟩ s = refuse .badArgument s := by
  cases p with
  | none => rfl
  | some p => simp [doReadParam, h]

variable {b : TableId} {start count : Nat}

theorem doTableRead_bad (h : tableStartOk b start = false) : doTableRead (some b) start count s = refuse .badArgument s := by
  simp [doTableRead, h]

theorem doTableRead_ok (h : tableStartOk b start = true) : doTableRead (some b) start count s =
    ({ s with freeCount := s.freeCount + 1 }, ⟨.ok, .table (tableAnswer s b start count)⟩) := by simp [doTableRead, h]

/-- The number of entries that an answer has room for: not more than asked for, and at least one where any is asked for. -/
def answerRoom (s : State) (b : TableId) (start count : Nat) : Nat := min count (fitting s b start)

theorem answerRoom_le : answerRoom s b start count ≤ count := Nat.min_le_left _ _

theorem one_le_answerRoom (h : count ≠ 0) : 1 ≤ answerRoom s b start count :=
  Nat.le_min.2 ⟨Nat.one_le_iff_ne_zero.2 h, Nat.le_max_left _ _⟩

theorem tableAnswer_eq : tableAnswer s b start count = ⟨s.cmc.gen, b, start,
    ((tableEntries s b).drop (start - (tableBounds b).1)).take (answerRoom s b start count),
    if count = 0 then .none else tableExtra s b⟩ := by simp [tableAnswer, answerRoom]

end

end Sys2Proof.Machine

open Sys2Proof Sys2Proof.Machine

/-- Settles O20, command by command, and by whether its operands are in range. -/
theorem readCommandsAnswerAndChangeNothing : Obligations.ReadCommandsAnswerAndChangeNothing := by
  intro m s u hu hm
  have hf : FloodDone u := hu ▸ floodDone_settle s
  refine ⟨fun p sel h => ?param, fun p sel h => ?badParam, ?status, fun start count => ?noTable, fun b start count =>
    ⟨fun h => ?badStart, fun h => ?table⟩⟩
  case param => exact commanded_done hu hm (doReadParam_ok h) hf
  case badParam => exact commanded_refused hu hm (doReadParam_bad h)
  case status => exact commanded_done (f := doStatus) hu hm rfl hf
  case noTable => exact commanded_refused (f := doTableRead none start count) hu hm rfl
  case badStart => exact commanded_refused hu hm (doTableRead_bad h)
  case table =>
    obtain ⟨t, ht, ha, htr, hb⟩ := commanded_aside hu hm (doTableRead_ok h) rfl rfl rfl rfl
    rw [tableAnswer_eq] at ha
    exact ⟨t, _, ht, hb, answerRoom_le, one_le_answerRoom, ha, htr⟩

end

section
/-! SUPPORT. The locks: LOCK_GROUP sets one, the records of the start image set more, and no other operation writes them (R204, R210). -/

namespace Sys2Proof.Machine

/-! ## A lock set (R210) -/

theorem has_lock (l : Locks) (g h : LockGroup) : (l.lock g).has h = (decide (h = g) || l.has h) := by
  cases g <;> cases h <;> rfl

theorem has_locks (gs : List LockGroup) (l : Locks) (h : LockGroup) :
    (gs.foldl Locks.lock l).has h = (l.has h || decide (h ∈ gs)) := by
  induction gs generalizing l with
  | nil => simp
  | cons g gs ih =>
    rw [List.foldl_cons, ih, has_lock]
    by_cases hg : h = g <;> simp [hg]

/-- A lock group is locked. -/
def Locked (g : LockGroup) (s : State) : Prop := s.cfu.locks.has g = true

section
variable {g : LockGroup} {s t : State}

theorem Locked.of_locks (h : Locked g s) (e : t.cfu.locks = s.cfu.locks) : Locked g t := by rwa [Locked, e]

theorem Locked.of_cfu (h : Locked g s) (e : t.cfu = s.cfu) : Locked g t := h.of_locks (by rw [e])

end

/-! ## Degrees and their timers leave CFU alone (02) -/

theorem cfu_of_setup {s t : State} (h : t.setup = s.setup) : t.cfu = s.cfu := congrArg Prod.snd h

section
variable (d : Degree) (s : State)

theorem cfu_enterDetect (g : GreetBody) : (enterDetect d g s).cfu = s.cfu := by rw [enterDetect_eq]; rfl

theorem cfu_enterDown : (enterDown d s).cfu = s.cfu := by rw [enterDown_eq]; rfl

theorem cfu_enterUp : (enterUp d s).cfu = s.cfu := congrArg Prod.snd (setup_enterUp d s)

theorem cfu_enterHold : (enterHold d s).cfu = s.cfu := congrArg Prod.snd (setup_enterHold d s)

theorem cfu_takeGreet (g : GreetBody) : (takeGreet d g s).cfu = s.cfu := by
  have detect := cfu_enterDetect d s g
  have hold := cfu_enterHold d s
  unfold takeGreet
  split
  · rfl
  · dsimp only
    split
    · rfl
    · exact detect
    · unfold greetInDetect
      dsimp only
      split
      · split <;> rfl
      · exact detect
    · unfold greetInQualify
      dsimp only
      split
      · split
        · split
          · exact cfu_enterUp d _
          · rfl
        · rfl
      · exact detect
    · unfold greetInUp
      split
      · rfl
      · exact hold
    · unfold greetInHold
      split <;> rfl
    · exact detect
    · exact detect
    · exact hold

theorem cfu_enableDegree : (enableDegree d s).cfu = s.cfu := by
  unfold enableDegree
  dsimp only
  split
  · exact cfu_enterDown d _
  · rfl

theorem cfu_disableDegree : (disableDegree d s).cfu = s.cfu := by
  by_cases k : s.cfu.start ≠ .running ∨ (s.adjacency d).state = .disabled
  · rw [disableDegree_closed k]; rfl
  · obtain ⟨hr, hd⟩ := not_or.1 k
    rw [disableDegree_open (not_not.1 hr) hd, cfu_of_setup (setup_urgentRequest _),
      cfu_of_setup (setup_of_blocks (blocks_discardPort d _)), (leaveKeeps d s).cfu]

theorem cfu_expireGreet : (expireGreet d s).cfu = s.cfu := by
  unfold expireGreet
  split <;> rfl

theorem cfu_expireDead : (expireDead d s).cfu = s.cfu := by
  unfold expireDead
  split
  · rfl
  · dsimp only
    split
    · exact cfu_enterDown d _
    · exact cfu_enterDown d _
    · exact cfu_enterHold d _
    · rfl
    · rfl
    · rfl

theorem cfu_expireHoldAt (x : Option Moment) : (expireHoldAt d x s).cfu = s.cfu := by
  unfold expireHoldAt
  split <;> rfl

end

/-! ## Parameters (R39, R209) -/

theorem cfu_renamed (s : State) : s.renamed.cfu = s.cfu := (keeps_of_core (core_renamed s)).1

theorem locks_paramWritten (p : ParamId) (sel : Option Nat) (old : Nat) (s : State) :
    (paramWritten p sel old s).cfu.locks = s.cfu.locks := by
  have node (b : Bool) : (if b = true then originateNode s else s).cfu = s.cfu := by
    split
    · exact cfu_of_setup (setup_originateNode s)
    · rfl
  have link (o : Option Degree) :
      (match o with | some d => if s.isUp d then originateLink d s else s | none => s).cfu = s.cfu := by
    split
    · split
      · exact cfu_of_setup (setup_originateLink _ s)
      · rfl
    · rfl
  cases p with
  | nodeId =>
    cases hs : s.cfu.start with
    | running => rw [paramWritten_running hs, cfu_of_setup (setup_flush _), cfu_renamed]
    | isolated => rw [paramWritten_isolated hs, (entered_enterRunning s).cfu]
    | loading => simp only [paramWritten, hs]
  | regenCount | transitAllowed => exact congrArg Cfu.locks (node _)
  | degreeCost | degreeImpairment => exact congrArg Cfu.locks (link _)
  | autoCommit => simp only [paramWritten, autoWritten_eq]
  | managerEntry | noticeDest | greetInterval | deadCount | qualifyCount | adjHoldTime | retrigger | refreshInterval
  | tallyInterval | pullWait | settleCount | regenPenalty | resultHoldTime | claimTimeout | referralWait
  | reportedLifetime => rfl

theorem locks_doWriteParam (t : ParamTarget) (v : Nat) (s : State) : (doWriteParam t v s).1.cfu.locks = s.cfu.locks := by
  unfold doWriteParam
  split
  · rfl
  · split
    · rfl
    · split
      · rfl
      · split
        · rfl
        · dsimp only
          split
          · rfl
          · exact locks_paramWritten _ _ _ _

/-! ## The start image and the start state (R203 to R205) -/

/-- What the records of an image leave of CFU's state: the outcome of the load, and the locks that are set. -/
structure ImageKeeps (a b : Cfu) : Prop where
  outcome : b.outcome = a.outcome
  locks : ∀ g, a.locks.has g = true → b.locks.has g = true

theorem ImageKeeps.refl (a : Cfu) : ImageKeeps a a := ⟨rfl, fun _ => id⟩

theorem ImageKeeps.trans {a b c : Cfu} (h : ImageKeeps a b) (k : ImageKeeps b c) : ImageKeeps a c :=
  ⟨k.outcome.trans h.outcome, fun g => k.locks g ∘ h.locks g⟩

theorem ImageKeeps.of_setup {s t : State} (h : t.setup = s.setup) : ImageKeeps s.cfu t.cfu := cfu_of_setup h ▸ ImageKeeps.refl _

theorem imageKeeps_skipRecord (s : State) : ImageKeeps s.cfu (skipRecord s).cfu := ⟨rfl, fun _ => id⟩

theorem imageKeeps_countClamped (s : State) : ImageKeeps s.cfu (countClamped s).cfu := ⟨rfl, fun _ => id⟩

theorem imageKeeps_applyRecord (r : ImageRecord) (s : State) : ImageKeeps s.cfu (applyRecord s r).cfu := by
  cases r with
  | parameter t v =>
    simp only [applyRecord, applyParameter]
    split
    · exact imageKeeps_skipRecord s
    · split
      · exact imageKeeps_skipRecord s
      · split <;> exact ⟨rfl, fun _ => id⟩
  | degreeEnable ds => exact ImageKeeps.refl _
  | domainEntry n f =>
    simp only [applyRecord]
    split
    · exact ImageKeeps.of_setup (setup_writeDomain n f s)
    · exact imageKeeps_skipRecord s
  | delegation n peer =>
    have written := ImageKeeps.of_setup (setup_setPeer n (peerInForce s n peer) s)
    simp only [applyRecord]
    split
    · exact imageKeeps_skipRecord s
    · split
      · exact written
      · exact written.trans (imageKeeps_countClamped _)
  | exclusion r =>
    simp only [applyRecord]
    split
    · exact imageKeeps_skipRecord s
    · split
      · exact imageKeeps_skipRecord s
      · exact ImageKeeps.of_setup (setup_addExclusion r .loaded s)
  | noticeEnable mask => exact ImageKeeps.refl _
  | watch w =>
    simp only [applyRecord]
    split
    · exact ImageKeeps.of_setup (setup_setWatch w s)
    · exact imageKeeps_skipRecord s
  | locks gs => exact ⟨rfl, fun g h => by simp [applyRecord, has_locks, h]⟩

theorem imageKeeps_applyImage (rs : List ImageRecord) (s : State) : ImageKeeps s.cfu (applyImage rs s).cfu :=
  foldl_inv (fun t => ImageKeeps s.cfu t.cfu) _ _ s
    (fun t _ h => foldl_inv (fun t => ImageKeeps s.cfu t.cfu) _ _ t
      (fun u r k => k.trans (imageKeeps_applyRecord r u)) h) (ImageKeeps.refl _)

theorem enterStart_isolated {s : State} (h : s.nodeId = 0) : enterStart s = enterIsolated s := by simp [enterStart, h]

theorem enterStart_running {s : State} (h : s.nodeId ≠ 0) : enterStart s = enterRunning s := by simp [enterStart, h]

/-- The start state that the node ID gives (R205). -/
theorem cfu_enterStart (s : State) :
    (enterStart s).cfu = { s.cfu with start := if s.nodeId = 0 then .isolated else .running } := by
  by_cases h : s.nodeId = 0
  · rw [enterStart_isolated h, if_pos h]; rfl
  · rw [enterStart_running h, if_neg h, (entered_enterRunning s).cfu]

theorem Locked.takeLoad {g : LockGroup} {s : State} (h : Locked g s) (m : MemoryRead) : Locked g (Machine.takeLoad m s) := by
  unfold Machine.takeLoad
  split
  · exact h
  · exact h
  · exact (imageKeeps_applyImage _ _).locks g h

theorem Locked.completeLoad {g : LockGroup} {s : State} (h : Locked g s) (m : MemoryRead) : Locked g (Machine.completeLoad m s) := by
  unfold Machine.completeLoad
  split
  · exact (h.takeLoad m).of_locks (by rw [cfu_enterStart])
  · exact h

/-- A lock that is set is an invariant of ADM and CFU. -/
theorem setupInv_locked (g : LockGroup) : SetupInv (Locked g) where
  same h e := h.of_cfu (cfu_of_setup e)
  greet d b s h := h.of_cfu (cfu_takeGreet d s b)
  enable d s h := h.of_cfu (cfu_enableDegree d s)
  disable d s h := h.of_cfu (cfu_disableDegree d s)
  greetTimer d s h := h.of_cfu (cfu_expireGreet d s)
  deadTimer d s h := h.of_cfu (cfu_expireDead d s)
  holdTimer d x s h := h.of_cfu (cfu_expireHoldAt d s x)
  writeParam t v s h := h.of_locks (locks_doWriteParam t v s)
  lockGroup o s h := by
    cases o with
    | none => exact h
    | some k =>
      show (s.cfu.locks.lock k).has g = true
      rw [has_lock, show s.cfu.locks.has g = true from h, Bool.or_true]
  softReset {s} h := h.of_locks (by rw [(softReset_softReset s).cfu])
  load m _ h := h.completeLoad m

end Sys2Proof.Machine

open Sys2Proof Sys2Proof.Machine

/-- Settles O23: the lock that the command sets, and the invariant that a lock set stays (`setupInv_locked`). -/
theorem locksAreSticky : Obligations.LocksAreSticky := by
  refine ⟨fun m g s u hu hm => ?_, fun c g s t hp hq ht hg => (setupInv_locked g).exec hp hq hg ht⟩
  obtain ⟨t, ht, ha, htr, hb⟩ := commanded_aside (f := doLockGroup (some g)) hu hm rfl rfl rfl rfl rfl
  have locks : t.cfu.locks = u.cfu.locks.lock g := congrArg Cfu.locks (cfu_of_blocks hb)
  refine ⟨t, ht, hb, ?_, fun h hne => ?_, by rw [locks]; exact ha, htr⟩
  · simp [locks, has_lock]
  · simp [locks, has_lock, hne]

end

section
/-! SUPPORT. The start image: what each kind of record makes of the part, what a load gives, and what the entry to ISOLATED or
RUNNING leaves of the part (R40, R203 to R205). -/

namespace Sys2Proof.Machine

/-! ## Records of the image, kind by kind (R204) -/

/-- A record that is written, counted as clamped unless it is written with the value it gave (R204). -/
def State.countUnless (t : State) (exact : Bool) : State := if exact then t else countClamped t

section
variable {s : State}

theorem illegalEnumerated_iff {p : ParamId} {x : Nat} :
    illegalEnumerated p x = true ↔ p ∈ [ParamId.retrigger, .transitAllowed] ∧ 1 < x := by
  rcases paramRange_cases p with ⟨hm, hs, hh⟩ | ⟨hm, hs, -⟩
  · simp only [illegalEnumerated, hs, hh, hm, beq_self_eq_true, Bool.true_and, decide_eq_true_eq, true_and]
  · have hz : ((paramRange p).step == 0) = false := by simpa using Nat.ne_of_gt hs
    simp only [illegalEnumerated, hz, hm, Bool.false_and, Bool.false_eq_true, false_and]

theorem applyRecord_parameter_skipped {t : ParamTarget} {x : Nat}
    (h : targetOk t = false ∨ ∃ p, t.param = some p ∧ p ∈ [ParamId.retrigger, .transitAllowed] ∧ 1 < x) :
    applyRecord s (.parameter t x) = skipRecord s := by
  obtain ⟨_ | p, sel⟩ := t
  · rfl
  · refine if_pos ?_
    rcases h with h | ⟨q, hq, h⟩
    · rw [h]; rfl
    · obtain rfl : p = q := Option.some.inj hq
      rw [illegalEnumerated_iff.2 h, Bool.or_true]

theorem applyRecord_parameter {p : ParamId} {sel : Option Nat} {x y : Nat} (ht : targetOk ⟨some p, sel⟩ = true)
    (h : (p ∈ [ParamId.retrigger, .transitAllowed] ∧ x ≤ 1 ∧ y = x) ∨ (p ∉ [ParamId.retrigger, .transitAllowed] ∧
      y = max (paramRange p).low (min x (paramRange p).high / (paramRange p).step * (paramRange p).step))) :
    applyRecord s (.parameter ⟨some p, sel⟩ x) = (writeParams p sel y s).countUnless (y == x) := by
  have legal : illegalEnumerated p x = false := by
    rw [Bool.eq_false_iff, Ne, illegalEnumerated_iff, not_and, Nat.not_lt]
    rcases h with ⟨-, hx, -⟩ | ⟨hp, -⟩
    · exact fun _ => hx
    · exact fun k => absurd k hp
  have clamp : clampParam p (getParam s.cfu.params p sel) x = y := by
    rcases h with ⟨hp, hx, rfl⟩ | ⟨hp, rfl⟩
    · rw [clampParam_enumerated hp, if_pos hx]
    · exact clampParam_ranged hp _ _
  simp only [applyRecord, applyParameter, ht, legal, clamp]
  rfl

theorem adjacency_applyRecord_degreeEnable (ds : List Degree) (d : Degree) :
    (applyRecord s (.degreeEnable ds)).adjacency d = { s.adjacency d with enable := decide (d ∈ ds) } := by
  rw [← List.contains_eq_mem]; exact vget_vec8 _ d

theorem applyRecord_domainEntry_skipped {n : Nat} {f : DomainFields} (h : n = 0 ∨ 15 < n ∨ f.rangeOk = false) :
    applyRecord s (.domainEntry n f) = skipRecord s := by
  refine if_neg ?_
  rw [domainArgsOk, Bool.and_eq_true, not_and_or, Bool.not_eq_true, Bool.not_eq_true]
  exact (or_assoc.2 h).imp_left foreignDomain_out

theorem applyRecord_domainEntry {k : Fin 16} {f : DomainFields} (hk : k ≠ 0) (hf : f.rangeOk = true) :
    applyRecord s (.domainEntry k.val f) = if f.valid = true then setDomain k.val ⟨f, .clean, false, .none⟩ s
      else setPeer k.val 0 (setDomain k.val ⟨f, .clean, false, .none⟩ s) :=
  if_pos (by rw [domainArgsOk, foreignDomain_val hk, hf, Bool.and_self])

theorem applyRecord_delegation_skipped {n : Nat} {peer : NodeId} (h : n = 0 ∨ 15 < n ∨ peer = 65535 ∨ peer = s.nodeId) :
    applyRecord s (.delegation n peer) = skipRecord s := by
  refine if_pos ?_
  rcases or_assoc.2 h with h | rfl | rfl
  · simp [delegateArgsOk, foreignDomain_out h]
  · simp [delegateArgsOk]
  · simp [delegateArgsOk]

theorem applyRecord_delegation {k : Fin 16} {peer q : NodeId} (hk : k ≠ 0) (h1 : peer ≠ 65535) (h2 : peer ≠ s.nodeId)
    (hq : q = if (vget s.dtu k).fields.valid = true then peer else 0) :
    applyRecord s (.delegation k.val peer) = (setPeer k.val q s).countUnless (q == peer) := by
  have args : delegateArgsOk s k.val peer = true := by simp [delegateArgsOk, foreignDomain_val hk, h1, h2]
  have force : peerInForce s k.val peer = q := by rw [peerInForce, vget?_val, Option.any_some, hq]
  simp only [applyRecord, args, force]
  rfl

section
variable {r : SlotRun}

theorem applyRecord_exclusion_out (h : r.normal.rangeOk = false) : applyRecord s (.exclusion r) = skipRecord s :=
  if_pos (by rw [h]; rfl)

theorem applyRecord_exclusion_refused (h : r.normal.rangeOk = true) (ha : addExclusion r .loaded s = (s, .refused)) :
    applyRecord s (.exclusion r) = skipRecord s := by simp [applyRecord, h, ha]

theorem applyRecord_exclusion {w : State} {a : AddEffect} (h : r.normal.rangeOk = true) (ha : addExclusion r .loaded s = (w, a))
    (hne : a ≠ .refused) : applyRecord s (.exclusion r) = w := by simp [applyRecord, h, ha, hne]

end

theorem applyRecord_noticeEnable (mask : BitVec 16) : applyRecord s (.noticeEnable mask) = setEnables mask s := rfl

/-- Enables written change the notice sources alone. -/
theorem setEnables_beside (mask : BitVec 16) : { setEnables mask s with ntu := s.ntu } = s := by simp only [setEnables]

theorem watches_setEnables (mask : BitVec 16) : (setEnables mask s).ntu.watches = s.ntu.watches := by
  rw [ntu_setEnables, watches_mapSources]

theorem applyRecord_watch_skipped {w : WatchArgs} (h : w.argsOk = false) : applyRecord s (.watch w) = skipRecord s :=
  if_neg (by rw [h]; exact Bool.false_ne_true)

theorem applyRecord_watch {w : WatchArgs} {k : Fin 8} {mode : WatchMode} (h : w.argsOk = true) (hk : w.index = k.val)
    (hm : w.mode = some mode) : applyRecord s (.watch w) = { s with ntu := { s.ntu with watches :=
      (vset s.ntu.watches k (if w.keys = [] then none else some ⟨mode, w.keys⟩)) } } := by
  have written := congrArg Prod.fst (doWatchWrite_ok s h hk hm)
  rw [doWatchWrite, h] at written
  exact (if_pos h).trans written

end

/-! ## The outcome of a load (R203) -/

/-- What the serial memory gives where no image is applied: nothing, or an image that breaks off, fails its CRC, is longer than the
memory or holds a record the loader does not know (R203). -/
def LoadFails (m : MemoryRead) (o : LoadOutcome) : Prop :=
  (o = .absent ∧ (m = .noAnswer ∨ m = .erased)) ∨
    (o = .invalid ∧ (m = .stopsAnswering ∨ ∃ rs e crc, m = .image rs e crc ∧
      (crc ≠ crc32 (imageBytes rs e) ∨ 4096 < (imageBytes rs e).length ∨ ∃ r ∈ rs, r.content = none)))

theorem imageFits_iff (rs : List ImageEntry) (e : List Byte) : imageFits rs e = true ↔ (imageBytes rs e).length ≤ 4096 :=
  decide_eq_true_iff

section
variable {m : MemoryRead} {o : LoadOutcome} {s : State}

theorem loadOutcome_of_fails (h : LoadFails m o) : loadOutcome m = (o, []) := by
  rcases h with ⟨rfl, rfl | rfl⟩ | ⟨rfl, rfl | ⟨rs, e, crc, rfl, hbad⟩⟩
  · rfl
  · rfl
  · rfl
  · refine if_neg ?_
    simp only [Bool.and_eq_true, beq_iff_eq, imageFits_iff, List.all_eq_true, not_and_or]
    rcases hbad with h | h | ⟨r, hr, h⟩
    · exact Or.inl (Or.inl h)
    · exact Or.inl (Or.inr (Nat.not_le.2 h))
    · exact Or.inr fun k => by simpa [h] using k r hr

theorem loadOutcome_valid {rs : List ImageEntry} {e : List Byte} (hr : ∀ r ∈ rs, r.content ≠ none)
    (hl : (imageBytes rs e).length ≤ 4096) :
    loadOutcome (.image rs e (crc32 (imageBytes rs e))) = (.valid, rs.filterMap (·.content)) := by
  have known : (rs.all fun r => r.content.isSome) = true := List.all_eq_true.2 fun r h => Option.isSome_iff_ne_none.2 (hr r h)
  have fits : imageFits rs e = true := (imageFits_iff rs e).2 hl
  simp [loadOutcome, known, fits]

/-- The part with the outcome of a failed load and its START event. -/
def State.loadFailed (s : State) (o : LoadOutcome) : State :=
  raise .start [if o = .absent then .absent else .invalid] (recordOutcome o s)

theorem takeLoad_of_fails (h : LoadFails m o) : takeLoad m s = s.loadFailed o := by
  have ho : o = .absent ∨ o = .invalid := h.imp And.left And.left
  rw [takeLoad, loadOutcome_of_fails h]
  rcases ho with rfl | rfl <;> rfl

theorem takeLoad_valid {rs : List ImageEntry} {e : List Byte} (hr : ∀ r ∈ rs, r.content ≠ none)
    (hl : (imageBytes rs e).length ≤ 4096) : takeLoad (.image rs e (crc32 (imageBytes rs e))) s =
      applyImage (rs.filterMap (·.content)) (recordOutcome .valid s) := by
  rw [takeLoad, loadOutcome_valid hr hl]

theorem completeLoad_loading (h : s.cfu.start = .loading) : completeLoad m s = enterStart (takeLoad m s) := by
  simp [completeLoad, h]

theorem completeLoad_over (h : s.cfu.start ≠ .loading) : completeLoad m s = s := by simp [completeLoad, h]

end

/-! ## The entry to ISOLATED (R22, R40, R202) -/

section
variable {s : State}

theorem adjacency_enterIsolated (d : Degree) : (enterIsolated s).adjacency d = (s.adjacency d).disable := vget_vec8 _ d

theorem floodDone_enterIsolated : FloodDone (enterIsolated s) := fun d => by
  simp [fleDue, State.isUp, adjacency_enterIsolated, Adjacency.disable]

end

/-! ## The enables at an entry to RUNNING (R195) -/

/-- The enables of the notice sources, and the watches. -/
def State.enables (s : State) : Ntu := s.blocks.ntu

theorem enables_raise (i : NoticeId) (ms : List Member) (s : State) : (raise i ms s).enables = s.enables :=
  congrArg State.ntu (blocks_raise i ms s)

theorem enable_of_enables {s t : State} (h : t.enables = s.enables) (i : NoticeId) :
    (t.ntu.source i).enable = (s.ntu.source i).enable := by
  have hi : t.enables.source i = s.enables.source i := by rw [h]
  simpa [State.enables, State.blocks, Ntu.source, vget] using hi

theorem enables_refuseInsertion (o : NodeId) (m : Member) (s : State) : (refuseInsertion o m s).enables = s.enables := by
  unfold refuseInsertion dropPullsOf
  dsimp only
  refine (enables_raise _ _ _).trans ?_
  split
  · rfl
  · split <;> rfl

theorem enables_writeNode (w : NodeWrite) (s : State) : (writeNode w s).1.enables = s.enables := by
  unfold writeNode
  dsimp only
  split
  · split <;> rfl
  · split
    · rfl
    · split
      · exact enables_refuseInsertion _ _ _
      · split
        · exact enables_refuseInsertion _ _ _
        · rfl

theorem enables_originateNode (s : State) : (originateNode s).enables = s.enables := by
  unfold originateNode
  dsimp only
  split
  · split
    · exact enables_writeNode _ _
    · exact enables_writeNode _ _
  · split
    · exact enables_raise _ _ _
    · exact (enables_writeNode _ _).trans (enables_raise _ _ _)

theorem enables_enterRunning (s : State) : (enterRunning s).enables = s.enables := by
  have down := congrArg State.enables (withoutDegrees_inDown s)
  rw [enterRunning_eq]
  exact (enables_originateNode _).trans down

theorem timers_timed (s : State) :
    s.timed.fle.refreshTimer = some (s.timed.now + s.timed.cfu.params.refreshInterval * 1000) ∧
    s.timed.cmc.autoTimer = if s.timed.cfu.params.autoCommit = 0 then none
      else some (s.timed.now + s.timed.cfu.params.autoCommit * 1000) := ⟨rfl, by simp [State.timed, startAuto]⟩

/-! ## The start state (R205) -/

/-- What the start state by the node ID leaves of a part (R40, R87, R107, R205). -/
structure Started (v w : State) : Prop where
  dtu : w.dtu = v.dtu
  rqu : w.rqu = v.rqu
  exclusions : w.tdb.exclusions = v.tdb.exclusions
  watches : w.ntu.watches = v.ntu.watches
  source : ∀ i, (w.ntu.source i).enable = (v.ntu.source i).enable
  enable : ∀ d, (w.adjacency d).enable = (v.adjacency d).enable
  isolated : v.nodeId = 0 → ∀ d, (w.adjacency d).state = .disabled
  down : v.nodeId ≠ 0 → ∀ d, (v.adjacency d).enable = true → (w.adjacency d).state = .down
  own : v.nodeId ≠ 0 → v.fle.seq ≤ 0xFFFFFFF0 → OwnNodeFits v → w.fle.seq = v.fle.seq + 1 ∧ OwnNodeHeld v.fle.seq w
  timers : v.nodeId ≠ 0 → w.fle.refreshTimer = some (w.now + w.cfu.params.refreshInterval * 1000) ∧
    w.cmc.autoTimer = if w.cfu.params.autoCommit = 0 then none else some (w.now + w.cfu.params.autoCommit * 1000)

theorem started_isolated {v : State} (h : v.nodeId = 0) : Started v (enterIsolated v) where
  dtu := rfl
  rqu := rfl
  exclusions := rfl
  watches := rfl
  source _ := rfl
  enable d := by rw [adjacency_enterIsolated]; rfl
  isolated _ d := by rw [adjacency_enterIsolated]; rfl
  down k := absurd h k
  own k := absurd h k
  timers k := absurd h k

theorem started_running {v : State} (h : v.nodeId ≠ 0) : Started v (enterRunning v) :=
  have e := entered_enterRunning v
  { dtu := e.dtu
    rqu := e.rqu
    exclusions := e.exclusions
    watches := e.watches
    source := enable_of_enables (enables_enterRunning v)
    enable := fun d => (e.degree d).1
    isolated := fun k => absurd k h
    down := fun _ d hd => ((e.degree d).2 hd).1
    own := fun _ => e.own
    timers := fun _ => timers_timed _ }

theorem started_enterStart (v : State) : Started v (enterStart v) := by
  by_cases h : v.nodeId = 0
  · rw [enterStart_isolated h]; exact started_isolated h
  · rw [enterStart_running h]; exact started_running h

/-- The end of the event leaves what the start state left. -/
theorem Started.finish {v w : State} (h : Started v w) : Started v (Machine.finish w) := by
  have hs := steady_finish w
  have adjacency : ∀ d, (Machine.finish w).adjacency d = w.adjacency d := fun d => by
    rw [State.adjacency, State.adjacency, adm_of_steady hs]
  exact
  { dtu := (dtu_of_steady hs).trans h.dtu
    rqu := (rqu_of_steady hs).trans h.rqu
    exclusions := by rw [tdb_of_steady hs, h.exclusions]
    watches := (watches_of_steady hs).trans h.watches
    source := fun i => (enable_of_steady hs i).trans (h.source i)
    enable := fun d => by rw [adjacency, h.enable]
    isolated := fun k d => by rw [adjacency, h.isolated k]
    down := fun k d hd => by rw [adjacency, h.down k d hd]
    own := fun k hl hf => by
      obtain ⟨seq, held⟩ := h.own k hl hf
      exact ⟨(seq_of_steady hs).trans seq, held.of_steady hs⟩
    timers := fun k => by
      rw [refresh_of_steady hs, cmc_of_steady hs, cfu_of_steady hs, now_of_steady hs]
      exact h.timers k }

/-! ## The load of an image (R203, R205) -/

section
variable {s u : State} (hu : u = settle s)
include hu

theorem imageLoad_over (h : u.cfu.start ≠ .loading) (m : MemoryRead) : exec (.imageLoad m) s = .next (finish u) := by
  have run : exec (.imageLoad m) s = .next (finish (completeLoad m u)) := event_eq hu
  rw [run, completeLoad_over h]

theorem imageLoad_loading (h : u.cfu.start = .loading) (m : MemoryRead) :
    exec (.imageLoad m) s = .next (finish (enterStart (takeLoad m u))) := by
  rw [← completeLoad_loading h]; exact event_eq hu

end

/-- An entry to ISOLATED at the end of an event: the degrees are DISABLED, and the notice sources only gain. -/
theorem isolated_event {w : State} (h : w.nodeId = 0) :
    (finish (enterStart w)).blocks = (enterIsolated w).blocks ∧ Keeps w (finish (enterStart w)) := by
  have same : Keeps w (enterIsolated w) := Keeps.of_eq rfl
  rw [enterStart_isolated h]
  exact ⟨floodDone_enterIsolated.blocks_finish, same.trans (Keeps.finish _)⟩

/-- The part in ISOLATED after a load with the outcome given, which applied nothing. -/
def State.isolatedAfter (s : State) (o : LoadOutcome) : State := enterIsolated (recordOutcome o s)

theorem blocks_enterIsolated_loadFailed (s : State) (o : LoadOutcome) :
    (enterIsolated (s.loadFailed o)).blocks = (s.isolatedAfter o).blocks :=
  congrArg (fun n : Ntu => { (s.isolatedAfter o).blocks with ntu := n }) (enables_raise .start _ (recordOutcome o s))

theorem adjacency_isolatedAfter (s : State) (o : LoadOutcome) (d : Degree) :
    (s.isolatedAfter o).adjacency d = (s.adjacency d).disable := adjacency_enterIsolated d

/-- A failed load: nothing is applied, START is raised, and the part stands in ISOLATED. -/
theorem loadFailed_event {u : State} (h : u.nodeId = 0) (o : LoadOutcome) :
    (finish (enterStart (u.loadFailed o))).blocks = (u.isolatedAfter o).blocks ∧
      Raised .start (if o = .absent then .absent else .invalid) (finish (enterStart (u.loadFailed o))) := by
  have raised : Raised .start (if o = .absent then .absent else .invalid) (u.loadFailed o) :=
    raised_raise List.mem_cons_self (recordOutcome o u)
  have h0 : (u.loadFailed o).nodeId = 0 := h
  generalize hw : u.loadFailed o = w at h0 raised
  obtain ⟨hb, kept⟩ := isolated_event h0
  rw [hb, ← hw]
  exact ⟨blocks_enterIsolated_loadFailed u o, hw ▸ raised.keeps kept⟩

end Sys2Proof.Machine

open Sys2Proof Sys2Proof.Machine

/-- Settles O5: the loads by their outcome, then the records kind by kind. -/
theorem imageLoadDecidesStartState : Obligations.ImageLoadDecidesStartState := by
  refine ⟨fun s u hu => ⟨fun h m => imageLoad_over hu h m, fun h h0 m o hm => ?failed, fun h rs e hr hl => ?valid⟩,
    fun _ _ _ _ _ _ _ _ _ _ => rfl, fun v => ?records⟩
  case failed =>
    have run := imageLoad_loading hu h m
    rw [takeLoad_of_fails hm] at run
    obtain ⟨hb, raised⟩ := loadFailed_event h0 o
    refine ⟨_, run, cfu_of_blocks hb, (tdb_of_blocks hb).trans rfl, (dtu_of_blocks hb).trans rfl, (rqu_of_blocks hb).trans rfl,
      (cmc_of_blocks hb).trans rfl, (fle_of_blocks hb).trans rfl, (shu_of_blocks hb).trans rfl, (watches_of_blocks hb).trans rfl,
      raised, fun d => ?_⟩
    have degree : (finish (enterStart (u.loadFailed o))).adjacency d = (u.adjacency d).disable := by
      rw [State.adjacency, adm_of_blocks hb]; exact adjacency_isolatedAfter u o d
    rw [degree]
    exact ⟨rfl, rfl⟩
  case valid =>
    intro ofKind v
    have run := imageLoad_loading hu h (.image rs e (crc32 (imageBytes rs e)))
    have applied : takeLoad (.image rs e (crc32 (imageBytes rs e))) u = v := takeLoad_valid hr hl
    have kept : ImageKeeps (recordOutcome .valid u).cfu v.cfu := imageKeeps_applyImage _ _
    clear_value v
    rw [applied] at run
    have t : Started v (finish (enterStart v)) := (started_enterStart v).finish
    have hc := (cfu_of_steady (steady_finish (enterStart v))).trans (cfu_enterStart v)
    exact ⟨_, run, hc, by rw [hc]; exact kept.outcome, t.dtu, t.rqu, t.exclusions, t.watches, t.source, t.enable, t.isolated,
      fun k => ⟨t.down k, t.own k, t.timers k⟩⟩
  case records =>
    intro skipped taken enumerated peers excluded
    refine ⟨fun g x h => applyRecord_parameter_skipped h, fun p sel x y ht h => applyRecord_parameter ht h,
      fun ds => ⟨rfl, adjacency_applyRecord_degreeEnable ds⟩, fun n f h => applyRecord_domainEntry_skipped h,
      fun k f hk hf => ?domain, fun n peer h => applyRecord_delegation_skipped h, fun k peer hk h1 h2 => ?delegation,
      fun r => ?exclusion, fun mask => ?enables,
      fun w h => applyRecord_watch_skipped h, fun k mode keys h => applyRecord_watch h rfl rfl,
      fun gs => ⟨rfl, fun g => has_locks gs _ g⟩⟩
    case domain =>
      rw [applyRecord_domainEntry hk hf, setPeer_val, setDomain_val]
    case delegation =>
      intro q
      rw [applyRecord_delegation hk h1 h2 rfl, setPeer_val]
      rfl
    case enables =>
      rw [applyRecord_noticeEnable]
      exact ⟨setEnables_beside mask, watches_setEnables mask, fun i => source_setEnables⟩
    case exclusion =>
      intro n
      have hn : n = r.normal := (slotRun_normal_eq r).symm
      rw [hn]
      refine ⟨applyRecord_exclusion_out, fun hok hnone => ⟨fun hl => ?_, fun hl => ?_⟩, fun hok e he => ⟨fun ho => ?_, fun ho => ?_⟩⟩
      · exact applyRecord_exclusion hok (addExclusion_appended .loaded hnone hl) (by decide)
      · exact applyRecord_exclusion_refused hok (addExclusion_full .loaded hnone hl)
      · exact applyRecord_exclusion hok (addExclusion_loaded .loaded he ho) (by decide)
      · exact applyRecord_exclusion hok (addExclusion_made_loaded he ho) (by decide)

end

section
/-! What one step does: the command at the front of the queue when one waits, else the part by itself, in the order of log 5. -/

namespace Sys2Proof.Machine

variable {s : State} {c : Instr} {rest : List Instr}

theorem step_of_waiting (h : s.pending = c :: rest) : step s = exec c { s with pending := rest } := by
  rw [step, h]

theorem step_of_none_waiting (h : s.pending = []) : step s = idle s := by
  rw [step, h]

theorem idle_of_settleDue (h : settleDue s = true) : idle s = .next (settle s) := if_pos h

theorem idle_of_expiry_due (h : settleDue s = false) (hd : dueCommands s = c :: rest) : idle s = exec c s := by
  simp [idle, h, hd]

theorem idle_of_nothing_due (h : settleDue s = false) (hd : dueCommands s = []) : idle s = .next (tick s) := by
  simp [idle, h, hd]

end Sys2Proof.Machine

open Sys2Proof Sys2Proof.Machine

/-- Settles O2, by what is due: an own step, an expiry, or nothing. -/
theorem idleStepTicksWhenNothingIsDue : Obligations.IdleStepTicksWhenNothingIsDue := by
  intro s hp
  rw [step_of_none_waiting hp]
  refine ⟨fun own => ?own, fun none => ⟨fun c rest due => ?expiry, fun due => ?tick⟩⟩
  case own => exact idle_of_settleDue own
  case expiry => exact idle_of_expiry_due none due
  case tick => exact idle_of_nothing_due none due

/-- Settles O1: with the command put before the queue, the queue's rest is the queue it was put before. -/
theorem stepRunsFrontCommand : Obligations.StepRunsFrontCommand := by
  intro c s
  have waiting : { s with pending := c :: s.pending }.pending = c :: s.pending := rfl
  exact step_of_waiting waiting

end
